-- ==== Sys2Proof/Word.lean ====
section
/-! DEFINITION. The one word of the CORE: 32 bits (10_state.md R23, 20_memory.md R61), and its two integer readings. -/

namespace Sys2Proof

/-- A 32-bit word: a control register, a table entry, a memory element, a command (R8, R23, R61, R80). -/
abbrev Word := BitVec 32

/-- `u32(w)`, the unsigned reading (R8). -/
abbrev u32 (w : Word) : Nat := w.toNat

/-- `s32(w)`, the two's complement reading (R8). -/
abbrev s32 (w : Word) : Int := w.toInt

end Sys2Proof
end

