-- ==== Sys2Proof/Syntax.lean ====
section
/-! DEFINITION. The ten commands of spec/opcode_table.json and their operands (30_encoding.md R81 to R84). -/

namespace Sys2Proof

/-- The five spectrum memories that a select field SA, SB, SC names (10_state.md R48, 30_encoding.md R82). -/
inductive Spectrum
  | freq | x | p | w | norm
deriving DecidableEq, Repr, Inhabited

/-- The two energy memories that BK names (10_state.md R51, 30_encoding.md R81). -/
inductive EnergyMem
  | bank | tmpe
deriving DecidableEq, Repr, Inhabited

/-- The direction bit: `plus` is `dir = +1`, `minus` is `dir = -1` (30_encoding.md R81). -/
inductive Dir
  | plus | minus
deriving DecidableEq, Repr, Inhabited

/-- One constructor per row of the opcode map, with the operand fields the row uses (30_encoding.md R84).
The assembler names MIX and UNMIX (R90) are `smix _ _ .plus` and `smix _ _ .minus`. -/
inductive Instr
  /-- compute band energies, 40_energy.md R100 -/
  | cbe (sa : Spectrum) (bk : EnergyMem)
  /-- normalise, 41_normalise.md R110 -/
  | nrm (sa sb : Spectrum) (bk : EnergyMem)
  /-- denormalise, 41_normalise.md R111 -/
  | dnrm (sa sb : Spectrum) (bk : EnergyMem)
  /-- renormalise in place, 41_normalise.md R112 -/
  | rnrm (sa : Spectrum)
  /-- rotate a slice, 42_rotation.md R127 -/
  | rot (sa : Spectrum) (dir : Dir)
  /-- compute pitch gains, 43_pitch.md R141 -/
  | cpg (sa sb : Spectrum) (bk : EnergyMem)
  /-- apply the pitch gains, 43_pitch.md R143 -/
  | pqb (sb : Spectrum)
  /-- quantise the residual, 45_quantiser.md R188 -/
  | qb (sa sb sc : Spectrum)
  /-- dequantise the residual, 45_quantiser.md R189 -/
  | uqb (sa sb : Spectrum)
  /-- stereo mix or unmix, 46_stereo.md R210 -/
  | smix (sa : Spectrum) (bk : EnergyMem) (dir : Dir)
deriving DecidableEq, Repr, Inhabited

end Sys2Proof
end

