-- ==== Sys2Proof/Decode.lean ====
section
/-! DEFINITION. The decoder of a 32-bit command word and the encoder after it (30_encoding.md R80 to R91, opcode_table.json).
The decoder is total: a word it refuses is an illegal word of R86, refused by name. -/

namespace Sys2Proof

/-- Why a command word is illegal (30_encoding.md R85, R86). The CORE raises ILLEGAL_CMD for each. -/
inductive DecodeError
  /-- OPC is 0x00 or above 0x0A -/
  | illegalOpcode
  /-- a bit is set in RSV or in a field the row does not use -/
  | unusedFieldSet
  /-- a used select field holds a code from 5 to 15 -/
  | illegalSelect
deriving DecidableEq, Repr

/-- The fields of a command word (R81). -/
structure Fields where
  opc : BitVec 8
  sa : BitVec 4
  sb : BitVec 4
  sc : BitVec 4
  bk : BitVec 1
  dir : BitVec 1
  rsv : BitVec 10
deriving DecidableEq, Repr

/-- Cut a word into its fields: OPC 31:24, SA 23:20, SB 19:16, SC 15:12, BK 11, DIR 10, RSV 9:0 (R81). -/
def fieldsOf (w : Word) : Fields :=
  { opc := w.extractLsb' 24 8
    sa := w.extractLsb' 20 4
    sb := w.extractLsb' 16 4
    sc := w.extractLsb' 12 4
    bk := w.extractLsb' 11 1
    dir := w.extractLsb' 10 1
    rsv := w.extractLsb' 0 10 }

/-- A spectrum select code (R82): 5 to 15 are reserved. -/
def spectrumOf (code : BitVec 4) : Except DecodeError Spectrum :=
  match code.toNat with
  | 0 => .ok .freq
  | 1 => .ok .x
  | 2 => .ok .p
  | 3 => .ok .w
  | 4 => .ok .norm
  | _ => .error .illegalSelect

/-- BK: 0 is BANK, 1 is TMPE (R81). -/
def energyOf (bit : BitVec 1) : EnergyMem := if bit = 0 then .bank else .tmpe

/-- DIR: 0 is +1, 1 is -1 (R81). -/
def dirOf (bit : BitVec 1) : Dir := if bit = 0 then .plus else .minus

/-- Go on only when every field the row does not use is zero (R85). -/
def unusedZero (zero : Bool) (i : Except DecodeError Instr) : Except DecodeError Instr :=
  if zero then i else .error .unusedFieldSet

/-- The opcode map (R84): one case per row, each naming the fields that must be zero and the operands it uses. -/
def decodeFields (f : Fields) : Except DecodeError Instr :=
  match f.opc.toNat with
  | 0x01 => unusedZero (f.sb == 0 && f.sc == 0 && f.dir == 0 && f.rsv == 0)
      (do .ok (.cbe (← spectrumOf f.sa) (energyOf f.bk)))
  | 0x02 => unusedZero (f.sc == 0 && f.dir == 0 && f.rsv == 0)
      (do .ok (.nrm (← spectrumOf f.sa) (← spectrumOf f.sb) (energyOf f.bk)))
  | 0x03 => unusedZero (f.sc == 0 && f.dir == 0 && f.rsv == 0)
      (do .ok (.dnrm (← spectrumOf f.sa) (← spectrumOf f.sb) (energyOf f.bk)))
  | 0x04 => unusedZero (f.sb == 0 && f.sc == 0 && f.bk == 0 && f.dir == 0 && f.rsv == 0)
      (do .ok (.rnrm (← spectrumOf f.sa)))
  | 0x05 => unusedZero (f.sb == 0 && f.sc == 0 && f.bk == 0 && f.rsv == 0)
      (do .ok (.rot (← spectrumOf f.sa) (dirOf f.dir)))
  | 0x06 => unusedZero (f.sc == 0 && f.dir == 0 && f.rsv == 0)
      (do .ok (.cpg (← spectrumOf f.sa) (← spectrumOf f.sb) (energyOf f.bk)))
  | 0x07 => unusedZero (f.sa == 0 && f.sc == 0 && f.bk == 0 && f.dir == 0 && f.rsv == 0)
      (do .ok (.pqb (← spectrumOf f.sb)))
  | 0x08 => unusedZero (f.bk == 0 && f.dir == 0 && f.rsv == 0)
      (do .ok (.qb (← spectrumOf f.sa) (← spectrumOf f.sb) (← spectrumOf f.sc)))
  | 0x09 => unusedZero (f.sc == 0 && f.bk == 0 && f.dir == 0 && f.rsv == 0)
      (do .ok (.uqb (← spectrumOf f.sa) (← spectrumOf f.sb)))
  | 0x0A => unusedZero (f.sb == 0 && f.sc == 0 && f.rsv == 0)
      (do .ok (.smix (← spectrumOf f.sa) (energyOf f.bk) (dirOf f.dir)))
  | _ => .error .illegalOpcode

/-- The decoder: what a word written to CMD means (R91 step 2). -/
def decode (w : Word) : Except DecodeError Instr := decodeFields (fieldsOf w)

/-- The instruction of a table row's bits; bit 0 of the table is bit 0 of the word, and the word is written to CMD whole, so no
byte order enters (20_memory.md R63). -/
def decodeTableWord (nbits w : Nat) : Option Instr :=
  match decode (BitVec.ofNat 32 (w % 2 ^ nbits)) with
  | .ok i => some i
  | .error _ => none

/-- Put the fields back together (R81). -/
def assemble (f : Fields) : Word :=
  f.opc ++ f.sa ++ f.sb ++ f.sc ++ f.bk ++ f.dir ++ f.rsv

/-- The select code of a spectrum memory (R82). -/
def Spectrum.code : Spectrum → BitVec 4
  | .freq => 0
  | .x => 1
  | .p => 2
  | .w => 3
  | .norm => 4

/-- The BK bit of an energy memory (R81). -/
def EnergyMem.code : EnergyMem → BitVec 1
  | .bank => 0
  | .tmpe => 1

/-- The DIR bit of a direction (R81). -/
def Dir.code : Dir → BitVec 1
  | .plus => 0
  | .minus => 1

/-- The fields of a command: its opcode, its operands, and zero in every field its row does not use (R84, R85). -/
def fieldsFor : Instr → Fields
  | .cbe sa bk => { opc := 0x01, sa := sa.code, sb := 0, sc := 0, bk := bk.code, dir := 0, rsv := 0 }
  | .nrm sa sb bk => { opc := 0x02, sa := sa.code, sb := sb.code, sc := 0, bk := bk.code, dir := 0, rsv := 0 }
  | .dnrm sa sb bk => { opc := 0x03, sa := sa.code, sb := sb.code, sc := 0, bk := bk.code, dir := 0, rsv := 0 }
  | .rnrm sa => { opc := 0x04, sa := sa.code, sb := 0, sc := 0, bk := 0, dir := 0, rsv := 0 }
  | .rot sa dir => { opc := 0x05, sa := sa.code, sb := 0, sc := 0, bk := 0, dir := dir.code, rsv := 0 }
  | .cpg sa sb bk => { opc := 0x06, sa := sa.code, sb := sb.code, sc := 0, bk := bk.code, dir := 0, rsv := 0 }
  | .pqb sb => { opc := 0x07, sa := 0, sb := sb.code, sc := 0, bk := 0, dir := 0, rsv := 0 }
  | .qb sa sb sc => { opc := 0x08, sa := sa.code, sb := sb.code, sc := sc.code, bk := 0, dir := 0, rsv := 0 }
  | .uqb sa sb => { opc := 0x09, sa := sa.code, sb := sb.code, sc := 0, bk := 0, dir := 0, rsv := 0 }
  | .smix sa bk dir => { opc := 0x0A, sa := sa.code, sb := 0, sc := 0, bk := bk.code, dir := dir.code, rsv := 0 }

/-- The command word of an instruction (R84, R89). -/
def encode (i : Instr) : Word := assemble (fieldsFor i)

end Sys2Proof
end

