-- ==== Sys2Proof/Config.lean ====
section
/-! DEFINITION. What is fixed for one CORE but left open by the spec: the open parameters of 00_scope.md R5 and
92_eei_decisions.md, the collaborators behind the ports of 44_collaborators.md, and the free NaN patterns of R9. All of it is ONE
opaque constant `Config.hw`: no proof can see a value of it. Every meaning takes a `Config` as an argument, so that the spec's
vectors, which name stub collaborators, can be run on a `Config` that is written out. -/

namespace Sys2Proof

/-- The capacities NMAX, EMAX, PMAX (00_scope.md R5): 1 <= NMAX <= 65536, EMAX and PMAX at most 65534. The types hold the bounds.
A COPY of them stands in the state, as the hardwired registers CAP_N and CAP_EP (10_state.md R31). -/
structure Caps where
  nmaxLess1 : Fin 65536
  emax : Fin 65535
  pmax : Fin 65535
deriving DecidableEq, Repr, Inhabited

/-- The entropy coder state `ec` (10_state.md R56): opaque to the CORE, held as one number that codes whatever finite state the
coder has. No operation of the CORE but a port call looks at it. -/
structure Coder where
  code : Nat
deriving DecidableEq, Repr, Inhabited

/-- Which side an INTRA fold request comes from (44_collaborators.md R160). -/
inductive Side
  | encoder | decoder
deriving DecidableEq, Repr, Inhabited

/-- The mode as a command sees it and as a port request carries it (10_state.md R32 to R36, R44, R45; R157): B, C, NE, NP, PEND,
`e[0 .. NE+1]` and `p[0 .. NP+1]`. -/
structure Mode where
  b : Nat
  c : Nat
  ne : Nat
  np : Nat
  pend : Nat
  ebands : List Nat
  pbands : List Nat
deriving DecidableEq, Repr, Inhabited

/-- ALLOC.compute_allocation's request (R157). -/
structure AllocRequest where
  mode : Mode
  offsets : List Int
  bits : Int
deriving DecidableEq, Repr, Inhabited

/-- ALGQ.alg_quant's request (R158). -/
structure AlgQuantRequest where
  xs : List Word
  ws : List Word
  len : Nat
  q : Int
  ps : List Word
  alpha : Word
  ec : Coder
deriving DecidableEq, Repr, Inhabited

/-- ALGQ.alg_unquant's request (R159): no Xs, no Ws. -/
structure AlgUnquantRequest where
  len : Nat
  q : Int
  ps : List Word
  alpha : Word
  ec : Coder
deriving DecidableEq, Repr, Inhabited

/-- An ALGQ answer (R158, R159): `xs k` is element k of Xs', of which the CORE takes the first L; so an answer has L values
whatever function stands here. -/
structure AlgAnswer where
  xs : Nat → Word
  ec : Coder
deriving Inhabited

/-- INTRA.intra_fold's request (R160); `xs` only on the encoder side. -/
structure FoldRequest where
  mode : Mode
  band : Nat
  side : Side
  nctx : List Word
  xs : Option (List Word)
deriving DecidableEq, Repr, Inhabited

/-- INTRA.intra_fold's answer (R160): Ps', and Xs' if the answer has one. -/
structure FoldAnswer where
  ps : Nat → Word
  xs : Option (Nat → Word)
deriving Inhabited

/-- INTRA.intra_prediction's request (R161). -/
structure PredictionRequest where
  mode : Mode
  band : Nat
  q : Int
  nctx : List Word
  xs : List Word
  ws : List Word
  ec : Coder
deriving DecidableEq, Repr, Inhabited

/-- INTRA.intra_unquant's request (R162): no Xs, no Ws. -/
structure UnquantRequest where
  mode : Mode
  band : Nat
  q : Int
  nctx : List Word
  ec : Coder
deriving DecidableEq, Repr, Inhabited

/-- The answer of intra_prediction and intra_unquant (R161, R162). -/
structure IntraAnswer where
  ps : Nat → Word
  xs : Option (Nat → Word)
  ec : Coder
deriving Inhabited

/-- Everything the spec leaves to the implementation. -/
structure Config where
  /-- NMAX, EMAX, PMAX of this CORE (R5, D5) -/
  caps : Caps
  /-- what the entropy coder holds at power-on; the CORE never sets it (R56, R58) -/
  coderAtPowerOn : Coder
  /-- FCOS, cosine on binary32 (R9, D11) -/
  fcos : Word → Word
  /-- FSIN, sine on binary32 (R9, D11) -/
  fsin : Word → Word
  /-- the free NaN patterns: the number of the command, then the place of the operation inside it (R9, U9) -/
  freeNaN : Nat → List Nat → Word
  /-- EC.bits_used (R156) -/
  bitsUsed : Coder → Int
  /-- ALLOC.compute_allocation (R157): `pulses[i]` for band i, in the s32 range by its type -/
  computeAllocation : AllocRequest → Nat → Word
  /-- ALGQ.alg_quant (R158) -/
  algQuant : AlgQuantRequest → AlgAnswer
  /-- ALGQ.alg_unquant (R159) -/
  algUnquant : AlgUnquantRequest → AlgAnswer
  /-- INTRA.intra_fold (R160) -/
  intraFold : FoldRequest → FoldAnswer
  /-- INTRA.intra_prediction (R161) -/
  intraPrediction : PredictionRequest → IntraAnswer
  /-- INTRA.intra_unquant (R162) -/
  intraUnquant : UnquantRequest → IntraAnswer
deriving Inhabited

/-- The configuration of the machine. It has no body: nothing can evaluate it. -/
opaque Config.hw : Config

end Sys2Proof
end

