-- ==== Sys2Proof/Machine/State.lean ====
section
/-! DEFINITION. The whole state of the CORE as plain data, and the state after reset (10_state.md R20 to R58). -/

namespace Sys2Proof.Machine

/-- The tables and memories of the address map (20_memory.md R62). -/
inductive MemName
  | ebands
  | pbands
  | spectrum (s : Spectrum)
  | energy (k : EnergyMem)
  | gains
  | pulses
  | wgt
deriving DecidableEq, Repr, Inhabited

/-- The CORE's faults that set HALT (60_exceptions.md R220). They are exceptions the machine TAKES: a next state. -/
inductive FaultCode
  | illegalCmd
  | illegalOperand
  | modeInvalid
  | length
  | rotRange
  | budgetOverrun
deriving DecidableEq, Repr, Inhabited

/-- Why the work of a command ends early, inside the model. -/
inductive Stop
  /-- an element no write has reached was read (10_state.md R57, 60_exceptions.md R241) -/
  | unwritten (m : MemName) (index : Nat)
  /-- `raise F(info)` of 60_exceptions.md R228 -/
  | raised (code : FaultCode) (info : Word)
deriving DecidableEq, Repr

/-- What the host and the other agents outside the CORE do, one move at a time (20_memory.md R61, R67; 70_reset_and_hazards.md
R260, R270). A command is a `write` to space 0x00, index 0x06. -/
inductive HostMove
  /-- `MemWrite(space, idx, w)` (R61) -/
  | write (space : BitVec 8) (index : BitVec 16) (w : Word)
  /-- `MemRead(space, idx)` (R61) -/
  | read (space : BitVec 8) (index : BitVec 16)
  /-- the owner of the entropy coder replaces its state between commands (10_state.md R56, 70_reset_and_hazards.md R262) -/
  | setCoder (ec : Coder)
  /-- power-on reset (R260) -/
  | powerOnReset
deriving DecidableEq, Repr

/-- One written element: its host address `space * 65536 + index` (20_memory.md R61) and its word. -/
abbrev ElementCell := Nat × Word

/-- The tables and memories: the written elements, addresses strictly rising. An address that is not listed is UNWRITTEN: it holds
no value (10_state.md R57). -/
abbrev Memory := List ElementCell

/-- Everything the spec gives the machine (10_state.md R20), and four fields of the model's own, marked so. ID, CTRL and CMD hold
nothing: ID is the constant of R24, and CTRL and CMD read 0 and are not stored (R25, R30). -/
structure State where
  /-- NMAX, EMAX, PMAX, the hardwired registers CAP_N and CAP_EP (R31) -/
  caps : Caps
  /-- STATUS.BUSY (R26) -/
  busy : Bool
  /-- STATUS.HALT (R26) -/
  halt : Bool
  /-- CAUSE bits 7:0; bits 31:8 read 0 (R27) -/
  cause : BitVec 8
  /-- INFO (R28) -/
  info : Word
  /-- SEQ (R29) -/
  seq : Word
  /-- MODE_B (R32) -/
  modeB : Word
  /-- MODE_C (R33) -/
  modeC : Word
  /-- MODE_NE (R34) -/
  modeNE : Word
  /-- MODE_NP (R35) -/
  modeNP : Word
  /-- MODE_PEND (R36) -/
  modePEND : Word
  /-- TOTAL_BITS (R37) -/
  totalBits : Word
  /-- BITS (R38) -/
  bits : Word
  /-- ROT_OFF (R39) -/
  rotOff : Word
  /-- ROT_LEN (R40) -/
  rotLen : Word
  /-- ROT_STRIDE (R41) -/
  rotStride : Word
  /-- ROT_ITER (R42) -/
  rotIter : Word
  /-- ROT_THETA (R43) -/
  rotTheta : Word
  /-- EBANDS, PBANDS, FREQ, X, P, W, NORM, BANK, TMPE, GAINS, PULSES, WGT (R44, R45, R48, R51 to R54) -/
  mem : Memory
  /-- the entropy coder state beside the CORE (R56) -/
  ec : Coder
  /-- MODEL: the moves the host has still to make, the next one first (70_reset_and_hazards.md R270) -/
  moves : List HostMove
  /-- MODEL: the word the host's last read returned -/
  readData : Option Word
  /-- MODEL: the number of commands issued, which keys the free NaN patterns of each (00_scope.md R9) -/
  draws : Nat
deriving DecidableEq, Repr

/-- Faults of the model, where the step ends with no next state. SAFE: nothing can be proved of what comes after. -/
inductive Fault
  /-- UNWRITTEN (60_exceptions.md R241): raised by any command, ModeValid included, that reads an element no write has reached
  since reset. SAFE: the hardware goes on with an unspecified word. -/
  | unwritten (m : MemName) (index : Nat)
deriving DecidableEq, Repr

/-- Refusals: the step has no meaning in the model. -/
inductive Refusal
  /-- raised by an arm of `exec` whose instruction has no meaning yet. SAFE. -/
  | notModelled (mnemonic : String)
  /-- raised by a host read of an unwritten element: the host gets no word (60_exceptions.md R241). SAFE. -/
  | hostReadUnwritten (m : MemName) (index : Nat)
  /-- raised by a host move other than a read of STATUS or power-on while BUSY = 1 (70_reset_and_hazards.md R263,
  93_implementation_defined.md U6). SAFE: no run from reset reaches it. -/
  | hostMoveWhileBusy
deriving DecidableEq, Repr

/-- The CORE right after power-on reset (10_state.md R58, 70_reset_and_hazards.md R261): every control register at the value of
R58's table, every element of every table and memory unwritten. The capacities and the entropy coder state are the
configuration's. -/
def State.reset : State :=
  { caps := Config.hw.caps
    busy := false
    halt := false
    cause := 0
    info := 0
    seq := 0
    modeB := 0
    modeC := 0
    modeNE := 0
    modeNP := 0
    modePEND := 0
    totalBits := 0
    bits := 0
    rotOff := 0
    rotLen := 0
    rotStride := 1
    rotIter := 8
    rotTheta := 0
    mem := []
    ec := Config.hw.coderAtPowerOn
    moves := []
    readData := none
    draws := 0 }

end Sys2Proof.Machine
end

