-- ==== Sys2Proof/Machine/Float.lean ====
section
/-! DEFINITION. IEEE 754 binary32 on words (00_scope.md R6, R9; 60_exceptions.md R234), and the constants of R7.

Every finite binary32 value is a whole number of UNITS of 2^-149, the least positive one. So an operation computes its exact
result as a whole number or a quotient of units, and `roundUnits` rounds that once, to nearest, ties to even. No flag, no trap.
A NaN result has no stated sign or payload (R9): every operation takes the word `nan` that is delivered then. -/

namespace Sys2Proof.Machine.F32

/-- The sign bit 31 (20_memory.md R63). -/
def sign (a : Word) : Bool := a.msb

/-- The word without its sign bit. -/
def magnitude (a : Word) : Nat := a.toNat % 2 ^ 31

/-- The magnitude of infinity. -/
def infMagnitude : Nat := 0x7F800000

/-- Exponent all ones, fraction not zero. -/
def isNaN (a : Word) : Bool := decide (infMagnitude < magnitude a)

def isInf (a : Word) : Bool := magnitude a == infMagnitude

/-- The absolute value of a finite word in units of 2^-149: a subnormal's fraction, or the fraction with its hidden bit scaled by
the exponent. -/
def units (a : Word) : Nat :=
  if magnitude a / 2 ^ 23 = 0 then magnitude a
  else (2 ^ 23 + magnitude a % 2 ^ 23) * 2 ^ (magnitude a / 2 ^ 23 - 1)

/-- The signed value of a finite word in units of 2^-149. -/
def value (a : Word) : Int := if sign a then -(units a : Int) else units a

/-- The word with this sign and this magnitude. -/
def pack (s : Bool) (m : Nat) : Word := BitVec.ofNat 32 ((if s then 2 ^ 31 else 0) + m)

/-- The exponent step of the quotient's binade: how many low bits of `num / den` units lie below 24 significant bits. -/
def binade (num den : Nat) : Nat := Nat.log2 (num / den) - 23

/-- Round the exact value `num / den` units to the nearest magnitude, ties to even. A magnitude counts binary32 values upwards
from zero, so binade `e` with significand `q` is magnitude `e * 2^23 + q`, and a carry out of the significand lands in the next
binade by itself. A result beyond the largest finite one is infinity (R234). -/
def roundUnits (num den : Nat) : Nat :=
  let e := binade num den
  let step := den * 2 ^ e
  let q := num / step
  let rest := num % step
  let up := if step < 2 * rest then 1 else if 2 * rest = step then q % 2 else 0
  min (e * 2 ^ 23 + q + up) infMagnitude

/-- The NaN an operation delivers: the free word if it is a NaN; so every NaN pattern is possible and nothing else is. -/
def nanResult (nan : Word) : Word := if isNaN nan then nan else 0x7FC00000

/-- `fneg(a)`: sign flip, on every word (R9). -/
def fneg (a : Word) : Word := a ^^^ 0x80000000

/-- `fadd(a,b)` (R9). The sum of two opposite finite values is +0, of two negative zeros -0. -/
def fadd (nan a b : Word) : Word :=
  if isNaN a || isNaN b then nanResult nan
  else if isInf a then (if isInf b && sign a != sign b then nanResult nan else a)
  else if isInf b then b
  else if value a + value b = 0 then pack (sign a && sign b) 0
  else pack (decide (value a + value b < 0)) (roundUnits (value a + value b).natAbs 1)

/-- `fsub(a,b)` (R9): the sum with the second operand's sign flipped. -/
def fsub (nan a b : Word) : Word := fadd nan a (fneg b)

/-- `fmul(a,b)` (R9). -/
def fmul (nan a b : Word) : Word :=
  if isNaN a || isNaN b then nanResult nan
  else if isInf a || isInf b then
    (if units a = 0 || units b = 0 then nanResult nan else pack (sign a != sign b) infMagnitude)
  else pack (sign a != sign b) (roundUnits (units a * units b) (2 ^ 149))

/-- `fdiv(a,b)` (R9). -/
def fdiv (nan a b : Word) : Word :=
  if isNaN a || isNaN b then nanResult nan
  else if isInf a then (if isInf b then nanResult nan else pack (sign a != sign b) infMagnitude)
  else if isInf b then pack (sign a != sign b) 0
  else if units b = 0 then
    (if units a = 0 then nanResult nan else pack (sign a != sign b) infMagnitude)
  else pack (sign a != sign b) (roundUnits (units a * 2 ^ 149) (units b))

/-- The integer square root by binary digits, from digit `k - 1` down, on top of the root `r` found so far. -/
def isqrtDigits (n : Nat) : Nat → Nat → Nat
  | 0, r => r
  | k + 1, r =>
    if (r + 2 ^ k) * (r + 2 ^ k) ≤ n then isqrtDigits n k (r + 2 ^ k) else isqrtDigits n k r

/-- The largest `r` with `r * r <= n`. -/
def isqrt (n : Nat) : Nat := isqrtDigits n (Nat.log2 n / 2 + 1) 0

/-- `fsqrt(a)` (R9). The root of `u` units is the root of `u * 2^149`, in units. That number has more than 24 bits before the
binary point, so half a unit in the place of all that is lost below the point is enough to round it right. -/
def fsqrt (nan a : Word) : Word :=
  if isNaN a then nanResult nan
  else if magnitude a = 0 then a
  else if sign a then nanResult nan
  else if isInf a then a
  else
    let n := units a * 2 ^ 149
    let r := isqrt n
    pack false (roundUnits (2 * r + if r * r < n then 1 else 0) 2)

/-- `i2f(k)`: the integer k rounded to binary32 (R9). -/
def i2f (k : Int) : Word := pack (decide (k < 0)) (roundUnits (k.natAbs * 2 ^ 149) 1)

/-- A whole number in the order of the non-NaN binary32 values, infinities included; both zeros are 0. -/
def orderKey (a : Word) : Int := if sign a then -(magnitude a : Int) else magnitude a

/-- `a > b`, false when either is a NaN (R9). -/
def fgt (a b : Word) : Bool := !isNaN a && !isNaN b && decide (orderKey b < orderKey a)

/-- `a < b`, false when either is a NaN (R9). -/
def flt (a b : Word) : Bool := !isNaN a && !isNaN b && decide (orderKey a < orderKey b)

/-- The constants of 00_scope.md R7. -/
def EPS : Word := 0x2EDBE6FF
def K_THETA : Word := 0x3BE56042
def K_QOFF : Word := 0x3DCCCCCD
def K_NORM : Word := 0x3D800000
def ALPHA_INTER : Word := 0x3F333333
def ALPHA_INTRA : Word := 0x00000000
def K_GAIN : Word := 0x3F666666
def K_SFLOOR : Word := 0x3C23D70A
def ONE : Word := 0x3F800000
def ZERO : Word := 0x00000000

/-- SQRT_C(1) and SQRT_C(2) (R7); C is 1 or 2 under a valid mode. -/
def SQRT_C (c : Nat) : Word := if c = 2 then 0x3FB504F3 else 0x3F800000

/-- `Clip01(g)` (43_pitch.md R142): a NaN and -0.0 pass. -/
def clip01 (g : Word) : Word := if fgt g ONE then ONE else if flt g ZERO then ZERO else g

end Sys2Proof.Machine.F32
end

