-- ==== Sys2Proof/Machine/Ops.lean ====
section
/-! DEFINITION. The shared operations: memory elements and slices, loops, the mode and its checks, retiring a command, taking a
fault (60_exceptions.md R228) and leaving HALT by reset (R231, 70_reset_and_hazards.md R261). -/

namespace Sys2Proof.Machine

/-! ### Capacities and the address map -/

/-- NMAX (00_scope.md R5). -/
def Caps.nmax (c : Caps) : Nat := c.nmaxLess1.val + 1

/-- The space number of a spectrum memory: 0x10 plus its select code (20_memory.md R62). -/
def spectrumSpace : Spectrum → Nat
  | .freq => 0x10
  | .x => 0x11
  | .p => 0x12
  | .w => 0x13
  | .norm => 0x14

/-- The space number of every table and memory (20_memory.md R62). -/
def MemName.space : MemName → Nat
  | .ebands => 0x01
  | .pbands => 0x02
  | .spectrum s => spectrumSpace s
  | .energy .bank => 0x20
  | .energy .tmpe => 0x21
  | .gains => 0x22
  | .pulses => 0x23
  | .wgt => 0x24

/-- How many elements a table or memory has (20_memory.md R62). -/
def MemName.size (c : Caps) : MemName → Nat
  | .ebands => c.emax.val + 2
  | .pbands => c.pmax.val + 2
  | .spectrum _ => Caps.nmax c
  | .energy _ => max 1 (2 * c.emax.val)
  | .gains => max 1 c.pmax.val
  | .pulses => max 1 c.emax.val
  | .wgt => Caps.nmax c

/-- The memory that a space number names; none for space 0x00 and every space R62 does not list. -/
def memOfSpace : Nat → Option MemName
  | 0x01 => some .ebands
  | 0x02 => some .pbands
  | 0x10 => some (.spectrum .freq)
  | 0x11 => some (.spectrum .x)
  | 0x12 => some (.spectrum .p)
  | 0x13 => some (.spectrum .w)
  | 0x14 => some (.spectrum .norm)
  | 0x20 => some (.energy .bank)
  | 0x21 => some (.energy .tmpe)
  | 0x22 => some .gains
  | 0x23 => some .pulses
  | 0x24 => some .wgt
  | _ => none

/-- The host address of element `k` of a memory (20_memory.md R61). -/
def addr (m : MemName) (k : Nat) : Nat := m.space * 65536 + k

/-- The address is one the map lists: an element that exists (20_memory.md R62). -/
def addrMapped (c : Caps) (a : Nat) : Bool :=
  match memOfSpace (a / 65536) with
  | some m => decide (a % 65536 < m.size c)
  | none => false

/-! ### Memory -/

/-- The word at an address, none if it is unwritten (10_state.md R57). -/
def Memory.read : Memory → Nat → Option Word
  | [], _ => none
  | (k, w) :: rest, a => if k = a then some w else Memory.read rest a

/-- Make an element written. The list stays in rising order of address. -/
def Memory.write : Memory → Nat → Word → Memory
  | [], a, v => [(a, v)]
  | (k, w) :: rest, a, v =>
    if a < k then (a, v) :: (k, w) :: rest
    else if k = a then (a, v) :: rest
    else (k, w) :: Memory.write rest a v

/-- The first address of a list is above `a`. -/
def Memory.above (a : Nat) : Memory → Bool
  | [] => true
  | (k, _) :: _ => decide (a < k)

/-- The canonical form: addresses strictly rising. An unlisted address holds no value, so no entry can equal it. -/
def Memory.wf : Memory → Bool
  | [] => true
  | (k, _) :: rest => Memory.above k rest && Memory.wf rest

/-- A computation of a command: a value, or the reason the command ends early. -/
abbrev Cmd (α : Type) := Except Stop α

/-- `S[k]` (00_scope.md R10); an unwritten element stops the model (60_exceptions.md R241). -/
def readElem (m : MemName) (k : Nat) (mem : Memory) : Cmd Word :=
  match Memory.read mem (addr m k) with
  | some w => .ok w
  | none => .error (.unwritten m k)

/-- `S[k] <- v` (00_scope.md R10). -/
def writeElem (m : MemName) (k : Nat) (v : Word) (mem : Memory) : Memory :=
  Memory.write mem (addr m k) v

/-- Elements `lo .. lo+n-1`, read in ascending order. -/
def readSlice (m : MemName) : Nat → Nat → Memory → Cmd (List Word)
  | _, 0, _ => .ok []
  | lo, n + 1, mem => do
    let v ← readElem m lo mem
    let rest ← readSlice m (lo + 1) n mem
    .ok (v :: rest)

/-- Write a list over elements `lo, lo+1, ..` in ascending order. -/
def writeSlice (m : MemName) : Nat → List Word → Memory → Memory
  | _, [], mem => mem
  | lo, v :: rest, mem => writeSlice m (lo + 1) rest (writeElem m lo v mem)

/-- The first `n` values of an answer (44_collaborators.md R158). -/
def takeValues (n : Nat) (f : Nat → Word) : List Word := (List.range n).map f

/-- `for f in lo .. hi-1 ascending: S[f] <- ZERO`, the padding discipline (10_state.md R50). -/
def zeroFill (m : MemName) (lo hi : Nat) (mem : Memory) : Memory :=
  writeSlice m lo (List.replicate (hi - lo) F32.ZERO) mem

/-! ### Loops (00_scope.md R8) -/

/-- `n` rounds of the body at `k, k+1, ..`. -/
def loopFrom {α : Type} (body : Nat → α → Cmd α) : Nat → Nat → α → Cmd α
  | 0, _, x => .ok x
  | n + 1, k, x => do
    let y ← body k x
    loopFrom body n (k + 1) y

/-- `for k in lo .. hi-1 ascending`; empty when `lo >= hi`. -/
def forUp {α : Type} (lo hi : Nat) (body : Nat → α → Cmd α) (x : α) : Cmd α :=
  loopFrom body (hi - lo) lo x

/-- `for k descending from n-1 to 0`; empty when `n = 0`. -/
def forDown {α : Type} (body : Nat → α → Cmd α) : Nat → α → Cmd α
  | 0, x => .ok x
  | n + 1, x => do
    let y ← body n x
    forDown body n y

/-! ### Free NaN patterns (00_scope.md R9, 93_implementation_defined.md U9) -/

/-- The free words of one command, one for every place in it where an operation stands. -/
abbrev Draws := List Nat → Word

/-- The free words of the places below `k`. -/
def Draws.sub (d : Draws) (k : Nat) : Draws := fun site => d (k :: site)

/-- The free words of the command that the state is running. -/
def drawsOf (cfg : Config) (s : State) : Draws := cfg.freeNaN s.draws

/-! ### The mode (10_state.md R46) -/

/-- Go on only if a check holds. -/
def require (ok : Bool) (stop : Stop) : Cmd Unit := if ok then .ok () else .error stop

/-- `table[0 .. n-1]` as unsigned integers (R44, R45). -/
def readTable (m : MemName) (n : Nat) (mem : Memory) : Cmd (List Nat) := do
  let ws ← readSlice m 0 n mem
  .ok (ws.map u32)

/-- Entry `k` of a table. -/
def entry (t : List Nat) (k : Nat) : Nat := t.getD k 0

/-- `e[k]` (R44). -/
def Mode.e (m : Mode) (k : Nat) : Nat := entry m.ebands k

/-- `p[k]` (R45). -/
def Mode.p (m : Mode) (k : Nat) : Nat := entry m.pbands k

/-- `Bq = B*C` (00_scope.md R11). -/
def Mode.bq (m : Mode) : Nat := m.b * m.c

/-- `N = B*C*e[NE+1]`, the spectrum length (00_scope.md R11). -/
def Mode.n (m : Mode) : Nat := m.b * m.c * Mode.e m (m.ne + 1)

/-- Check 4: `e[k] < e[k+1]` for every k in 0 .. NE. -/
def ebandsRise (ne : Nat) (e : List Nat) : Bool :=
  (List.range (ne + 1)).all fun k => decide (entry e k < entry e (k + 1))

/-- Check 5: `p[k] <= p[k+1]` for every k in 0 .. NP. -/
def pbandsRise (np : Nat) (p : List Nat) : Bool :=
  (List.range (np + 1)).all fun k => decide (entry p k ≤ entry p (k + 1))

/-- Check 8: PEND is one of `e[0 .. NE+1]`. -/
def pendOnBoundary (ne pend : Nat) (e : List Nat) : Bool :=
  (List.range (ne + 2)).any fun k => pend == entry e k

/-- The low 32 bits of a number that INFO saturates at 0xFFFFFFFF (60_exceptions.md R224, R225). -/
def saturate32 (n : Nat) : Word := BitVec.ofNat 32 (min n 0xFFFFFFFF)

/-- MODE_INVALID(k) (60_exceptions.md R223). -/
def modeInvalid (k : Nat) : Stop := .raised .modeInvalid (BitVec.ofNat 32 k)

/-- Step 3 of 30_encoding.md R91: ModeValid's eight checks in order, each raising MODE_INVALID with its number, then the length
check. Check 4 is the first to read EBANDS and check 5 the first to read PBANDS. -/
def checkMode (s : State) : Cmd Mode := do
  let b := u32 s.modeB
  let c := u32 s.modeC
  let ne := u32 s.modeNE
  let np := u32 s.modeNP
  let pend := u32 s.modePEND
  require (decide (1 ≤ b)) (modeInvalid 1)
  require (decide (c = 1) || decide (c = 2)) (modeInvalid 2)
  require (decide (ne ≤ s.caps.emax.val) && decide (np ≤ s.caps.pmax.val)) (modeInvalid 3)
  let e ← readTable .ebands (ne + 2) s.mem
  require (ebandsRise ne e) (modeInvalid 4)
  let p ← readTable .pbands (np + 2) s.mem
  require (pbandsRise np p) (modeInvalid 5)
  require (decide (entry e 0 ≤ entry p 0) && decide (entry p np ≤ entry e ne)) (modeInvalid 6)
  require (decide (entry p (np + 1) ≤ entry e (ne + 1))) (modeInvalid 7)
  require (pendOnBoundary ne pend e) (modeInvalid 8)
  require (decide (b * c * entry e (ne + 1) ≤ Caps.nmax s.caps))
    (.raised .length (saturate32 (b * c * entry e (ne + 1))))
  .ok { b := b, c := c, ne := ne, np := np, pend := pend, ebands := e, pbands := p }

/-! ### How a command ends -/

/-- The code of a fault (60_exceptions.md R220). -/
def FaultCode.code : FaultCode → BitVec 8
  | .illegalCmd => 0x01
  | .illegalOperand => 0x02
  | .modeInvalid => 0x03
  | .length => 0x04
  | .rotRange => 0x05
  | .budgetOverrun => 0x06

/-- `raise F(info)` (60_exceptions.md R228): TAKING A FAULT, as one event. SEQ is not incremented. There is no handler and no
saved return position. -/
def raise (f : FaultCode) (info : Word) (s : State) : State :=
  { s with cause := FaultCode.code f, info := info, halt := true, busy := false }

/-- A command completes without a fault: SEQ <- SEQ + 1 (mod 2^32), BUSY cleared (30_encoding.md R91 step 6). -/
def retire (s : State) : State := { s with seq := s.seq + 1, busy := false }

/-- The reset of 70_reset_and_hazards.md R261, the only way out of HALT (60_exceptions.md R231): every control register at its
reset value, every element unwritten. The capacities are hardwired, the entropy coder is not touched, and what belongs to the host
stays. -/
def resetCore (s : State) : State :=
  { State.reset with
    caps := s.caps, ec := s.ec, moves := s.moves, readData := s.readData, draws := s.draws }

/-- How a command that stopped early ends: the model's UNWRITTEN, or the CORE's fault taken in the state before the command
(60_exceptions.md R229). -/
def stopWith (stop : Stop) (s : State) : Host.Outcome State Fault Refusal :=
  match stop with
  | .unwritten m k => .fault (.unwritten m k)
  | .raised f info => .next (raise f info s)

/-- Steps 3 to 6 of 30_encoding.md R91 around a command's work. -/
def conclude (s : State) (work : Cmd State) : Host.Outcome State Fault Refusal :=
  match work with
  | .error stop => stopWith stop s
  | .ok t => .next (retire t)

/-- The same for a command whose work is on the memories alone and reads the mode. -/
def withMode (s : State) (work : Mode → Memory → Cmd Memory) : Host.Outcome State Fault Refusal :=
  conclude s (do
    let m ← checkMode s
    let mem ← work m s.mem
    .ok { s with mem := mem })

end Sys2Proof.Machine
end

