-- ==== Sys2Proof/WellFormed.lean ====
section
/-! DEFINITION. The static checks on a command's operands (20_memory.md R73). Every term of `Instr` has an encoding and
decodes again, the ill-formed ones too. An ill-formed one is a command that no state lets execute: under a valid mode it raises
ILLEGAL_OPERAND (60_exceptions.md R222). -/

namespace Sys2Proof

/-- QB's memories: pairwise distinct and none of them NORM (R73). -/
def wellFormedQb (sa sb sc : Spectrum) : Bool :=
  sa != sb && sa != sc && sb != sc && sa != .norm && sb != .norm && sc != .norm

/-- UQB's memories: distinct and neither of them NORM (R73). -/
def wellFormedUqb (sa sb : Spectrum) : Bool :=
  sa != sb && sa != .norm && sb != .norm

/-- The operand combination is one R73 allows. All other commands allow every combination. -/
def Instr.WellFormed : Instr → Bool
  | .cbe _ _ => true
  | .nrm _ _ _ => true
  | .dnrm _ _ _ => true
  | .rnrm _ => true
  | .rot _ _ => true
  | .cpg _ _ _ => true
  | .pqb _ => true
  | .qb sa sb sc => wellFormedQb sa sb sc
  | .uqb sa sb => wellFormedUqb sa sb
  | .smix _ _ _ => true

end Sys2Proof
end

