-- ==== Sys2Proof/Machine/Operands.lean ====
section
/-! DEFINITION. Operand forms: the elements a command's operand fields and the mode select (00_scope.md R11, 30_encoding.md R82), and
the operand checks of 30_encoding.md R91 step 4. -/

namespace Sys2Proof.Machine

/-- The memory a select field names (30_encoding.md R82). -/
abbrev sel (s : Spectrum) : MemName := .spectrum s

/-- The memory BK names (30_encoding.md R82). -/
abbrev bank (k : EnergyMem) : MemName := .energy k

/-- First band-relative position of band `i` for the per-channel components: `B*e[i]` (00_scope.md R11). -/
def Mode.bandStart (m : Mode) (i : Nat) : Nat := m.b * Mode.e m i

/-- First flat index of band `i` for the components that take a band as one vector: `Bq*e[i]` (00_scope.md R11). -/
def Mode.flatStart (m : Mode) (i : Nat) : Nat := Mode.bq m * Mode.e m i

/-- `Lq(i)`, the flat length of band `i` (00_scope.md R11). -/
def Mode.flatLen (m : Mode) (i : Nat) : Nat := Mode.flatStart m (i + 1) - Mode.flatStart m i

/-- First flat index of pitch band `k`: `Bq*p[k]` (00_scope.md R11). -/
def Mode.pitchStart (m : Mode) (k : Nat) : Nat := Mode.bq m * Mode.p m k

/-- The flat index of position `j`, channel `c` (10_state.md R49). -/
def Mode.flat (m : Mode) (j c : Nat) : Nat := j * m.c + c

/-- The element of an energy memory for band `i`, channel `c` (10_state.md R51). -/
def Mode.energyIndex (m : Mode) (i c : Nat) : Nat := i * m.c + c

/-- Zero the padding tail `[B*C*e[NE], B*C*e[NE+1])` of a spectrum memory (00_scope.md R11, 10_state.md R50). -/
def zeroTail (m : Mode) (s : Spectrum) (mem : Memory) : Memory :=
  zeroFill (sel s) (Mode.flatStart m m.ne) (Mode.flatStart m (m.ne + 1)) mem

/-- Zero the pitch padding `[Bq*p[NP], Bq*p[NP+1])` (00_scope.md R11, 43_pitch.md R141). -/
def zeroPitchPadding (m : Mode) (s : Spectrum) (mem : Memory) : Memory :=
  zeroFill (sel s) (Mode.pitchStart m m.np) (Mode.pitchStart m (m.np + 1)) mem

/-- `dir = -1` negates a coefficient (42_rotation.md R126, 46_stereo.md R210). -/
def signed (d : Dir) (a : Word) : Word :=
  match d with
  | .plus => a
  | .minus => F32.fneg a

/-- ILLEGAL_OPERAND(w), w the command word itself (60_exceptions.md R222). A command has one word, since no bit of it is ignored
(30_encoding.md R85). -/
def illegalOperand (i : Instr) : Stop := .raised .illegalOperand (encode i)

/-- QB's operand check (20_memory.md R73). -/
def qbOperandsLegal (sa sb sc : Spectrum) : Bool :=
  sa != sb && sa != sc && sb != sc && sa != .norm && sb != .norm && sc != .norm

/-- UQB's operand check (20_memory.md R73). -/
def uqbOperandsLegal (sa sb : Spectrum) : Bool :=
  sa != sb && sa != .norm && sb != .norm

/-- ROT's range check (42_rotation.md R127, 60_exceptions.md R225): the stride first. -/
def checkRotRange (s : State) : Cmd Unit := do
  require (decide (u32 s.rotStride ≠ 0)) (.raised .rotRange 0)
  require (decide (u32 s.rotOff + u32 s.rotLen ≤ Caps.nmax s.caps))
    (.raised .rotRange (saturate32 (u32 s.rotOff + u32 s.rotLen)))

end Sys2Proof.Machine
end

