-- ==== Sys2Proof/Machine/Energy.lean ====
section
/-! DEFINITION. CBE, the band energy extractor (40_energy.md). -/

namespace Sys2Proof.Machine

open F32

/-- EPS plus the squares of band `i`, channel `c`, in ascending order (R100). -/
def bandEnergy (d : Draws) (m : Mode) (sa : Spectrum) (c i : Nat) (mem : Memory) : Cmd Word :=
  forUp (Mode.bandStart m i) (Mode.bandStart m (i + 1))
    (fun j acc => do
      let v ← readElem (sel sa) (Mode.flat m j c) mem
      .ok (fadd (d [c, i, j, 1]) acc (fmul (d [c, i, j, 0]) v v)))
    EPS

/-- CBE's pseudocode (R100): `BK[i*C + c] <- fsqrt(acc)` for every channel and band. -/
def bandEnergies (d : Draws) (m : Mode) (sa : Spectrum) (bk : EnergyMem) (mem : Memory) : Cmd Memory :=
  forUp 0 m.c (fun c mem =>
    forUp 0 m.ne (fun i mem => do
      let acc ← bandEnergy d m sa c i mem
      .ok (writeElem (bank bk) (Mode.energyIndex m i c) (fsqrt (d [c, i]) acc) mem)) mem) mem

/-- CBE (R100) of a CORE with this configuration. -/
def cbe (cfg : Config) (sa : Spectrum) (bk : EnergyMem) (s : State) : Host.Outcome State Fault Refusal :=
  withMode s fun m mem => bandEnergies (drawsOf cfg s) m sa bk mem

/-- CBE (40_energy.md R100). -/
def execCbe (sa : Spectrum) (bk : EnergyMem) (s : State) : Host.Outcome State Fault Refusal :=
  cbe Config.hw sa bk s

end Sys2Proof.Machine
end

