-- ==== Sys2Proof/Machine/Normalise.lean ====
section
/-! DEFINITION. NRM, DNRM and RNRM (41_normalise.md). -/

namespace Sys2Proof.Machine

open F32

/-- `g = 1 / (EPS + SQRT_C*E)` (R110). -/
def normGain (d : Draws) (m : Mode) (c i : Nat) (energy : Word) : Word :=
  fdiv (d [c, i, 2]) ONE (fadd (d [c, i, 1]) EPS (fmul (d [c, i, 0]) (SQRT_C m.c) energy))

/-- `g = SQRT_C*E` (R111). -/
def denormGain (d : Draws) (m : Mode) (c i : Nat) (energy : Word) : Word :=
  fmul (d [c, i, 0]) (SQRT_C m.c) energy

/-- Multiply every element of band `i`, channel `c` of SA by `g` into SB (R110, R111). -/
def scaleBand (d : Draws) (m : Mode) (sa sb : Spectrum) (c i : Nat) (g : Word) (mem : Memory) : Cmd Memory :=
  forUp (Mode.bandStart m i) (Mode.bandStart m (i + 1))
    (fun j mem => do
      let v ← readElem (sel sa) (Mode.flat m j c) mem
      .ok (writeElem (sel sb) (Mode.flat m j c) (fmul (d [c, i, j, 3]) v g) mem))
    mem

/-- The pseudocode that NRM and DNRM share: every band of every channel scaled by its gain, then SB's padding tail zeroed. -/
def scaleBands (gain : Nat → Nat → Word → Word) (d : Draws) (m : Mode) (sa sb : Spectrum) (bk : EnergyMem)
    (mem : Memory) : Cmd Memory := do
  let mem ← forUp 0 m.c (fun c mem =>
    forUp 0 m.ne (fun i mem => do
      let energy ← readElem (bank bk) (Mode.energyIndex m i c) mem
      scaleBand d m sa sb c i (gain c i energy) mem) mem) mem
  .ok (zeroTail m sb mem)

/-- NRM's pseudocode (R110). -/
def normalise (d : Draws) (m : Mode) (sa sb : Spectrum) (bk : EnergyMem) (mem : Memory) : Cmd Memory :=
  scaleBands (normGain d m) d m sa sb bk mem

/-- DNRM's pseudocode (R111). -/
def denormalise (d : Draws) (m : Mode) (sa sb : Spectrum) (bk : EnergyMem) (mem : Memory) : Cmd Memory :=
  scaleBands (denormGain d m) d m sa sb bk mem

/-- RNRM's pseudocode (R112): the effect of `CBE sa, TMPE` and then of `NRM sa, sa, TMPE`. -/
def renormalise (d : Draws) (m : Mode) (sa : Spectrum) (mem : Memory) : Cmd Memory := do
  let mem ← bandEnergies (Draws.sub d 0) m sa .tmpe mem
  normalise (Draws.sub d 1) m sa sa .tmpe mem

/-- NRM (R110) of a CORE with this configuration. -/
def nrm (cfg : Config) (sa sb : Spectrum) (bk : EnergyMem) (s : State) : Host.Outcome State Fault Refusal :=
  withMode s fun m mem => normalise (drawsOf cfg s) m sa sb bk mem

/-- DNRM (R111) of a CORE with this configuration. -/
def dnrm (cfg : Config) (sa sb : Spectrum) (bk : EnergyMem) (s : State) : Host.Outcome State Fault Refusal :=
  withMode s fun m mem => denormalise (drawsOf cfg s) m sa sb bk mem

/-- RNRM (R112) of a CORE with this configuration. -/
def rnrm (cfg : Config) (sa : Spectrum) (s : State) : Host.Outcome State Fault Refusal :=
  withMode s fun m mem => renormalise (drawsOf cfg s) m sa mem

/-- NRM (41_normalise.md R110). -/
def execNrm (sa sb : Spectrum) (bk : EnergyMem) (s : State) : Host.Outcome State Fault Refusal :=
  nrm Config.hw sa sb bk s

/-- DNRM (41_normalise.md R111). -/
def execDnrm (sa sb : Spectrum) (bk : EnergyMem) (s : State) : Host.Outcome State Fault Refusal :=
  dnrm Config.hw sa sb bk s

/-- RNRM (41_normalise.md R112). -/
def execRnrm (sa : Spectrum) (s : State) : Host.Outcome State Fault Refusal :=
  rnrm Config.hw sa s

end Sys2Proof.Machine
end

