-- ==== Sys2Proof/Machine/Pitch.lean ====
section
/-! DEFINITION. CPG and PQB, the pitch-gain estimator and applier (43_pitch.md). -/

namespace Sys2Proof.Machine

open F32

/-- The weight array (R140): `WGT[f] <- BK[i*C + (f mod C)]` over every band. -/
def fillWeights (m : Mode) (bk : EnergyMem) (mem : Memory) : Cmd Memory :=
  forUp 0 m.ne (fun i mem =>
    forUp (Mode.flatStart m i) (Mode.flatStart m (i + 1)) (fun f mem => do
      let w ← readElem (bank bk) (Mode.energyIndex m i (f % m.c)) mem
      .ok (writeElem .wgt f w mem)) mem) mem

/-- The sums Sxy and Sxx of pitch band `k` (R141): both start at ZERO and run in ascending f; the weight is multiplied last. -/
def pitchSums (d : Draws) (m : Mode) (sa sb : Spectrum) (k : Nat) (mem : Memory) : Cmd (Word × Word) :=
  forUp (Mode.pitchStart m k) (Mode.pitchStart m (k + 1))
    (fun f (sums : Word × Word) => do
      let x ← readElem (sel sa) f mem
      let pr ← readElem (sel sb) f mem
      let w ← readElem .wgt f mem
      .ok (fadd (d [k, f, 2]) sums.1 (fmul (d [k, f, 1]) (fmul (d [k, f, 0]) x pr) w),
           fadd (d [k, f, 5]) sums.2 (fmul (d [k, f, 4]) (fmul (d [k, f, 3]) x x) w)))
    (ZERO, ZERO)

/-- The gain of pitch band `k` from its sums (R141): the ratio, clipped to 0 .. 1, times 0.9. -/
def pitchGain (d : Draws) (k : Nat) (sums : Word × Word) : Word :=
  fmul (d [k, 2]) (clip01 (fdiv (d [k, 1]) sums.1 (fadd (d [k, 0]) EPS sums.2))) K_GAIN

/-- CPG's pseudocode (R141). -/
def pitchGains (d : Draws) (m : Mode) (sa sb : Spectrum) (bk : EnergyMem) (mem : Memory) : Cmd Memory := do
  let mem ← fillWeights m bk mem
  let mem ← forUp 0 m.np (fun k mem => do
    let sums ← pitchSums d m sa sb k mem
    .ok (writeElem .gains k (pitchGain d k sums) mem)) mem
  .ok (zeroPitchPadding m sb mem)

/-- PQB's pseudocode (R143): a gain is read only where its band has an element. -/
def applyGains (d : Draws) (m : Mode) (sb : Spectrum) (mem : Memory) : Cmd Memory := do
  let mem ← forUp 0 m.np (fun k mem =>
    forUp (Mode.pitchStart m k) (Mode.pitchStart m (k + 1)) (fun f mem => do
      let v ← readElem (sel sb) f mem
      let g ← readElem .gains k mem
      .ok (writeElem (sel sb) f (fmul (d [k, f]) v g) mem)) mem) mem
  .ok (zeroPitchPadding m sb mem)

/-- CPG (R141) of a CORE with this configuration. -/
def cpg (cfg : Config) (sa sb : Spectrum) (bk : EnergyMem) (s : State) : Host.Outcome State Fault Refusal :=
  withMode s fun m mem => pitchGains (drawsOf cfg s) m sa sb bk mem

/-- PQB (R143) of a CORE with this configuration. -/
def pqb (cfg : Config) (sb : Spectrum) (s : State) : Host.Outcome State Fault Refusal :=
  withMode s fun m mem => applyGains (drawsOf cfg s) m sb mem

/-- CPG (43_pitch.md R141). -/
def execCpg (sa sb : Spectrum) (bk : EnergyMem) (s : State) : Host.Outcome State Fault Refusal :=
  cpg Config.hw sa sb bk s

/-- PQB (43_pitch.md R143). -/
def execPqb (sb : Spectrum) (s : State) : Host.Outcome State Fault Refusal :=
  pqb Config.hw sb s

end Sys2Proof.Machine
end

