-- ==== Sys2Proof/Machine/Rotation.lean ====
section
/-! DEFINITION. The exponential-spread rotation: Rot2, RotSlice and the command ROT (42_rotation.md). -/

namespace Sys2Proof.Machine

open F32

/-- `Rot2(S, a, b, c, s)` (R125): both reads precede both writes. -/
def rot2 (d : Draws) (sp : Spectrum) (a b : Nat) (c s : Word) (mem : Memory) : Cmd Memory := do
  let x1 ← readElem (sel sp) a mem
  let x2 ← readElem (sel sp) b mem
  let y1 := fsub (d [2]) (fmul (d [0]) c x1) (fmul (d [1]) s x2)
  let y2 := fadd (d [5]) (fmul (d [3]) c x2) (fmul (d [4]) s x1)
  .ok (writeElem (sel sp) b y2 (writeElem (sel sp) a y1 mem))

/-- The forward pass of R126: i = 0 .. L-stride-1 ascending. -/
def rotForward (d : Draws) (sp : Spectrum) (off len stride : Nat) (c s : Word) (mem : Memory) : Cmd Memory :=
  forUp 0 (len - stride) (fun i mem => rot2 (Draws.sub d i) sp (off + i) (off + i + stride) c s mem) mem

/-- The reverse pass of R126: i = L-2*stride-1 .. 0 descending. -/
def rotReverse (d : Draws) (sp : Spectrum) (off len stride : Nat) (c s : Word) (mem : Memory) : Cmd Memory :=
  forDown (fun i mem => rot2 (Draws.sub d i) sp (off + i) (off + i + stride) c s mem) (len - 2 * stride) mem

/-- `RotSlice(S, off, L, theta, dir, stride, iter)` (R126): c and s once, then `iter` times the forward and the reverse pass. -/
def rotSlice (cfg : Config) (d : Draws) (sp : Spectrum) (off len : Nat) (theta : Word) (dir : Dir) (stride iter : Nat)
    (mem : Memory) : Cmd Memory :=
  let c := cfg.fcos theta
  let s := signed dir (cfg.fsin theta)
  forUp 0 iter (fun t mem => do
    let mem ← rotForward (Draws.sub (Draws.sub d t) 0) sp off len stride c s mem
    rotReverse (Draws.sub (Draws.sub d t) 1) sp off len stride c s mem) mem

/-- ROT (R127) of a CORE with this configuration. It does not read the mode. -/
def rot (cfg : Config) (sa : Spectrum) (dir : Dir) (s : State) : Host.Outcome State Fault Refusal :=
  conclude s (do
    checkRotRange s
    let mem ← rotSlice cfg (drawsOf cfg s) sa (u32 s.rotOff) (u32 s.rotLen) s.rotTheta dir (u32 s.rotStride)
      (u32 s.rotIter) s.mem
    .ok { s with mem := mem })

/-- ROT (42_rotation.md R127). -/
def execRot (sa : Spectrum) (dir : Dir) (s : State) : Host.Outcome State Fault Refusal :=
  rot Config.hw sa dir s

end Sys2Proof.Machine
end

