-- ==== Sys2Proof/Machine/Quantiser.lean ====
section
/-! DEFINITION. QB and UQB, the residual quantiser and dequantiser (45_quantiser.md), with the port calls they make
(44_collaborators.md). The two commands run the same band loop; `Codec` says which side it is, and where they differ a function
matches on it. -/

namespace Sys2Proof.Machine

open F32

/-- The encoder (QB), with its third operand SC, or the decoder (UQB). -/
inductive Codec
  | encoder (sc : Spectrum)
  | decoder
deriving DecidableEq, Repr

/-- What the band loop carries from band to band: the memories, the coder state and the blend weight (10_state.md R55, R56). -/
structure QRun where
  mem : Memory
  ec : Coder
  alpha : Word
deriving DecidableEq, Repr

/-- ITER_Q (00_scope.md R5). -/
def ITER_Q : Nat := 8

/-- `n = 0.0625 * sqrt(L)`, the context scale of a band of flat length L (45_quantiser.md R181). -/
def contextScale (d : Draws) (len : Nat) : Word :=
  fmul (d [1]) K_NORM (fsqrt (d [0]) (i2f len))

/-- `theta = (0.007 * L) / (0.1 + q0)`, with q0 the allocator's count before any decrement (R181). -/
def bandTheta (d : Draws) (len : Nat) (q0 : Int) : Word :=
  fdiv (d [4]) (fmul (d [2]) K_THETA (i2f len)) (fadd (d [3]) K_QOFF (i2f q0))

/-- Band `i` takes intra mode: `e[i] >= PEND` or `q0 <= 0` (R182). -/
def intraMode (m : Mode) (i : Nat) (q0 : Int) : Bool := decide (m.pend ≤ Mode.e m i) || decide (q0 ≤ 0)

/-- `q` after the mode decision: decremented in intra mode (R182). -/
def codedPulses (m : Mode) (i : Nat) (q0 : Int) : Int := if intraMode m i q0 then q0 - 1 else q0

/-- The context `Nctx = NORM[0 .. Bq*e[i]-1]` (44_collaborators.md R163). -/
def intraContext (m : Mode) (i : Nat) (mem : Memory) : Cmd (List Word) :=
  readSlice (sel .norm) 0 (Mode.flatStart m i) mem

/-- Band `i` of a spectrum memory, as a port request carries it (20_memory.md R72). -/
def bandSlice (m : Mode) (sp : Spectrum) (i : Nat) (mem : Memory) : Cmd (List Word) :=
  readSlice (sel sp) (Mode.flatStart m i) (Mode.flatLen m i) mem

/-- Write an answer over band `i` of a spectrum memory, in ascending order (R158). -/
def writeBand (m : Mode) (sp : Spectrum) (i : Nat) (f : Nat → Word) (mem : Memory) : Memory :=
  writeSlice (sel sp) (Mode.flatStart m i) (takeValues (Mode.flatLen m i) f) mem

/-- The writes of an INTRA answer (R160, 45_quantiser.md R182): Ps' over the band of SB; Xs', if there is one, over the band
of SA. -/
def writeIntra (m : Mode) (sa sb : Spectrum) (i : Nat) (ps : Nat → Word) (xs : Option (Nat → Word)) (mem : Memory) : Memory :=
  match xs with
  | none => writeBand m sb i ps mem
  | some f => writeBand m sa i f (writeBand m sb i ps mem)

/-- INTRA.intra_fold (R160): it does not take and does not change `ec`. The request carries Xs on the encoder side only. -/
def callFold (cfg : Config) (codec : Codec) (m : Mode) (sa : Spectrum) (i : Nat) (mem : Memory) : Cmd FoldAnswer := do
  let nctx ← intraContext m i mem
  match codec with
  | .encoder _ => do
    let xs ← bandSlice m sa i mem
    .ok (cfg.intraFold { mode := m, band := i, side := .encoder, nctx := nctx, xs := some xs })
  | .decoder => .ok (cfg.intraFold { mode := m, band := i, side := .decoder, nctx := nctx, xs := none })

/-- INTRA.intra_prediction (R161) for the encoder, INTRA.intra_unquant (R162) for the decoder. -/
def callIntra (cfg : Config) (codec : Codec) (m : Mode) (sa : Spectrum) (i : Nat) (q : Int) (r : QRun) : Cmd IntraAnswer := do
  let nctx ← intraContext m i r.mem
  match codec with
  | .encoder sc => do
    let xs ← bandSlice m sa i r.mem
    let ws ← bandSlice m sc i r.mem
    .ok (cfg.intraPrediction { mode := m, band := i, q := q, nctx := nctx, xs := xs, ws := ws, ec := r.ec })
  | .decoder => .ok (cfg.intraUnquant { mode := m, band := i, q := q, nctx := nctx, ec := r.ec })

/-- The coding-mode decision of band `i` (45_quantiser.md R182): in intra mode alpha becomes 0 and one INTRA call is made; in inter
mode nothing is written and alpha keeps its value (R183). -/
def modeDecision (cfg : Config) (codec : Codec) (m : Mode) (sa sb : Spectrum) (i : Nat) (q0 : Int) (r : QRun) : Cmd QRun :=
  if intraMode m i q0 then
    if q0 - 1 < 0 then do
      let a ← callFold cfg codec m sa i r.mem
      .ok { mem := writeIntra m sa sb i a.ps a.xs r.mem, ec := r.ec, alpha := ALPHA_INTRA }
    else do
      let a ← callIntra cfg codec m sa i (q0 - 1) r
      .ok { mem := writeIntra m sa sb i a.ps a.xs r.mem, ec := a.ec, alpha := ALPHA_INTRA }
  else .ok r

/-- Rotate band `i` of a spectrum memory as the quantiser does: stride Bq, ITER_Q iterations (42_rotation.md R130). -/
def rotBand (cfg : Config) (d : Draws) (m : Mode) (sp : Spectrum) (i : Nat) (theta : Word) (dir : Dir) (mem : Memory) :
    Cmd Memory :=
  rotSlice cfg d sp (Mode.flatStart m i) (Mode.flatLen m i) theta dir (Mode.bq m) ITER_Q mem

/-- The VQ step of band `i` when `q > 0`: R184 for the encoder, R185 for the decoder, which neither rotates nor reads SA before the
call. -/
def vqCoded (cfg : Config) (d : Draws) (codec : Codec) (m : Mode) (sa sb : Spectrum) (i : Nat) (q : Int) (theta : Word)
    (r : QRun) : Cmd QRun := do
  let mem ← rotBand cfg (Draws.sub d 5) m sb i theta .minus r.mem
  match codec with
  | .encoder sc => do
    let mem ← rotBand cfg (Draws.sub d 6) m sa i theta .minus mem
    let xs ← bandSlice m sa i mem
    let ws ← bandSlice m sc i mem
    let ps ← bandSlice m sb i mem
    let a := cfg.algQuant { xs := xs, ws := ws, len := Mode.flatLen m i, q := q, ps := ps, alpha := r.alpha, ec := r.ec }
    let mem ← rotBand cfg (Draws.sub d 7) m sa i theta .plus (writeBand m sa i a.xs mem)
    .ok { mem := mem, ec := a.ec, alpha := r.alpha }
  | .decoder => do
    let ps ← bandSlice m sb i mem
    let a := cfg.algUnquant { len := Mode.flatLen m i, q := q, ps := ps, alpha := r.alpha, ec := r.ec }
    let mem ← rotBand cfg (Draws.sub d 7) m sa i theta .plus (writeBand m sa i a.xs mem)
    .ok { mem := mem, ec := a.ec, alpha := r.alpha }

/-- The VQ step of band `i` (R184, R185): nothing when `q <= 0`. -/
def vqStep (cfg : Config) (d : Draws) (codec : Codec) (m : Mode) (sa sb : Spectrum) (i : Nat) (q : Int) (theta : Word)
    (r : QRun) : Cmd QRun :=
  if 0 < q then vqCoded cfg d codec m sa sb i q theta r else .ok r

/-- The context copy of band `i` (R186): `NORM[f] <- fmul(SA[f], n)`. -/
def contextCopy (d : Draws) (m : Mode) (sa : Spectrum) (i : Nat) (n : Word) (mem : Memory) : Cmd Memory :=
  forUp (Mode.flatStart m i) (Mode.flatStart m (i + 1)) (fun f mem => do
    let v ← readElem (sel sa) f mem
    .ok (writeElem (sel .norm) f (fmul (d [8, f]) v n) mem)) mem

/-- One band (R190): constants, mode decision, VQ step, context copy, in this order. `q0` is PULSES[i] (R181). -/
def quantBand (cfg : Config) (d : Draws) (codec : Codec) (m : Mode) (sa sb : Spectrum) (i : Nat) (r : QRun) : Cmd QRun := do
  let w ← readElem .pulses i r.mem
  let q0 := s32 w
  let r ← modeDecision cfg codec m sa sb i q0 r
  let r ← vqStep cfg d codec m sa sb i (codedPulses m i q0) (bandTheta d (Mode.flatLen m i) q0) r
  let mem ← contextCopy d m sa i (contextScale d (Mode.flatLen m i)) r.mem
  .ok { mem := mem, ec := r.ec, alpha := r.alpha }

/-- The band loop, strictly in ascending order (R190, 20_memory.md R70). -/
def quantLoop (cfg : Config) (d : Draws) (codec : Codec) (m : Mode) (sa sb : Spectrum) (r : QRun) : Cmd QRun :=
  forUp 0 m.ne (fun i r => quantBand cfg (Draws.sub d i) codec m sa sb i r) r

/-- The remaining budget `total_bits - bits_used - 1`, on mathematical integers (R180). -/
def budget (cfg : Config) (s : State) : Int := s32 s.totalBits - cfg.bitsUsed s.ec - 1

/-- The request to ALLOC: the mode, NE zero offsets and the budget (44_collaborators.md R157). -/
def allocRequest (cfg : Config) (m : Mode) (s : State) : AllocRequest :=
  { mode := m, offsets := List.replicate m.ne 0, bits := budget cfg s }

/-- The prologue (R180): `PULSES[0 .. NE-1]` from the allocator; alpha at ALPHA_INTER (R183). -/
def quantPrologue (cfg : Config) (m : Mode) (s : State) : QRun :=
  { mem := writeSlice .pulses 0 (takeValues m.ne (cfg.computeAllocation (allocRequest cfg m s))) s.mem
    ec := s.ec
    alpha := ALPHA_INTER }

/-- All of QB's or UQB's work but the budget check (R188, R189): prologue, band loop, epilogue (R187). -/
def quantBands (cfg : Config) (codec : Codec) (m : Mode) (sa sb : Spectrum) (s : State) : Cmd State := do
  let r ← quantLoop cfg (drawsOf cfg s) codec m sa sb (quantPrologue cfg m s)
  .ok { s with mem := zeroTail m sa r.mem, ec := r.ec, bits := BitVec.ofInt 32 (budget cfg s) }

/-- The budget check (R191): `bits_used > total_bits` after all the work, every effect of which stays (60_exceptions.md R226). -/
def overrun (cfg : Config) (t : State) : Bool := decide (s32 t.totalBits < cfg.bitsUsed t.ec)

/-- How QB and UQB end: retired, or with BUDGET_OVERRUN taken in the state AFTER the work, SEQ not counted (60_exceptions.md
R226, R229). -/
def concludeQuant (cfg : Config) (s : State) (work : Cmd State) : Host.Outcome State Fault Refusal :=
  match work with
  | .error stop => stopWith stop s
  | .ok t =>
    if overrun cfg t then .next (raise .budgetOverrun (BitVec.ofInt 32 (cfg.bitsUsed t.ec)) t)
    else .next (retire t)

/-- QB (R188) of a CORE with this configuration. -/
def qb (cfg : Config) (sa sb sc : Spectrum) (s : State) : Host.Outcome State Fault Refusal :=
  concludeQuant cfg s (do
    let m ← checkMode s
    require (qbOperandsLegal sa sb sc) (illegalOperand (.qb sa sb sc))
    quantBands cfg (.encoder sc) m sa sb s)

/-- UQB (R189) of a CORE with this configuration. -/
def uqb (cfg : Config) (sa sb : Spectrum) (s : State) : Host.Outcome State Fault Refusal :=
  concludeQuant cfg s (do
    let m ← checkMode s
    require (uqbOperandsLegal sa sb) (illegalOperand (.uqb sa sb))
    quantBands cfg .decoder m sa sb s)

/-- QB (45_quantiser.md R188). -/
def execQb (sa sb sc : Spectrum) (s : State) : Host.Outcome State Fault Refusal :=
  qb Config.hw sa sb sc s

/-- UQB (45_quantiser.md R189). -/
def execUqb (sa sb : Spectrum) (s : State) : Host.Outcome State Fault Refusal :=
  uqb Config.hw sa sb s

end Sys2Proof.Machine
end

