-- ==== Sys2Proof/Machine/Stereo.lean ====
section
/-! DEFINITION. SMIX, the stereo mid/side rotator (46_stereo.md). -/

namespace Sys2Proof.Machine

open F32

/-- `nrm = sqrt((0.01 + left^2) + right^2)` of band `i` (R210). -/
def stereoNorm (d : Draws) (i : Nat) (lf rt : Word) : Word :=
  fsqrt (d [i, 4]) (fadd (d [i, 3]) (fadd (d [i, 1]) K_SFLOOR (fmul (d [i, 0]) lf lf)) (fmul (d [i, 2]) rt rt))

/-- The coefficients a1 and a2 of band `i` (R210); `dir = -1` negates a2. -/
def stereoCoeffs (d : Draws) (i : Nat) (dir : Dir) (lf rt : Word) : Word × Word :=
  (fdiv (d [i, 5]) lf (stereoNorm d i lf rt), signed dir (fdiv (d [i, 6]) rt (stereoNorm d i lf rt)))

/-- `fadd(fmul(a1, l), fmul(a2, r))`, the new left element of a pair (R210). -/
def mixLeft (d : Draws) (i j : Nat) (a : Word × Word) (xl xr : Word) : Word :=
  fadd (d [i, j, 2]) (fmul (d [i, j, 0]) a.1 xl) (fmul (d [i, j, 1]) a.2 xr)

/-- `fsub(fmul(a1, r), fmul(a2, l))`, the new right element of a pair (R210). -/
def mixRight (d : Draws) (i j : Nat) (a : Word × Word) (xl xr : Word) : Word :=
  fsub (d [i, j, 5]) (fmul (d [i, j, 3]) a.1 xr) (fmul (d [i, j, 4]) a.2 xl)

/-- SMIX's pseudocode for C = 2 (R210): both reads of a pair precede both writes. -/
def stereoMix (d : Draws) (m : Mode) (sa : Spectrum) (bk : EnergyMem) (dir : Dir) (mem : Memory) : Cmd Memory := do
  let mem ← forUp 0 m.ne (fun i mem => do
    let lf ← readElem (bank bk) (2 * i) mem
    let rt ← readElem (bank bk) (2 * i + 1) mem
    let a := stereoCoeffs d i dir lf rt
    forUp (Mode.bandStart m i) (Mode.bandStart m (i + 1)) (fun j mem => do
      let xl ← readElem (sel sa) (2 * j) mem
      let xr ← readElem (sel sa) (2 * j + 1) mem
      .ok (writeElem (sel sa) (2 * j + 1) (mixRight d i j a xl xr)
            (writeElem (sel sa) (2 * j) (mixLeft d i j a xl xr) mem))) mem) mem
  .ok (zeroTail m sa mem)

/-- SMIX (R210) of a CORE with this configuration: ILLEGAL_OPERAND unless C = 2. -/
def smix (cfg : Config) (sa : Spectrum) (bk : EnergyMem) (dir : Dir) (s : State) : Host.Outcome State Fault Refusal :=
  withMode s fun m mem => do
    require (decide (m.c = 2)) (illegalOperand (.smix sa bk dir))
    stereoMix (drawsOf cfg s) m sa bk dir mem

/-- SMIX (46_stereo.md R210). -/
def execSmix (sa : Spectrum) (bk : EnergyMem) (dir : Dir) (s : State) : Host.Outcome State Fault Refusal :=
  smix Config.hw sa bk dir s

end Sys2Proof.Machine
end

