-- ==== Sys2Proof/Machine/Dispatch.lean ====
section
/-! DEFINITION. One arm per command of the opcode map (30_encoding.md R84): steps 3 to 6 of R91. -/

namespace Sys2Proof.Machine

def exec (i : Instr) (s : State) : Host.Outcome State Fault Refusal :=
  match i with
  | .cbe sa bk => Sys2Proof.Machine.execCbe sa bk s
  | .nrm sa sb bk => Sys2Proof.Machine.execNrm sa sb bk s
  | .dnrm sa sb bk => Sys2Proof.Machine.execDnrm sa sb bk s
  | .rnrm sa => Sys2Proof.Machine.execRnrm sa s
  | .rot sa dir => Sys2Proof.Machine.execRot sa dir s
  | .cpg sa sb bk => Sys2Proof.Machine.execCpg sa sb bk s
  | .pqb sb => Sys2Proof.Machine.execPqb sb s
  | .qb sa sb sc => Sys2Proof.Machine.execQb sa sb sc s
  | .uqb sa sb => Sys2Proof.Machine.execUqb sa sb s
  | .smix sa bk dir => Sys2Proof.Machine.execSmix sa bk dir s

end Sys2Proof.Machine
end

