-- ==== Sys2Proof/Machine/Flags.lean ====
section
/-! DEFINITION. The flags of the CORE, STATUS.BUSY and STATUS.HALT, as the words the host reads (10_state.md R26, R27). No command
computes any other flag: every command's rule says "Flags: none", and there are no floating-point flags (60_exceptions.md R234). -/

namespace Sys2Proof.Machine

/-- STATUS: bit 0 BUSY, bit 1 HALT, bits 31:2 read 0 (R26). -/
def statusWord (s : State) : Word :=
  BitVec.ofNat 32 ((if s.busy then 1 else 0) + (if s.halt then 2 else 0))

/-- CAUSE: bits 7:0 the code, bits 31:8 read 0 (R27). -/
def causeWord (s : State) : Word := BitVec.setWidth 32 s.cause

end Sys2Proof.Machine
end

