-- ==== Sys2Proof/Machine/HostPort.lean ====
section
/-! DEFINITION. The host port: MemRead and MemWrite over the address map (20_memory.md R60 to R67), the control registers (10_state.md
R23 to R43), the issue of a command (30_encoding.md R91 steps 1 and 2) and the two resets (70_reset_and_hazards.md R260). -/

namespace Sys2Proof.Machine

/-- A host read of control register `idx` (10_state.md R24 to R43). CTRL and CMD are write-only and read 0; an index with no
register reads 0 (R23). -/
def csrRead (s : State) (idx : Nat) : Word :=
  match idx with
  | 0x00 => 0x4D424507
  | 0x02 => statusWord s
  | 0x03 => causeWord s
  | 0x04 => s.info
  | 0x05 => s.seq
  | 0x07 => BitVec.ofNat 32 (Caps.nmax s.caps)
  | 0x08 => BitVec.ofNat 32 (s.caps.pmax.val * 65536 + s.caps.emax.val)
  | 0x10 => s.modeB
  | 0x11 => s.modeC
  | 0x12 => s.modeNE
  | 0x13 => s.modeNP
  | 0x14 => s.modePEND
  | 0x18 => s.totalBits
  | 0x19 => s.bits
  | 0x20 => s.rotOff
  | 0x21 => s.rotLen
  | 0x22 => s.rotStride
  | 0x23 => s.rotIter
  | 0x24 => s.rotTheta
  | _ => 0

/-- A host write of an RW control register; a write of an RO register or of an index with no register is ignored (10_state.md R23).
CTRL and CMD are not here: `hostWrite` takes them first. -/
def csrWrite (idx : Nat) (w : Word) (s : State) : State :=
  match idx with
  | 0x10 => { s with modeB := w }
  | 0x11 => { s with modeC := w }
  | 0x12 => { s with modeNE := w }
  | 0x13 => { s with modeNP := w }
  | 0x14 => { s with modePEND := w }
  | 0x18 => { s with totalBits := w }
  | 0x20 => { s with rotOff := w }
  | 0x21 => { s with rotLen := w }
  | 0x22 => { s with rotStride := w }
  | 0x23 => { s with rotIter := w }
  | 0x24 => { s with rotTheta := w }
  | _ => s

/-- `MemRead(space, idx)` outside space 0x00: the element, 0 where the map lists nothing (20_memory.md R61), and no word for an
unwritten element (60_exceptions.md R241). -/
def memRead (s : State) (space idx : Nat) : Except Refusal Word :=
  match memOfSpace space with
  | none => .ok 0
  | some m =>
    if idx < m.size s.caps then
      match Memory.read s.mem (addr m idx) with
      | some w => .ok w
      | none => .error (.hostReadUnwritten m idx)
    else .ok 0

/-- `MemRead(space, idx)` (20_memory.md R61). It has no side effect (R65). -/
def hostRead (s : State) (space idx : Nat) : Except Refusal Word :=
  if space = 0 then .ok (csrRead s idx) else memRead s space idx

/-- `MemWrite(space, idx, w)` outside space 0x00: ignored where the map lists nothing (20_memory.md R61). -/
def memWrite (space idx : Nat) (w : Word) (s : State) : State :=
  match memOfSpace space with
  | none => s
  | some m => if idx < m.size s.caps then { s with mem := writeElem m idx w s.mem } else s

/-- BUSY is set and the command gets its number (30_encoding.md R91 step 1). -/
def begin (s : State) : State := { s with busy := true, draws := s.draws + 1 }

/-- A word written to CMD while HALT = 0 (30_encoding.md R91): decode; an illegal word raises ILLEGAL_CMD(w), any other command
executes. -/
def issue (w : Word) (s : State) : Host.Outcome State Fault Refusal :=
  match decode w with
  | .error _ => .next (raise .illegalCmd w (begin s))
  | .ok i => exec i (begin s)

/-- `MemWrite(space, idx, w)` (20_memory.md R61). CTRL is accepted in every state: bit 0 resets, the other bits are ignored
(10_state.md R25). With HALT = 1 every other write is ignored, CMD included (60_exceptions.md R230). -/
def hostWrite (space idx : Nat) (w : Word) (s : State) : Host.Outcome State Fault Refusal :=
  if space = 0 ∧ idx = 1 then .next (if w.getLsbD 0 then resetCore s else s)
  else if s.halt then .next s
  else if space = 0 ∧ idx = 6 then issue w s
  else if space = 0 then .next (csrWrite idx w s)
  else .next (memWrite space idx w s)

/-- One move of the host in a state where it has been taken off the list. While BUSY = 1 the host may only read STATUS
(70_reset_and_hazards.md R263). -/
def performMove (mv : HostMove) (s : State) : Host.Outcome State Fault Refusal :=
  match mv with
  | .powerOnReset => .next (resetCore s)
  | .setCoder ec => if s.busy then .refused .hostMoveWhileBusy else .next { s with ec := ec }
  | .read space index =>
    if s.busy && !(space.toNat == 0 && index.toNat == 2) then .refused .hostMoveWhileBusy
    else
      match hostRead s space.toNat index.toNat with
      | .ok w => .next { s with readData := some w }
      | .error r => .refused r
  | .write space index w =>
    if s.busy then .refused .hostMoveWhileBusy else hostWrite space.toNat index.toNat w s

/-- The next host move of the list, or nothing when the host has none: the CORE is idle (60_exceptions.md R239,
70_reset_and_hazards.md R270). -/
def nextMove (s : State) : Host.Outcome State Fault Refusal :=
  match s.moves with
  | [] => .next s
  | mv :: rest => performMove mv { s with moves := rest }

/-- The host move that issues a command word: a write to CMD, space 0x00, index 0x06 (10_state.md R30). -/
def commandMove (w : Word) : HostMove := .write 0x00 0x06 w

end Sys2Proof.Machine
end

