-- ==== Sys2Proof/Machine/Step.lean ====
section
/-! DEFINITION. The step of the machine: one host move, a command and all its effects being one move (00_scope.md R4, 20_memory.md
R68). Nothing is fetched (10_state.md R22): the next command is the host's next write to CMD. -/

namespace Sys2Proof.Machine

/-- One step: the next host move. -/
def step (s : State) : Host.Outcome State Fault Refusal := nextMove s

/-- The state in which the host's very next move writes this command word to CMD; the moves it had planned come after it. -/
def State.withFetchWord (s : State) (nbits w : Nat) : State :=
  { s with moves := commandMove (BitVec.ofNat 32 (w % 2 ^ nbits)) :: s.moves }

end Sys2Proof.Machine
end

