-- ==== Sys2Proof/Safety.lean ====
section
/-! DEFINITION. The terms in which claims are made: the invariant of a run, when a mode holds, which elements are written, and the
commands' algorithms over plain arrays (functions from index to word), as the rules of spec/ give them, with no memory list, no
address and no early stop in them. -/

namespace Sys2Proof.Machine

open F32

/-! ### The invariant -/

/-- Every listed element is one the address map lists (20_memory.md R62, R66). -/
def Memory.mapped (c : Caps) (mem : Memory) : Bool := mem.all fun cell => addrMapped c cell.1

/-- BUSY is 0 between steps (10_state.md R26); CAUSE and INFO are 0 while HALT = 0 (R27, R28); CAUSE is one of the six codes while
HALT = 1 (60_exceptions.md R220). -/
def State.flagsOk (s : State) : Bool :=
  !s.busy &&
  (if s.halt then decide (1 ≤ s.cause.toNat) && decide (s.cause.toNat ≤ 6) else s.cause == 0 && s.info == 0)

/-- The invariant of a run: the memory is in its canonical form and holds only elements that exist, and the flags agree. -/
def State.Inv (s : State) : Bool :=
  Memory.wf s.mem && Memory.mapped s.caps s.mem && State.flagsOk s

/-! ### Written elements and their values -/

/-- Elements `lo .. hi-1` of a memory are written. -/
abbrev Written (mem : Memory) (m : MemName) (lo hi : Nat) : Prop :=
  ∀ k, k < hi → lo ≤ k → (Memory.read mem (addr m k)).isSome = true

/-- An array of words: the value of every index. -/
abbrev Vals := Nat → Word

/-- What a memory holds, as an array; an unwritten element is read as 0 here, so a claim that uses it says first that the element
is written. -/
def vals (mem : Memory) (m : MemName) : Vals := fun k => (Memory.read mem (addr m k)).getD 0

/-! ### The mode (10_state.md R46) -/

/-- Entry `k` of a mode table. -/
def tableVal (s : State) (m : MemName) (k : Nat) : Nat := u32 (vals s.mem m k)

/-- Check number `k` of ModeValid, on the registers and tables of the state (10_state.md R46). -/
def ModeCheck (s : State) : Nat → Prop
  | 1 => 1 ≤ u32 s.modeB
  | 2 => u32 s.modeC = 1 ∨ u32 s.modeC = 2
  | 3 => u32 s.modeNE ≤ s.caps.emax.val ∧ u32 s.modeNP ≤ s.caps.pmax.val
  | 4 => ∀ k, k ≤ u32 s.modeNE → tableVal s .ebands k < tableVal s .ebands (k + 1)
  | 5 => ∀ k, k ≤ u32 s.modeNP → tableVal s .pbands k ≤ tableVal s .pbands (k + 1)
  | 6 => tableVal s .ebands 0 ≤ tableVal s .pbands 0 ∧
      tableVal s .pbands (u32 s.modeNP) ≤ tableVal s .ebands (u32 s.modeNE)
  | 7 => tableVal s .pbands (u32 s.modeNP + 1) ≤ tableVal s .ebands (u32 s.modeNE + 1)
  | 8 => ∃ k, k ≤ u32 s.modeNE + 1 ∧ u32 s.modePEND = tableVal s .ebands k
  | _ => True

/-- The table entries that checks 4 to `k` read are written: EBANDS from check 4 on, PBANDS from check 5 on. -/
def TablesWritten (s : State) (k : Nat) : Prop :=
  (4 ≤ k → Written s.mem .ebands 0 (u32 s.modeNE + 2)) ∧ (5 ≤ k → Written s.mem .pbands 0 (u32 s.modeNP + 2))

/-- `k` is the number of the first check that fails. -/
def FirstFailedCheck (s : State) (k : Nat) : Prop :=
  1 ≤ k ∧ k ≤ 8 ∧ TablesWritten s k ∧ (∀ j, 1 ≤ j → j < k → ModeCheck s j) ∧ ¬ ModeCheck s k

/-- All eight checks hold, on written tables. -/
def ModeValid (s : State) : Prop := TablesWritten s 8 ∧ ∀ j, 1 ≤ j → j ≤ 8 → ModeCheck s j

/-- `B*C*e[NE+1]` (00_scope.md R11). -/
def spectrumLength (s : State) : Nat := u32 s.modeB * u32 s.modeC * tableVal s .ebands (u32 s.modeNE + 1)

/-- `m` is the mode that the state's registers and tables hold. -/
def HoldsMode (s : State) (m : Mode) : Prop :=
  m.b = u32 s.modeB ∧ m.c = u32 s.modeC ∧ m.ne = u32 s.modeNE ∧ m.np = u32 s.modeNP ∧ m.pend = u32 s.modePEND ∧
  m.ebands = (List.range (u32 s.modeNE + 2)).map (tableVal s .ebands) ∧
  m.pbands = (List.range (u32 s.modeNP + 2)).map (tableVal s .pbands)

/-- Step 3 of 30_encoding.md R91 passes: the state holds mode `m`, ModeValid holds on written tables, and the spectrum length is at
most NMAX. -/
def ModeOk (s : State) (m : Mode) : Prop := HoldsMode s m ∧ ModeValid s ∧ spectrumLength s ≤ Caps.nmax s.caps

/-- The command reads the mode: every command but ROT (10_state.md R46). -/
def readsMode : Instr → Bool
  | .cbe _ _ => true
  | .nrm _ _ _ => true
  | .dnrm _ _ _ => true
  | .rnrm _ => true
  | .rot _ _ => false
  | .cpg _ _ _ => true
  | .pqb _ => true
  | .qb _ _ _ => true
  | .uqb _ _ => true
  | .smix _ _ _ => true

/-! ### Command words (30_encoding.md R89) -/

/-- The numbers of the operand names in an assembler line (30_encoding.md R89). -/
def spectrumNumber : Spectrum → Word
  | .freq => 0
  | .x => 1
  | .p => 2
  | .w => 3
  | .norm => 4

/-- BANK is 0 and TMPE is 1 (R89). -/
def bankNumber : EnergyMem → Word
  | .bank => 0
  | .tmpe => 1

/-- `+1` gives DIR = 0 and `-1` gives DIR = 1 (R89). -/
def dirNumber : Dir → Word
  | .plus => 0
  | .minus => 1

/-! ### Illegal command words (30_encoding.md R85, R86) -/

/-- The opcode byte of a word. -/
def opcOf (w : Word) : Nat := (w >>> 24).toNat

/-- The bits of a word below OPC that the row of this opcode does not use: the complement of its select, BK and DIR fields in the
`used` column of R84. -/
def unusedMask : Nat → Word
  | 0x01 => 0x000FF7FF
  | 0x02 => 0x0000F7FF
  | 0x03 => 0x0000F7FF
  | 0x04 => 0x000FFFFF
  | 0x05 => 0x000FFBFF
  | 0x06 => 0x0000F7FF
  | 0x07 => 0x00F0FFFF
  | 0x08 => 0x00000FFF
  | 0x09 => 0x0000FFFF
  | 0x0A => 0x000FF3FF
  | _ => 0

/-- The lowest bits of the select fields that the row of this opcode uses (R84): SA 20, SB 16, SC 12. -/
def usedSelects : Nat → List Nat
  | 0x01 => [20]
  | 0x02 => [20, 16]
  | 0x03 => [20, 16]
  | 0x04 => [20]
  | 0x05 => [20]
  | 0x06 => [20, 16]
  | 0x07 => [16]
  | 0x08 => [20, 16, 12]
  | 0x09 => [20, 16]
  | 0x0A => [20]
  | _ => []

/-- The 4-bit code of a select field. -/
def selectCode (w : Word) (lo : Nat) : Nat := ((w >>> lo) &&& 0xF).toNat

/-- A word R86 calls illegal: OPC 0x00, OPC 0x0B to 0xFF, a set bit in RSV or an unused field (R85), or a used select field that
holds 5 to 15. -/
def IllegalWord (w : Word) : Prop :=
  opcOf w = 0 ∨ 0x0B ≤ opcOf w ∨ w &&& unusedMask (opcOf w) ≠ 0 ∨ ∃ lo ∈ usedSelects (opcOf w), 5 ≤ selectCode w lo

/-! ### How a command ends -/

/-- The state after a command that retires and changes the memory alone (30_encoding.md R91 step 6). -/
def RetiredTo (s : State) (mem : Memory) : State := { s with mem := mem, seq := s.seq + 1, busy := false }

/-- The state after a fault taken in state `s` (60_exceptions.md R228). -/
def FaultedTo (s : State) (code : BitVec 8) (info : Word) : State :=
  { s with cause := code, info := info, halt := true, busy := false }

/-- The state after a reset, with the host's remaining moves (10_state.md R58, 70_reset_and_hazards.md R261). -/
def afterReset (s : State) (rest : List HostMove) : State :=
  { caps := s.caps, busy := false, halt := false, cause := 0, info := 0, seq := 0, modeB := 0, modeC := 0, modeNE := 0,
    modeNP := 0, modePEND := 0, totalBits := 0, bits := 0, rotOff := 0, rotLen := 0, rotStride := 1, rotIter := 8,
    rotTheta := 0, mem := [], ec := s.ec, moves := rest, readData := s.readData, draws := s.draws }

/-- The host's move is one of the two resets: power-on, or a write to CTRL with bit 0 set (10_state.md R25,
70_reset_and_hazards.md R260). -/
def IsReset (mv : HostMove) : Prop := mv = .powerOnReset ∨ ∃ w : Word, mv = .write 0x00 0x01 w ∧ w.getLsbD 0 = true

/-- `exec` of a CORE with this configuration; `exec` itself is `execWith Config.hw`. Claims about how a command ends speak of every
configuration, so that collaborators that are written out can show each ending. -/
def execWith (cfg : Config) (i : Instr) (s : State) : Host.Outcome State Fault Refusal :=
  match i with
  | .cbe sa bk => cbe cfg sa bk s
  | .nrm sa sb bk => nrm cfg sa sb bk s
  | .dnrm sa sb bk => dnrm cfg sa sb bk s
  | .rnrm sa => rnrm cfg sa s
  | .rot sa dir => rot cfg sa dir s
  | .cpg sa sb bk => cpg cfg sa sb bk s
  | .pqb sb => pqb cfg sb s
  | .qb sa sb sc => qb cfg sa sb sc s
  | .uqb sa sb => uqb cfg sa sb s
  | .smix sa bk dir => smix cfg sa bk dir s

/-- The command is QB or UQB, the commands that call the ports (44_collaborators.md R155). -/
def usesPorts : Instr → Bool
  | .cbe _ _ => false
  | .nrm _ _ _ => false
  | .dnrm _ _ _ => false
  | .rnrm _ => false
  | .rot _ _ => false
  | .cpg _ _ _ => false
  | .pqb _ => false
  | .qb _ _ _ => true
  | .uqb _ _ => true
  | .smix _ _ _ => false

/-- Every element of every table and memory is written. -/
def AllWritten (s : State) : Prop := ∀ a, addrMapped s.caps a = true → (Memory.read s.mem a).isSome = true

/-- The address map's rows outside space 0x00: a space number and how many elements it has (20_memory.md R62). -/
def mapRows (c : Caps) : List (Nat × Nat) :=
  [(0x01, c.emax.val + 2), (0x02, c.pmax.val + 2), (0x10, Caps.nmax c), (0x11, Caps.nmax c), (0x12, Caps.nmax c),
   (0x13, Caps.nmax c), (0x14, Caps.nmax c), (0x20, max 1 (2 * c.emax.val)), (0x21, max 1 (2 * c.emax.val)),
   (0x22, max 1 c.pmax.val), (0x23, max 1 c.emax.val), (0x24, Caps.nmax c)]

/-! ### What a command may write (70_reset_and_hazards.md R266) -/

/-- The address of one of the elements `lo .. hi-1` of a memory. -/
abbrev InRange (m : MemName) (lo hi a : Nat) : Prop := addr m lo ≤ a ∧ a < addr m hi

/-- The addresses a command may write under mode `m`, from the Writes entries of the commands' rules (R266): a band range and the
padding tail after it are one range, from `Bq*e[0]` to `Bq*e[NE+1]`. -/
def Writes (i : Instr) (s : State) (m : Mode) (a : Nat) : Prop :=
  match i with
  | .cbe _ bk => InRange (bank bk) 0 (m.ne * m.c) a
  | .nrm _ sb _ => InRange (sel sb) (Mode.flatStart m 0) (Mode.flatStart m (m.ne + 1)) a
  | .dnrm _ sb _ => InRange (sel sb) (Mode.flatStart m 0) (Mode.flatStart m (m.ne + 1)) a
  | .rnrm sa => InRange (bank .tmpe) 0 (m.ne * m.c) a ∨
      InRange (sel sa) (Mode.flatStart m 0) (Mode.flatStart m (m.ne + 1)) a
  | .rot sa _ => InRange (sel sa) (u32 s.rotOff) (u32 s.rotOff + u32 s.rotLen) a
  | .cpg _ sb _ => InRange .wgt (Mode.flatStart m 0) (Mode.flatStart m m.ne) a ∨ InRange .gains 0 m.np a ∨
      InRange (sel sb) (Mode.pitchStart m m.np) (Mode.pitchStart m (m.np + 1)) a
  | .pqb sb => InRange (sel sb) (Mode.pitchStart m 0) (Mode.pitchStart m (m.np + 1)) a
  | .qb sa sb _ => InRange .pulses 0 m.ne a ∨
      InRange (sel sa) (Mode.flatStart m 0) (Mode.flatStart m (m.ne + 1)) a ∨
      InRange (sel sb) (Mode.flatStart m 0) (Mode.flatStart m m.ne) a ∨
      InRange (sel .norm) (Mode.flatStart m 0) (Mode.flatStart m m.ne) a
  | .uqb sa sb => InRange .pulses 0 m.ne a ∨
      InRange (sel sa) (Mode.flatStart m 0) (Mode.flatStart m (m.ne + 1)) a ∨
      InRange (sel sb) (Mode.flatStart m 0) (Mode.flatStart m m.ne) a ∨
      InRange (sel .norm) (Mode.flatStart m 0) (Mode.flatStart m m.ne) a
  | .smix sa _ _ => InRange (sel sa) (Mode.flatStart m 0) (Mode.flatStart m (m.ne + 1)) a

/-- The allocator's pulses for the state (45_quantiser.md R180): `bits = s32(TOTAL_BITS) - bits_used - 1`. -/
def pulsesFor (cfg : Config) (m : Mode) (s : State) (i : Nat) : Word :=
  cfg.computeAllocation
    { mode := m, offsets := List.replicate m.ne 0, bits := s32 s.totalBits - cfg.bitsUsed s.ec - 1 } i

/-! ### What a command reads (70_reset_and_hazards.md R262 step 3) -/

/-- Element `k` belongs to a pair that `RotSlice` rotates: with `stride < L < 2*stride` the elements between the pairs are touched by
none (42_rotation.md R126, R127). -/
def RotTouches (off len stride k : Nat) : Prop := off ≤ k ∧ k < off + len ∧ (k + stride < off + len ∨ off + stride ≤ k)

/-- The checks of steps 2 to 4 of 30_encoding.md R91 let the command start its work, under mode `m` if it reads the mode. -/
def Startable (i : Instr) (s : State) (m : Mode) : Prop :=
  match i with
  | .rot _ _ => u32 s.rotStride ≠ 0 ∧ u32 s.rotOff + u32 s.rotLen ≤ Caps.nmax s.caps
  | .smix _ _ _ => ModeOk s m ∧ m.c = 2
  | .qb sa sb sc => ModeOk s m ∧ (Instr.qb sa sb sc).WellFormed = true
  | .uqb sa sb => ModeOk s m ∧ (Instr.uqb sa sb).WellFormed = true
  | .cbe _ _ => ModeOk s m
  | .nrm _ _ _ => ModeOk s m
  | .dnrm _ _ _ => ModeOk s m
  | .rnrm _ => ModeOk s m
  | .cpg _ _ _ => ModeOk s m
  | .pqb _ => ModeOk s m

/-- An address of SB in a band that codes pulses in inter mode (45_quantiser.md R182, R184, R185). -/
def InterPrediction (cfg : Config) (s : State) (m : Mode) (sb : Spectrum) (a : Nat) : Prop :=
  ∃ i, i < m.ne ∧ Mode.e m i < m.pend ∧ 0 < s32 (pulsesFor cfg m s i) ∧
    InRange (sel sb) (Mode.flatStart m i) (Mode.flatStart m (i + 1)) a

/-- An address of NORM below the first band, when some band takes intra mode (44_collaborators.md R163, 45_quantiser.md R182). -/
def IntraContext (cfg : Config) (s : State) (m : Mode) (a : Nat) : Prop :=
  (∃ i, i < m.ne ∧ (m.pend ≤ Mode.e m i ∨ s32 (pulsesFor cfg m s i) ≤ 0)) ∧ InRange (sel .norm) 0 (Mode.flatStart m 0) a

/-- An address of SA in a band that UQB leaves as it was until the context copy reads it (45_quantiser.md R186): the band codes no
pulses, in fold mode or with one pulse in intra mode (R182), and the answer of its INTRA call carries no Xs' (44_collaborators.md
R160, R162). The context and the coder state in the request are those of the run when it reaches the band. -/
def UnfilledBand (cfg : Config) (s : State) (m : Mode) (sa sb : Spectrum) (a : Nat) : Prop :=
  ∃ i, i < m.ne ∧ InRange (sel sa) (Mode.flatStart m i) (Mode.flatStart m (i + 1)) a ∧
    let q0 := s32 (pulsesFor cfg m s i)
    (q0 ≤ 0 ∨ (q0 = 1 ∧ m.pend ≤ Mode.e m i)) ∧
    ∀ (r : QRun) (nctx : List Word),
      forUp 0 i (fun i r => quantBand cfg (Draws.sub (drawsOf cfg s) i) .decoder m sa sb i r) (quantPrologue cfg m s) = .ok r →
      intraContext m i r.mem = .ok nctx →
      (q0 ≤ 0 → (cfg.intraFold { mode := m, band := i, side := .decoder, nctx := nctx, xs := none }).xs = none) ∧
      (q0 = 1 → (cfg.intraUnquant { mode := m, band := i, q := 0, nctx := nctx, ec := r.ec }).xs = none)

/-- The addresses that the command reads, on every run to its end, before it writes them itself: the Reads entries of the commands'
rules. QB and UQB read SB in the bands that code pulses in inter mode, and the NORM prefix if a band takes intra mode; QB reads SA in
every band and SC in the bands with pulses, UQB reads SA only in the context copy of a band that nothing has filled. -/
def ReadsFirst (cfg : Config) (i : Instr) (s : State) (m : Mode) (a : Nat) : Prop :=
  match i with
  | .cbe sa _ => InRange (sel sa) (Mode.flatStart m 0) (Mode.flatStart m m.ne) a
  | .nrm sa _ bk => InRange (sel sa) (Mode.flatStart m 0) (Mode.flatStart m m.ne) a ∨ InRange (bank bk) 0 (m.ne * m.c) a
  | .dnrm sa _ bk => InRange (sel sa) (Mode.flatStart m 0) (Mode.flatStart m m.ne) a ∨ InRange (bank bk) 0 (m.ne * m.c) a
  | .rnrm sa => InRange (sel sa) (Mode.flatStart m 0) (Mode.flatStart m m.ne) a
  | .rot sa _ => 0 < u32 s.rotIter ∧ ∃ k, RotTouches (u32 s.rotOff) (u32 s.rotLen) (u32 s.rotStride) k ∧ a = addr (sel sa) k
  | .cpg sa sb bk => InRange (bank bk) 0 (m.ne * m.c) a ∨
      InRange (sel sa) (Mode.pitchStart m 0) (Mode.pitchStart m m.np) a ∨
      InRange (sel sb) (Mode.pitchStart m 0) (Mode.pitchStart m m.np) a
  | .pqb sb => InRange (sel sb) (Mode.pitchStart m 0) (Mode.pitchStart m m.np) a ∨
      ∃ k, k < m.np ∧ Mode.p m k < Mode.p m (k + 1) ∧ a = addr .gains k
  | .qb sa sb sc => InRange (sel sa) (Mode.flatStart m 0) (Mode.flatStart m m.ne) a ∨
      (∃ i, i < m.ne ∧ 0 < s32 (pulsesFor cfg m s i) ∧ InRange (sel sc) (Mode.flatStart m i) (Mode.flatStart m (i + 1)) a) ∨
      InterPrediction cfg s m sb a ∨ IntraContext cfg s m a
  | .uqb sa sb => InterPrediction cfg s m sb a ∨ IntraContext cfg s m a ∨ UnfilledBand cfg s m sa sb a
  | .smix sa bk _ => InRange (sel sa) (Mode.flatStart m 0) (Mode.flatStart m m.ne) a ∨ InRange (bank bk) 0 (m.ne * m.c) a

/-! ### Binary32 values, from the format alone (20_memory.md R63) -/

/-- Exponent bits 30:23. -/
def exponentOf (a : Word) : Nat := (a.extractLsb' 23 8).toNat

/-- Fraction bits 22:0. -/
def fractionOf (a : Word) : Nat := (a.extractLsb' 0 23).toNat

/-- The word is a NaN. -/
abbrev IsNaN (a : Word) : Prop := exponentOf a = 255 ∧ fractionOf a ≠ 0

/-- The word is an infinity. -/
abbrev IsInf (a : Word) : Prop := exponentOf a = 255 ∧ fractionOf a = 0

/-- The word is neither a NaN nor an infinity. -/
abbrev IsFinite (a : Word) : Prop := exponentOf a ≠ 255

/-- The value of a word in units of 2^-149. An infinity counts as 2^128, the first power of two that binary32 does not hold: that is
where IEEE 754 sets it when it decides whether a result overflows. -/
noncomputable def valueR (a : Word) : ℝ :=
  (if a.getLsbD 31 then -1 else 1) *
    (if exponentOf a = 0 then (fractionOf a : ℝ) else (2 ^ 23 + (fractionOf a : ℝ)) * 2 ^ (exponentOf a - 1))

/-- `r` is `x` units rounded to nearest, ties to even (00_scope.md R9): no word but a NaN is nearer, and of two that are equally near
the one with the even significand is taken. -/
def RoundedTo (r : Word) (x : ℝ) : Prop :=
  ¬ IsNaN r ∧ ∀ v : Word, ¬ IsNaN v → |valueR r - x| ≤ |valueR v - x| ∧
    (|valueR r - x| = |valueR v - x| → valueR v = valueR r ∨ r.getLsbD 0 = false)

/-! ### Algorithms over arrays -/

/-- Apply `f` for k = lo .. hi-1 ascending (00_scope.md R8). -/
def upFold {α : Type} (lo hi : Nat) (f : Nat → α → α) (x : α) : α :=
  (List.range' lo (hi - lo)).foldl (fun y k => f k y) x

/-- Apply `f` for k descending from n-1 to 0. -/
def downFold {α : Type} (n : Nat) (f : Nat → α → α) (x : α) : α :=
  (List.range n).reverse.foldl (fun y k => f k y) x

/-- Set one element of an array. -/
def Vals.set (v : Vals) (k : Nat) (w : Word) : Vals := fun j => if j = k then w else v j

/-- CBE's value for band `i`, channel `c` (40_energy.md R100). -/
def bandEnergyOf (d : Draws) (m : Mode) (c i : Nat) (v : Vals) : Word :=
  fsqrt (d [c, i])
    (upFold (m.b * Mode.e m i) (m.b * Mode.e m (i + 1))
      (fun j acc => fadd (d [c, i, j, 1]) acc (fmul (d [c, i, j, 0]) (v (j * m.c + c)) (v (j * m.c + c)))) EPS)

/-- The two sums of pitch band `k` (43_pitch.md R141). -/
def pitchSumsOf (d : Draws) (m : Mode) (k : Nat) (x pr w : Vals) : Word × Word :=
  upFold (Mode.bq m * Mode.p m k) (Mode.bq m * Mode.p m (k + 1))
    (fun f sums =>
      (fadd (d [k, f, 2]) sums.1 (fmul (d [k, f, 1]) (fmul (d [k, f, 0]) (x f) (pr f)) (w f)),
       fadd (d [k, f, 5]) sums.2 (fmul (d [k, f, 4]) (fmul (d [k, f, 3]) (x f) (x f)) (w f))))
    (ZERO, ZERO)

/-- The gain of pitch band `k` (43_pitch.md R141). -/
def gainOf (d : Draws) (m : Mode) (k : Nat) (x pr w : Vals) : Word :=
  fmul (d [k, 2])
    (clip01 (fdiv (d [k, 1]) (pitchSumsOf d m k x pr w).1 (fadd (d [k, 0]) EPS (pitchSumsOf d m k x pr w).2)))
    K_GAIN

/-- `Rot2` on an array (42_rotation.md R125). -/
def rot2Vals (d : Draws) (a b : Nat) (c s : Word) (v : Vals) : Vals :=
  (v.set a (fsub (d [2]) (fmul (d [0]) c (v a)) (fmul (d [1]) s (v b)))).set b
    (fadd (d [5]) (fmul (d [3]) c (v b)) (fmul (d [4]) s (v a)))

/-- `RotSlice` on an array (42_rotation.md R126). -/
def rotVals (cfg : Config) (d : Draws) (off len : Nat) (theta : Word) (dir : Dir) (stride iter : Nat) (v : Vals) : Vals :=
  let c := cfg.fcos theta
  let s := match dir with
    | .plus => cfg.fsin theta
    | .minus => fneg (cfg.fsin theta)
  upFold 0 iter (fun t v =>
    downFold (len - 2 * stride) (fun i v => rot2Vals (fun site => d (t :: 1 :: i :: site)) (off + i) (off + i + stride) c s v)
      (upFold 0 (len - stride) (fun i v => rot2Vals (fun site => d (t :: 0 :: i :: site)) (off + i) (off + i + stride) c s v) v)) v

/-- The arrays and values the band loop of QB and UQB carries: X, P, norm, the coder state and alpha. -/
structure QArrays where
  x : Vals
  p : Vals
  norm : Vals
  ec : Coder
  alpha : Word

/-- Elements `lo .. lo+n-1` of an array as a list. -/
def sliceOf (v : Vals) (lo n : Nat) : List Word := (List.range n).map fun k => v (lo + k)

/-- An array with the first `n` values of an answer over elements `lo .. lo+n-1`. -/
def paste (v : Vals) (lo n : Nat) (f : Nat → Word) : Vals := fun k => if lo ≤ k ∧ k < lo + n then f (k - lo) else v k

/-- An array with an optional answer pasted in. -/
def pasteOption (v : Vals) (lo n : Nat) (f : Option (Nat → Word)) : Vals :=
  match f with
  | none => v
  | some g => paste v lo n g

/-- The mode decision of band `i` on arrays (45_quantiser.md R182, 44_collaborators.md R160 to R163). `w` is the array W of the
encoder; the decoder has none. -/
def decideVals (cfg : Config) (m : Mode) (w : Option Vals) (i : Nat) (q0 : Int) (a : QArrays) : QArrays :=
  let lo := Mode.bq m * Mode.e m i
  let len := Mode.bq m * Mode.e m (i + 1) - lo
  let nctx := sliceOf a.norm 0 lo
  if m.pend ≤ Mode.e m i ∨ q0 ≤ 0 then
    if q0 - 1 < 0 then
      let ans := match w with
        | some _ => cfg.intraFold { mode := m, band := i, side := .encoder, nctx := nctx, xs := some (sliceOf a.x lo len) }
        | none => cfg.intraFold { mode := m, band := i, side := .decoder, nctx := nctx, xs := none }
      { a with x := pasteOption a.x lo len ans.xs, p := paste a.p lo len ans.ps, alpha := ALPHA_INTRA }
    else
      let ans := match w with
        | some wv => cfg.intraPrediction
            { mode := m, band := i, q := q0 - 1, nctx := nctx, xs := sliceOf a.x lo len, ws := sliceOf wv lo len, ec := a.ec }
        | none => cfg.intraUnquant { mode := m, band := i, q := q0 - 1, nctx := nctx, ec := a.ec }
      { a with x := pasteOption a.x lo len ans.xs, p := paste a.p lo len ans.ps, ec := ans.ec, alpha := ALPHA_INTRA }
  else a

/-- The VQ step of band `i` on arrays (45_quantiser.md R184, R185), with R181's angle; `q` is the count after the mode decision. -/
def vqVals (cfg : Config) (d : Draws) (m : Mode) (w : Option Vals) (i : Nat) (q0 q : Int) (a : QArrays) : QArrays :=
  let lo := Mode.bq m * Mode.e m i
  let len := Mode.bq m * Mode.e m (i + 1) - lo
  let theta := fdiv (d [4]) (fmul (d [2]) K_THETA (i2f len)) (fadd (d [3]) K_QOFF (i2f q0))
  let p := rotVals cfg (fun site => d (5 :: site)) lo len theta .minus (Mode.bq m) 8 a.p
  let x := rotVals cfg (fun site => d (6 :: site)) lo len theta .minus (Mode.bq m) 8 a.x
  let ans := match w with
    | some wv => cfg.algQuant
        { xs := sliceOf x lo len, ws := sliceOf wv lo len, len := len, q := q, ps := sliceOf p lo len, alpha := a.alpha, ec := a.ec }
    | none => cfg.algUnquant { len := len, q := q, ps := sliceOf p lo len, alpha := a.alpha, ec := a.ec }
  let back := match w with
    | some _ => paste x lo len ans.xs
    | none => paste a.x lo len ans.xs
  if 0 < q then
    { a with x := rotVals cfg (fun site => d (7 :: site)) lo len theta .plus (Mode.bq m) 8 back, p := p, ec := ans.ec }
  else a

/-- One band of QB or UQB on arrays (45_quantiser.md R181 to R186, R190). -/
def bandVals (cfg : Config) (d : Draws) (m : Mode) (w : Option Vals) (i : Nat) (q0 : Int) (a : QArrays) : QArrays :=
  let lo := Mode.bq m * Mode.e m i
  let len := Mode.bq m * Mode.e m (i + 1) - lo
  let q := if m.pend ≤ Mode.e m i ∨ q0 ≤ 0 then q0 - 1 else q0
  let n := fmul (d [1]) K_NORM (fsqrt (d [0]) (i2f len))
  let b := vqVals cfg d m w i q0 q (decideVals cfg m w i q0 a)
  { b with norm := fun k => if lo ≤ k ∧ k < lo + len then fmul (d [8, k]) (b.x k) n else b.norm k }

/-- An encoder whose coder state is `a` may go on, by coding calls with any requests, to the state `f` (44_collaborators.md R158,
R161). -/
inductive LeadsTo (cfg : Config) : Coder → Coder → Prop
  | done (f : Coder) : LeadsTo cfg f f
  | vq (r : AlgQuantRequest) (f : Coder) : LeadsTo cfg (cfg.algQuant r).ec f → LeadsTo cfg r.ec f
  | intra (r : PredictionRequest) (f : Coder) : LeadsTo cfg (cfg.intraPrediction r).ec f → LeadsTo cfg r.ec f

/-- What the collaborators owe for encoder and decoder to agree (44_collaborators.md R164, property 2), as hypotheses on the
configuration. `Reads f a b` says: decoder state `b` reads the bits of the encoder state `f` that the encoder PRODUCED in the end, and
has read as far as the encoder had written when its state was `a`. Each call of the decoder owes the encoder's answer only where
the encoder's call, with the target it had, led on to `f`; so the codeword may depend on the target. A band that ends with no
pulses must get its Xs' from the INTRA answer on both sides (R160). -/
structure Agreeing (cfg : Config) (Reads : Coder → Coder → Coder → Prop) : Prop where
  bits : ∀ f a b, Reads f a b → cfg.bitsUsed a = cfg.bitsUsed b
  vq : ∀ (xs ws : List Word) (len : Nat) (q : Int) (ps : List Word) (alpha : Word) (f a b : Coder), Reads f a b →
    let ea := cfg.algQuant { xs := xs, ws := ws, len := len, q := q, ps := ps, alpha := alpha, ec := a }
    let da := cfg.algUnquant { len := len, q := q, ps := ps, alpha := alpha, ec := b }
    LeadsTo cfg ea.ec f → (∀ k, k < len → ea.xs k = da.xs k) ∧ Reads f ea.ec da.ec
  fold : ∀ (m : Mode) (i : Nat) (nctx xs : List Word),
    let ea := cfg.intraFold { mode := m, band := i, side := .encoder, nctx := nctx, xs := some xs }
    let da := cfg.intraFold { mode := m, band := i, side := .decoder, nctx := nctx, xs := none }
    (∀ k, k < Mode.flatLen m i → ea.ps k = da.ps k) ∧
    ∃ f g, ea.xs = some f ∧ da.xs = some g ∧ ∀ k, k < Mode.flatLen m i → f k = g k
  intra : ∀ (m : Mode) (i : Nat) (q : Int) (nctx xs ws : List Word) (f a b : Coder), Reads f a b →
    let ea := cfg.intraPrediction { mode := m, band := i, q := q, nctx := nctx, xs := xs, ws := ws, ec := a }
    let da := cfg.intraUnquant { mode := m, band := i, q := q, nctx := nctx, ec := b }
    LeadsTo cfg ea.ec f → (∀ k, k < Mode.flatLen m i → ea.ps k = da.ps k) ∧ Reads f ea.ec da.ec ∧
    (q = 0 → ∃ f g, ea.xs = some f ∧ da.xs = some g ∧ ∀ k, k < Mode.flatLen m i → f k = g k)

/-- The decoder's band `i` of SA holds a value when the context copy reads it (45_quantiser.md R186): it was written before the command,
or the band codes pulses, or the answer of its INTRA call carries Xs' (44_collaborators.md R160, R162). -/
def DecoderBandFilled (cfg : Config) (m : Mode) (sa : Spectrum) (s : State) (i : Nat) : Prop :=
  let q0 := s32 (pulsesFor cfg m s i)
  Written s.mem (sel sa) (Mode.flatStart m i) (Mode.flatStart m (i + 1)) ∨
  1 < q0 ∨ (Mode.e m i < m.pend ∧ 0 < q0) ∨
  (q0 ≤ 0 ∧ ∀ nctx, (cfg.intraFold { mode := m, band := i, side := .decoder, nctx := nctx, xs := none }).xs.isSome = true) ∨
  (q0 = 1 ∧ ∀ nctx ec, (cfg.intraUnquant { mode := m, band := i, q := 0, nctx := nctx, ec := ec }).xs.isSome = true)

/-- The bands 0 .. n-1 of QB or UQB on arrays, from the state's memories (45_quantiser.md R188, R189). -/
def quantVals (cfg : Config) (m : Mode) (w : Option Vals) (sa sb : Spectrum) (s : State) (n : Nat) : QArrays :=
  upFold 0 n (fun i a => bandVals cfg (fun site => cfg.freeNaN s.draws (i :: site)) m w i (s32 (pulsesFor cfg m s i)) a)
    { x := vals s.mem (sel sa), p := vals s.mem (sel sb), norm := vals s.mem (sel .norm), ec := s.ec, alpha := ALPHA_INTER }

end Sys2Proof.Machine
end

