-- ==== Sys2Proof/Certificates/Slice0/Obligations.lean ====
section
/-! DEFINITION. The statements about the model, in the order of OBLIGATIONS.json. Each docstring names the rule of spec/ that the
statement formalises, or says what part of it is the model's choice.

Where a statement speaks of `Config.hw.freeNaN`, the word is free (assumption 3): it is the NaN that an operation delivers if its
result is a NaN, and the statement holds whatever it is. -/

open Sys2Proof Sys2Proof.Machine Sys2Proof.Machine.F32

/-! ### Encoding -/

/-- R81, R84, R85: a word decodes to a command exactly when it is that command's encoding, for every operand. -/
def Obligations.DecodeInvertsEncode : Prop := ∀ (w : Word) (i : Instr), decode w = .ok i ↔ encode i = w

/-- R89: the word of each line of assembler syntax. -/
def Obligations.EncodeFollowsSyntaxTable : Prop :=
  ∀ (sa sb sc : Spectrum) (bk : EnergyMem) (dir : Dir),
    let a := spectrumNumber sa
    let b := spectrumNumber sb
    let c := spectrumNumber sc
    let k := bankNumber bk
    let d := dirNumber dir
    encode (.cbe sa bk) = 0x01000000 + (a <<< 20) + (k <<< 11) ∧
    encode (.nrm sa sb bk) = 0x02000000 + (a <<< 20) + (b <<< 16) + (k <<< 11) ∧
    encode (.dnrm sa sb bk) = 0x03000000 + (a <<< 20) + (b <<< 16) + (k <<< 11) ∧
    encode (.rnrm sa) = 0x04000000 + (a <<< 20) ∧
    encode (.rot sa dir) = 0x05000000 + (a <<< 20) + (d <<< 10) ∧
    encode (.cpg sa sb bk) = 0x06000000 + (a <<< 20) + (b <<< 16) + (k <<< 11) ∧
    encode (.pqb sb) = 0x07000000 + (b <<< 16) ∧
    encode (.qb sa sb sc) = 0x08000000 + (a <<< 20) + (b <<< 16) + (c <<< 12) ∧
    encode (.uqb sa sb) = 0x09000000 + (a <<< 20) + (b <<< 16) ∧
    encode (.smix sa bk dir) = 0x0A000000 + (a <<< 20) + (k <<< 11) + (d <<< 10)

/-- R84: a word selects a row's command exactly when `(w & mask) = match` and its used select fields hold codes 0 to 4. -/
def Obligations.MatchAndMaskSelectTheCommand : Prop :=
  ∀ w : Word,
    ((∃ sa bk, decode w = .ok (.cbe sa bk)) ↔ w &&& 0xFF0FF7FF = 0x01000000 ∧ selectCode w 20 ≤ 4) ∧
    ((∃ sa sb bk, decode w = .ok (.nrm sa sb bk)) ↔
      w &&& 0xFF00F7FF = 0x02000000 ∧ selectCode w 20 ≤ 4 ∧ selectCode w 16 ≤ 4) ∧
    ((∃ sa sb bk, decode w = .ok (.dnrm sa sb bk)) ↔
      w &&& 0xFF00F7FF = 0x03000000 ∧ selectCode w 20 ≤ 4 ∧ selectCode w 16 ≤ 4) ∧
    ((∃ sa, decode w = .ok (.rnrm sa)) ↔ w &&& 0xFF0FFFFF = 0x04000000 ∧ selectCode w 20 ≤ 4) ∧
    ((∃ sa dir, decode w = .ok (.rot sa dir)) ↔ w &&& 0xFF0FFBFF = 0x05000000 ∧ selectCode w 20 ≤ 4) ∧
    ((∃ sa sb bk, decode w = .ok (.cpg sa sb bk)) ↔
      w &&& 0xFF00F7FF = 0x06000000 ∧ selectCode w 20 ≤ 4 ∧ selectCode w 16 ≤ 4) ∧
    ((∃ sb, decode w = .ok (.pqb sb)) ↔ w &&& 0xFFF0FFFF = 0x07000000 ∧ selectCode w 16 ≤ 4) ∧
    ((∃ sa sb sc, decode w = .ok (.qb sa sb sc)) ↔
      w &&& 0xFF000FFF = 0x08000000 ∧ selectCode w 20 ≤ 4 ∧ selectCode w 16 ≤ 4 ∧ selectCode w 12 ≤ 4) ∧
    ((∃ sa sb, decode w = .ok (.uqb sa sb)) ↔
      w &&& 0xFF00FFFF = 0x09000000 ∧ selectCode w 20 ≤ 4 ∧ selectCode w 16 ≤ 4) ∧
    ((∃ sa bk dir, decode w = .ok (.smix sa bk dir)) ↔ w &&& 0xFF0FF3FF = 0x0A000000 ∧ selectCode w 20 ≤ 4)

/-- R86, with R85 in `IllegalWord`: the decoder refuses exactly the illegal words; the all-zero and the all-ones word are among
them. -/
def Obligations.DecoderRefusesExactlyTheIllegalWords : Prop :=
  (∀ w : Word, (∃ e, decode w = .error e) ↔ IllegalWord w) ∧ IllegalWord 0 ∧ IllegalWord 0xFFFFFFFF

/-- Words of 95_test_vectors.md and of R89's table, one per row of R84, decode to the command the spec names. -/
def Obligations.SpecWordsDecode : Prop :=
  decode 0x01100800 = .ok (.cbe .x .tmpe) ∧
  decode 0x02010000 = .ok (.nrm .freq .x .bank) ∧
  decode 0x03100000 = .ok (.dnrm .x .freq .bank) ∧
  decode 0x04100000 = .ok (.rnrm .x) ∧
  decode 0x05100400 = .ok (.rot .x .minus) ∧
  decode 0x06120000 = .ok (.cpg .x .p .bank) ∧
  decode 0x07020000 = .ok (.pqb .p) ∧
  decode 0x08123000 = .ok (.qb .x .p .w) ∧
  decode 0x09120000 = .ok (.uqb .x .p) ∧
  decode 0x0A000400 = .ok (.smix .freq .bank .minus)

/-! ### The step, the host port and reset -/

/-- R30, R91: a word written to CMD while HALT = 0 that decodes to `i` is executed as `i`, BUSY set and the host's move taken off the
list; a word placed by `withFetchWord` is such a word. The command's number (`draws`, which keys the free NaN words) is the model's
(assumption 3). -/
def Obligations.StepRunsDecodedCommand : Prop :=
  (∀ (s : State) (w : Word) (i : Instr) (rest : List HostMove), s.busy = false → s.halt = false →
    s.moves = .write 0x00 0x06 w :: rest → decode w = .ok i →
    step s = exec i { s with moves := rest, busy := true, draws := s.draws + 1 }) ∧
  (∀ (s : State) (nbits w : Nat) (i : Instr), s.busy = false → s.halt = false → decodeTableWord nbits w = some i →
    step (s.withFetchWord nbits w) = exec i { s with busy := true, draws := s.draws + 1 })

/-- R221: an illegal word written to CMD sets CAUSE to 0x01 and INFO to the word; no memory and no other register changes but the
HALT bit that R228 sets. (The move list and the command number are the model's.) -/
def Obligations.IllegalWordRaisesIllegalCmd : Prop :=
  ∀ (s : State) (w : Word) (rest : List HostMove), s.busy = false → s.halt = false →
    s.moves = .write 0x00 0x06 w :: rest → IllegalWord w →
    step s = .next { FaultedTo s 0x01 w with moves := rest, draws := s.draws + 1 }

/-- R230: while HALT = 1 a write to CMD, or to anything but CTRL, is ignored; a read delivers what it delivers in any state and
changes nothing but the word the host receives. -/
def Obligations.HaltedCoreIgnoresWritesAndAnswersReads : Prop :=
  ∀ (s : State) (rest : List HostMove) (sp : BitVec 8) (ix : BitVec 16), s.halt = true → s.busy = false →
    (∀ w : Word, ¬(sp = 0x00 ∧ ix = 0x01) → s.moves = .write sp ix w :: rest → step s = .next { s with moves := rest }) ∧
    (∀ w : Word, s.moves = .read sp ix :: rest → hostRead { s with halt := false } sp.toNat ix.toNat = .ok w →
      ¬(sp = 0x00 ∧ ix = 0x02) → step s = .next { s with moves := rest, readData := some w }) ∧
    (s.moves = .read 0x00 0x02 :: rest → step s = .next { s with moves := rest, readData := some 2 })

/-- R231: the only exit from HALT is a write of 1 to CTRL.SRST or power-on, and it leaves the reset state; no command clears HALT. -/
def Obligations.OnlyResetLeavesHalt : Prop :=
  (∀ s t : State, s.halt = true → step s = .next t → t.halt = false →
    ∃ mv rest, s.moves = mv :: rest ∧ t = afterReset s rest ∧
      (mv = .powerOnReset ∨ ∃ w : Word, mv = .write 0x00 0x01 w ∧ w.getLsbD 0 = true)) ∧
  (∀ (i : Instr) (s t : State), s.halt = true → exec i s = .next t → t.halt = true)

/-- R25, R58, R260, R261: a power-on reset in every state, and a write to CTRL with bit 0 set in every state with BUSY = 0, HALT
included, leave R58's values (`afterReset`); a write to CTRL with bit 0 clear is ignored and CTRL reads 0; after reset every element
is unwritten, and the first command that reads the mode raises MODE_INVALID(1). The model's choices in it: power-on is taken while
BUSY = 1 too (log entry 18, DEDUCED); `moves`, `readData` (log entry 6) and `draws` (log entry 3) are the model's own and stay. -/
def Obligations.ResetRestoresEveryRegister : Prop :=
  ∀ (s : State) (rest : List HostMove),
    (∀ w : Word, s.busy = false → w.getLsbD 0 = true → s.moves = .write 0x00 0x01 w :: rest →
      step s = .next (afterReset s rest)) ∧
    (s.moves = .powerOnReset :: rest → step s = .next (afterReset s rest)) ∧
    (∀ w : Word, s.busy = false → w.getLsbD 0 = false → s.moves = .write 0x00 0x01 w :: rest →
      step s = .next { s with moves := rest }) ∧
    hostRead s 0x00 0x01 = .ok 0 ∧
    (∀ a, Memory.read (afterReset s rest).mem a = none) ∧
    (∀ i, readsMode i = true → exec i (afterReset s rest) = .next (FaultedTo (afterReset s rest) 0x03 1))

/-- R58: what the host reads in the state after reset, and that it reads no element of a memory. -/
def Obligations.ResetValuesReadByTheHost : Prop :=
  hostRead State.reset 0x00 0x00 = .ok 0x4D424507 ∧
  (∀ ix ∈ [0x01, 0x02, 0x03, 0x04, 0x05, 0x06, 0x10, 0x11, 0x12, 0x13, 0x14, 0x18, 0x19, 0x20, 0x21, 0x24],
    hostRead State.reset 0x00 ix = .ok 0) ∧
  hostRead State.reset 0x00 0x22 = .ok 1 ∧
  hostRead State.reset 0x00 0x23 = .ok 8 ∧
  (∀ a, Memory.read State.reset.mem a = none)

/-- R24, R26, R27, R31: the hardwired registers and the flag registers as the host reads them. -/
def Obligations.HardwiredAndStatusRegistersRead : Prop :=
  ∀ s : State,
    hostRead s 0x00 0x00 = .ok 0x4D424507 ∧
    (∃ st : Word, hostRead s 0x00 0x02 = .ok st ∧ st.getLsbD 0 = s.busy ∧ st.getLsbD 1 = s.halt ∧ st.toNat < 4) ∧
    hostRead s 0x00 0x03 = .ok (0#24 ++ s.cause) ∧
    hostRead s 0x00 0x07 = .ok (BitVec.ofNat 32 (Caps.nmax s.caps)) ∧
    hostRead s 0x00 0x08 = .ok (BitVec.ofNat 16 s.caps.pmax.val ++ BitVec.ofNat 16 s.caps.emax.val)

/-- R23: a step that takes a host write to a control register, HALT = 0 and BUSY = 0: an RW register then reads as the word written
and no other register reads differently; a write to an RO register or to an index with no register is ignored. CTRL and CMD, whose
writes act, have their own statements. -/
def Obligations.RegisterWriteReadsBack : Prop :=
  ∀ (s : State) (rest : List HostMove) (ix : BitVec 16) (w : Word), s.halt = false → s.busy = false → ix ≠ 0x01 → ix ≠ 0x06 →
    s.moves = .write 0x00 ix w :: rest →
    ∃ t, step s = .next t ∧ t.moves = rest ∧ t.mem = s.mem ∧ t.ec = s.ec ∧ t.halt = false ∧ t.busy = false ∧
      ∀ j, hostRead t 0x00 j =
        if j = ix.toNat ∧ ix.toNat ∈ [0x10, 0x11, 0x12, 0x13, 0x14, 0x18, 0x20, 0x21, 0x22, 0x23, 0x24] then .ok w
        else hostRead s 0x00 j

/-- R61 on R62's map: a step that takes a host write outside space 0x00, HALT = 0 and BUSY = 0: a read of a listed element then
returns the word written, and every other address, the control registers included, reads as before; a read of an address the map
does not list returns 0 and a write to it is ignored. That WGT (space 0x24) is among the elements a host write changes is the model's
choice (log entry 13, DEDUCED: R62 and R67 against R54's "Written by CPG only"). -/
def Obligations.MemoryWriteReadsBack : Prop :=
  ∀ (s : State) (rest : List HostMove) (sp : BitVec 8) (ix : BitVec 16) (w : Word), s.halt = false → s.busy = false → sp ≠ 0x00 →
    s.moves = .write sp ix w :: rest →
    ∃ t, step s = .next t ∧ t.moves = rest ∧ t.ec = s.ec ∧
      (addrMapped s.caps (sp.toNat * 65536 + ix.toNat) = true → hostRead t sp.toNat ix.toNat = .ok w) ∧
      (addrMapped s.caps (sp.toNat * 65536 + ix.toNat) = false →
        hostRead s sp.toNat ix.toNat = .ok 0 ∧ t = { s with moves := rest }) ∧
      (∀ sp' ix', ix' < 65536 → ¬(sp' = sp.toNat ∧ ix' = ix.toNat) → hostRead t sp' ix' = hostRead s sp' ix')

/-- R62: the address map lists exactly the spaces and indices of its table. -/
def Obligations.AddressMapListsTheTable : Prop :=
  ∀ (c : Caps) (sp ix : Nat), ix < 65536 →
    (addrMapped c (sp * 65536 + ix) = true ↔ ∃ row ∈ mapRows c, row.1 = sp ∧ ix < row.2)

/-- R65: a host read has no side effect. R241: a host read of an unwritten element is refused. -/
def Obligations.HostReadHasNoSideEffect : Prop :=
  ∀ (s : State) (rest : List HostMove) (sp : BitVec 8) (ix : BitVec 16), s.busy = false → s.moves = .read sp ix :: rest →
    (∀ w, hostRead s sp.toNat ix.toNat = .ok w → step s = .next { s with moves := rest, readData := some w }) ∧
    (∀ m, memOfSpace sp.toNat = some m → ix.toNat < m.size s.caps → Memory.read s.mem (addr m ix.toNat) = none →
      step s = .refused (.hostReadUnwritten m ix.toNat))

/-- R30, R228: HALT is set only by a step that takes a command written to CMD, and the cause is then one of R220's six codes. -/
def Obligations.OnlyCommandsSetHalt : Prop :=
  ∀ s t : State, s.halt = false → step s = .next t → t.halt = true →
    ∃ (w : Word) (rest : List HostMove), s.moves = .write 0x00 0x06 w :: rest ∧ 1 ≤ t.cause.toNat ∧ t.cause.toNat ≤ 6

/-- R22, R29: a step that takes a command adds 1 to SEQ, modulo 2^32, if the command ends without a fault and leaves it if it raises
one; a reset sets it to 0; every other step, a write to CMD while HALT = 1 among them, leaves it as it was. -/
def Obligations.SeqCountsRetiredCommands : Prop :=
  ∀ s t : State, step s = .next t →
    (∀ (w : Word) rest, s.halt = false → s.moves = .write 0x00 0x06 w :: rest →
      t.seq = if t.halt then s.seq else BitVec.ofNat 32 (s.seq.toNat + 1)) ∧
    (∀ mv rest, s.moves = mv :: rest → IsReset mv → t.seq = 0) ∧
    ((∀ mv rest, s.moves = mv :: rest → ¬ IsReset mv ∧ (s.halt = true ∨ ∀ w : Word, mv ≠ .write 0x00 0x06 w)) → t.seq = s.seq)

/-! ### The mode and the faults -/

/-- R46: step 3 passes with mode `m` exactly when the state holds `m`, the eight checks hold and the length fits. -/
def Obligations.ModeChecksAcceptExactlyValidModes : Prop :=
  ∀ (s : State) (m : Mode), checkMode s = .ok m ↔ ModeOk s m

/-- R223: the first check that fails raises MODE_INVALID with its number, in every command but ROT. At k = 4 only EBANDS need be
written, because the model reads PBANDS first at check 5: that is the model's reading of R46 (log entry 9, DEDUCED). -/
def Obligations.FirstFailedCheckRaisesModeInvalid : Prop :=
  ∀ (i : Instr) (s : State) (k : Nat), readsMode i = true → FirstFailedCheck s k →
    exec i s = .next (FaultedTo s 0x03 (BitVec.ofNat 32 k))

/-- R224: under a valid mode a spectrum longer than NMAX raises LENGTH with the product, saturated. -/
def Obligations.LongSpectrumRaisesLength : Prop :=
  ∀ (i : Instr) (s : State), readsMode i = true → ModeValid s → Caps.nmax s.caps < spectrumLength s →
    exec i s = .next (FaultedTo s 0x04 (BitVec.ofNat 32 (min (spectrumLength s) 0xFFFFFFFF)))

/-- R222: under a mode that passes step 3, QB and UQB with a forbidden aliasing and SMIX with C = 1 raise ILLEGAL_OPERAND. That INFO,
"the word", is the encoding of the command is the model's reading (log entry 14, DEDUCED from R85). A mode that fails step 3 raises
MODE_INVALID or LENGTH instead, which FirstFailedCheckRaisesModeInvalid and LongSpectrumRaisesLength say. -/
def Obligations.ForbiddenOperandsRaiseIllegalOperand : Prop :=
  ∀ (s : State) (m : Mode), ModeOk s m →
    (∀ sa sb sc, (sa = sb ∨ sa = sc ∨ sb = sc ∨ sa = .norm ∨ sb = .norm ∨ sc = .norm) →
      exec (.qb sa sb sc) s = .next (FaultedTo s 0x02 (encode (.qb sa sb sc)))) ∧
    (∀ sa sb, (sa = sb ∨ sa = .norm ∨ sb = .norm) →
      exec (.uqb sa sb) s = .next (FaultedTo s 0x02 (encode (.uqb sa sb)))) ∧
    (∀ sa bk dir, m.c = 1 → exec (.smix sa bk dir) s = .next (FaultedTo s 0x02 (encode (.smix sa bk dir))))

/-- R225: the range check of ROT, the stride first. -/
def Obligations.RotOutOfRangeRaisesRotRange : Prop :=
  ∀ (sa : Spectrum) (dir : Dir) (s : State),
    (u32 s.rotStride = 0 → exec (.rot sa dir) s = .next (FaultedTo s 0x05 0)) ∧
    (u32 s.rotStride ≠ 0 → Caps.nmax s.caps < u32 s.rotOff + u32 s.rotLen →
      exec (.rot sa dir) s =
        .next (FaultedTo s 0x05 (BitVec.ofNat 32 (min (u32 s.rotOff + u32 s.rotLen) 0xFFFFFFFF))))

/-- R228: what raising a fault does, and the codes of R220. -/
def Obligations.RaiseSetsHaltCauseAndInfo : Prop :=
  (∀ (f : FaultCode) (info : Word) (s : State), raise f info s = FaultedTo s (FaultCode.code f) info) ∧
  FaultCode.code .illegalCmd = 0x01 ∧ FaultCode.code .illegalOperand = 0x02 ∧ FaultCode.code .modeInvalid = 0x03 ∧
  FaultCode.code .length = 0x04 ∧ FaultCode.code .rotRange = 0x05 ∧ FaultCode.code .budgetOverrun = 0x06

/-- R229, on every command of every configuration from every running state: a fault other than BUDGET_OVERRUN leaves everything but
the fault registers as it was; BUDGET_OVERRUN comes from QB and UQB alone and changes memory, the coder state, BITS and the fault
registers at most, SEQ not among them (that the memory then holds all of the command's work is BudgetIsCheckedAfterTheWork);
otherwise a command that ends has retired. `exec` is the run of the configuration `Config.hw`. -/
def Obligations.FaultsArePrecise : Prop :=
  (∀ i s, exec i s = execWith Config.hw i s) ∧
  ∀ (cfg : Config) (i : Instr) (s t : State), s.halt = false → execWith cfg i s = .next t →
    (t.halt = true → t.cause ≠ 0x06 → t = FaultedTo s t.cause t.info ∧ t.cause ∈ [0x02#8, 0x03, 0x04, 0x05]) ∧
    (t.halt = true → t.cause = 0x06 → usesPorts i = true ∧ ∃ m, ModeOk s m ∧
      t = FaultedTo { s with mem := t.mem, ec := t.ec, bits := t.bits } 0x06 t.info) ∧
    (t.halt = false → t = RetiredTo { s with ec := t.ec, bits := t.bits } t.mem)

/-- R191: QB and UQB of every configuration do all their work (`quantBands`: prologue, every band, epilogue), check the budget on the
coder state after it, and end either way with the work's memory, coder state and BITS, PULSES and the zeroed padding tail of SA
among them: BUDGET_OVERRUN takes nothing back. -/
def Obligations.BudgetIsCheckedAfterTheWork : Prop :=
  ∀ (cfg : Config) (sa sb sc : Spectrum) (s t : State) (m : Mode), ModeOk s m →
    let ends := fun codec : Codec => ∃ w, quantBands cfg codec m sa sb s = .ok w ∧
      w = { s with mem := w.mem, ec := w.ec, bits := BitVec.ofInt 32 (s32 s.totalBits - cfg.bitsUsed s.ec - 1) } ∧
      (∀ i, i < m.ne → Memory.read w.mem (addr .pulses i) = some (pulsesFor cfg m s i)) ∧
      (∀ k, Mode.flatStart m m.ne ≤ k → k < Mode.flatStart m (m.ne + 1) → Memory.read w.mem (addr (sel sa) k) = some ZERO) ∧
      (s32 s.totalBits < cfg.bitsUsed w.ec → t = FaultedTo w 0x06 (BitVec.ofInt 32 (cfg.bitsUsed w.ec))) ∧
      (¬ s32 s.totalBits < cfg.bitsUsed w.ec → t = RetiredTo w w.mem)
    ((Instr.qb sa sb sc).WellFormed = true → execWith cfg (.qb sa sb sc) s = .next t → ends (.encoder sc)) ∧
    ((Instr.uqb sa sb).WellFormed = true → execWith cfg (.uqb sa sb) s = .next t → ends .decoder)

/-- R57, R241: the model's fault names a memory and an index that no write has reached, and no command is refused; and a command that
reads an unwritten element ends in that fault: a table entry that ModeValid reads (which entries check 4 and check 5 read is the
model's reading of R46, log entry 9), and every element of `ReadsFirst`, whatever the configuration; UQB's SA in the context copy of
R186 is among them. -/
def Obligations.CommandsFaultOnlyAtUnwrittenElements : Prop :=
  ∀ (i : Instr) (s : State),
    (∀ m k, exec i s = .fault (.unwritten m k) → Memory.read s.mem (addr m k) = none) ∧
    (∀ r, exec i s ≠ .refused r) ∧
    (readsMode i = true → (∀ j, 1 ≤ j → j ≤ 3 → ModeCheck s j) → ¬ Written s.mem .ebands 0 (u32 s.modeNE + 2) →
      ∃ k, exec i s = .fault (.unwritten .ebands k)) ∧
    (readsMode i = true → (∀ j, 1 ≤ j → j ≤ 4 → ModeCheck s j) → Written s.mem .ebands 0 (u32 s.modeNE + 2) →
      ¬ Written s.mem .pbands 0 (u32 s.modeNP + 2) → ∃ k, exec i s = .fault (.unwritten .pbands k)) ∧
    exec i s = execWith Config.hw i s ∧
    ∀ (cfg : Config) (m : Mode) (a : Nat), Startable i s m → ReadsFirst cfg i s m a → Memory.read s.mem a = none →
      ∃ n k, execWith cfg i s = .fault (.unwritten n k) ∧ Memory.read s.mem (addr n k) = none

/-- R66, R241: with every element of the address map written, every command in every state ends in a next state, a retirement or a
fault that it takes: no command forms an index outside the memory it addresses. -/
def Obligations.EveryCommandCompletesOnWrittenMemory : Prop :=
  ∀ (i : Instr) (s : State), AllWritten s → ∃ t, exec i s = .next t

/-! ### Invariants and frames -/

/-- The reset state meets the invariant. -/
def Obligations.ResetMeetsTheInvariant : Prop := State.reset.Inv = true

/-- From every state that meets it, a step keeps the invariant: the memory stays in its canonical form and inside the address map
(R62, R66), BUSY is 0 between steps (R26), CAUSE and INFO are 0 while HALT = 0 and CAUSE is a code of R220 while HALT = 1 (R27,
R28). The capacities never change (R31). -/
def Obligations.StepKeepsTheInvariant : Prop :=
  ∀ s t : State, s.Inv = true → step s = .next t → t.Inv = true ∧ t.caps = s.caps

/-- R47, and the last sentence of R23: no command writes a MODE register, another RW register or a table entry; only QB and UQB
change BITS and the coder state. -/
def Obligations.CommandsLeaveModeAndRegisters : Prop :=
  ∀ (i : Instr) (s t : State), exec i s = .next t →
    t = { s with mem := t.mem, ec := t.ec, bits := t.bits, busy := false, halt := t.halt, cause := t.cause, info := t.info,
                 seq := t.seq } ∧
    (usesPorts i = false → t.ec = s.ec ∧ t.bits = s.bits) ∧
    (∀ k, k < 65536 → Memory.read t.mem (addr .ebands k) = Memory.read s.mem (addr .ebands k) ∧
      Memory.read t.mem (addr .pbands k) = Memory.read s.mem (addr .pbands k))

/-- The frame of CBE (R100, R266). -/
def Obligations.CbeFrame : Prop :=
  ∀ (sa : Spectrum) (bk : EnergyMem) (s t : State), exec (.cbe sa bk) s = .next t →
    t = FaultedTo s t.cause t.info ∨
    (t = RetiredTo s t.mem ∧ ∃ m, ModeOk s m ∧
      ∀ a, ¬ InRange (bank bk) 0 (m.ne * m.c) a → Memory.read t.mem a = Memory.read s.mem a)

/-- The frame of NRM, DNRM and RNRM (R110 to R112, R266): a band range and the padding tail after it. -/
def Obligations.NormaliserFrames : Prop :=
  ∀ (sa sb : Spectrum) (bk : EnergyMem) (s t : State),
    (exec (.nrm sa sb bk) s = .next t ∨ exec (.dnrm sa sb bk) s = .next t →
      t = FaultedTo s t.cause t.info ∨
      (t = RetiredTo s t.mem ∧ ∃ m, ModeOk s m ∧
        ∀ a, ¬ InRange (sel sb) (Mode.flatStart m 0) (Mode.flatStart m (m.ne + 1)) a →
          Memory.read t.mem a = Memory.read s.mem a)) ∧
    (exec (.rnrm sa) s = .next t →
      t = FaultedTo s t.cause t.info ∨
      (t = RetiredTo s t.mem ∧ ∃ m, ModeOk s m ∧
        ∀ a, ¬ InRange (bank .tmpe) 0 (m.ne * m.c) a →
          ¬ InRange (sel sa) (Mode.flatStart m 0) (Mode.flatStart m (m.ne + 1)) a →
          Memory.read t.mem a = Memory.read s.mem a))

/-- The frame of ROT (R127, R266): at most the slice changes. -/
def Obligations.RotFrame : Prop :=
  ∀ (sa : Spectrum) (dir : Dir) (s t : State), exec (.rot sa dir) s = .next t →
    t = FaultedTo s t.cause t.info ∨
    (t = RetiredTo s t.mem ∧
      ∀ a, ¬ InRange (sel sa) (u32 s.rotOff) (u32 s.rotOff + u32 s.rotLen) a →
        Memory.read t.mem a = Memory.read s.mem a)

/-- The frames of CPG and PQB (R141, R143, R266). -/
def Obligations.PitchFrames : Prop :=
  ∀ (sa sb : Spectrum) (bk : EnergyMem) (s t : State),
    (exec (.cpg sa sb bk) s = .next t →
      t = FaultedTo s t.cause t.info ∨
      (t = RetiredTo s t.mem ∧ ∃ m, ModeOk s m ∧
        ∀ a, ¬ InRange .wgt (Mode.flatStart m 0) (Mode.flatStart m m.ne) a → ¬ InRange .gains 0 m.np a →
          ¬ InRange (sel sb) (Mode.pitchStart m m.np) (Mode.pitchStart m (m.np + 1)) a →
          Memory.read t.mem a = Memory.read s.mem a)) ∧
    (exec (.pqb sb) s = .next t →
      t = FaultedTo s t.cause t.info ∨
      (t = RetiredTo s t.mem ∧ ∃ m, ModeOk s m ∧
        ∀ a, ¬ InRange (sel sb) (Mode.pitchStart m 0) (Mode.pitchStart m (m.np + 1)) a →
          Memory.read t.mem a = Memory.read s.mem a))

/-- The frame of SMIX (R210, R266). -/
def Obligations.SmixFrame : Prop :=
  ∀ (sa : Spectrum) (bk : EnergyMem) (dir : Dir) (s t : State), exec (.smix sa bk dir) s = .next t →
    t = FaultedTo s t.cause t.info ∨
    (t = RetiredTo s t.mem ∧ ∃ m, ModeOk s m ∧ m.c = 2 ∧
      ∀ a, ¬ InRange (sel sa) (Mode.flatStart m 0) (Mode.flatStart m (m.ne + 1)) a →
        Memory.read t.mem a = Memory.read s.mem a)

/-- The frames of QB and UQB (R188, R189, R266): beside the memories named, BITS and the coder state change. QB's SC is not
written. -/
def Obligations.QuantiserFrames : Prop :=
  ∀ (sa sb sc : Spectrum) (s t : State), (exec (.qb sa sb sc) s = .next t ∨ exec (.uqb sa sb) s = .next t) →
    t = FaultedTo s t.cause t.info ∨
    ((t = RetiredTo { s with ec := t.ec, bits := t.bits } t.mem ∨
        t = FaultedTo { s with mem := t.mem, ec := t.ec, bits := t.bits } 0x06 t.info) ∧
      ∃ m, ModeOk s m ∧ t.bits = BitVec.ofInt 32 (s32 s.totalBits - Config.hw.bitsUsed s.ec - 1) ∧
        ∀ a, ¬ InRange .pulses 0 m.ne a →
          ¬ InRange (sel sa) (Mode.flatStart m 0) (Mode.flatStart m (m.ne + 1)) a →
          ¬ InRange (sel sb) (Mode.flatStart m 0) (Mode.flatStart m m.ne) a →
          ¬ InRange (sel .norm) (Mode.flatStart m 0) (Mode.flatStart m m.ne) a →
          Memory.read t.mem a = Memory.read s.mem a)

/-- R50, R187: a command that writes a spectrum memory as its result leaves ZERO in that memory's padding tail; CPG and PQB in the
pitch padding of P. It holds on every end that is not a fault of steps 2 to 4, BUDGET_OVERRUN included. -/
def Obligations.PaddingIsZeroAfterEveryResult : Prop :=
  ∀ (i : Instr) (s t : State) (m : Mode), ModeOk s m → s.halt = false → exec i s = .next t →
    (t.halt = false ∨ t.cause = 0x06) →
    let tailZero := fun sp => ∀ k, Mode.flatStart m m.ne ≤ k → k < Mode.flatStart m (m.ne + 1) →
      Memory.read t.mem (addr (sel sp) k) = some ZERO
    let pitchZero := fun sp => ∀ k, Mode.pitchStart m m.np ≤ k → k < Mode.pitchStart m (m.np + 1) →
      Memory.read t.mem (addr (sel sp) k) = some ZERO
    match i with
    | .nrm _ sb _ => tailZero sb
    | .dnrm _ sb _ => tailZero sb
    | .rnrm sa => tailZero sa
    | .qb sa _ _ => tailZero sa
    | .uqb sa _ => tailZero sa
    | .smix sa _ _ => tailZero sa
    | .cpg _ sb _ => pitchZero sb
    | .pqb sb => pitchZero sb
    | .cbe _ _ => True
    | .rot _ _ => True

/-- R127, D31: ROT does not look at the MODE registers. R42 (ROT_ITER), R130 and D31 (the other ROT registers): QB and UQB do not look
at the ROT registers. A change of those registers changes nothing in the command's outcome but those registers themselves. -/
def Obligations.CommandsIgnoreForeignParameters : Prop :=
  (∀ (sa : Spectrum) (dir : Dir) (s t : State) (b c ne np pend : Word), exec (.rot sa dir) s = .next t →
    exec (.rot sa dir) { s with modeB := b, modeC := c, modeNE := ne, modeNP := np, modePEND := pend } =
      .next { t with modeB := b, modeC := c, modeNE := ne, modeNP := np, modePEND := pend }) ∧
  (∀ (i : Instr) (s t : State) (off len stride iter theta : Word), usesPorts i = true → exec i s = .next t →
    exec i { s with rotOff := off, rotLen := len, rotStride := stride, rotIter := iter, rotTheta := theta } =
      .next { t with rotOff := off, rotLen := len, rotStride := stride, rotIter := iter, rotTheta := theta })

/-! ### What the commands compute. Each statement says where the command completes. -/

/-- CBE (R100): under a valid mode, with every band element of SA written, it retires and BK holds the band energies; nothing else
changes. -/
def Obligations.CbeComputesBandEnergies : Prop :=
  ∀ (sa : Spectrum) (bk : EnergyMem) (s : State) (m : Mode), ModeOk s m →
    Written s.mem (sel sa) (Mode.flatStart m 0) (Mode.flatStart m m.ne) →
    ∃ mem, exec (.cbe sa bk) s = .next (RetiredTo s mem) ∧
      (∀ i c, i < m.ne → c < m.c →
        Memory.read mem (addr (bank bk) (i * m.c + c)) =
          some (bandEnergyOf (Config.hw.freeNaN s.draws) m c i (vals s.mem (sel sa)))) ∧
      ∀ a, ¬ InRange (bank bk) 0 (m.ne * m.c) a → Memory.read mem a = Memory.read s.mem a

/-- NRM (R110): element `j*C + c` of band `i` is SA's times `1 / (EPS + SQRT_C*BK[i*C+c])`; the padding tail is ZERO; SA may be
SB. -/
def Obligations.NrmDividesByBandEnergy : Prop :=
  ∀ (sa sb : Spectrum) (bk : EnergyMem) (s : State) (m : Mode), ModeOk s m →
    Written s.mem (sel sa) (Mode.flatStart m 0) (Mode.flatStart m m.ne) → Written s.mem (bank bk) 0 (m.ne * m.c) →
    let d := Config.hw.freeNaN s.draws
    ∃ mem, exec (.nrm sa sb bk) s = .next (RetiredTo s mem) ∧
      (∀ i c j, i < m.ne → c < m.c → m.b * Mode.e m i ≤ j → j < m.b * Mode.e m (i + 1) →
        Memory.read mem (addr (sel sb) (j * m.c + c)) =
          some (fmul (d [c, i, j, 3]) (vals s.mem (sel sa) (j * m.c + c))
            (fdiv (d [c, i, 2]) ONE
              (fadd (d [c, i, 1]) EPS (fmul (d [c, i, 0]) (SQRT_C m.c) (vals s.mem (bank bk) (i * m.c + c))))))) ∧
      (∀ k, Mode.flatStart m m.ne ≤ k → k < Mode.flatStart m (m.ne + 1) → Memory.read mem (addr (sel sb) k) = some ZERO) ∧
      ∀ a, ¬ InRange (sel sb) (Mode.flatStart m 0) (Mode.flatStart m (m.ne + 1)) a →
        Memory.read mem a = Memory.read s.mem a

/-- DNRM (R111): element `j*C + c` of band `i` is SA's times `SQRT_C*BK[i*C+c]`; the padding tail is ZERO. -/
def Obligations.DnrmMultipliesByBandEnergy : Prop :=
  ∀ (sa sb : Spectrum) (bk : EnergyMem) (s : State) (m : Mode), ModeOk s m →
    Written s.mem (sel sa) (Mode.flatStart m 0) (Mode.flatStart m m.ne) → Written s.mem (bank bk) 0 (m.ne * m.c) →
    let d := Config.hw.freeNaN s.draws
    ∃ mem, exec (.dnrm sa sb bk) s = .next (RetiredTo s mem) ∧
      (∀ i c j, i < m.ne → c < m.c → m.b * Mode.e m i ≤ j → j < m.b * Mode.e m (i + 1) →
        Memory.read mem (addr (sel sb) (j * m.c + c)) =
          some (fmul (d [c, i, j, 3]) (vals s.mem (sel sa) (j * m.c + c))
            (fmul (d [c, i, 0]) (SQRT_C m.c) (vals s.mem (bank bk) (i * m.c + c))))) ∧
      (∀ k, Mode.flatStart m m.ne ≤ k → k < Mode.flatStart m (m.ne + 1) → Memory.read mem (addr (sel sb) k) = some ZERO) ∧
      ∀ a, ¬ InRange (sel sb) (Mode.flatStart m 0) (Mode.flatStart m (m.ne + 1)) a →
        Memory.read mem a = Memory.read s.mem a

/-- RNRM (R112): TMPE holds SA's band energies, and SA is normalised in place by them; one retirement. -/
def Obligations.RnrmMeasuresThenNormalises : Prop :=
  ∀ (sa : Spectrum) (s : State) (m : Mode), ModeOk s m →
    Written s.mem (sel sa) (Mode.flatStart m 0) (Mode.flatStart m m.ne) →
    let d0 := fun site => Config.hw.freeNaN s.draws (0 :: site)
    let d1 := fun site => Config.hw.freeNaN s.draws (1 :: site)
    ∃ mem, exec (.rnrm sa) s = .next (RetiredTo s mem) ∧
      (∀ i c, i < m.ne → c < m.c →
        Memory.read mem (addr (bank .tmpe) (i * m.c + c)) = some (bandEnergyOf d0 m c i (vals s.mem (sel sa)))) ∧
      (∀ i c j, i < m.ne → c < m.c → m.b * Mode.e m i ≤ j → j < m.b * Mode.e m (i + 1) →
        Memory.read mem (addr (sel sa) (j * m.c + c)) =
          some (fmul (d1 [c, i, j, 3]) (vals s.mem (sel sa) (j * m.c + c))
            (fdiv (d1 [c, i, 2]) ONE
              (fadd (d1 [c, i, 1]) EPS
                (fmul (d1 [c, i, 0]) (SQRT_C m.c) (bandEnergyOf d0 m c i (vals s.mem (sel sa)))))))) ∧
      (∀ k, Mode.flatStart m m.ne ≤ k → k < Mode.flatStart m (m.ne + 1) → Memory.read mem (addr (sel sa) k) = some ZERO) ∧
      ∀ a, ¬ InRange (bank .tmpe) 0 (m.ne * m.c) a →
        ¬ InRange (sel sa) (Mode.flatStart m 0) (Mode.flatStart m (m.ne + 1)) a →
        Memory.read mem a = Memory.read s.mem a

/-- ROT (R125 to R127): with the range legal and every element that a Rot2 touches written it retires, the touched elements hold
RotSlice of what the slice held, and nothing else changes; a slice element that no Rot2 touches need not be written. -/
def Obligations.RotRotatesTheSlice : Prop :=
  ∀ (sa : Spectrum) (dir : Dir) (s : State), u32 s.rotStride ≠ 0 → u32 s.rotOff + u32 s.rotLen ≤ Caps.nmax s.caps →
    let touched := RotTouches (u32 s.rotOff) (u32 s.rotLen) (u32 s.rotStride)
    (∀ k, touched k → (Memory.read s.mem (addr (sel sa) k)).isSome = true) →
    ∃ mem, exec (.rot sa dir) s = .next (RetiredTo s mem) ∧
      (∀ k, touched k →
        Memory.read mem (addr (sel sa) k) =
          some (rotVals Config.hw (Config.hw.freeNaN s.draws) (u32 s.rotOff) (u32 s.rotLen) s.rotTheta dir (u32 s.rotStride)
            (u32 s.rotIter) (vals s.mem (sel sa)) k)) ∧
      ∀ a, (∀ k, touched k → a ≠ addr (sel sa) k) → Memory.read mem a = Memory.read s.mem a

/-- R127's corner cases: with `L <= stride` or `iter = 0` no element is read and none changes, and the command still retires. -/
def Obligations.RotWithEmptyPassesRetires : Prop :=
  ∀ (sa : Spectrum) (dir : Dir) (s : State), u32 s.rotStride ≠ 0 → u32 s.rotOff + u32 s.rotLen ≤ Caps.nmax s.caps →
    (u32 s.rotLen ≤ u32 s.rotStride ∨ u32 s.rotIter = 0) → exec (.rot sa dir) s = .next (RetiredTo s s.mem)

/-- CPG (R140, R141): WGT holds each element's own channel's energy over all bands, GAINS the gains, and SB's pitch padding ZERO; SA
may be SB. -/
def Obligations.CpgComputesPitchGains : Prop :=
  ∀ (sa sb : Spectrum) (bk : EnergyMem) (s : State) (m : Mode), ModeOk s m →
    Written s.mem (sel sa) (Mode.pitchStart m 0) (Mode.pitchStart m m.np) →
    Written s.mem (sel sb) (Mode.pitchStart m 0) (Mode.pitchStart m m.np) → Written s.mem (bank bk) 0 (m.ne * m.c) →
    ∃ mem, exec (.cpg sa sb bk) s = .next (RetiredTo s mem) ∧
      (∀ i f, i < m.ne → Mode.flatStart m i ≤ f → f < Mode.flatStart m (i + 1) →
        Memory.read mem (addr .wgt f) = some (vals s.mem (bank bk) (i * m.c + f % m.c))) ∧
      (∀ k, k < m.np →
        Memory.read mem (addr .gains k) =
          some (gainOf (Config.hw.freeNaN s.draws) m k (vals s.mem (sel sa)) (vals s.mem (sel sb)) (vals mem .wgt))) ∧
      (∀ k, Mode.pitchStart m m.np ≤ k → k < Mode.pitchStart m (m.np + 1) →
        Memory.read mem (addr (sel sb) k) = some ZERO) ∧
      ∀ a, ¬ InRange .wgt (Mode.flatStart m 0) (Mode.flatStart m m.ne) a → ¬ InRange .gains 0 m.np a →
        ¬ InRange (sel sb) (Mode.pitchStart m m.np) (Mode.pitchStart m (m.np + 1)) a →
        Memory.read mem a = Memory.read s.mem a

/-- PQB (R143): every element of SB in pitch band `k` is multiplied by `GAINS[k]`, the pitch padding is ZERO; a gain is needed only
for a band that has an element. -/
def Obligations.PqbAppliesPitchGains : Prop :=
  ∀ (sb : Spectrum) (s : State) (m : Mode), ModeOk s m →
    Written s.mem (sel sb) (Mode.pitchStart m 0) (Mode.pitchStart m m.np) →
    (∀ k, k < m.np → Mode.p m k < Mode.p m (k + 1) → (Memory.read s.mem (addr .gains k)).isSome = true) →
    let d := Config.hw.freeNaN s.draws
    ∃ mem, exec (.pqb sb) s = .next (RetiredTo s mem) ∧
      (∀ k f, k < m.np → Mode.pitchStart m k ≤ f → f < Mode.pitchStart m (k + 1) →
        Memory.read mem (addr (sel sb) f) = some (fmul (d [k, f]) (vals s.mem (sel sb) f) (vals s.mem .gains k))) ∧
      (∀ k, Mode.pitchStart m m.np ≤ k → k < Mode.pitchStart m (m.np + 1) →
        Memory.read mem (addr (sel sb) k) = some ZERO) ∧
      ∀ a, ¬ InRange (sel sb) (Mode.pitchStart m 0) (Mode.pitchStart m (m.np + 1)) a →
        Memory.read mem a = Memory.read s.mem a

/-- SMIX (R210) with C = 2: every pair of every band is rotated by the band's a1 and a2, both reads before both writes; the padding
tail is ZERO. -/
def Obligations.SmixRotatesEveryPair : Prop :=
  ∀ (sa : Spectrum) (bk : EnergyMem) (dir : Dir) (s : State) (m : Mode), ModeOk s m → m.c = 2 →
    Written s.mem (sel sa) (Mode.flatStart m 0) (Mode.flatStart m m.ne) → Written s.mem (bank bk) 0 (m.ne * m.c) →
    let d := Config.hw.freeNaN s.draws
    let x := vals s.mem (sel sa)
    let lf := fun i => vals s.mem (bank bk) (2 * i)
    let rt := fun i => vals s.mem (bank bk) (2 * i + 1)
    let nrm := fun i => fsqrt (d [i, 4]) (fadd (d [i, 3]) (fadd (d [i, 1]) K_SFLOOR (fmul (d [i, 0]) (lf i) (lf i)))
      (fmul (d [i, 2]) (rt i) (rt i)))
    let a1 := fun i => fdiv (d [i, 5]) (lf i) (nrm i)
    let a2 := fun i => match dir with
      | .plus => fdiv (d [i, 6]) (rt i) (nrm i)
      | .minus => fneg (fdiv (d [i, 6]) (rt i) (nrm i))
    ∃ mem, exec (.smix sa bk dir) s = .next (RetiredTo s mem) ∧
      (∀ i j, i < m.ne → m.b * Mode.e m i ≤ j → j < m.b * Mode.e m (i + 1) →
        Memory.read mem (addr (sel sa) (2 * j)) =
          some (fadd (d [i, j, 2]) (fmul (d [i, j, 0]) (a1 i) (x (2 * j))) (fmul (d [i, j, 1]) (a2 i) (x (2 * j + 1)))) ∧
        Memory.read mem (addr (sel sa) (2 * j + 1)) =
          some (fsub (d [i, j, 5]) (fmul (d [i, j, 3]) (a1 i) (x (2 * j + 1))) (fmul (d [i, j, 4]) (a2 i) (x (2 * j))))) ∧
      (∀ k, Mode.flatStart m m.ne ≤ k → k < Mode.flatStart m (m.ne + 1) → Memory.read mem (addr (sel sa) k) = some ZERO) ∧
      ∀ a, ¬ InRange (sel sa) (Mode.flatStart m 0) (Mode.flatStart m (m.ne + 1)) a →
        Memory.read mem a = Memory.read s.mem a

/-- QB (R180 to R188, R191): under a valid mode, with legal operands, the bands of SA and SB, SC in the bands with pulses (R158, R161;
the fold of R160 carries no Ws) and the NORM prefix written (R262 step 3), it does all its work, and then retires or, over the budget,
raises BUDGET_OVERRUN. -/
def Obligations.QbQuantisesEveryBand : Prop :=
  ∀ (sa sb sc : Spectrum) (s : State) (m : Mode), ModeOk s m → (Instr.qb sa sb sc).WellFormed = true →
    Written s.mem (sel sa) (Mode.flatStart m 0) (Mode.flatStart m m.ne) →
    Written s.mem (sel sb) (Mode.flatStart m 0) (Mode.flatStart m m.ne) →
    (∀ i, i < m.ne → 0 < s32 (pulsesFor Config.hw m s i) → Written s.mem (sel sc) (Mode.flatStart m i) (Mode.flatStart m (i + 1))) →
    Written s.mem (sel .norm) 0 (Mode.flatStart m 0) →
    let a := quantVals Config.hw m (some (vals s.mem (sel sc))) sa sb s m.ne
    ∃ mem,
      exec (.qb sa sb sc) s = .next
        (let t := { s with ec := a.ec, bits := BitVec.ofInt 32 (s32 s.totalBits - Config.hw.bitsUsed s.ec - 1) }
         if s32 s.totalBits < Config.hw.bitsUsed a.ec
         then FaultedTo { t with mem := mem } 0x06 (BitVec.ofInt 32 (Config.hw.bitsUsed a.ec))
         else RetiredTo t mem) ∧
      (∀ i, i < m.ne → Memory.read mem (addr .pulses i) = some (pulsesFor Config.hw m s i)) ∧
      (∀ k, Mode.flatStart m 0 ≤ k → k < Mode.flatStart m m.ne →
        Memory.read mem (addr (sel sa) k) = some (a.x k) ∧ Memory.read mem (addr (sel sb) k) = some (a.p k) ∧
        Memory.read mem (addr (sel .norm) k) = some (a.norm k)) ∧
      (∀ k, Mode.flatStart m m.ne ≤ k → k < Mode.flatStart m (m.ne + 1) → Memory.read mem (addr (sel sa) k) = some ZERO) ∧
      ∀ ad, ¬ InRange .pulses 0 m.ne ad →
        ¬ InRange (sel sa) (Mode.flatStart m 0) (Mode.flatStart m (m.ne + 1)) ad →
        ¬ InRange (sel sb) (Mode.flatStart m 0) (Mode.flatStart m m.ne) ad →
        ¬ InRange (sel .norm) (Mode.flatStart m 0) (Mode.flatStart m m.ne) ad →
        Memory.read mem ad = Memory.read s.mem ad

/-- UQB (R180 to R187, R189, R191): as QB with the decoder's calls. A band of SA must be written at the start only if it ends with no
pulses and the answer of its INTRA call carries no Xs' (R186). -/
def Obligations.UqbDequantisesEveryBand : Prop :=
  ∀ (sa sb : Spectrum) (s : State) (m : Mode), ModeOk s m → (Instr.uqb sa sb).WellFormed = true →
    (∀ i, i < m.ne → DecoderBandFilled Config.hw m sa s i) →
    Written s.mem (sel sb) (Mode.flatStart m 0) (Mode.flatStart m m.ne) →
    Written s.mem (sel .norm) 0 (Mode.flatStart m 0) →
    let a := quantVals Config.hw m none sa sb s m.ne
    ∃ mem,
      exec (.uqb sa sb) s = .next
        (let t := { s with ec := a.ec, bits := BitVec.ofInt 32 (s32 s.totalBits - Config.hw.bitsUsed s.ec - 1) }
         if s32 s.totalBits < Config.hw.bitsUsed a.ec
         then FaultedTo { t with mem := mem } 0x06 (BitVec.ofInt 32 (Config.hw.bitsUsed a.ec))
         else RetiredTo t mem) ∧
      (∀ i, i < m.ne → Memory.read mem (addr .pulses i) = some (pulsesFor Config.hw m s i)) ∧
      (∀ k, Mode.flatStart m 0 ≤ k → k < Mode.flatStart m m.ne →
        Memory.read mem (addr (sel sa) k) = some (a.x k) ∧ Memory.read mem (addr (sel sb) k) = some (a.p k) ∧
        Memory.read mem (addr (sel .norm) k) = some (a.norm k)) ∧
      (∀ k, Mode.flatStart m m.ne ≤ k → k < Mode.flatStart m (m.ne + 1) → Memory.read mem (addr (sel sa) k) = some ZERO) ∧
      ∀ ad, ¬ InRange .pulses 0 m.ne ad →
        ¬ InRange (sel sa) (Mode.flatStart m 0) (Mode.flatStart m (m.ne + 1)) ad →
        ¬ InRange (sel sb) (Mode.flatStart m 0) (Mode.flatStart m m.ne) ad →
        ¬ InRange (sel .norm) (Mode.flatStart m 0) (Mode.flatStart m m.ne) ad →
        Memory.read mem ad = Memory.read s.mem ad

/-- R183: on the machine's own band loop, for every collaborator: after bands 0 .. n-1 alpha is ALPHA_INTRA if one of them took
intra mode, and ALPHA_INTER if none did. -/
def Obligations.AlphaStaysZeroAfterAnIntraBand : Prop :=
  ∀ (cfg : Config) (codec : Codec) (d : Draws) (sa sb : Spectrum) (s : State) (m : Mode) (n : Nat) (r : QRun),
    ModeOk s m → n ≤ m.ne →
    forUp 0 n (fun i r => quantBand cfg (Draws.sub d i) codec m sa sb i r) (quantPrologue cfg m s) = .ok r →
    ((∃ i, i < n ∧ (m.pend ≤ Mode.e m i ∨ s32 (pulsesFor cfg m s i) ≤ 0)) → r.alpha = ALPHA_INTRA) ∧
    ((∀ i, i < n → Mode.e m i < m.pend ∧ 0 < s32 (pulsesFor cfg m s i)) → r.alpha = ALPHA_INTER)

/-- R189, R164 property 2: if the collaborators keep their side (`Agreeing`), QB on one CORE and UQB on another with the same mode,
TOTAL_BITS, P and NORM prefix, the decoder's coder state reading what the encoder's run PRODUCED (`t.ec`, the coder state after QB),
leave the same SA, NORM and PULSES; and UQB completes whenever QB does. The premise on `draws` says that both see the same free NaN
words, which is the model's (assumption 3). -/
def Obligations.EncoderAndDecoderAgree : Prop :=
  ∀ (cfg : Config) (Reads : Coder → Coder → Coder → Prop), Agreeing cfg Reads →
  ∀ (sa sb sc : Spectrum) (s s' t : State) (m : Mode), (Instr.qb sa sb sc).WellFormed = true → ModeOk s m → ModeOk s' m →
    s.halt = false → s'.halt = false → s'.totalBits = s.totalBits → s'.draws = s.draws →
    (∀ k, Mode.flatStart m 0 ≤ k → k < Mode.flatStart m m.ne → ∃ w, Memory.read s.mem (addr (sel sb) k) = some w ∧
      Memory.read s'.mem (addr (sel sb) k) = some w) →
    (∀ k, k < Mode.flatStart m 0 → ∃ w, Memory.read s.mem (addr (sel .norm) k) = some w ∧
      Memory.read s'.mem (addr (sel .norm) k) = some w) →
    qb cfg sa sb sc s = .next t → Reads t.ec s.ec s'.ec →
    ∃ t', uqb cfg sa sb s' = .next t' ∧ t'.halt = t.halt ∧ t'.bits = t.bits ∧ Reads t.ec t.ec t'.ec ∧
      (∀ k, Mode.flatStart m 0 ≤ k → k < Mode.flatStart m (m.ne + 1) →
        Memory.read t'.mem (addr (sel sa) k) = Memory.read t.mem (addr (sel sa) k)) ∧
      (∀ k, Mode.flatStart m 0 ≤ k → k < Mode.flatStart m m.ne →
        Memory.read t'.mem (addr (sel .norm) k) = Memory.read t.mem (addr (sel .norm) k)) ∧
      ∀ i, i < m.ne → Memory.read t'.mem (addr .pulses i) = Memory.read t.mem (addr .pulses i)

/-! ### Arithmetic -/

/-- R9: the operations on finite words, and `i2f` of an integer, are the exact result rounded to nearest, ties to even; a result too
large for binary32 is an infinity (R234). The sign of a zero result is ResultsHaveTheIeeeSign's. -/
def Obligations.ArithmeticRoundsToNearestEven : Prop :=
  (∀ k : Int, RoundedTo (i2f k) ((k : ℝ) * 2 ^ 149)) ∧
  ∀ (nan a b : Word), IsFinite a → IsFinite b →
    RoundedTo (fadd nan a b) (valueR a + valueR b) ∧
    RoundedTo (fsub nan a b) (valueR a - valueR b) ∧
    RoundedTo (fmul nan a b) (valueR a * valueR b / 2 ^ 149) ∧
    (valueR b ≠ 0 → RoundedTo (fdiv nan a b) (valueR a / valueR b * 2 ^ 149)) ∧
    (0 ≤ valueR a → RoundedTo (fsqrt nan a) (Real.sqrt (valueR a * 2 ^ 149)))

/-- R9: the comparisons are those of the values, and false when either word is a NaN. -/
def Obligations.ComparisonsFollowTheValues : Prop :=
  ∀ a b : Word,
    ((IsNaN a ∨ IsNaN b) → fgt a b = false ∧ flt a b = false) ∧
    (¬ IsNaN a → ¬ IsNaN b → (fgt a b = true ↔ valueR b < valueR a) ∧ (flt a b = true ↔ valueR a < valueR b))

/-- R234: invalid operations give a NaN and division of a finite nonzero by zero an infinity with the operands' sign; nothing is
trapped. U9: which NaN is free: an operation whose result is a NaN delivers the word it was given, if that is a NaN (the model's form
of the open value, log entry 3, DESIGN CHOICE). -/
def Obligations.ExceptionalOperandsGiveDefaultResults : Prop :=
  ∀ nan a b : Word,
    ((IsNaN a ∨ IsNaN b) → IsNaN (fadd nan a b) ∧ IsNaN (fsub nan a b) ∧ IsNaN (fmul nan a b) ∧ IsNaN (fdiv nan a b)) ∧
    (IsNaN a → IsNaN (fsqrt nan a)) ∧
    (IsInf a → IsInf b → a.getLsbD 31 ≠ b.getLsbD 31 → IsNaN (fadd nan a b)) ∧
    (IsInf a → IsInf b → a.getLsbD 31 = b.getLsbD 31 → IsNaN (fsub nan a b)) ∧
    (IsInf a → IsInf b → IsNaN (fdiv nan a b)) ∧
    (valueR a = 0 → IsInf b → IsNaN (fmul nan a b) ∧ IsNaN (fmul nan b a)) ∧
    (valueR a = 0 → valueR b = 0 → IsNaN (fdiv nan a b)) ∧
    (IsFinite a → valueR a ≠ 0 → valueR b = 0 →
      IsInf (fdiv nan a b) ∧ (fdiv nan a b).getLsbD 31 = (a.getLsbD 31 != b.getLsbD 31)) ∧
    (valueR a < 0 → IsNaN (fsqrt nan a)) ∧
    (IsNaN nan → (IsNaN (fadd nan a b) → fadd nan a b = nan) ∧ (IsNaN (fsub nan a b) → fsub nan a b = nan) ∧
      (IsNaN (fmul nan a b) → fmul nan a b = nan) ∧ (IsNaN (fdiv nan a b) → fdiv nan a b = nan) ∧
      (IsNaN (fsqrt nan a) → fsqrt nan a = nan))

/-- R142: `Clip01`; a NaN and -0.0 pass. -/
def Obligations.ClipLimitsToZeroAndOne : Prop :=
  (∀ g : Word, clip01 g = if fgt g ONE then ONE else if flt g ZERO then ZERO else g) ∧
  (∀ g : Word, IsNaN g → clip01 g = g) ∧ clip01 0x80000000 = 0x80000000

/-- R101: for band elements free of NaN the energy CBE writes is strictly positive. -/
def Obligations.CbeResultIsPositive : Prop :=
  ∀ (sa : Spectrum) (bk : EnergyMem) (s : State) (m : Mode) (i c : Nat), ModeOk s m →
    Written s.mem (sel sa) (Mode.flatStart m 0) (Mode.flatStart m m.ne) →
    (∀ k, Mode.flatStart m 0 ≤ k → k < Mode.flatStart m m.ne → ¬ IsNaN (vals s.mem (sel sa) k)) →
    i < m.ne → c < m.c →
    ∃ t w, exec (.cbe sa bk) s = .next t ∧ Memory.read t.mem (addr (bank bk) (i * m.c + c)) = some w ∧ fgt w ZERO = true

/-- R144: every gain CPG writes that is not a NaN lies in 0 .. K_GAIN. (R144 says "for every input free of NaN"; infinite inputs can
make a NaN, so the statement speaks of the result.) -/
def Obligations.CpgGainsLieBelowTheLimit : Prop :=
  ∀ (sa sb : Spectrum) (bk : EnergyMem) (s t : State) (m : Mode) (k : Nat), ModeOk s m → exec (.cpg sa sb bk) s = .next t →
    k < m.np → ∃ g, Memory.read t.mem (addr .gains k) = some g ∧ (¬ IsNaN g → 0 ≤ valueR g ∧ valueR g ≤ valueR K_GAIN)

/-- R9, R234, the IEEE 754 default results that RoundedTo does not see: the sign of a zero sum, difference, root and integer; the sign of
every product and quotient that is not a NaN; every operation with an infinite operand that is not invalid; and `fneg`, which flips
the sign bit of every word, a NaN too. -/
def Obligations.ResultsHaveTheIeeeSign : Prop :=
  (∀ (a : Word) (k : Nat), (fneg a).getLsbD k = if k = 31 then !a.getLsbD 31 else a.getLsbD k) ∧
  i2f 0 = ZERO ∧
  ∀ nan a b : Word, ¬ IsNaN a → ¬ IsNaN b →
    (IsFinite a → IsFinite b → valueR a + valueR b = 0 →
      fadd nan a b = if a.getLsbD 31 && b.getLsbD 31 then 0x80000000 else ZERO) ∧
    (IsFinite a → IsFinite b → valueR a - valueR b = 0 →
      fsub nan a b = if a.getLsbD 31 && !b.getLsbD 31 then 0x80000000 else ZERO) ∧
    (valueR a = 0 → fsqrt nan a = a) ∧
    (¬ IsNaN (fmul nan a b) → (fmul nan a b).getLsbD 31 = (a.getLsbD 31 != b.getLsbD 31)) ∧
    (¬ IsNaN (fdiv nan a b) → (fdiv nan a b).getLsbD 31 = (a.getLsbD 31 != b.getLsbD 31)) ∧
    (IsInf a → (IsInf b → b = a) → fadd nan a b = a ∧ fadd nan b a = a) ∧
    (IsInf a → (IsInf b → b = fneg a) → fsub nan a b = a ∧ fsub nan b a = fneg a) ∧
    (IsInf a → valueR b ≠ 0 → IsInf (fmul nan a b) ∧ IsInf (fmul nan b a)) ∧
    (IsInf a → IsFinite b → IsInf (fdiv nan a b) ∧ valueR (fdiv nan b a) = 0) ∧
    (IsInf a → a.getLsbD 31 = false → fsqrt nan a = a)

/-! ### The host's other moves -/

/-- What the model makes of two moves beside R61's reads and writes. With no move left the CORE is idle and a step changes nothing
(R239; that `step` is defined then is log entry 6, DESIGN CHOICE). Between commands the owner of the entropy coder may replace its
state, and nothing else changes (R56, R262 step 4; the move `setCoder` is log entry 4, DEDUCED). -/
def Obligations.IdleStepAndCoderExchange : Prop :=
  (∀ s : State, s.moves = [] → step s = .next s) ∧
  ∀ (s : State) (ec : Coder) (rest : List HostMove), s.busy = false → s.moves = .setCoder ec :: rest →
    step s = .next { s with moves := rest, ec := ec }
end

