-- ==== Sys2Proof/Laws/Coding.lean ====
section
/-! SUPPORT. The fields of a command word: what decoding them takes and gives back. -/

namespace Sys2Proof
open Machine

/-- A code that names a spectrum is that spectrum's code. -/
theorem spectrumOf_ok {c : BitVec 4} {s : Spectrum} (h : spectrumOf c = .ok s) : s.code = c := by
  revert h
  revert c
  cases s <;> decide

theorem energyOf_code (b : BitVec 1) : (energyOf b).code = b := by revert b; decide
theorem dirOf_code (b : BitVec 1) : (dirOf b).code = b := by revert b; decide

theorem decodeBind_ok {α β : Type} {x : Except DecodeError α} {f : α → Except DecodeError β} {r : β} :
    (x >>= f) = .ok r ↔ ∃ a, x = .ok a ∧ f a = .ok r := by
  cases x <;> simp [bind, Except.bind]

theorem unusedZero_ok {z : Bool} {x : Except DecodeError Instr} {i : Instr} :
    unusedZero z x = .ok i ↔ z = true ∧ x = .ok i := by cases z <;> simp [unusedZero]

/-- Fields that decode are the fields of the command they decode to. -/
theorem decodeFields_ok {f : Fields} {i : Instr} (h : decodeFields f = .ok i) : fieldsFor i = f := by
  obtain ⟨opc, sa, sb, sc, bk, dir, rsv⟩ := f
  unfold decodeFields at h
  dsimp only at h
  split at h
  case h_11 => cases h
  all_goals
    rename_i ho
    obtain ⟨hz, h⟩ := unusedZero_ok.mp h
    simp only [Bool.and_eq_true, beq_iff_eq] at hz
    simp only [decodeBind_ok, Except.ok.injEq] at h
    have ho' : opc = BitVec.ofNat 8 opc.toNat := by simp
    rw [ho] at ho'
    subst ho'
    clear ho
  · obtain ⟨a, ha, rfl⟩ := h
    obtain ⟨⟨⟨rfl, rfl⟩, rfl⟩, rfl⟩ := hz
    simp [fieldsFor, spectrumOf_ok ha, energyOf_code]
  · obtain ⟨a, ha, b, hb, rfl⟩ := h
    obtain ⟨⟨rfl, rfl⟩, rfl⟩ := hz
    simp [fieldsFor, spectrumOf_ok ha, spectrumOf_ok hb, energyOf_code]
  · obtain ⟨a, ha, b, hb, rfl⟩ := h
    obtain ⟨⟨rfl, rfl⟩, rfl⟩ := hz
    simp [fieldsFor, spectrumOf_ok ha, spectrumOf_ok hb, energyOf_code]
  · obtain ⟨a, ha, rfl⟩ := h
    obtain ⟨⟨⟨⟨rfl, rfl⟩, rfl⟩, rfl⟩, rfl⟩ := hz
    simp [fieldsFor, spectrumOf_ok ha]
  · obtain ⟨a, ha, rfl⟩ := h
    obtain ⟨⟨⟨rfl, rfl⟩, rfl⟩, rfl⟩ := hz
    simp [fieldsFor, spectrumOf_ok ha, dirOf_code]
  · obtain ⟨a, ha, b, hb, rfl⟩ := h
    obtain ⟨⟨rfl, rfl⟩, rfl⟩ := hz
    simp [fieldsFor, spectrumOf_ok ha, spectrumOf_ok hb, energyOf_code]
  · obtain ⟨a, ha, rfl⟩ := h
    obtain ⟨⟨⟨⟨rfl, rfl⟩, rfl⟩, rfl⟩, rfl⟩ := hz
    simp [fieldsFor, spectrumOf_ok ha]
  · obtain ⟨a, ha, b, hb, c, hc, rfl⟩ := h
    obtain ⟨⟨rfl, rfl⟩, rfl⟩ := hz
    simp [fieldsFor, spectrumOf_ok ha, spectrumOf_ok hb, spectrumOf_ok hc]
  · obtain ⟨a, ha, b, hb, rfl⟩ := h
    obtain ⟨⟨⟨rfl, rfl⟩, rfl⟩, rfl⟩ := hz
    simp [fieldsFor, spectrumOf_ok ha, spectrumOf_ok hb]
  · obtain ⟨a, ha, rfl⟩ := h
    obtain ⟨⟨rfl, rfl⟩, rfl⟩ := hz
    simp [fieldsFor, spectrumOf_ok ha, energyOf_code, dirOf_code]

/-- A word is put together again from its fields. -/
theorem assemble_fieldsOf (w : Word) : assemble (fieldsOf w) = w := by
  unfold assemble fieldsOf
  apply BitVec.eq_of_getLsbD_eq
  intro i hi
  simp only [BitVec.getLsbD_append, BitVec.getLsbD_extractLsb']
  interval_cases i <;> simp

/-- Codes 0 to 4 name a spectrum (30_encoding.md R83). -/
theorem spectrumOf_le {c : BitVec 4} (h : c.toNat ≤ 4) : ∃ s, spectrumOf c = .ok s := by
  revert h; revert c; intro c h
  have : c.toNat = 0 ∨ c.toNat = 1 ∨ c.toNat = 2 ∨ c.toNat = 3 ∨ c.toNat = 4 := by omega
  unfold spectrumOf
  rcases this with h | h | h | h | h <;> rw [h] <;> exact ⟨_, rfl⟩

/-- Codes 5 and above name none. -/
theorem spectrumOf_gt {c : BitVec 4} (h : 5 ≤ c.toNat) : spectrumOf c = .error .illegalSelect := by
  unfold spectrumOf
  split <;> first | rfl | omega

theorem spectrumOf_ok_iff {c : BitVec 4} : (∃ s, spectrumOf c = .ok s) ↔ c.toNat ≤ 4 := by
  constructor
  · rintro ⟨s, h⟩
    by_contra hc
    rw [spectrumOf_gt (by omega)] at h; cases h
  · exact spectrumOf_le

/-- A selector is its four bits. -/
theorem selectCode_eq (w : Word) (lo : Nat) : selectCode w lo = (w.extractLsb' lo 4).toNat := by
  unfold selectCode
  rw [BitVec.extractLsb'_toNat, BitVec.toNat_and, BitVec.toNat_ushiftRight]
  exact Nat.and_two_pow_sub_one_eq_mod _ 4

theorem selectCode_sa (w : Word) : selectCode w 20 = (fieldsOf w).sa.toNat := selectCode_eq w 20
theorem selectCode_sb (w : Word) : selectCode w 16 = (fieldsOf w).sb.toNat := selectCode_eq w 16
theorem selectCode_sc (w : Word) : selectCode w 12 = (fieldsOf w).sc.toNat := selectCode_eq w 12

/-- Field by field conjunction. -/
def andFields (f g : Fields) : Fields :=
  ⟨f.opc &&& g.opc, f.sa &&& g.sa, f.sb &&& g.sb, f.sc &&& g.sc, f.bk &&& g.bk, f.dir &&& g.dir, f.rsv &&& g.rsv⟩

theorem fieldsOf_and (v w : Word) : fieldsOf (v &&& w) = andFields (fieldsOf v) (fieldsOf w) := by
  simp only [fieldsOf, andFields, BitVec.extractLsb'_and]

theorem fieldsOf_inj {v w : Word} : fieldsOf v = fieldsOf w ↔ v = w := by
  constructor
  · intro h; rw [← assemble_fieldsOf v, h, assemble_fieldsOf]
  · rintro rfl; rfl

/-- A match under a mask, field by field. -/
theorem masked_eq_iff (w m v : Word) : w &&& m = v ↔ andFields (fieldsOf w) (fieldsOf m) = fieldsOf v := by
  rw [← fieldsOf_and, fieldsOf_inj]

end Sys2Proof
end

