-- ==== Sys2Proof/Laws/State.lean ====
section
/-! SUPPORT. One lemma per field per named update of the state, so that no later proof unfolds a record update. -/

namespace Sys2Proof.Machine

@[simp] theorem raise_caps (f : FaultCode) (w : Word) (s : State) : (raise f w s).caps = s.caps := rfl
@[simp] theorem raise_busy (f : FaultCode) (w : Word) (s : State) : (raise f w s).busy = false := rfl
@[simp] theorem raise_halt (f : FaultCode) (w : Word) (s : State) : (raise f w s).halt = true := rfl
@[simp] theorem raise_cause (f : FaultCode) (w : Word) (s : State) : (raise f w s).cause = FaultCode.code f := rfl
@[simp] theorem raise_info (f : FaultCode) (w : Word) (s : State) : (raise f w s).info = w := rfl
@[simp] theorem raise_seq (f : FaultCode) (w : Word) (s : State) : (raise f w s).seq = s.seq := rfl
@[simp] theorem raise_modeB (f : FaultCode) (w : Word) (s : State) : (raise f w s).modeB = s.modeB := rfl
@[simp] theorem raise_modeC (f : FaultCode) (w : Word) (s : State) : (raise f w s).modeC = s.modeC := rfl
@[simp] theorem raise_modeNE (f : FaultCode) (w : Word) (s : State) : (raise f w s).modeNE = s.modeNE := rfl
@[simp] theorem raise_modeNP (f : FaultCode) (w : Word) (s : State) : (raise f w s).modeNP = s.modeNP := rfl
@[simp] theorem raise_modePEND (f : FaultCode) (w : Word) (s : State) : (raise f w s).modePEND = s.modePEND := rfl
@[simp] theorem raise_totalBits (f : FaultCode) (w : Word) (s : State) : (raise f w s).totalBits = s.totalBits := rfl
@[simp] theorem raise_bits (f : FaultCode) (w : Word) (s : State) : (raise f w s).bits = s.bits := rfl
@[simp] theorem raise_rotOff (f : FaultCode) (w : Word) (s : State) : (raise f w s).rotOff = s.rotOff := rfl
@[simp] theorem raise_rotLen (f : FaultCode) (w : Word) (s : State) : (raise f w s).rotLen = s.rotLen := rfl
@[simp] theorem raise_rotStride (f : FaultCode) (w : Word) (s : State) : (raise f w s).rotStride = s.rotStride := rfl
@[simp] theorem raise_rotIter (f : FaultCode) (w : Word) (s : State) : (raise f w s).rotIter = s.rotIter := rfl
@[simp] theorem raise_rotTheta (f : FaultCode) (w : Word) (s : State) : (raise f w s).rotTheta = s.rotTheta := rfl
@[simp] theorem raise_mem (f : FaultCode) (w : Word) (s : State) : (raise f w s).mem = s.mem := rfl
@[simp] theorem raise_ec (f : FaultCode) (w : Word) (s : State) : (raise f w s).ec = s.ec := rfl
@[simp] theorem raise_moves (f : FaultCode) (w : Word) (s : State) : (raise f w s).moves = s.moves := rfl
@[simp] theorem raise_readData (f : FaultCode) (w : Word) (s : State) : (raise f w s).readData = s.readData := rfl
@[simp] theorem raise_draws (f : FaultCode) (w : Word) (s : State) : (raise f w s).draws = s.draws := rfl

@[simp] theorem retire_caps (s : State) : (retire s).caps = s.caps := rfl
@[simp] theorem retire_busy (s : State) : (retire s).busy = false := rfl
@[simp] theorem retire_halt (s : State) : (retire s).halt = s.halt := rfl
@[simp] theorem retire_cause (s : State) : (retire s).cause = s.cause := rfl
@[simp] theorem retire_info (s : State) : (retire s).info = s.info := rfl
@[simp] theorem retire_seq (s : State) : (retire s).seq = s.seq + 1 := rfl
@[simp] theorem retire_modeB (s : State) : (retire s).modeB = s.modeB := rfl
@[simp] theorem retire_modeC (s : State) : (retire s).modeC = s.modeC := rfl
@[simp] theorem retire_modeNE (s : State) : (retire s).modeNE = s.modeNE := rfl
@[simp] theorem retire_modeNP (s : State) : (retire s).modeNP = s.modeNP := rfl
@[simp] theorem retire_modePEND (s : State) : (retire s).modePEND = s.modePEND := rfl
@[simp] theorem retire_totalBits (s : State) : (retire s).totalBits = s.totalBits := rfl
@[simp] theorem retire_bits (s : State) : (retire s).bits = s.bits := rfl
@[simp] theorem retire_rotOff (s : State) : (retire s).rotOff = s.rotOff := rfl
@[simp] theorem retire_rotLen (s : State) : (retire s).rotLen = s.rotLen := rfl
@[simp] theorem retire_rotStride (s : State) : (retire s).rotStride = s.rotStride := rfl
@[simp] theorem retire_rotIter (s : State) : (retire s).rotIter = s.rotIter := rfl
@[simp] theorem retire_rotTheta (s : State) : (retire s).rotTheta = s.rotTheta := rfl
@[simp] theorem retire_mem (s : State) : (retire s).mem = s.mem := rfl
@[simp] theorem retire_ec (s : State) : (retire s).ec = s.ec := rfl
@[simp] theorem retire_moves (s : State) : (retire s).moves = s.moves := rfl
@[simp] theorem retire_readData (s : State) : (retire s).readData = s.readData := rfl
@[simp] theorem retire_draws (s : State) : (retire s).draws = s.draws := rfl

@[simp] theorem begin_caps (s : State) : (begin s).caps = s.caps := rfl
@[simp] theorem begin_busy (s : State) : (begin s).busy = true := rfl
@[simp] theorem begin_halt (s : State) : (begin s).halt = s.halt := rfl
@[simp] theorem begin_cause (s : State) : (begin s).cause = s.cause := rfl
@[simp] theorem begin_info (s : State) : (begin s).info = s.info := rfl
@[simp] theorem begin_seq (s : State) : (begin s).seq = s.seq := rfl
@[simp] theorem begin_modeB (s : State) : (begin s).modeB = s.modeB := rfl
@[simp] theorem begin_modeC (s : State) : (begin s).modeC = s.modeC := rfl
@[simp] theorem begin_modeNE (s : State) : (begin s).modeNE = s.modeNE := rfl
@[simp] theorem begin_modeNP (s : State) : (begin s).modeNP = s.modeNP := rfl
@[simp] theorem begin_modePEND (s : State) : (begin s).modePEND = s.modePEND := rfl
@[simp] theorem begin_totalBits (s : State) : (begin s).totalBits = s.totalBits := rfl
@[simp] theorem begin_bits (s : State) : (begin s).bits = s.bits := rfl
@[simp] theorem begin_rotOff (s : State) : (begin s).rotOff = s.rotOff := rfl
@[simp] theorem begin_rotLen (s : State) : (begin s).rotLen = s.rotLen := rfl
@[simp] theorem begin_rotStride (s : State) : (begin s).rotStride = s.rotStride := rfl
@[simp] theorem begin_rotIter (s : State) : (begin s).rotIter = s.rotIter := rfl
@[simp] theorem begin_rotTheta (s : State) : (begin s).rotTheta = s.rotTheta := rfl
@[simp] theorem begin_mem (s : State) : (begin s).mem = s.mem := rfl
@[simp] theorem begin_ec (s : State) : (begin s).ec = s.ec := rfl
@[simp] theorem begin_moves (s : State) : (begin s).moves = s.moves := rfl
@[simp] theorem begin_readData (s : State) : (begin s).readData = s.readData := rfl
@[simp] theorem begin_draws (s : State) : (begin s).draws = s.draws + 1 := rfl

@[simp] theorem resetCore_caps (s : State) : (resetCore s).caps = s.caps := rfl
@[simp] theorem resetCore_busy (s : State) : (resetCore s).busy = false := rfl
@[simp] theorem resetCore_halt (s : State) : (resetCore s).halt = false := rfl
@[simp] theorem resetCore_cause (s : State) : (resetCore s).cause = 0 := rfl
@[simp] theorem resetCore_info (s : State) : (resetCore s).info = 0 := rfl
@[simp] theorem resetCore_seq (s : State) : (resetCore s).seq = 0 := rfl
@[simp] theorem resetCore_modeB (s : State) : (resetCore s).modeB = 0 := rfl
@[simp] theorem resetCore_modeC (s : State) : (resetCore s).modeC = 0 := rfl
@[simp] theorem resetCore_modeNE (s : State) : (resetCore s).modeNE = 0 := rfl
@[simp] theorem resetCore_modeNP (s : State) : (resetCore s).modeNP = 0 := rfl
@[simp] theorem resetCore_modePEND (s : State) : (resetCore s).modePEND = 0 := rfl
@[simp] theorem resetCore_totalBits (s : State) : (resetCore s).totalBits = 0 := rfl
@[simp] theorem resetCore_bits (s : State) : (resetCore s).bits = 0 := rfl
@[simp] theorem resetCore_rotOff (s : State) : (resetCore s).rotOff = 0 := rfl
@[simp] theorem resetCore_rotLen (s : State) : (resetCore s).rotLen = 0 := rfl
@[simp] theorem resetCore_rotStride (s : State) : (resetCore s).rotStride = 1 := rfl
@[simp] theorem resetCore_rotIter (s : State) : (resetCore s).rotIter = 8 := rfl
@[simp] theorem resetCore_rotTheta (s : State) : (resetCore s).rotTheta = 0 := rfl
@[simp] theorem resetCore_mem (s : State) : (resetCore s).mem = [] := rfl
@[simp] theorem resetCore_ec (s : State) : (resetCore s).ec = s.ec := rfl
@[simp] theorem resetCore_moves (s : State) : (resetCore s).moves = s.moves := rfl
@[simp] theorem resetCore_readData (s : State) : (resetCore s).readData = s.readData := rfl
@[simp] theorem resetCore_draws (s : State) : (resetCore s).draws = s.draws := rfl

end Sys2Proof.Machine
end

