-- ==== Sys2Proof/Laws/Memory.lean ====
section
/-! SUPPORT. The laws of the memory: a read after a write, the canonical form, which addresses are listed, and slices. -/

namespace Sys2Proof.Machine

/-! ### Reads and writes -/

@[simp] theorem Memory.read_nil (a : Nat) : Memory.read [] a = none := rfl

theorem Memory.read_cons (k : Nat) (w : Word) (rest : Memory) (a : Nat) :
    Memory.read ((k, w) :: rest) a = if k = a then some w else Memory.read rest a := rfl

theorem Memory.read_write (mem : Memory) (a b : Nat) (v : Word) :
    Memory.read (Memory.write mem a v) b = if a = b then some v else Memory.read mem b := by
  induction mem with
  | nil => rfl
  | cons c rest ih =>
    obtain ⟨k, w⟩ := c
    unfold Memory.write
    split
    · rfl
    · split
      · simp only [Memory.read_cons]; split <;> simp_all
      · simp only [Memory.read_cons, ih]; split <;> split <;> simp_all

@[simp] theorem Memory.read_write_same (mem : Memory) (a : Nat) (v : Word) :
    Memory.read (Memory.write mem a v) a = some v := by simp [Memory.read_write]

theorem Memory.read_write_other (mem : Memory) {a b : Nat} (v : Word) (h : a ≠ b) :
    Memory.read (Memory.write mem a v) b = Memory.read mem b := by simp [Memory.read_write, h]

/-! ### The canonical form -/

theorem Memory.above_write (mem : Memory) (a b : Nat) (v : Word) (hb : b < a) (h : Memory.above b mem = true) :
    Memory.above b (Memory.write mem a v) = true := by
  cases mem with
  | nil => simpa [Memory.write, Memory.above] using hb
  | cons c rest =>
    obtain ⟨k, w⟩ := c
    unfold Memory.write
    split
    · simpa [Memory.above] using hb
    · split <;> simp_all [Memory.above]

theorem Memory.wf_cons (k : Nat) (w : Word) (rest : Memory) :
    Memory.wf ((k, w) :: rest) = true ↔ Memory.above k rest = true ∧ Memory.wf rest = true := by
  simp [Memory.wf]

theorem Memory.above_cons (a k : Nat) (w : Word) (rest : Memory) :
    Memory.above a ((k, w) :: rest) = true ↔ a < k := by simp [Memory.above]

theorem Memory.wf_write (mem : Memory) (a : Nat) (v : Word) (h : Memory.wf mem = true) :
    Memory.wf (Memory.write mem a v) = true := by
  induction mem with
  | nil => rfl
  | cons c rest ih =>
    obtain ⟨k, w⟩ := c
    have h' := (Memory.wf_cons k w rest).mp h
    unfold Memory.write
    split
    · next hlt => exact (Memory.wf_cons _ _ _).mpr ⟨(Memory.above_cons _ _ _ _).mpr hlt, h⟩
    · split
      · next _ hk => subst hk; exact (Memory.wf_cons _ _ _).mpr h'
      · next hlt hk =>
        refine (Memory.wf_cons _ _ _).mpr ?_
        replace h := h'
        exact ⟨Memory.above_write rest a k v (by omega) h.1, ih h.2⟩

/-- A written address is listed: the address of one of the cells. -/
theorem Memory.exists_of_read (mem : Memory) (a : Nat) (h : (Memory.read mem a).isSome = true) :
    ∃ c ∈ mem, c.1 = a := by
  induction mem with
  | nil => simp at h
  | cons c rest ih =>
    obtain ⟨k, w⟩ := c
    rw [Memory.read_cons] at h
    split at h
    · next hk => exact ⟨(k, w), by simp, hk⟩
    · obtain ⟨c, hc, hk⟩ := ih h; exact ⟨c, by simp [hc], hk⟩

/-- A listed address is written. -/
theorem Memory.read_of_mem (mem : Memory) (c : ElementCell) (h : c ∈ mem) :
    (Memory.read mem c.1).isSome = true := by
  induction mem with
  | nil => simp at h
  | cons c' rest ih =>
    obtain ⟨k, w⟩ := c'
    rw [Memory.read_cons]
    split
    · rfl
    · next hk =>
      rcases List.mem_cons.mp h with rfl | h
      · exact absurd rfl hk
      · exact ih h

/-- `mapped` in terms of reads: every written address is one the map lists. -/
theorem Memory.mapped_iff (caps : Caps) (mem : Memory) :
    Memory.mapped caps mem = true ↔ ∀ a, (Memory.read mem a).isSome = true → addrMapped caps a = true := by
  simp only [Memory.mapped, List.all_eq_true]
  constructor
  · intro h a ha
    obtain ⟨c, hc, rfl⟩ := Memory.exists_of_read mem a ha
    exact h c hc
  · intro h c hc
    exact h c.1 (Memory.read_of_mem mem c hc)

/-! ### Addresses -/

@[simp] theorem memOfSpace_space (m : MemName) : memOfSpace m.space = some m := by
  rcases m with _ | _ | s | k | _ | _ | _ <;> first | rfl | (cases s <;> rfl) | (cases k <;> rfl)

/-- Different memories have different spaces. -/
theorem MemName.space_inj {m m' : MemName} (h : m.space = m'.space) : m = m' := by
  have := congrArg memOfSpace h
  simpa using this

theorem space_of_memOfSpace {n : Nat} {m : MemName} (h : memOfSpace n = some m) : m.space = n := by
  unfold memOfSpace at h
  split at h <;> simp_all <;> subst h <;> rfl

/-- Within 16 bits of index, an address names one element of one memory. -/
theorem addr_inj {m m' : MemName} {k k' : Nat} (hk : k < 65536) (hk' : k' < 65536) :
    addr m k = addr m' k' ↔ m = m' ∧ k = k' := by
  constructor
  · intro h
    unfold addr at h
    have hs : m.space = m'.space := by omega
    exact ⟨MemName.space_inj hs, by rw [hs] at h; omega⟩
  · rintro ⟨rfl, rfl⟩; rfl

theorem addr_succ (m : MemName) (k : Nat) : addr m (k + 1) = addr m k + 1 :=
  (Nat.add_assoc _ _ _).symm

theorem addr_add (m : MemName) (k n : Nat) : addr m (k + n) = addr m k + n := (Nat.add_assoc _ _ _).symm

theorem addr_index_inj {m : MemName} {k k' : Nat} : addr m k = addr m k' ↔ k = k' := Nat.add_left_cancel_iff

theorem addrMapped_addr (caps : Caps) (m : MemName) (k : Nat) (hk : k < 65536) :
    addrMapped caps (addr m k) = decide (k < m.size caps) := by
  have h1 : addr m k / 65536 = m.space := by unfold addr; omega
  have h2 : addr m k % 65536 = k := by unfold addr; omega
  simp [addrMapped, h1, h2]

/-! ### Elements and slices -/

theorem readElem_ok {m : MemName} {k : Nat} {mem : Memory} {w : Word} :
    readElem m k mem = .ok w ↔ Memory.read mem (addr m k) = some w := by
  unfold readElem; split <;> simp_all

theorem readElem_error {m : MemName} {k : Nat} {mem : Memory} {e : Stop} :
    readElem m k mem = .error e ↔ Memory.read mem (addr m k) = none ∧ e = .unwritten m k := by
  unfold readElem
  split
  · next w hw => simp [hw]
  · next hn => simp only [Except.error.injEq, hn, true_and]; exact eq_comm

theorem readElem_vals {m : MemName} {k : Nat} {mem : Memory} (h : (Memory.read mem (addr m k)).isSome = true) :
    readElem m k mem = .ok (vals mem m k) := by
  rw [readElem_ok, vals]
  obtain ⟨w, hw⟩ := Option.isSome_iff_exists.mp h
  simp [hw]

@[simp] theorem read_writeElem (m : MemName) (k : Nat) (v : Word) (mem : Memory) (a : Nat) :
    Memory.read (writeElem m k v mem) a = if addr m k = a then some v else Memory.read mem a :=
  Memory.read_write mem _ _ _

theorem readSlice_length {m : MemName} {n : Nat} : ∀ {lo : Nat} {mem : Memory} {ws : List Word},
    readSlice m lo n mem = .ok ws → ws.length = n := by
  induction n with
  | zero => intro lo mem ws h; cases h; rfl
  | succ n ih =>
    intro lo mem ws h
    unfold readSlice at h
    cases h1 : readElem m lo mem with
    | error e => rw [h1] at h; exact absurd h (by simp [bind, Except.bind])
    | ok v =>
      cases h2 : readSlice m (lo + 1) n mem with
      | error e => rw [h1, h2] at h; exact absurd h (by simp [bind, Except.bind])
      | ok rest =>
        rw [h1, h2] at h
        cases h
        simp [ih h2]

theorem sliceOf_succ (v : Vals) (lo n : Nat) : sliceOf v lo (n + 1) = v lo :: sliceOf v (lo + 1) n := by
  simp only [sliceOf, List.range_succ_eq_map, List.map_cons, List.map_map, Nat.add_zero]
  congr 1
  apply List.map_congr_left
  intro k _
  simp only [Function.comp, Nat.succ_eq_add_one]
  congr 1; omega

/-- Reading written elements gives the array's slice. -/
theorem readSlice_vals {m : MemName} {mem : Memory} {n : Nat} : ∀ {lo : Nat},
    Written mem m lo (lo + n) → readSlice m lo n mem = .ok (sliceOf (vals mem m) lo n) := by
  induction n with
  | zero => intro lo _; rfl
  | succ n ih =>
    intro lo h
    have h1 : readElem m lo mem = .ok (vals mem m lo) := readElem_vals (h lo (by omega) (by omega))
    have h2 := ih (lo := lo + 1) (fun k hk hlo => h k (by omega) (by omega))
    unfold readSlice
    rw [h1, h2, sliceOf_succ]
    rfl

/-- A slice is read exactly when its elements are written, and then it is the array's slice. -/
theorem readSlice_ok {m : MemName} {mem : Memory} {n : Nat} : ∀ {lo : Nat} {ws : List Word},
    readSlice m lo n mem = .ok ws → Written mem m lo (lo + n) ∧ ws = sliceOf (vals mem m) lo n := by
  induction n with
  | zero => intro lo ws h; cases h; exact ⟨fun k h1 h2 => absurd h1 (by omega), rfl⟩
  | succ n ih =>
    intro lo ws h
    unfold readSlice at h
    cases h1 : readElem m lo mem with
    | error e => rw [h1] at h; exact absurd h (by simp [bind, Except.bind])
    | ok v =>
      cases h2 : readSlice m (lo + 1) n mem with
      | error e => rw [h1, h2] at h; exact absurd h (by simp [bind, Except.bind])
      | ok rest =>
        rw [h1, h2] at h
        cases h
        obtain ⟨hw, rfl⟩ := ih h2
        have hv := readElem_ok.mp h1
        refine ⟨fun k hk hlo => ?_, ?_⟩
        · by_cases hkl : k = lo
          · subst hkl; simp [hv]
          · exact hw k (by omega) (by omega)
        · rw [sliceOf_succ]; congr 1; simp [vals, hv]

theorem readSlice_error {m : MemName} {mem : Memory} {n : Nat} : ∀ {lo : Nat} {e : Stop},
    readSlice m lo n mem = .error e →
      ∃ k, lo ≤ k ∧ k < lo + n ∧ e = .unwritten m k ∧ Memory.read mem (addr m k) = none := by
  induction n with
  | zero => intro lo e h; cases h
  | succ n ih =>
    intro lo e h
    unfold readSlice at h
    cases h1 : readElem m lo mem with
    | error e' =>
      rw [h1] at h
      cases h
      obtain ⟨hn, rfl⟩ := readElem_error.mp h1
      exact ⟨lo, by omega, by omega, rfl, hn⟩
    | ok v =>
      cases h2 : readSlice m (lo + 1) n mem with
      | error e' =>
        rw [h1, h2] at h
        cases h
        obtain ⟨k, hk1, hk2, he, hn⟩ := ih h2
        exact ⟨k, by omega, by omega, he, hn⟩
      | ok rest => rw [h1, h2] at h; cases h

/-- A read after a slice write. -/
theorem read_writeSlice (m : MemName) (ws : List Word) : ∀ (lo : Nat) (mem : Memory) (a : Nat),
    Memory.read (writeSlice m lo ws mem) a =
      if addr m lo ≤ a ∧ a < addr m lo + ws.length then ws[a - addr m lo]? else Memory.read mem a := by
  induction ws with
  | nil => intro lo mem a; simp [writeSlice]
  | cons v rest ih =>
    intro lo mem a
    have hs := addr_succ m lo
    rw [writeSlice, ih, hs, read_writeElem]
    by_cases ha : addr m lo = a
    · subst ha; simp
    · by_cases h2 : addr m lo + 1 ≤ a ∧ a < addr m lo + 1 + rest.length
      · have h3 : a - addr m lo = (a - (addr m lo + 1)) + 1 := by omega
        rw [if_pos h2, if_pos (by simp; omega), h3]
        simp
      · rw [if_neg h2, if_neg ha, if_neg (by simp; omega)]

@[simp] theorem takeValues_length (n : Nat) (f : Nat → Word) : (takeValues n f).length = n := by simp [takeValues]

theorem takeValues_getElem? (n : Nat) (f : Nat → Word) (k : Nat) (h : k < n) :
    (takeValues n f)[k]? = some (f k) := by simp [takeValues, h]

/-- A read after `zeroFill`. -/
theorem read_zeroFill (m : MemName) (lo hi : Nat) (mem : Memory) (a : Nat) :
    Memory.read (zeroFill m lo hi mem) a =
      if addr m lo ≤ a ∧ a < addr m hi then some F32.ZERO else Memory.read mem a := by
  rw [zeroFill, read_writeSlice, List.length_replicate]
  rcases Nat.le_total hi lo with hle | hle
  · have h1 : addr m hi ≤ addr m lo := Nat.add_le_add_left hle _
    rw [if_neg (by omega), if_neg (by omega)]
  · obtain ⟨n, rfl⟩ := Nat.exists_eq_add_of_le hle
    rw [addr_add, Nat.add_sub_cancel_left]
    by_cases h : addr m lo ≤ a ∧ a < addr m lo + n
    · rw [if_pos h, if_pos h, List.getElem?_replicate, if_pos (by omega)]
    · rw [if_neg h, if_neg h]

theorem wf_writeElem (m : MemName) (k : Nat) (v : Word) (mem : Memory) (h : Memory.wf mem = true) :
    Memory.wf (writeElem m k v mem) = true := Memory.wf_write mem _ _ h

theorem wf_writeSlice (m : MemName) (ws : List Word) : ∀ (lo : Nat) (mem : Memory), Memory.wf mem = true →
    Memory.wf (writeSlice m lo ws mem) = true := by
  induction ws with
  | nil => intro _ _ h; exact h
  | cons v rest ih => intro lo mem h; exact ih _ _ (wf_writeElem m lo v mem h)

theorem wf_zeroFill (m : MemName) (lo hi : Nat) (mem : Memory) (h : Memory.wf mem = true) :
    Memory.wf (zeroFill m lo hi mem) = true := wf_writeSlice m _ lo mem h

end Sys2Proof.Machine
end

