-- ==== Sys2Proof/Laws/Loops.lean ====
section
/-! SUPPORT. The laws of `Cmd` and of the loops: how a bind ends; what a computation may change (`Does`), composed over binds and
loops; and the simulation of a loop by a fold over plain values. -/

namespace Sys2Proof.Machine

variable {α β : Type}

/-! ### Binds -/

theorem bind_ok {x : Cmd α} {f : α → Cmd β} {r : β} :
    (x >>= f) = .ok r ↔ ∃ a, x = .ok a ∧ f a = .ok r := by
  cases x <;> simp [bind, Except.bind]

theorem bind_error {x : Cmd α} {f : α → Cmd β} {e : Stop} :
    (x >>= f) = .error e ↔ x = .error e ∨ ∃ a, x = .ok a ∧ f a = .error e := by
  cases x <;> simp [bind, Except.bind]

theorem ok_bind (a : α) (f : α → Cmd β) : ((Except.ok a : Cmd α) >>= f) = f a := rfl

theorem error_bind (e : Stop) (f : α → Cmd β) : ((Except.error e : Cmd α) >>= f) = .error e := rfl

theorem require_ok {b : Bool} {e : Stop} : require b e = .ok () ↔ b = true := by
  cases b <;> simp [require]

theorem require_error {b : Bool} {e e' : Stop} : require b e = .error e' ↔ b = false ∧ e' = e := by
  cases b <;> simp [require, eq_comm]

theorem require_true {b : Bool} {e : Stop} (h : b = true) : require b e = .ok () := require_ok.mpr h

theorem require_false {b : Bool} {e : Stop} (h : b = false) : require b e = .error e := by simp [require, h]

/-! ### Loops, unfolded once -/

theorem forUp_empty {lo hi : Nat} (h : hi ≤ lo) (body : Nat → α → Cmd α) (x : α) : forUp lo hi body x = .ok x := by
  unfold forUp; rw [Nat.sub_eq_zero_of_le h]; rfl

theorem forUp_cons {lo hi : Nat} (h : lo < hi) (body : Nat → α → Cmd α) (x : α) :
    forUp lo hi body x = (body lo x >>= forUp (lo + 1) hi body) := by
  unfold forUp
  obtain ⟨n, hn⟩ : ∃ n, hi - lo = n + 1 := ⟨hi - lo - 1, by omega⟩
  rw [hn, show hi - (lo + 1) = n by omega]
  rfl

theorem forDown_zero (body : Nat → α → Cmd α) (x : α) : forDown body 0 x = .ok x := rfl

theorem forDown_succ (body : Nat → α → Cmd α) (n : Nat) (x : α) :
    forDown body (n + 1) x = (body n x >>= forDown body n) := rfl

theorem upFold_empty {lo hi : Nat} (h : hi ≤ lo) (f : Nat → α → α) (x : α) : upFold lo hi f x = x := by
  simp [upFold, Nat.sub_eq_zero_of_le h]

theorem upFold_cons {lo hi : Nat} (h : lo < hi) (f : Nat → α → α) (x : α) :
    upFold lo hi f x = upFold (lo + 1) hi f (f lo x) := by
  obtain ⟨n, hn⟩ : ∃ n, hi - lo = n + 1 := ⟨hi - lo - 1, by omega⟩
  rw [upFold, upFold, hn, show hi - (lo + 1) = n by omega, List.range'_succ, List.foldl_cons]

theorem upFold_snoc {lo hi : Nat} (h : lo ≤ hi) (f : Nat → α → α) (x : α) :
    upFold lo (hi + 1) f x = f hi (upFold lo hi f x) := by
  rw [upFold, upFold, show hi + 1 - lo = (hi - lo) + 1 by omega, List.range'_concat, List.foldl_append]
  simp only [List.foldl_cons, List.foldl_nil]
  congr 1; omega

theorem downFold_zero (f : Nat → α → α) (x : α) : downFold 0 f x = x := rfl

theorem downFold_succ (n : Nat) (f : Nat → α → α) (x : α) :
    downFold (n + 1) f x = downFold n f (f n x) := by
  simp [downFold, List.range_succ]

/-! ### Simulation -/

/-- A loop whose every round succeeds and keeps a relation with a fold over plain values ends well, related to the fold's end. -/
theorem forUp_sim {lo hi : Nat} {body : Nat → α → Cmd α} {f : Nat → β → β} (R : Nat → α → β → Prop)
    (hle : lo ≤ hi) {x : α} {y : β} (h0 : R lo x y)
    (hstep : ∀ k x y, lo ≤ k → k < hi → R k x y → ∃ x', body k x = .ok x' ∧ R (k + 1) x' (f k y)) :
    ∃ x', forUp lo hi body x = .ok x' ∧ R hi x' (upFold lo hi f y) := by
  obtain ⟨n, rfl⟩ := Nat.exists_eq_add_of_le hle
  clear hle
  induction n generalizing lo x y with
  | zero => exact ⟨x, forUp_empty (by omega) _ _, by rw [upFold_empty (by omega)]; exact h0⟩
  | succ n ih =>
    obtain ⟨x1, hb, hR⟩ := hstep lo x y (Nat.le_refl _) (by omega) h0
    rw [show lo + (n + 1) = lo + 1 + n by omega] at *
    obtain ⟨x', hx', hR'⟩ := ih hR (fun k x y h1 h2 h3 => hstep k x y (by omega) h2 h3)
    refine ⟨x', ?_, ?_⟩
    · rw [forUp_cons (by omega), hb]; exact hx'
    · rw [upFold_cons (by omega)]; exact hR'

/-- The same with an invariant alone. -/
theorem forUp_total {lo hi : Nat} {body : Nat → α → Cmd α} (P : Nat → α → Prop) (hle : lo ≤ hi) {x : α} (h0 : P lo x)
    (hstep : ∀ k x, lo ≤ k → k < hi → P k x → ∃ x', body k x = .ok x' ∧ P (k + 1) x') :
    ∃ x', forUp lo hi body x = .ok x' ∧ P hi x' :=
  forUp_sim (β := Unit) (f := fun _ u => u) (fun k x _ => P k x) hle (y := ()) h0
    (fun k x _ h1 h2 h3 => hstep k x h1 h2 h3)

/-- Partial correctness: an invariant that every successful round keeps holds at a successful end. -/
theorem forUp_inv {lo hi : Nat} {body : Nat → α → Cmd α} (P : Nat → α → Prop) (hle : lo ≤ hi) {x x' : α}
    (h : forUp lo hi body x = .ok x') (h0 : P lo x)
    (hstep : ∀ k x y, lo ≤ k → k < hi → P k x → body k x = .ok y → P (k + 1) y) : P hi x' := by
  obtain ⟨n, rfl⟩ := Nat.exists_eq_add_of_le hle
  clear hle
  induction n generalizing lo x with
  | zero => rw [forUp_empty (by omega)] at h; cases h; exact h0
  | succ n ih =>
    rw [show lo + (n + 1) = lo + 1 + n by omega] at *
    rw [forUp_cons (by omega)] at h
    obtain ⟨y, hy, h⟩ := bind_ok.mp h
    exact ih (hstep lo x y (Nat.le_refl _) (by omega) h0 hy) h
      (fun k x y h1 h2 h3 h4 => hstep k x y (by omega) h2 h3 h4)

theorem forDown_sim {body : Nat → α → Cmd α} {f : Nat → β → β} (R : α → β → Prop) : ∀ (n : Nat) {x : α} {y : β},
    R x y → (∀ k x y, k < n → R x y → ∃ x', body k x = .ok x' ∧ R x' (f k y)) →
    ∃ x', forDown body n x = .ok x' ∧ R x' (downFold n f y)
  | 0, x, _, h0, _ => ⟨x, rfl, h0⟩
  | n + 1, x, y, h0, hstep => by
    obtain ⟨x1, hb, hR⟩ := hstep n x y (by omega) h0
    obtain ⟨x', hx', hR'⟩ := forDown_sim R n hR (fun k x y h1 h2 => hstep k x y (by omega) h2)
    exact ⟨x', by rw [forDown_succ, hb]; exact hx', by rw [downFold_succ]; exact hR'⟩

/-! ### What a computation may change -/

/-- From one memory to another: the canonical form is kept, no address outside `S` changes, and nothing becomes unwritten. -/
structure Keeps (S : Nat → Prop) (m0 m1 : Memory) : Prop where
  wf : Memory.wf m0 = true → Memory.wf m1 = true
  frame : ∀ a, ¬ S a → Memory.read m1 a = Memory.read m0 a
  grows : ∀ a, (Memory.read m0 a).isSome = true → (Memory.read m1 a).isSome = true

theorem Keeps.refl (S : Nat → Prop) (m : Memory) : Keeps S m m := ⟨id, fun _ _ => rfl, fun _ h => h⟩

theorem Keeps.trans {S : Nat → Prop} {a b c : Memory} (h1 : Keeps S a b) (h2 : Keeps S b c) : Keeps S a c :=
  ⟨fun h => h2.wf (h1.wf h), fun x hx => (h2.frame x hx).trans (h1.frame x hx), fun x hx => h2.grows x (h1.grows x hx)⟩

theorem Keeps.mono {S T : Nat → Prop} {a b : Memory} (h : Keeps S a b) (hST : ∀ x, S x → T x) : Keeps T a b :=
  ⟨h.wf, fun x hx => h.frame x (fun hs => hx (hST x hs)), h.grows⟩

theorem Keeps.writeElem {S : Nat → Prop} {m0 mem : Memory} (h : Keeps S m0 mem) {m : MemName} {k : Nat} (v : Word)
    (hS : S (addr m k)) : Keeps S m0 (writeElem m k v mem) := by
  refine ⟨fun hw => wf_writeElem m k v mem (h.wf hw), fun a ha => ?_, fun a ha => ?_⟩
  · rw [read_writeElem, if_neg (fun hk : addr m k = a => ha (hk ▸ hS)), h.frame a ha]
  · rw [read_writeElem]; split
    · rfl
    · exact h.grows a ha

theorem Keeps.writeSlice {S : Nat → Prop} {m : MemName} (ws : List Word) : ∀ {lo : Nat} {m0 mem : Memory},
    Keeps S m0 mem → (∀ k, lo ≤ k → k < lo + ws.length → S (addr m k)) → Keeps S m0 (writeSlice m lo ws mem) := by
  induction ws with
  | nil => intro _ _ _ h _; exact h
  | cons v rest ih =>
    intro lo m0 mem h hS
    exact ih (h.writeElem v (hS lo (Nat.le_refl _) (by simp)))
      (fun k h1 h2 => hS k (by omega) (by simp only [List.length_cons]; omega))

theorem Keeps.zeroFill {S : Nat → Prop} {m : MemName} {lo hi : Nat} {m0 mem : Memory} (h : Keeps S m0 mem)
    (hS : ∀ k, lo ≤ k → k < hi → S (addr m k)) : Keeps S m0 (zeroFill m lo hi mem) :=
  h.writeSlice _ (fun k h1 h2 => hS k h1 (by rw [List.length_replicate] at h2; omega))

/-- Everything a computation that starts from `m0` can do: end with a memory that `Keeps` allows, or stop at an element that `m0`
does not hold. -/
def Does (S : Nat → Prop) (m0 : Memory) (get : α → Memory) (r : Cmd α) : Prop :=
  match r with
  | .ok x => Keeps S m0 (get x)
  | .error e => ∃ m k, e = .unwritten m k ∧ Memory.read m0 (addr m k) = none

theorem Does.ok {S : Nat → Prop} {m0 : Memory} {get : α → Memory} {r : Cmd α} (h : Does S m0 get r) {x : α}
    (hr : r = .ok x) : Keeps S m0 (get x) := by subst hr; exact h

theorem Does.error {S : Nat → Prop} {m0 : Memory} {get : α → Memory} {r : Cmd α} (h : Does S m0 get r) {e : Stop}
    (hr : r = .error e) : ∃ m k, e = .unwritten m k ∧ Memory.read m0 (addr m k) = none := by subst hr; exact h

theorem Does.mono {S T : Nat → Prop} {m0 : Memory} {get : α → Memory} {r : Cmd α} (h : Does S m0 get r)
    (hST : ∀ x, S x → T x) : Does T m0 get r := by
  cases r with
  | ok x => exact Keeps.mono h hST
  | error e => exact h

theorem does_pure {S : Nat → Prop} {m0 : Memory} {get : α → Memory} {x : α} (h : Keeps S m0 (get x)) :
    Does S m0 get (.ok x) := h

theorem does_bind {S : Nat → Prop} {m0 : Memory} {g1 : α → Memory} {g2 : β → Memory} {r : Cmd α} {f : α → Cmd β}
    (h : Does S m0 g1 r) (hf : ∀ x, r = .ok x → Keeps S m0 (g1 x) → Does S m0 g2 (f x)) : Does S m0 g2 (r >>= f) := by
  cases r with
  | ok x => exact hf x rfl h
  | error e => exact h

/-- Start from a later memory. -/
theorem Does.from {S : Nat → Prop} {m0 m1 : Memory} {get : α → Memory} {r : Cmd α} (hk : Keeps S m0 m1)
    (h : Does S m1 get r) : Does S m0 get r := by
  cases r with
  | ok x => exact hk.trans h
  | error e =>
    obtain ⟨m, k, he, hn⟩ := h
    refine ⟨m, k, he, ?_⟩
    cases h0 : Memory.read m0 (addr m k) with
    | none => rfl
    | some w =>
      have h1 := hk.grows (addr m k) (by rw [h0]; rfl)
      rw [hn] at h1
      cases h1

theorem does_readElem {S : Nat → Prop} {m0 : Memory} {get : α → Memory} {m : MemName} {k : Nat} {f : Word → Cmd α}
    (hf : ∀ w, Memory.read m0 (addr m k) = some w → Does S m0 get (f w)) : Does S m0 get (readElem m k m0 >>= f) := by
  cases hr : readElem m k m0 with
  | ok w => exact hf w (readElem_ok.mp hr)
  | error e =>
    obtain ⟨hn, he⟩ := readElem_error.mp hr
    exact ⟨m, k, he, hn⟩

theorem does_readSlice {S : Nat → Prop} {m0 : Memory} {get : α → Memory} {m : MemName} {lo n : Nat} {f : List Word → Cmd α}
    (hf : ∀ ws, Does S m0 get (f ws)) : Does S m0 get (readSlice m lo n m0 >>= f) := by
  cases hr : readSlice m lo n m0 with
  | ok w => exact hf w
  | error e =>
    obtain ⟨k, _, _, he, hn⟩ := readSlice_error hr
    exact ⟨m, k, he, hn⟩

theorem does_forUp {S : Nat → Prop} {get : α → Memory} {lo hi : Nat} {body : Nat → α → Cmd α}
    (hb : ∀ k x, lo ≤ k → k < hi → Does S (get x) get (body k x)) (x : α) :
    Does S (get x) get (forUp lo hi body x) := by
  rcases Nat.le_total hi lo with hle | hle
  · rw [forUp_empty hle]; exact Keeps.refl _ _
  · obtain ⟨n, rfl⟩ := Nat.exists_eq_add_of_le hle
    clear hle
    induction n generalizing lo x with
    | zero => rw [forUp_empty (by omega)]; exact Keeps.refl _ _
    | succ n ih =>
      rw [show lo + (n + 1) = lo + 1 + n by omega] at *
      rw [forUp_cons (by omega)]
      exact does_bind (hb lo x (Nat.le_refl _) (by omega))
        (fun y _ hk => Does.from hk (ih y (fun k x h1 h2 => hb k x (by omega) h2)))

theorem does_forDown {S : Nat → Prop} {get : α → Memory} {body : Nat → α → Cmd α} : ∀ (n : Nat),
    (∀ k x, k < n → Does S (get x) get (body k x)) → ∀ x, Does S (get x) get (forDown body n x)
  | 0, _, x => Keeps.refl _ _
  | n + 1, hb, x => by
    rw [forDown_succ]
    exact does_bind (hb n x (by omega))
      (fun y _ hk => Does.from hk (does_forDown n (fun k x h => hb k x (by omega)) y))

/-- A loop that only computes a value over a fixed memory. -/
theorem does_value {S : Nat → Prop} {m0 : Memory} {lo hi : Nat} {body : Nat → α → Cmd α}
    (hb : ∀ k x, lo ≤ k → k < hi → Does S m0 (fun _ => m0) (body k x)) (x : α) :
    Does S m0 (fun _ => m0) (forUp lo hi body x) :=
  does_forUp (get := fun _ => m0) hb x

end Sys2Proof.Machine
end

