-- ==== Sys2Proof/Laws/Mode.lean ====
section
/-! SUPPORT. What a mode that passed step 3 of 30_encoding.md R91 satisfies, and the bounds that follow for every index a command
forms (20_memory.md R66). -/

namespace Sys2Proof.Machine

/-- The arithmetic of ModeValid and of the length check, on the mode alone (10_state.md R46). -/
structure ModeFacts (caps : Caps) (m : Mode) : Prop where
  b : 1 ≤ m.b
  c : m.c = 1 ∨ m.c = 2
  ne : m.ne ≤ caps.emax.val
  np : m.np ≤ caps.pmax.val
  rise : ∀ k, k ≤ m.ne → Mode.e m k < Mode.e m (k + 1)
  prise : ∀ k, k ≤ m.np → Mode.p m k ≤ Mode.p m (k + 1)
  first : Mode.e m 0 ≤ Mode.p m 0
  last : Mode.p m m.np ≤ Mode.e m m.ne
  padded : Mode.p m (m.np + 1) ≤ Mode.e m (m.ne + 1)
  pend : ∃ k, k ≤ m.ne + 1 ∧ m.pend = Mode.e m k
  length : m.b * m.c * Mode.e m (m.ne + 1) ≤ Caps.nmax caps

theorem readTable_ok {m : MemName} {n : Nat} {mem : Memory} {t : List Nat} (h : readTable m n mem = .ok t) :
    Written mem m 0 n ∧ t = (List.range n).map (fun k => u32 (vals mem m k)) := by
  unfold readTable at h
  obtain ⟨ws, hw, ht⟩ := bind_ok.mp h
  obtain ⟨h1, rfl⟩ := readSlice_ok hw
  simp only [Nat.zero_add] at h1
  cases ht
  refine ⟨h1, ?_⟩
  simp [sliceOf]

/-- A table whose entries are written is read whole. -/
theorem readTable_written {m : MemName} {n : Nat} {mem : Memory} (h : Written mem m 0 n) :
    readTable m n mem = .ok ((List.range n).map (fun k => u32 (vals mem m k))) := by
  unfold readTable
  rw [readSlice_vals (lo := 0) (n := n) (fun k h1 h2 => h k (by omega) h2), ok_bind]
  simp [sliceOf]

/-- Entry `k` of a table that was read. -/
theorem entry_range (f : Nat → Nat) {n k : Nat} (h : k < n) : entry ((List.range n).map f) k = f k := by
  simp [entry, List.getD_eq_getElem?_getD, h]

/-- A mode that passes the checks is the one the registers and tables hold, and satisfies the arithmetic. -/
theorem checkMode_inv {s : State} {m : Mode} (h : checkMode s = .ok m) :
    HoldsMode s m ∧ Written s.mem .ebands 0 (m.ne + 2) ∧ Written s.mem .pbands 0 (m.np + 2) ∧ ModeFacts s.caps m := by
  simp only [checkMode] at h
  obtain ⟨_, h1, h⟩ := bind_ok.mp h
  obtain ⟨_, h2, h⟩ := bind_ok.mp h
  obtain ⟨_, h3, h⟩ := bind_ok.mp h
  obtain ⟨e, he, h⟩ := bind_ok.mp h
  obtain ⟨_, h4, h⟩ := bind_ok.mp h
  obtain ⟨p, hp, h⟩ := bind_ok.mp h
  obtain ⟨_, h5, h⟩ := bind_ok.mp h
  obtain ⟨_, h6, h⟩ := bind_ok.mp h
  obtain ⟨_, h7, h⟩ := bind_ok.mp h
  obtain ⟨_, h8, h⟩ := bind_ok.mp h
  obtain ⟨_, h9, h⟩ := bind_ok.mp h
  cases h
  obtain ⟨hwe, hte⟩ := readTable_ok he
  obtain ⟨hwp, htp⟩ := readTable_ok hp
  have r1 := require_ok.mp h1
  have r2 := require_ok.mp h2
  have r3 := require_ok.mp h3
  have r4 := require_ok.mp h4
  have r5 := require_ok.mp h5
  have r6 := require_ok.mp h6
  have r7 := require_ok.mp h7
  have r8 := require_ok.mp h8
  have r9 := require_ok.mp h9
  simp only [Bool.or_eq_true, Bool.and_eq_true, decide_eq_true_eq] at r1 r2 r3 r6 r7 r9
  simp only [ebandsRise, pbandsRise, List.all_eq_true, List.mem_range, decide_eq_true_eq] at r4 r5
  simp only [pendOnBoundary, List.any_eq_true, List.mem_range, beq_iff_eq] at r8
  refine ⟨⟨rfl, rfl, rfl, rfl, rfl, hte, htp⟩, hwe, hwp, ?_⟩
  exact
    { b := r1, c := r2, ne := r3.1, np := r3.2
      rise := fun k hk => r4 k (Nat.lt_succ_of_le hk)
      prise := fun k hk => r5 k (Nat.lt_succ_of_le hk)
      first := r6.1, last := r6.2, padded := r7
      pend := by obtain ⟨k, hk, hp⟩ := r8; exact ⟨k, Nat.le_of_lt_succ hk, hp⟩
      length := r9 }

theorem checkMode_facts {s : State} {m : Mode} (h : checkMode s = .ok m) : ModeFacts s.caps m := (checkMode_inv h).2.2.2

namespace ModeFacts

variable {caps : Caps} {m : Mode}

theorem c_pos (h : ModeFacts caps m) : 1 ≤ m.c := by have := h.c; omega

theorem c_le (h : ModeFacts caps m) : m.c ≤ 2 := by have := h.c; omega

theorem bq_pos (h : ModeFacts caps m) : 1 ≤ Mode.bq m := Nat.mul_pos h.b h.c_pos

theorem e_mono (h : ModeFacts caps m) {i j : Nat} (hij : i ≤ j) (hj : j ≤ m.ne + 1) : Mode.e m i ≤ Mode.e m j := by
  induction j with
  | zero => have : i = 0 := by omega
            subst this; exact Nat.le_refl _
  | succ j ih =>
    rcases Nat.lt_or_ge i (j + 1) with hlt | hge
    · exact Nat.le_trans (ih (by omega) (by omega)) (Nat.le_of_lt (h.rise j (by omega)))
    · have : i = j + 1 := by omega
      subst this; exact Nat.le_refl _

theorem p_mono (h : ModeFacts caps m) {i j : Nat} (hij : i ≤ j) (hj : j ≤ m.np + 1) : Mode.p m i ≤ Mode.p m j := by
  induction j with
  | zero => have : i = 0 := by omega
            subst this; exact Nat.le_refl _
  | succ j ih =>
    rcases Nat.lt_or_ge i (j + 1) with hlt | hge
    · exact Nat.le_trans (ih (by omega) (by omega)) (h.prise j (by omega))
    · have : i = j + 1 := by omega
      subst this; exact Nat.le_refl _

theorem e_ge (h : ModeFacts caps m) {k : Nat} (hk : k ≤ m.ne + 1) : k ≤ Mode.e m k := by
  induction k with
  | zero => omega
  | succ k ih => have := h.rise k (by omega); have := ih (by omega); omega

theorem flatStart_mono (h : ModeFacts caps m) {i j : Nat} (hij : i ≤ j) (hj : j ≤ m.ne + 1) :
    Mode.flatStart m i ≤ Mode.flatStart m j := Nat.mul_le_mul_left _ (h.e_mono hij hj)

theorem flatStart_lt (h : ModeFacts caps m) {i : Nat} (hi : i ≤ m.ne) : Mode.flatStart m i < Mode.flatStart m (i + 1) :=
  Nat.mul_lt_mul_of_pos_left (h.rise i hi) h.bq_pos

theorem flatStart_le (h : ModeFacts caps m) {i : Nat} (hi : i ≤ m.ne + 1) : Mode.flatStart m i ≤ Caps.nmax caps :=
  Nat.le_trans (h.flatStart_mono hi (Nat.le_refl _)) h.length

theorem flatStart_add_flatLen (h : ModeFacts caps m) {i : Nat} (hi : i ≤ m.ne) :
    Mode.flatStart m i + Mode.flatLen m i = Mode.flatStart m (i + 1) := by
  have := h.flatStart_mono (i := i) (j := i + 1) (by omega) (by omega)
  unfold Mode.flatLen; omega

theorem bandStart_mono (h : ModeFacts caps m) {i j : Nat} (hij : i ≤ j) (hj : j ≤ m.ne + 1) :
    Mode.bandStart m i ≤ Mode.bandStart m j := Nat.mul_le_mul_left _ (h.e_mono hij hj)

theorem pitchStart_mono (h : ModeFacts caps m) {i j : Nat} (hij : i ≤ j) (hj : j ≤ m.np + 1) :
    Mode.pitchStart m i ≤ Mode.pitchStart m j := Nat.mul_le_mul_left _ (h.p_mono hij hj)

theorem pitchStart_le (h : ModeFacts caps m) {k : Nat} (hk : k ≤ m.np + 1) : Mode.pitchStart m k ≤ Caps.nmax caps :=
  Nat.le_trans (Nat.mul_le_mul_left _ (Nat.le_trans (h.p_mono hk (Nat.le_refl _)) h.padded)) h.length

/-- Pitch bands lie inside the bands (check 6). -/
theorem pitch_within (h : ModeFacts caps m) {k : Nat} (hk : k ≤ m.np) :
    Mode.flatStart m 0 ≤ Mode.pitchStart m k ∧ Mode.pitchStart m k ≤ Mode.flatStart m m.ne :=
  ⟨Nat.mul_le_mul_left _ (Nat.le_trans h.first (h.p_mono (Nat.zero_le _) (by omega))),
   Nat.mul_le_mul_left _ (Nat.le_trans (h.p_mono hk (by omega)) h.last)⟩

theorem flatStart_eq (i : Nat) : Mode.flatStart m i = Mode.bandStart m i * m.c := by
  simp only [Mode.flatStart, Mode.bandStart, Mode.bq]; ring

/-- Position `j`, channel `c` of band `i` lies in the band's flat range (00_scope.md R11). -/
theorem flat_bounds {i j c : Nat} (hc : c < m.c) (hj : Mode.bandStart m i ≤ j) (hj' : j < Mode.bandStart m (i + 1)) :
    Mode.flatStart m i ≤ Mode.flat m j c ∧ Mode.flat m j c < Mode.flatStart m (i + 1) := by
  rw [flatStart_eq, flatStart_eq]
  have h1 : Mode.bandStart m i * m.c ≤ j * m.c := Nat.mul_le_mul_right _ hj
  have h2 : (j + 1) * m.c ≤ Mode.bandStart m (i + 1) * m.c := Nat.mul_le_mul_right _ hj'
  have h3 : (j + 1) * m.c = j * m.c + m.c := Nat.succ_mul _ _
  unfold Mode.flat
  omega

theorem flat_inj {j j' c c' : Nat} (hc : c < m.c) (hc' : c' < m.c) (h : Mode.flat m j c = Mode.flat m j' c') :
    j = j' ∧ c = c' := by
  unfold Mode.flat at h
  have hd := congrArg (· / m.c) h
  have hr := congrArg (· % m.c) h
  simp only [Nat.mul_comm j, Nat.mul_comm j', Nat.mul_add_div (by omega : 0 < m.c), Nat.div_eq_of_lt hc,
    Nat.div_eq_of_lt hc', Nat.mul_add_mod, Nat.mod_eq_of_lt hc, Nat.mod_eq_of_lt hc'] at hd hr
  omega

theorem nmax_le (caps : Caps) : Caps.nmax caps ≤ 65536 := by
  have := caps.nmaxLess1.isLt; unfold Caps.nmax; omega

/-- An energy index is inside its memory and inside 16 bits. -/
theorem energyIndex_lt (h : ModeFacts caps m) {i c : Nat} (hi : i < m.ne) (hc : c < m.c) :
    Mode.energyIndex m i c < m.ne * m.c ∧ m.ne * m.c ≤ 2 * caps.emax.val ∧ m.ne * m.c < 65536 := by
  have h1 : (i + 1) * m.c ≤ m.ne * m.c := Nat.mul_le_mul_right _ hi
  have h2 : (i + 1) * m.c = i * m.c + m.c := Nat.succ_mul _ _
  have h3 : m.ne * m.c ≤ caps.emax.val * 2 := Nat.mul_le_mul h.ne h.c_le
  have h4 : m.ne + 1 ≤ Mode.e m (m.ne + 1) := h.e_ge (Nat.le_refl _)
  have h5 : m.c * (m.ne + 1) ≤ m.b * m.c * Mode.e m (m.ne + 1) := by
    have : m.c ≤ m.b * m.c := Nat.le_mul_of_pos_left _ h.b
    exact Nat.mul_le_mul this h4
  have h6 := h.length
  have h7 := nmax_le caps
  have h8 : m.c * (m.ne + 1) = m.ne * m.c + m.c := by ring
  have h9 := h.c_pos
  unfold Mode.energyIndex
  omega

/-- A spectrum index below the spectrum length is one of the map's. -/
theorem mapped_spectrum (h : ModeFacts caps m) (s : Spectrum) {f : Nat} (hf : f < Mode.flatStart m (m.ne + 1)) :
    addrMapped caps (addr (sel s) f) = true := by
  have h1 := h.flatStart_le (Nat.le_refl (m.ne + 1))
  have h2 := nmax_le caps
  rw [addrMapped_addr _ _ _ (by omega)]
  exact decide_eq_true (show f < Caps.nmax caps by omega)

theorem mapped_energy (h : ModeFacts caps m) (k : EnergyMem) {i c : Nat} (hi : i < m.ne) (hc : c < m.c) :
    addrMapped caps (addr (bank k) (Mode.energyIndex m i c)) = true := by
  obtain ⟨h1, h2, h3⟩ := h.energyIndex_lt hi hc
  rw [addrMapped_addr _ _ _ (by omega)]
  exact decide_eq_true (show Mode.energyIndex m i c < max 1 (2 * caps.emax.val) by omega)

end ModeFacts

end Sys2Proof.Machine
end

