-- ==== Sys2Proof/Laws/Commands.lean ====
section
/-! SUPPORT. One lemma per piece of a command's work that says once everything it can do to the memory: what it may write, that it
keeps the canonical form, and that it stops only at an unwritten element. -/

namespace Sys2Proof.Machine

/-- A state's work on one memory from one start. -/
abbrev MemWork (S : Nat → Prop) (mem : Memory) (r : Cmd Memory) : Prop := Does S mem (fun x => x) r

theorem inRange_addr {m : MemName} {lo hi k : Nat} (h1 : lo ≤ k) (h2 : k < hi) : InRange m lo hi (addr m k) :=
  ⟨Nat.add_le_add_left h1 _, Nat.add_lt_add_left h2 _⟩

theorem inRange_mono {m : MemName} {lo hi lo' hi' a : Nat} (h : InRange m lo hi a) (h1 : lo' ≤ lo) (h2 : hi ≤ hi') :
    InRange m lo' hi' a :=
  ⟨Nat.le_trans (Nat.add_le_add_left h1 _) h.1, Nat.lt_of_lt_of_le h.2 (Nat.add_le_add_left h2 _)⟩

theorem inRange_index {m : MemName} {lo hi a : Nat} (h : InRange m lo hi a) : ∃ k, lo ≤ k ∧ k < hi ∧ a = addr m k := by
  obtain ⟨h1, h2⟩ := h
  refine ⟨a - addr m 0, ?_, ?_, ?_⟩ <;> simp only [addr] at * <;> omega

theorem memWork_read_write {S : Nat → Prop} {mem : Memory} {m m' : MemName} {k k' : Nat} {f : Word → Word}
    (hS : S (addr m' k')) : MemWork S mem (do let v ← readElem m k mem; .ok (writeElem m' k' (f v) mem)) :=
  does_readElem (fun _ _ => (Keeps.refl S mem).writeElem _ hS)

/-! ### CBE -/

theorem bandEnergy_does (d : Draws) (m : Mode) (sa : Spectrum) (c i : Nat) (mem : Memory) (S : Nat → Prop) :
    Does S mem (fun _ => mem) (bandEnergy d m sa c i mem) := by
  unfold bandEnergy
  refine does_value (fun _ _ _ _ => does_readElem (fun _ _ => ?_)) _
  exact Keeps.refl S mem

theorem bandEnergies_does {caps : Caps} {m : Mode} (hm : ModeFacts caps m) (d : Draws) (sa : Spectrum) (bk : EnergyMem)
    (mem : Memory) : MemWork (InRange (bank bk) 0 (m.ne * m.c)) mem (bandEnergies d m sa bk mem) := by
  unfold bandEnergies
  refine does_forUp (get := fun x => x) (fun c mem _ hc => does_forUp (get := fun x => x) (fun i mem _ hi =>
    does_bind (bandEnergy_does d m sa c i mem _) (fun _ _ _ => ?_)) mem) mem
  exact (Keeps.refl _ mem).writeElem _ (inRange_addr (Nat.zero_le _) (hm.energyIndex_lt hi hc).1)

/-! ### NRM, DNRM, RNRM -/

theorem scaleBands_does {caps : Caps} {m : Mode} (hm : ModeFacts caps m) (gain : Nat → Nat → Word → Word) (d : Draws)
    (sa sb : Spectrum) (bk : EnergyMem) (mem : Memory) :
    MemWork (InRange (sel sb) (Mode.flatStart m 0) (Mode.flatStart m (m.ne + 1))) mem
      (scaleBands gain d m sa sb bk mem) := by
  refine does_bind (g1 := fun x => x) ?_ (fun mem' _ hk => hk.zeroFill (fun k h1 h2 => ?_))
  · refine does_forUp (get := fun x => x) (fun c mem _ hc => does_forUp (get := fun x => x) (fun i mem _ hi => ?_) mem) mem
    refine does_readElem (fun energy _ => does_forUp (get := fun x => x) (fun j mem hj hj' => ?_) mem)
    have hb := ModeFacts.flat_bounds hc hj hj'
    have h0 := hm.flatStart_mono (Nat.zero_le i) (by omega)
    have h1 := hm.flatStart_mono (i := i + 1) (j := m.ne + 1) (by omega) (Nat.le_refl _)
    exact memWork_read_write (inRange_addr (by omega) (by omega))
  · have h0 := hm.flatStart_mono (Nat.zero_le m.ne) (by omega)
    exact inRange_addr (by omega) h2

theorem renormalise_does {caps : Caps} {m : Mode} (hm : ModeFacts caps m) (d : Draws) (sa : Spectrum) (mem : Memory) :
    MemWork (fun a => InRange (bank .tmpe) 0 (m.ne * m.c) a ∨
      InRange (sel sa) (Mode.flatStart m 0) (Mode.flatStart m (m.ne + 1)) a) mem (renormalise d m sa mem) :=
  does_bind ((bandEnergies_does hm _ sa .tmpe mem).mono (fun _ h => .inl h))
    (fun mem' _ hk => Does.from hk ((scaleBands_does hm _ _ sa sa .tmpe mem').mono (fun _ h => .inr h)))

/-! ### RotSlice -/

theorem rot2_does (d : Draws) (sp : Spectrum) (a b : Nat) (c s : Word) (mem : Memory) {S : Nat → Prop}
    (ha : S (addr (sel sp) a)) (hb : S (addr (sel sp) b)) : MemWork S mem (rot2 d sp a b c s mem) :=
  does_readElem (fun _ _ => does_readElem (fun _ _ => ((Keeps.refl S mem).writeElem _ ha).writeElem _ hb))

theorem rotSlice_does (cfg : Config) (d : Draws) (sp : Spectrum) (off len : Nat) (theta : Word) (dir : Dir)
    (stride iter : Nat) (mem : Memory) :
    MemWork (InRange (sel sp) off (off + len)) mem (rotSlice cfg d sp off len theta dir stride iter mem) := by
  refine does_forUp (get := fun x => x) (fun t mem _ _ => does_bind (g1 := fun x => x) ?_ (fun mem' _ hk => Does.from hk ?_)) mem
  · exact does_forUp (get := fun x => x) (fun i mem _ hi =>
      rot2_does _ sp _ _ _ _ mem (inRange_addr (by omega) (by omega)) (inRange_addr (by omega) (by omega))) mem
  · exact does_forDown (get := fun x => x) _ (fun i mem hi =>
      rot2_does _ sp _ _ _ _ mem (inRange_addr (by omega) (by omega)) (inRange_addr (by omega) (by omega))) mem'

/-! ### CPG, PQB -/

theorem fillWeights_does {caps : Caps} {m : Mode} (hm : ModeFacts caps m) (bk : EnergyMem) (mem : Memory) :
    MemWork (InRange .wgt (Mode.flatStart m 0) (Mode.flatStart m m.ne)) mem (fillWeights m bk mem) :=
  does_forUp (get := fun x => x) (fun i mem _ hi => does_forUp (get := fun x => x) (fun f mem h1 h2 =>
    have h0 := hm.flatStart_mono (Nat.zero_le i) (by omega)
    have h3 := hm.flatStart_mono (i := i + 1) (j := m.ne) (by omega) (by omega)
    memWork_read_write (f := fun v => v) (inRange_addr (by omega) (by omega))) mem) mem

theorem pitchSums_does (d : Draws) (m : Mode) (sa sb : Spectrum) (k : Nat) (mem : Memory) (S : Nat → Prop) :
    Does S mem (fun _ => mem) (pitchSums d m sa sb k mem) := by
  unfold pitchSums
  refine does_value (fun _ _ _ _ => does_readElem (fun _ _ => does_readElem (fun _ _ => does_readElem (fun _ _ => ?_)))) _
  exact Keeps.refl S mem

theorem pitchGains_does {caps : Caps} {m : Mode} (hm : ModeFacts caps m) (d : Draws) (sa sb : Spectrum) (bk : EnergyMem)
    (mem : Memory) :
    MemWork (fun a => InRange .wgt (Mode.flatStart m 0) (Mode.flatStart m m.ne) a ∨ InRange .gains 0 m.np a ∨
      InRange (sel sb) (Mode.pitchStart m m.np) (Mode.pitchStart m (m.np + 1)) a) mem (pitchGains d m sa sb bk mem) := by
  refine does_bind ((fillWeights_does hm bk mem).mono (fun _ h => .inl h)) (fun mem1 _ hk => Does.from hk ?_)
  refine does_bind (g1 := fun x => x) ?_ (fun mem2 _ hk2 => hk2.zeroFill (fun k h1 h2 => .inr (.inr (inRange_addr h1 h2))))
  refine does_forUp (get := fun x => x) (fun k mem _ hk => does_bind (pitchSums_does d m sa sb k mem _)
    (fun _ _ _ => ?_)) mem1
  exact (Keeps.refl _ mem).writeElem _ (.inr (.inl (inRange_addr (Nat.zero_le _) hk)))

theorem applyGains_does {caps : Caps} {m : Mode} (hm : ModeFacts caps m) (d : Draws) (sb : Spectrum) (mem : Memory) :
    MemWork (InRange (sel sb) (Mode.pitchStart m 0) (Mode.pitchStart m (m.np + 1))) mem (applyGains d m sb mem) := by
  refine does_bind (g1 := fun x => x) ?_ (fun mem2 _ hk2 => hk2.zeroFill (fun k h1 h2 => ?_))
  · refine does_forUp (get := fun x => x) (fun k mem _ hk => does_forUp (get := fun x => x) (fun f mem h1 h2 => ?_) mem) mem
    have h0 := hm.pitchStart_mono (Nat.zero_le k) (by omega)
    have h3 := hm.pitchStart_mono (i := k + 1) (j := m.np + 1) (by omega) (by omega)
    exact does_readElem (fun _ _ => memWork_read_write (inRange_addr (by omega) (by omega)))
  · have h0 := hm.pitchStart_mono (Nat.zero_le m.np) (by omega)
    exact inRange_addr (by omega) h2

/-! ### SMIX -/

theorem stereoMix_does {caps : Caps} {m : Mode} (hm : ModeFacts caps m) (hc : m.c = 2) (d : Draws) (sa : Spectrum)
    (bk : EnergyMem) (dir : Dir) (mem : Memory) :
    MemWork (InRange (sel sa) (Mode.flatStart m 0) (Mode.flatStart m (m.ne + 1))) mem (stereoMix d m sa bk dir mem) := by
  refine does_bind (g1 := fun x => x) ?_ (fun mem' _ hk => hk.zeroFill (fun k h1 h2 => ?_))
  · refine does_forUp (get := fun x => x) (fun i mem _ hi => ?_) mem
    refine does_readElem (fun lf _ => does_readElem (fun rt _ => does_forUp (get := fun x => x) (fun j mem hj hj' => ?_) mem))
    have hb := ModeFacts.flat_bounds (m := m) (c := 0) (by omega) hj hj'
    have hb' := ModeFacts.flat_bounds (m := m) (c := 1) (by omega) hj hj'
    have h0 := hm.flatStart_mono (Nat.zero_le i) (by omega)
    have h1 := hm.flatStart_mono (i := i + 1) (j := m.ne + 1) (by omega) (Nat.le_refl _)
    unfold Mode.flat at hb hb'
    rw [hc] at hb hb'
    exact does_readElem (fun _ _ => does_readElem (fun _ _ =>
      ((Keeps.refl _ mem).writeElem _ (inRange_addr (by omega) (by omega))).writeElem _ (inRange_addr (by omega) (by omega))))
  · have h0 := hm.flatStart_mono (Nat.zero_le m.ne) (by omega)
    exact inRange_addr (by omega) h2

/-! ### QB, UQB -/

/-- What band `i` may write. -/
abbrev BandSet (m : Mode) (sa sb : Spectrum) (i : Nat) (a : Nat) : Prop :=
  InRange (sel sa) (Mode.flatStart m i) (Mode.flatStart m (i + 1)) a ∨
  InRange (sel sb) (Mode.flatStart m i) (Mode.flatStart m (i + 1)) a ∨
  InRange (sel .norm) (Mode.flatStart m i) (Mode.flatStart m (i + 1)) a

/-- What the band loop may write. -/
abbrev QuantSet (m : Mode) (sa sb : Spectrum) (a : Nat) : Prop :=
  InRange (sel sa) (Mode.flatStart m 0) (Mode.flatStart m m.ne) a ∨
  InRange (sel sb) (Mode.flatStart m 0) (Mode.flatStart m m.ne) a ∨
  InRange (sel .norm) (Mode.flatStart m 0) (Mode.flatStart m m.ne) a

/-- A band is part of the loop's range. -/
theorem ModeFacts.bandSet_le {caps : Caps} {m : Mode} (hm : ModeFacts caps m) {sa sb : Spectrum} {i : Nat} (hi : i < m.ne) (a : Nat)
    (h : BandSet m sa sb i a) : QuantSet m sa sb a := by
  have h0 := hm.flatStart_mono (Nat.zero_le i) (by omega)
  have h3 := hm.flatStart_mono (i := i + 1) (j := m.ne) (by omega) (by omega)
  exact h.imp (fun h => inRange_mono h h0 h3) (Or.imp (fun h => inRange_mono h h0 h3) (fun h => inRange_mono h h0 h3))

theorem writeBand_keeps {caps : Caps} {m : Mode} (hm : ModeFacts caps m) {sp : Spectrum} {i : Nat} (hi : i < m.ne)
    (f : Nat → Word) {S : Nat → Prop} {m0 mem : Memory} (h : Keeps S m0 mem)
    (hS : ∀ a, InRange (sel sp) (Mode.flatStart m i) (Mode.flatStart m (i + 1)) a → S a) :
    Keeps S m0 (writeBand m sp i f mem) :=
  h.writeSlice _ (fun k h1 h2 => by
    rw [takeValues_length, hm.flatStart_add_flatLen (Nat.le_of_lt hi)] at h2
    exact hS _ (inRange_addr h1 h2))

theorem writeIntra_keeps {caps : Caps} {m : Mode} (hm : ModeFacts caps m) {sa sb : Spectrum} {i : Nat} (hi : i < m.ne)
    (ps : Nat → Word) (xs : Option (Nat → Word)) {m0 mem : Memory} (h : Keeps (BandSet m sa sb i) m0 mem) :
    Keeps (BandSet m sa sb i) m0 (writeIntra m sa sb i ps xs mem) := by
  have hb := writeBand_keeps hm (sp := sb) hi ps h (fun _ ha => .inr (.inl ha))
  cases xs with
  | none => exact hb
  | some f => exact writeBand_keeps hm hi f hb (fun _ ha => .inl ha)

theorem callFold_does (cfg : Config) (codec : Codec) (m : Mode) (sa : Spectrum) (i : Nat) (mem : Memory) (S : Nat → Prop) :
    Does S mem (fun _ => mem) (callFold cfg codec m sa i mem) := by
  cases codec with
  | encoder sc => exact does_readSlice (fun _ => does_readSlice (fun _ => Keeps.refl S mem))
  | decoder => exact does_readSlice (fun _ => Keeps.refl S mem)

theorem callIntra_does (cfg : Config) (codec : Codec) (m : Mode) (sa : Spectrum) (i : Nat) (q : Int) (r : QRun)
    (S : Nat → Prop) : Does S r.mem (fun _ => r.mem) (callIntra cfg codec m sa i q r) := by
  cases codec with
  | encoder sc => exact does_readSlice (fun _ => does_readSlice (fun _ => does_readSlice (fun _ => Keeps.refl S r.mem)))
  | decoder => exact does_readSlice (fun _ => Keeps.refl S r.mem)

theorem modeDecision_does {caps : Caps} {m : Mode} (hm : ModeFacts caps m) (cfg : Config) (codec : Codec)
    (sa sb : Spectrum) {i : Nat} (hi : i < m.ne) (q0 : Int) (r : QRun) :
    Does (BandSet m sa sb i) r.mem QRun.mem (modeDecision cfg codec m sa sb i q0 r) := by
  unfold modeDecision
  split
  · split
    · exact does_bind (callFold_does cfg codec m sa i r.mem _) (fun a _ _ => writeIntra_keeps hm hi _ _ (Keeps.refl _ _))
    · exact does_bind (callIntra_does cfg codec m sa i _ r _) (fun a _ _ => writeIntra_keeps hm hi _ _ (Keeps.refl _ _))
  · exact Keeps.refl _ _

theorem rotBand_does {caps : Caps} {m : Mode} (hm : ModeFacts caps m) (cfg : Config) (d : Draws) (sp : Spectrum) {i : Nat}
    (hi : i < m.ne) (theta : Word) (dir : Dir) (mem : Memory) :
    MemWork (InRange (sel sp) (Mode.flatStart m i) (Mode.flatStart m (i + 1))) mem (rotBand cfg d m sp i theta dir mem) := by
  have h := rotSlice_does cfg d sp (Mode.flatStart m i) (Mode.flatLen m i) theta dir (Mode.bq m) ITER_Q mem
  rwa [hm.flatStart_add_flatLen (Nat.le_of_lt hi)] at h

theorem vqStep_does {caps : Caps} {m : Mode} (hm : ModeFacts caps m) (cfg : Config) (d : Draws) (codec : Codec)
    (sa sb : Spectrum) {i : Nat} (hi : i < m.ne) (q : Int) (theta : Word) (r : QRun) :
    Does (BandSet m sa sb i) r.mem QRun.mem (vqStep cfg d codec m sa sb i q theta r) := by
  unfold vqStep
  split
  · refine does_bind ((rotBand_does hm cfg _ sb hi theta .minus r.mem).mono (fun _ h => .inr (.inl h)))
      (fun mem1 _ hk => Does.from hk ?_)
    cases codec with
    | encoder sc =>
      refine does_bind ((rotBand_does hm cfg _ sa hi theta .minus mem1).mono (fun _ h => .inl h))
        (fun mem2 _ hk2 => Does.from hk2 ?_)
      refine does_readSlice (fun xs => does_readSlice (fun ws => does_readSlice (fun ps => ?_)))
      refine does_bind (g1 := fun x => x) ?_ (fun mem3 _ hk3 => hk3)
      exact Does.from (writeBand_keeps hm hi _ (Keeps.refl _ mem2) (fun _ ha => .inl ha))
        ((rotBand_does hm cfg _ sa hi theta .plus _).mono (fun _ h => .inl h))
    | decoder =>
      refine does_readSlice (fun ps => ?_)
      refine does_bind (g1 := fun x => x) ?_ (fun mem3 _ hk3 => hk3)
      exact Does.from (writeBand_keeps hm hi _ (Keeps.refl _ mem1) (fun _ ha => .inl ha))
        ((rotBand_does hm cfg _ sa hi theta .plus _).mono (fun _ h => .inl h))
  · exact Keeps.refl _ _

theorem contextCopy_does (d : Draws) (m : Mode) (sa : Spectrum) (i : Nat) (n : Word) (mem : Memory) :
    MemWork (InRange (sel .norm) (Mode.flatStart m i) (Mode.flatStart m (i + 1))) mem (contextCopy d m sa i n mem) :=
  does_forUp (get := fun x => x)
    (fun f _ h1 h2 => memWork_read_write (f := fun v => F32.fmul (d [8, f]) v n) (inRange_addr h1 h2)) mem

/-- A band writes inside that band alone. -/
theorem quantBand_writes {caps : Caps} {m : Mode} (hm : ModeFacts caps m) (cfg : Config) (d : Draws) (codec : Codec)
    (sa sb : Spectrum) {i : Nat} (hi : i < m.ne) (r : QRun) :
    Does (BandSet m sa sb i) r.mem QRun.mem (quantBand cfg d codec m sa sb i r) :=
  does_readElem (fun _ _ =>
    does_bind (modeDecision_does hm cfg codec sa sb hi _ r) (fun r1 _ hk1 => Does.from hk1
      (does_bind (vqStep_does hm cfg d codec sa sb hi _ _ r1) (fun r2 _ hk2 => Does.from hk2
        (does_bind ((contextCopy_does d m sa i _ r2.mem).mono (fun _ h => .inr (.inr h))) (fun _ _ hk3 => hk3))))))

theorem quantBand_does {caps : Caps} {m : Mode} (hm : ModeFacts caps m) (cfg : Config) (d : Draws) (codec : Codec)
    (sa sb : Spectrum) {i : Nat} (hi : i < m.ne) (r : QRun) :
    Does (QuantSet m sa sb) r.mem QRun.mem (quantBand cfg d codec m sa sb i r) :=
  (quantBand_writes hm cfg d codec sa sb hi r).mono (hm.bandSet_le hi)

theorem quantLoop_does {caps : Caps} {m : Mode} (hm : ModeFacts caps m) (cfg : Config) (d : Draws) (codec : Codec)
    (sa sb : Spectrum) (r : QRun) : Does (QuantSet m sa sb) r.mem QRun.mem (quantLoop cfg d codec m sa sb r) :=
  does_forUp (fun _ r _ hi => quantBand_does hm cfg _ codec sa sb hi r) r

/-- What QB and UQB may write in all. -/
abbrev QuantWrites (m : Mode) (sa sb : Spectrum) (a : Nat) : Prop :=
  InRange .pulses 0 m.ne a ∨
  InRange (sel sa) (Mode.flatStart m 0) (Mode.flatStart m (m.ne + 1)) a ∨
  InRange (sel sb) (Mode.flatStart m 0) (Mode.flatStart m m.ne) a ∨
  InRange (sel .norm) (Mode.flatStart m 0) (Mode.flatStart m m.ne) a

theorem quantPrologue_keeps (cfg : Config) (m : Mode) (sa sb : Spectrum) (s : State) :
    Keeps (QuantWrites m sa sb) s.mem (quantPrologue cfg m s).mem :=
  (Keeps.refl _ s.mem).writeSlice _ (fun k h1 h2 => .inl (inRange_addr h1 (by rw [takeValues_length] at h2; omega)))

theorem quantBands_does {caps : Caps} {m : Mode} (hm : ModeFacts caps m) (cfg : Config) (codec : Codec)
    (sa sb : Spectrum) (s : State) : Does (QuantWrites m sa sb) s.mem State.mem (quantBands cfg codec m sa sb s) := by
  have hle := hm.flatStart_mono (i := m.ne) (j := m.ne + 1) (by omega) (by omega)
  have h0 := hm.flatStart_mono (Nat.zero_le m.ne) (by omega)
  have hmono : ∀ a, QuantSet m sa sb a → QuantWrites m sa sb a := by
    rintro a (h | h | h)
    · exact .inr (.inl (inRange_mono h (Nat.le_refl _) hle))
    · exact .inr (.inr (.inl h))
    · exact .inr (.inr (.inr h))
  exact does_bind (Does.from (quantPrologue_keeps cfg m sa sb s) ((quantLoop_does hm cfg _ codec sa sb _).mono hmono))
    (fun r _ hk => hk.zeroFill (fun k h1 h2 => .inr (.inl (inRange_addr (by omega) h2))))

end Sys2Proof.Machine
end

