-- ==== Sys2Proof/Laws/Float.lean ====
section
/-! SUPPORT. What binary32 arithmetic does (01_numbers.md R8 to R11): rounding is nearest, the order of magnitudes is the
order of values, the integer square root, and the ranges of the operations the commands compose. -/

namespace Sys2Proof.Machine.F32


/-- The value of a magnitude in units of 2^-149; the magnitude of infinity counts 2^277 units, as in `valueR`. -/
def magValue (m : Nat) : Nat := if m / 2 ^ 23 = 0 then m else (2 ^ 23 + m % 2 ^ 23) * 2 ^ (m / 2 ^ 23 - 1)

theorem units_eq (a : Word) : units a = magValue (magnitude a) := rfl

theorem magValue_small {m : Nat} (h : m < 2 ^ 23) : magValue m = m := by
  rw [magValue, if_pos (Nat.div_eq_of_lt h)]

/-- Binade `e` with significand `q`; at `q = 2^24` this is the first value of the next binade. -/
theorem magValue_binade {e q : Nat} (h1 : 2 ^ 23 ≤ q ∨ e = 0) (h2 : q ≤ 2 ^ 24) : magValue (e * 2 ^ 23 + q) = q * 2 ^ e := by
  by_cases hs : q < 2 ^ 23
  · obtain rfl : e = 0 := by omega
    rw [Nat.zero_mul, Nat.zero_add, magValue_small hs, Nat.pow_zero, Nat.mul_one]
  by_cases ht : q = 2 ^ 24
  · subst ht
    have hd : (e * 2 ^ 23 + 2 ^ 24) / 2 ^ 23 = e + 2 := by omega
    have hm : (e * 2 ^ 23 + 2 ^ 24) % 2 ^ 23 = 0 := by omega
    rw [magValue, hd, hm, if_neg (by omega), show e + 2 - 1 = e + 1 by omega, Nat.pow_succ]
    ring
  · have hd : (e * 2 ^ 23 + q) / 2 ^ 23 = e + 1 := by omega
    have hm : (e * 2 ^ 23 + q) % 2 ^ 23 = q - 2 ^ 23 := by omega
    rw [magValue, hd, hm, if_neg (by omega), show e + 1 - 1 = e by omega, show 2 ^ 23 + (q - 2 ^ 23) = q by omega]

/-- Every magnitude is a binade and a significand below `2^24`. -/
theorem magnitude_split (m : Nat) : ∃ e q, m = e * 2 ^ 23 + q ∧ (2 ^ 23 ≤ q ∨ e = 0) ∧ q < 2 ^ 24 := by
  by_cases h : m < 2 ^ 23
  · exact ⟨0, m, by omega, .inr rfl, by omega⟩
  · exact ⟨m / 2 ^ 23 - 1, m - (m / 2 ^ 23 - 1) * 2 ^ 23, by omega, .inl (by omega), by omega⟩

theorem magValue_succ (m : Nat) : magValue m < magValue (m + 1) := by
  obtain ⟨e, q, rfl, h1, h2⟩ := magnitude_split m
  rw [magValue_binade h1 (by omega), Nat.add_assoc, magValue_binade (by omega) (by omega)]
  exact Nat.mul_lt_mul_of_pos_right (by omega) (Nat.two_pow_pos e)

theorem magValue_strictMono : StrictMono magValue := strictMono_nat_of_lt_succ magValue_succ

theorem magValue_zero : magValue 0 = 0 := rfl

/-- What rounding brackets: the significand `num / step` of the binade is the largest value not above the quotient. -/
theorem binade_bounds (num den : Nat) :
    let e := binade num den
    let q := num / (den * 2 ^ e)
    (2 ^ 23 ≤ q ∨ e = 0) ∧ q < 2 ^ 24 := by
  intro e q
  have hq : q = num / den / 2 ^ e := (Nat.div_div_eq_div_mul _ _ _).symm
  by_cases h0 : num / den = 0
  · have he : e = 0 := by show Nat.log2 (num / den) - 23 = 0; rw [h0]; rfl
    rw [hq, h0]; exact ⟨.inr he, by simp⟩
  have hlo := Nat.log2_self_le h0
  have hhi : num / den < 2 ^ (Nat.log2 (num / den) + 1) := Nat.lt_log2_self
  by_cases he : Nat.log2 (num / den) ≤ 23
  · have he0 : e = 0 := by show Nat.log2 (num / den) - 23 = 0; omega
    refine ⟨.inr he0, ?_⟩
    rw [hq, he0, Nat.pow_zero, Nat.div_one]
    exact Nat.lt_of_lt_of_le hhi (Nat.pow_le_pow_right (by omega) (by omega))
  · have he' : Nat.log2 (num / den) = e + 23 := by show _ = Nat.log2 (num / den) - 23 + 23; omega
    rw [he'] at hlo hhi
    rw [hq]
    constructor
    · left
      rw [Nat.le_div_iff_mul_le (Nat.two_pow_pos e), ← Nat.pow_add, Nat.add_comm]; exact hlo
    · rw [Nat.div_lt_iff_lt_mul (Nat.two_pow_pos e), ← Nat.pow_add]
      rw [show 24 + e = e + 23 + 1 by omega]; exact hhi

/-- The magnitude just below the quotient, before rounding. -/
def floorMagnitude (num den : Nat) : Nat := binade num den * 2 ^ 23 + num / (den * 2 ^ binade num den)

theorem floorMagnitude_le (num den : Nat) : magValue (floorMagnitude num den) * den ≤ num := by
  obtain ⟨h1, h2⟩ := binade_bounds num den
  rw [floorMagnitude, magValue_binade h1 (by omega)]
  calc _ = num / (den * 2 ^ binade num den) * (den * 2 ^ binade num den) := by ring
    _ ≤ num := Nat.div_mul_le_self _ _

theorem lt_floorMagnitude_succ {num den : Nat} (hd : 0 < den) : num < magValue (floorMagnitude num den + 1) * den := by
  obtain ⟨h1, h2⟩ := binade_bounds num den
  have hs : 0 < den * 2 ^ binade num den := Nat.mul_pos hd (Nat.two_pow_pos _)
  rw [floorMagnitude, Nat.add_assoc, magValue_binade (by omega) (by omega)]
  have h := Nat.lt_mul_div_succ num hs
  calc num < den * 2 ^ binade num den * (num / (den * 2 ^ binade num den) + 1) := h
    _ = _ := by ring

/-- The two ways of rounding: down when the quotient is at most half way to the next magnitude, up when it is at least half way; at
half way to the even magnitude. -/
theorem roundUnits_cases {num den : Nat} (hd : 0 < den) :
    let M := floorMagnitude num den
    let mid := (magValue M + magValue (M + 1)) * den
    (roundUnits num den = min M infMagnitude ∧ 2 * num ≤ mid ∧ (2 * num = mid → M % 2 = 0)) ∨
    (roundUnits num den = min (M + 1) infMagnitude ∧ mid ≤ 2 * num ∧ (2 * num = mid → (M + 1) % 2 = 0)) := by
  intro M mid
  obtain ⟨h1, h2⟩ := binade_bounds num den
  have hs : 0 < den * 2 ^ binade num den := Nat.mul_pos hd (Nat.two_pow_pos _)
  have hA : magValue M * den = num / (den * 2 ^ binade num den) * (den * 2 ^ binade num den) := by
    show magValue (floorMagnitude num den) * den = _
    rw [floorMagnitude, magValue_binade h1 (by omega)]; ring
  have hB : magValue (M + 1) * den = magValue M * den + den * 2 ^ binade num den := by
    show magValue (floorMagnitude num den + 1) * den = _
    rw [hA, floorMagnitude, Nat.add_assoc, magValue_binade (by omega) (by omega)]; ring
  have hn : num = magValue M * den + num % (den * 2 ^ binade num den) := by
    rw [hA, Nat.mul_comm]; exact (Nat.div_add_mod num _).symm
  have hmid : mid = 2 * (magValue M * den) + den * 2 ^ binade num den := by
    show (magValue M + magValue (M + 1)) * den = _
    rw [Nat.add_mul, hB]; ring
  have hpar : M % 2 = num / (den * 2 ^ binade num den) % 2 := by
    show (binade num den * 2 ^ 23 + num / (den * 2 ^ binade num den)) % 2 = _
    omega
  have hr : roundUnits num den = min (M + (if den * 2 ^ binade num den < 2 * (num % (den * 2 ^ binade num den)) then 1
      else if 2 * (num % (den * 2 ^ binade num den)) = den * 2 ^ binade num den
        then num / (den * 2 ^ binade num den) % 2 else 0)) infMagnitude := rfl
  generalize den * 2 ^ binade num den = step at *
  generalize magValue M * den = A at *
  by_cases c1 : step < 2 * (num % step)
  · rw [if_pos c1] at hr
    exact .inr ⟨hr, by omega, by omega⟩
  · rw [if_neg c1] at hr
    by_cases c2 : 2 * (num % step) = step
    · rw [if_pos c2] at hr
      rcases Nat.mod_two_eq_zero_or_one (num / step) with hp | hp
      · rw [hp, Nat.add_zero] at hr; exact .inl ⟨hr, by omega, by omega⟩
      · rw [hp] at hr; exact .inr ⟨hr, by omega, by omega⟩
    · rw [if_neg c2, Nat.add_zero] at hr
      exact .inl ⟨hr, by omega, by omega⟩

/-- `r` is the magnitude nearest to `x` units, the even one of two. -/
def NearestMagnitude (r : Nat) (x : ℝ) : Prop :=
  r ≤ infMagnitude ∧ ∀ m, m ≤ infMagnitude →
    |(magValue r : ℝ) - x| ≤ |(magValue m : ℝ) - x| ∧ (|(magValue r : ℝ) - x| = |(magValue m : ℝ) - x| → m = r ∨ r % 2 = 0)

theorem magValue_le {a b : Nat} (h : a ≤ b) : (magValue a : ℝ) ≤ magValue b := by
  exact_mod_cast magValue_strictMono.monotone h

theorem magValue_lt {a b : Nat} (h : a < b) : (magValue a : ℝ) < magValue b := by
  exact_mod_cast magValue_strictMono h

/-- The nearest of a number between two neighbours. -/
theorem nearest_of_neighbours {M r : Nat} {x : ℝ} (h1 : (magValue M : ℝ) ≤ x) (h2 : x < magValue (M + 1))
    (hr : (r = min M infMagnitude ∧ 2 * x ≤ magValue M + magValue (M + 1) ∧
        (2 * x = magValue M + magValue (M + 1) → M % 2 = 0)) ∨
      (r = min (M + 1) infMagnitude ∧ magValue M + magValue (M + 1) ≤ 2 * x ∧
        (2 * x = magValue M + magValue (M + 1) → (M + 1) % 2 = 0))) : NearestMagnitude r x := by
  by_cases hM : infMagnitude ≤ M
  · have hri : r = infMagnitude := by rcases hr with ⟨h, _⟩ | ⟨h, _⟩ <;> omega
    subst hri
    refine ⟨Nat.le_refl _, fun m hm => ?_⟩
    have a1 := magValue_le hM
    have a2 := magValue_le hm
    rw [abs_of_nonpos (by linarith), abs_of_nonpos (by linarith)]
    refine ⟨by linarith, fun he => .inl ?_⟩
    by_contra hne
    have := magValue_lt (Nat.lt_of_le_of_ne hm hne)
    linarith
  have split : ∀ m, m ≤ M ∨ M + 1 ≤ m := fun m => by omega
  rcases hr with ⟨h, hx, hp⟩ | ⟨h, hx, hp⟩
  · rw [Nat.min_eq_left (by omega)] at h
    subst h
    refine ⟨by omega, fun m hm => ?_⟩
    rw [abs_of_nonpos (by linarith : (magValue r : ℝ) - x ≤ 0)]
    rcases split m with hm' | hm'
    · have a1 := magValue_le hm'
      rw [abs_of_nonpos (by linarith)]
      refine ⟨by linarith, fun he => .inl ?_⟩
      by_contra hne
      have := magValue_lt (Nat.lt_of_le_of_ne hm' hne)
      linarith
    · have a1 := magValue_le hm'
      rw [abs_of_nonneg (by linarith)]
      exact ⟨by linarith, fun he => .inr (hp (by linarith))⟩
  · rw [Nat.min_eq_left (by omega)] at h
    subst h
    refine ⟨by omega, fun m hm => ?_⟩
    rw [abs_of_nonneg (by linarith : (0 : ℝ) ≤ magValue (M + 1) - x)]
    rcases split m with hm' | hm'
    · have a1 := magValue_le hm'
      rw [abs_of_nonpos (by linarith)]
      exact ⟨by linarith, fun he => .inr (hp (by linarith))⟩
    · have a1 := magValue_le hm'
      rw [abs_of_nonneg (by linarith)]
      refine ⟨by linarith, fun he => .inl ?_⟩
      by_contra hne
      have := magValue_lt (Nat.lt_of_le_of_ne hm' (fun h => hne h.symm))
      linarith

/-- ROUNDING IS TO NEAREST, TIES TO EVEN. -/
theorem roundUnits_nearest {num den : Nat} (hd : 0 < den) : NearestMagnitude (roundUnits num den) (num / den : ℝ) := by
  have hd' : (0 : ℝ) < den := by exact_mod_cast hd
  have f1 : (magValue (floorMagnitude num den) : ℝ) * den ≤ num := by exact_mod_cast floorMagnitude_le num den
  have f2 : (num : ℝ) < magValue (floorMagnitude num den + 1) * den := by exact_mod_cast lt_floorMagnitude_succ hd
  have hx : (num / den : ℝ) * den = num := div_mul_cancel₀ _ hd'.ne'
  refine nearest_of_neighbours (M := floorMagnitude num den) ((le_div_iff₀ hd').mpr f1) ((div_lt_iff₀ hd').mpr f2) ?_
  rcases roundUnits_cases hd (num := num) with ⟨h, hx', hp⟩ | ⟨h, hx', hp⟩
  · refine .inl ⟨h, ?_, fun he => hp ?_⟩
    · have : (2 * num : ℝ) ≤ (magValue (floorMagnitude num den) + magValue (floorMagnitude num den + 1)) * den := by exact_mod_cast hx'
      rw [← hx] at this
      exact le_of_mul_le_mul_right (by linarith) hd'
    · have : (2 * num : ℝ) = (magValue (floorMagnitude num den) + magValue (floorMagnitude num den + 1)) * den := by
        rw [← he, ← hx]; ring_nf; rw [mul_assoc, mul_assoc]; field_simp
      exact_mod_cast this
  · refine .inr ⟨h, ?_, fun he => hp ?_⟩
    · have : (magValue (floorMagnitude num den) + magValue (floorMagnitude num den + 1)) * den ≤ (2 * num : ℝ) := by exact_mod_cast hx'
      rw [← hx] at this
      exact le_of_mul_le_mul_right (by linarith) hd'
    · have : (2 * num : ℝ) = (magValue (floorMagnitude num den) + magValue (floorMagnitude num den + 1)) * den := by
        rw [← he, ← hx]; ring_nf; rw [mul_assoc, mul_assoc]; field_simp
      exact_mod_cast this


/-! ### Words, signs and magnitudes -/

theorem toNat_split (a : Word) : a.toNat = (if sign a then 2 ^ 31 else 0) + magnitude a := by
  have h := a.isLt
  unfold sign magnitude
  rw [BitVec.msb_eq_decide]
  by_cases hs : 2 ^ (32 - 1) ≤ a.toNat
  · rw [decide_eq_true hs, if_pos rfl]; omega
  · rw [decide_eq_false hs, if_neg (by simp)]; omega

theorem magnitude_lt (a : Word) : magnitude a < 2 ^ 31 := Nat.mod_lt _ (by decide)

theorem sign_eq (a : Word) : sign a = a.getLsbD 31 := by
  unfold sign; rw [BitVec.msb_eq_getLsbD_last]

theorem word_ext {a b : Word} (h1 : sign a = sign b) (h2 : magnitude a = magnitude b) : a = b := by
  apply BitVec.eq_of_toNat_eq
  rw [toNat_split a, toNat_split b, h1, h2]

theorem exponentOf_eq (a : Word) : exponentOf a = magnitude a / 2 ^ 23 := by
  unfold exponentOf magnitude
  rw [BitVec.extractLsb'_toNat, Nat.shiftRight_eq_div_pow]
  omega

theorem fractionOf_eq (a : Word) : fractionOf a = magnitude a % 2 ^ 23 := by
  unfold fractionOf magnitude
  rw [BitVec.extractLsb'_toNat, Nat.shiftRight_eq_div_pow]
  omega

theorem isNaN_iff (a : Word) : isNaN a = true ↔ IsNaN a := by
  have := magnitude_lt a
  rw [IsNaN, exponentOf_eq, fractionOf_eq, isNaN, decide_eq_true_eq, infMagnitude]
  omega

theorem isNaN_false (a : Word) : isNaN a = false ↔ ¬ IsNaN a := by
  rw [← isNaN_iff, Bool.not_eq_true]

theorem isInf_iff (a : Word) : isInf a = true ↔ IsInf a := by
  have := magnitude_lt a
  rw [IsInf, exponentOf_eq, fractionOf_eq, isInf, beq_iff_eq, infMagnitude]
  omega

theorem magnitude_le {a : Word} (h : ¬ IsNaN a) : magnitude a ≤ infMagnitude := by
  rw [← isNaN_iff, isNaN, decide_eq_true_eq] at h; omega

theorem finite_iff (a : Word) : IsFinite a ↔ magnitude a < infMagnitude := by
  have := magnitude_lt a
  rw [IsFinite, exponentOf_eq, infMagnitude]; omega

theorem IsFinite.notNaN {a : Word} (h : IsFinite a) : isNaN a = false := by
  rw [finite_iff] at h
  unfold isNaN
  exact decide_eq_false (by omega)

theorem IsFinite.notInf {a : Word} (h : IsFinite a) : isInf a = false := by
  rw [finite_iff] at h
  unfold isInf
  exact beq_false_of_ne (by omega)

/-- The real value of a word from its sign and magnitude. -/
theorem valueR_eq (a : Word) : valueR a = (if sign a then -1 else 1) * (magValue (magnitude a) : ℝ) := by
  unfold valueR
  rw [sign_eq, exponentOf_eq, fractionOf_eq, magValue]
  congr 1
  by_cases h : magnitude a / 2 ^ 23 = 0
  · rw [if_pos h, if_pos h, Nat.mod_eq_of_lt (by omega)]
  · rw [if_neg h, if_neg h]; push_cast; ring

theorem valueR_units (a : Word) : valueR a = (if sign a then -1 else 1) * (units a : ℝ) := valueR_eq a

theorem valueR_value (a : Word) : valueR a = (value a : ℝ) := by
  rw [valueR_units, value]
  cases sign a <;> simp

theorem valueR_eq_zero (a : Word) : valueR a = 0 ↔ magnitude a = 0 := by
  rw [valueR_eq]
  constructor
  · intro h
    by_contra hne
    have := magValue_strictMono (Nat.pos_of_ne_zero hne)
    rw [magValue_zero] at this
    cases hs : sign a <;> rw [hs] at h <;> norm_num at h <;> omega
  · intro h; rw [h, magValue_zero]; simp

theorem units_eq_zero (a : Word) : units a = 0 ↔ magnitude a = 0 := by
  rw [units_eq]
  constructor
  · intro h
    by_contra hne
    have := magValue_strictMono (Nat.pos_of_ne_zero hne)
    rw [magValue_zero] at this
    omega
  · intro h; rw [h]; rfl

theorem pack_toNat (s : Bool) {m : Nat} (h : m < 2 ^ 31) : (pack s m).toNat = (if s then 2 ^ 31 else 0) + m := by
  rw [pack, BitVec.toNat_ofNat]
  apply Nat.mod_eq_of_lt
  split <;> omega

theorem sign_pack (s : Bool) {m : Nat} (h : m < 2 ^ 31) : sign (pack s m) = s := by
  unfold sign
  rw [BitVec.msb_eq_decide, pack_toNat s h]
  cases s
  · exact decide_eq_false (by simp; omega)
  · exact decide_eq_true (by simp)

theorem magnitude_pack (s : Bool) {m : Nat} (h : m < 2 ^ 31) : magnitude (pack s m) = m := by
  unfold magnitude
  rw [pack_toNat s h]
  cases s <;> simp <;> omega

theorem even_pack (s : Bool) {m : Nat} (h : m < 2 ^ 31) (he : m % 2 = 0) : (pack s m).getLsbD 0 = false := by
  rw [BitVec.getLsbD, pack_toNat s h, Nat.testBit_zero]
  apply decide_eq_false
  cases s <;> simp <;> omega

theorem le_inf_lt {m : Nat} (h : m ≤ infMagnitude) : m < 2 ^ 31 := Nat.lt_of_le_of_lt h (by decide)

/-- A word packed from a nearest magnitude is the nearest word. -/
theorem roundedTo_pack {r : Nat} {x : ℝ} (h : NearestMagnitude r x) (hx : 0 ≤ x) (s : Bool) :
    RoundedTo (pack s r) ((if s then -1 else 1) * x) := by
  obtain ⟨hr, hall⟩ := h
  have hlt := le_inf_lt hr
  have hv : valueR (pack s r) = (if s then -1 else 1) * (magValue r : ℝ) := by rw [valueR_eq, sign_pack s hlt, magnitude_pack s hlt]
  have habs : |valueR (pack s r) - (if s then -1 else 1) * x| = |(magValue r : ℝ) - x| := by
    rw [hv]; cases s
    · simp
    · simp only [if_true]; rw [← abs_neg]; congr 1; ring
  refine ⟨?_, fun v hv' => ?_⟩
  · rw [← isNaN_iff, isNaN, magnitude_pack s hlt, decide_eq_true_eq]; omega
  · rw [habs]
    have hm := magnitude_le hv'
    obtain ⟨h1, h2⟩ := hall _ hm
    have hpos : (0 : ℝ) ≤ magValue (magnitude v) := Nat.cast_nonneg _
    have hdist : |valueR v - (if s then -1 else 1) * x| =
        if sign v = s then |(magValue (magnitude v) : ℝ) - x| else (magValue (magnitude v) : ℝ) + x := by
      rw [valueR_eq]
      cases hs : sign v <;> cases s
      · simp
      · simp only [if_true, Bool.false_eq_true, if_false]; rw [abs_of_nonneg (by linarith)]; ring
      · simp only [if_true, Bool.true_eq_false, if_false, Bool.false_eq_true]; rw [abs_of_nonpos (by linarith)]; ring
      · simp only [if_true]; rw [← abs_neg]; congr 1; ring
    rw [hdist]
    by_cases hs : sign v = s
    · rw [if_pos hs]
      refine ⟨h1, fun he => (h2 he).imp (fun hm' => ?_) (fun he => even_pack s hlt he)⟩
      rw [valueR_eq, hv, hs, hm']
    · rw [if_neg hs]
      have ht : |(magValue (magnitude v) : ℝ) - x| ≤ magValue (magnitude v) + x := by rw [abs_le]; constructor <;> linarith
      refine ⟨le_trans h1 ht, fun he => ?_⟩
      have h3 : |(magValue (magnitude v) : ℝ) - x| = magValue (magnitude v) + x := le_antisymm ht (he ▸ h1)
      rcases h2 (he.trans h3.symm) with hm' | he'
      · rcases abs_cases ((magValue (magnitude v) : ℝ) - x) with ⟨e1, _⟩ | ⟨e1, _⟩
        · -- x = 0: the rounded magnitude is at distance magValue v from 0, and 0 itself is nearer unless it is it
          have hx0 : x = 0 := by linarith
          obtain ⟨g1, _⟩ := hall 0 (Nat.zero_le _)
          rw [magValue_zero, hx0, ← hm'] at g1
          simp only [sub_zero, Nat.cast_zero, abs_zero] at g1
          have : (magValue (magnitude v) : ℝ) = 0 := by rw [abs_of_nonneg hpos] at g1; linarith
          left; rw [valueR_eq, hv, ← hm', this]; simp
        · have : (magValue (magnitude v) : ℝ) = 0 := by linarith
          left; rw [valueR_eq, hv, ← hm', this]; simp
      · exact .inr (even_pack s hlt he')

/-- The nearest magnitude grows with the number. -/
theorem NearestMagnitude.mono {r r' : Nat} {x x' : ℝ} (h : NearestMagnitude r x) (h' : NearestMagnitude r' x') (hx : x ≤ x') : r ≤ r' := by
  by_contra hlt
  have hlt : r' < r := by omega
  obtain ⟨a1, a2⟩ := h.2 r' h'.1
  obtain ⟨b1, b2⟩ := h'.2 r h.1
  have hv := magValue_lt hlt
  have key : x = ((magValue r' : ℝ) + magValue r) / 2 ∧ x' = ((magValue r' : ℝ) + magValue r) / 2 := by
    have c1 : ((magValue r' : ℝ) + magValue r) / 2 ≤ x := by
      rcases abs_cases ((magValue r : ℝ) - x) with ⟨e1, _⟩ | ⟨e1, _⟩ <;> rcases abs_cases ((magValue r' : ℝ) - x) with ⟨e2, _⟩ | ⟨e2, _⟩ <;>
        rw [e1, e2] at a1 <;> linarith
    have c2 : x' ≤ ((magValue r' : ℝ) + magValue r) / 2 := by
      rcases abs_cases ((magValue r : ℝ) - x') with ⟨e1, _⟩ | ⟨e1, _⟩ <;> rcases abs_cases ((magValue r' : ℝ) - x') with ⟨e2, _⟩ | ⟨e2, _⟩ <;>
        rw [e1, e2] at b1 <;> linarith
    exact ⟨by linarith, by linarith⟩
  obtain ⟨k1, k2⟩ := key
  have d1 : |(magValue r : ℝ) - x| = |(magValue r' : ℝ) - x| := by
    rw [k1, abs_of_nonneg (by linarith), abs_of_nonpos (by linarith)]; ring
  have d2 : |(magValue r' : ℝ) - x'| = |(magValue r : ℝ) - x'| := by
    rw [k2, abs_of_nonneg (by linarith : (0:ℝ) ≤ (magValue r : ℝ) - _), abs_of_nonpos (by linarith)]; ring
  have e1 := (a2 d1).resolve_left (by omega)
  have e2 := (b2 d2).resolve_left (by omega)
  -- both even and different, so there is a magnitude strictly between, nearer than either
  obtain ⟨f1, _⟩ := h.2 (r' + 1) (by have := h.1; omega)
  have g1 := magValue_lt (show r' < r' + 1 by omega)
  have g2 := magValue_lt (show r' + 1 < r by omega)
  rw [k1] at f1
  rcases abs_cases ((magValue r : ℝ) - ((magValue r' : ℝ) + magValue r) / 2) with ⟨e1, _⟩ | ⟨e1, _⟩ <;>
    rcases abs_cases ((magValue (r' + 1) : ℝ) - ((magValue r' : ℝ) + magValue r) / 2) with ⟨e2, _⟩ | ⟨e2, _⟩ <;>
    rw [e1, e2] at f1 <;> linarith

/-- A magnitude is the nearest to its own value. -/
theorem nearest_self {m : Nat} (h : m ≤ infMagnitude) : NearestMagnitude m (magValue m) := by
  refine ⟨h, fun k _ => ?_⟩
  rw [sub_self, abs_zero]
  refine ⟨abs_nonneg _, fun he => .inl ?_⟩
  have : (magValue k : ℝ) = magValue m := by linarith [abs_eq_zero.mp he.symm]
  exact magValue_strictMono.injective (by exact_mod_cast this)


/-! ### The square root -/

theorem isqrtDigits_spec (n : Nat) : ∀ (k r : Nat), r * r ≤ n → n < (r + 2 ^ k) * (r + 2 ^ k) →
    isqrtDigits n k r * isqrtDigits n k r ≤ n ∧ n < (isqrtDigits n k r + 1) * (isqrtDigits n k r + 1)
  | 0, r, h1, h2 => ⟨h1, h2⟩
  | k + 1, r, h1, h2 => by
    unfold isqrtDigits
    have hp : 2 ^ (k + 1) = 2 ^ k + 2 ^ k := by rw [Nat.pow_succ]; omega
    by_cases h : (r + 2 ^ k) * (r + 2 ^ k) ≤ n
    · rw [if_pos h]
      exact isqrtDigits_spec n k _ h (by rw [Nat.add_assoc, ← hp]; exact h2)
    · rw [if_neg h]
      exact isqrtDigits_spec n k r h1 (by omega)

/-- `isqrt n` is the whole part of the square root. -/
theorem isqrt_spec (n : Nat) : isqrt n * isqrt n ≤ n ∧ n < (isqrt n + 1) * (isqrt n + 1) := by
  refine isqrtDigits_spec n _ 0 (Nat.zero_le _) ?_
  rw [Nat.zero_add, ← Nat.pow_add]
  calc n < 2 ^ (Nat.log2 n + 1) := Nat.lt_log2_self
    _ ≤ _ := Nat.pow_le_pow_right (by omega) (by omega)

/-- Above 24 significant bits a half-way point between neighbours is a whole number. -/
theorem neighbours_even {M : Nat} (h : 2 ^ 24 ≤ magValue M) : (magValue M + magValue (M + 1)) % 2 = 0 := by
  obtain ⟨e, q, rfl, h1, h2⟩ := magnitude_split M
  rw [magValue_binade h1 (by omega)] at h ⊢
  rw [Nat.add_assoc, magValue_binade (by omega) (by omega)]
  obtain ⟨k, rfl⟩ : ∃ k, e = k + 1 := by
    rcases e with _ | k
    · rw [Nat.pow_zero] at h; omega
    · exact ⟨k, rfl⟩
  rw [Nat.pow_succ]
  have : q * (2 ^ k * 2) + (q + 1) * (2 ^ k * 2) = 2 * (q * 2 ^ k + (q + 1) * 2 ^ k) := by ring
  rw [this]; omega

/-- Rounding the whole part of a root with half a unit for what is lost rounds the root. -/
theorem nearest_sqrt {n : Nat} (hn : 2 ^ 48 ≤ n) :
    NearestMagnitude (roundUnits (2 * isqrt n + if isqrt n * isqrt n < n then 1 else 0) 2) (Real.sqrt n) := by
  obtain ⟨s1, s2⟩ := isqrt_spec n
  have hr24 : 2 ^ 24 ≤ isqrt n := by
    by_contra h
    have : (isqrt n + 1) * (isqrt n + 1) ≤ 2 ^ 24 * 2 ^ 24 := Nat.mul_le_mul (by omega) (by omega)
    omega
  generalize isqrt n = r at *
  have q1 : (r : ℝ) ≤ Real.sqrt n := Real.le_sqrt_of_sq_le (by rw [sq]; exact_mod_cast s1)
  have q2 : Real.sqrt n < r + 1 := by
    rw [Real.sqrt_lt' (by positivity), sq]; exact_mod_cast s2
  by_cases hx : r * r < n
  · rw [if_pos hx]
    have q3 : (r : ℝ) < Real.sqrt n := Real.lt_sqrt_of_sq_lt (by rw [sq]; exact_mod_cast hx)
    have f1 := floorMagnitude_le (2 * r + 1) 2
    have f2 := lt_floorMagnitude_succ (num := 2 * r + 1) (den := 2) (by decide)
    have hc := roundUnits_cases (num := 2 * r + 1) (den := 2) (by decide)
    dsimp only at hc
    generalize floorMagnitude (2 * r + 1) 2 = M at *
    have hA : 2 ^ 24 ≤ magValue M := by
      by_contra hlt
      have h1 : M < 2 ^ 24 + 2 ^ 23 := by
        by_contra hge
        have := magValue_strictMono.monotone (show 2 ^ 24 + 2 ^ 23 ≤ M by omega)
        rw [show magValue (2 ^ 24 + 2 ^ 23) = 2 ^ 25 from rfl] at this
        omega
      have := magValue_strictMono.monotone (show M + 1 ≤ 2 ^ 24 by
        by_contra hge
        have := magValue_strictMono.monotone (show 2 ^ 24 ≤ M by omega)
        rw [show magValue (2 ^ 24) = 2 ^ 24 from rfl] at this
        omega)
      rw [show magValue (2 ^ 24) = 2 ^ 24 from rfl] at this
      omega
    have hev := neighbours_even hA
    have g1 : (magValue M : ℝ) ≤ r := by exact_mod_cast (by omega : magValue M ≤ r)
    have g2 : (r : ℝ) + 1 ≤ magValue (M + 1) := by exact_mod_cast (by omega : r + 1 ≤ magValue (M + 1))
    refine nearest_of_neighbours (M := M) (by linarith) (by linarith) ?_
    rcases hc with ⟨h, hx', _⟩ | ⟨h, hx', _⟩
    · have : (2 * r + 2 : ℝ) ≤ magValue M + magValue (M + 1) := by
        exact_mod_cast (by omega : 2 * r + 2 ≤ magValue M + magValue (M + 1))
      exact .inl ⟨h, by linarith, fun he => by linarith⟩
    · have : (magValue M + magValue (M + 1) : ℝ) ≤ 2 * r := by
        exact_mod_cast (by omega : magValue M + magValue (M + 1) ≤ 2 * r)
      exact .inr ⟨h, by linarith, fun he => by linarith⟩
  · rw [if_neg hx, Nat.add_zero]
    have hn' : n = r * r := by omega
    have h := roundUnits_nearest (num := 2 * r) (den := 2) (by decide)
    have e1 : ((2 * r : Nat) / (2 : Nat) : ℝ) = r := by push_cast; ring
    rw [e1] at h
    rw [hn']
    push_cast
    rw [Real.sqrt_mul_self (Nat.cast_nonneg r)]
    exact h

/-! ### What the operations give on the words the claims are about -/

theorem le_roundUnits {m num den : Nat} (hd : 0 < den) (hm : m ≤ infMagnitude) (h : magValue m * den ≤ num) : m ≤ roundUnits num den := by
  have hd' : (0 : ℝ) < den := by exact_mod_cast hd
  exact (nearest_self hm).mono (roundUnits_nearest hd) ((le_div_iff₀ hd').mpr (by exact_mod_cast h))

theorem roundUnits_le {m num den : Nat} (hd : 0 < den) (hm : m ≤ infMagnitude) (h : num ≤ magValue m * den) : roundUnits num den ≤ m := by
  have hd' : (0 : ℝ) < den := by exact_mod_cast hd
  exact (roundUnits_nearest hd).mono (nearest_self hm) ((div_le_iff₀ hd').mpr (by exact_mod_cast h))

theorem roundUnits_le_inf (num den : Nat) : roundUnits num den ≤ infMagnitude := Nat.min_le_right _ _

/-- A word with no sign that is no NaN: a non-negative number or the positive infinity. -/
structure NonNeg (a : Word) : Prop where
  plus : sign a = false
  number : isNaN a = false

theorem NonNeg.le_inf {a : Word} (h : NonNeg a) : magnitude a ≤ infMagnitude := by
  have := h.number
  rw [isNaN, decide_eq_false_iff_not] at this; omega

theorem nonNeg_pack {m : Nat} (h : m ≤ infMagnitude) : NonNeg (pack false m) := by
  refine ⟨sign_pack _ (le_inf_lt h), ?_⟩
  rw [isNaN, magnitude_pack _ (le_inf_lt h)]; exact decide_eq_false (by omega)

/-- The square of a number is non-negative. -/
theorem fmul_self_nonNeg (nan : Word) {v : Word} (h : isNaN v = false) : NonNeg (fmul nan v v) := by
  unfold fmul
  rw [h, Bool.or_self, if_neg (by decide), bne_self_eq_false]
  by_cases hi : isInf v = true
  · rw [hi, Bool.or_self, if_pos rfl]
    have hu : units v ≠ 0 := by
      rw [Ne, units_eq_zero, beq_iff_eq.mp hi]; decide
    rw [if_neg (by simpa using hu)]
    exact nonNeg_pack (Nat.le_refl _)
  · rw [if_neg (by simpa using hi)]
    exact nonNeg_pack (roundUnits_le_inf _ _)

/-- Adding a non-negative number to a positive one does not make it smaller. -/
theorem fadd_nonNeg (nan : Word) {a b : Word} (ha : NonNeg a) (hb : NonNeg b) (h0 : 0 < magnitude a) :
    NonNeg (fadd nan a b) ∧ magnitude a ≤ magnitude (fadd nan a b) := by
  unfold fadd
  rw [ha.number, hb.number, Bool.or_self, if_neg (by decide), ha.plus, hb.plus]
  by_cases hi : isInf a = true
  · rw [if_pos hi]
    simp only [bne_self_eq_false, Bool.and_false, Bool.false_eq_true, if_false]
    exact ⟨ha, Nat.le_refl _⟩
  rw [if_neg hi]
  by_cases hj : isInf b = true
  · rw [if_pos hj]
    exact ⟨hb, by rw [beq_iff_eq.mp hj]; exact ha.le_inf⟩
  rw [if_neg hj]
  have hua : 0 < units a := Nat.pos_of_ne_zero (by rw [Ne, units_eq_zero]; omega)
  have hv : value a + value b = ((units a + units b : Nat) : Int) := by
    rw [value, value, ha.plus, hb.plus]; simp
  rw [hv, if_neg (by omega), decide_eq_false (by omega), Int.natAbs_natCast]
  refine ⟨nonNeg_pack (roundUnits_le_inf _ _), ?_⟩
  rw [magnitude_pack _ (le_inf_lt (roundUnits_le_inf _ _))]
  exact le_roundUnits (by decide) ha.le_inf (by rw [← units_eq]; omega)

/-- The root of a positive number is positive. -/
theorem fsqrt_pos (nan : Word) {a : Word} (ha : NonNeg a) (h0 : 0 < magnitude a) :
    NonNeg (fsqrt nan a) ∧ 0 < magnitude (fsqrt nan a) := by
  unfold fsqrt
  rw [ha.number, if_neg (by decide), if_neg (by omega), ha.plus, if_neg (by decide)]
  by_cases hi : isInf a = true
  · rw [if_pos hi]; exact ⟨ha, h0⟩
  rw [if_neg hi]
  refine ⟨nonNeg_pack (roundUnits_le_inf _ _), ?_⟩
  rw [magnitude_pack _ (le_inf_lt (roundUnits_le_inf _ _))]
  have hn : 1 * 2 ^ 149 ≤ units a * 2 ^ 149 :=
    Nat.mul_le_mul_right _ (Nat.pos_of_ne_zero (by rw [Ne, units_eq_zero]; omega))
  obtain ⟨_, s2⟩ := isqrt_spec (units a * 2 ^ 149)
  refine le_roundUnits (m := 1) (by decide) (by decide) ?_
  rw [magValue_small (by decide)]
  have : 0 < isqrt (units a * 2 ^ 149) := by
    by_contra h
    rw [show isqrt (units a * 2 ^ 149) = 0 by omega] at s2
    omega
  omega

/-- A positive number is above zero in the order. -/
theorem fgt_zero {a : Word} (ha : NonNeg a) (h0 : 0 < magnitude a) : fgt a ZERO = true := by
  have hz : isNaN ZERO = false := by decide
  have ho : orderKey ZERO = 0 := by decide
  unfold fgt
  rw [ha.number, hz, ho, orderKey, ha.plus]
  simp
  exact h0

/-- What Clip01 lets through that is no NaN: a zero of either sign, or a number from 0 to 1. -/
theorem clip01_range {g : Word} (h : isNaN (clip01 g) = false) :
    isNaN g = false ∧ magnitude (clip01 g) ≤ magnitude ONE ∧ (sign (clip01 g) = true → magnitude (clip01 g) = 0) := by
  have hg : isNaN g = false := by
    by_contra hn
    rw [Bool.not_eq_false] at hn
    have h1 : fgt g ONE = false := by simp [fgt, hn]
    have h2 : flt g ZERO = false := by simp [flt, hn]
    rw [clip01, h1, h2, if_neg (by decide), if_neg (by decide), hn] at h
    cases h
  refine ⟨hg, ?_⟩
  have n1 : isNaN ONE = false := by decide
  have n0 : isNaN ZERO = false := by decide
  have o1 : orderKey ONE = magnitude ONE := by decide
  have o0 : orderKey ZERO = 0 := by decide
  unfold clip01
  by_cases c1 : fgt g ONE = true
  · rw [if_pos c1]; exact ⟨Nat.le_refl _, fun h => by revert h; decide⟩
  rw [if_neg c1]
  by_cases c2 : flt g ZERO = true
  · rw [if_pos c2]; exact ⟨by decide, fun h => by revert h; decide⟩
  rw [if_neg c2]
  have p1 : 0 < magnitude ONE := by decide
  rw [fgt, hg, n1, o1] at c1
  rw [flt, hg, n0, o0] at c2
  generalize magnitude ONE = one at c1 p1 ⊢
  have d1 : ¬ (one : Int) < orderKey g := fun h => c1 (by rw [decide_eq_true h]; rfl)
  have d2 : ¬ orderKey g < 0 := fun h => c2 (by rw [decide_eq_true h]; rfl)
  unfold orderKey at d1 d2
  cases hs : sign g
  · rw [hs, if_neg Bool.false_ne_true] at d1
    exact ⟨by omega, fun h => by cases h⟩
  · rw [hs, if_pos rfl] at d2
    exact ⟨by omega, fun _ => by omega⟩

/-- A product with K_GAIN of what Clip01 lets through. -/
theorem fmul_gain {nan g : Word} (hn : isNaN g = false) (h1 : magnitude g ≤ magnitude ONE) (h2 : sign g = true → magnitude g = 0) :
    isNaN (fmul nan g K_GAIN) = false ∧ magnitude (fmul nan g K_GAIN) ≤ magnitude K_GAIN ∧
      (sign (fmul nan g K_GAIN) = true → magnitude (fmul nan g K_GAIN) = 0) := by
  have k1 : isNaN K_GAIN = false := by decide
  have k2 : isInf K_GAIN = false := by decide
  have k3 : sign K_GAIN = false := by decide
  have ki : magnitude K_GAIN ≤ infMagnitude := by decide
  have hi : isInf g = false := by
    have : magnitude ONE < infMagnitude := by decide
    exact beq_false_of_ne (by omega)
  unfold fmul
  rw [hn, k1, hi, k2, k3, Bool.or_self, if_neg (by decide), if_neg (by decide)]
  have hle : roundUnits (units g * units K_GAIN) (2 ^ 149) ≤ magnitude K_GAIN := by
    refine roundUnits_le (by decide) ki ?_
    rw [← units_eq, Nat.mul_comm]
    refine Nat.mul_le_mul_left _ ?_
    rw [units_eq]
    exact magValue_strictMono.monotone h1
  have hlt : roundUnits (units g * units K_GAIN) (2 ^ 149) < 2 ^ 31 := le_inf_lt (Nat.le_trans hle ki)
  refine ⟨?_, ?_, fun hs => ?_⟩
  · rw [isNaN, magnitude_pack _ hlt]; exact decide_eq_false (by omega)
  · rw [magnitude_pack _ hlt]; exact hle
  · rw [sign_pack _ hlt] at hs
    rw [magnitude_pack _ hlt, (units_eq_zero g).mpr (h2 (by simpa using hs)), Nat.zero_mul]
    decide

end Sys2Proof.Machine.F32
end

