-- ==== Sys2Proof/Laws/Outcome.lean ====
section
/-! SUPPORT. Everything a command can do, said once (`exec_cases`), and what each of its endings leaves alone. -/

namespace Sys2Proof.Machine

/-- A stop that leaves the memory of `s` out of the question: an unwritten element of `s`, or a fault raised before any write. -/
def EarlyStop (s : State) (e : Stop) : Prop :=
  (∃ m k, e = .unwritten m k ∧ Memory.read s.mem (addr m k) = none) ∨
  (∃ f info, e = .raised f info ∧ f ≠ .illegalCmd ∧ f ≠ .budgetOverrun)

theorem earlyStop_raised {s : State} {f : FaultCode} {info : Word} (h1 : f ≠ .illegalCmd) (h2 : f ≠ .budgetOverrun) :
    EarlyStop s (.raised f info) := .inr ⟨f, info, rfl, h1, h2⟩

theorem earlyStop_require {s : State} {b : Bool} {f : FaultCode} {info : Word} {e : Stop} (h1 : f ≠ .illegalCmd)
    (h2 : f ≠ .budgetOverrun) (h : require b (.raised f info) = .error e) : EarlyStop s e := by
  obtain ⟨_, rfl⟩ := require_error.mp h
  exact earlyStop_raised h1 h2

theorem earlyStop_readTable {s : State} {m : MemName} {n : Nat} {e : Stop} (h : readTable m n s.mem = .error e) :
    EarlyStop s e := by
  unfold readTable at h
  rcases bind_error.mp h with h | ⟨_, _, h⟩
  · obtain ⟨k, _, _, he, hn⟩ := readSlice_error h; exact .inl ⟨m, k, he, hn⟩
  · cases h

theorem checkMode_error {s : State} {e : Stop} (h : checkMode s = .error e) : EarlyStop s e := by
  simp only [checkMode, modeInvalid] at h
  rcases bind_error.mp h with h | ⟨_, _, h⟩
  · exact earlyStop_require (by decide) (by decide) h
  rcases bind_error.mp h with h | ⟨_, _, h⟩
  · exact earlyStop_require (by decide) (by decide) h
  rcases bind_error.mp h with h | ⟨_, _, h⟩
  · exact earlyStop_require (by decide) (by decide) h
  rcases bind_error.mp h with h | ⟨_, _, h⟩
  · exact earlyStop_readTable h
  rcases bind_error.mp h with h | ⟨_, _, h⟩
  · exact earlyStop_require (by decide) (by decide) h
  rcases bind_error.mp h with h | ⟨_, _, h⟩
  · exact earlyStop_readTable h
  rcases bind_error.mp h with h | ⟨_, _, h⟩
  · exact earlyStop_require (by decide) (by decide) h
  rcases bind_error.mp h with h | ⟨_, _, h⟩
  · exact earlyStop_require (by decide) (by decide) h
  rcases bind_error.mp h with h | ⟨_, _, h⟩
  · exact earlyStop_require (by decide) (by decide) h
  rcases bind_error.mp h with h | ⟨_, _, h⟩
  · exact earlyStop_require (by decide) (by decide) h
  rcases bind_error.mp h with h | ⟨_, _, h⟩
  · exact earlyStop_require (by decide) (by decide) h
  · cases h

/-- The state after a command's work and before it retires: the memory, and for QB and UQB the coder and BITS. -/
def afterWork (s : State) (mem : Memory) (ec : Coder) (bits : Word) : State :=
  { s with mem := mem, ec := ec, bits := bits }

/-- Everything a command can do, in whatever configuration. -/
inductive ExecCase (i : Instr) (s : State) : Host.Outcome State Fault Refusal → Prop
  /-- it stops at an element that no write has reached -/
  | unwritten (m : MemName) (k : Nat) (hn : Memory.read s.mem (addr m k) = none) : ExecCase i s (.fault (.unwritten m k))
  /-- it raises a fault before any effect -/
  | raised (f : FaultCode) (info : Word) (h1 : f ≠ .illegalCmd) (h2 : f ≠ .budgetOverrun) :
      ExecCase i s (.next (raise f info s))
  /-- it does its work and retires; it writes only what `Writes` names -/
  | retired (mem : Memory) (ec : Coder) (bits : Word)
      (hmode : readsMode i = true → ∃ m, checkMode s = .ok m)
      (hmem : Keeps (fun a => ∀ m, (readsMode i = true → checkMode s = .ok m) → Writes i s m a) s.mem mem)
      (hmap : Memory.mapped s.caps s.mem = true → Memory.mapped s.caps mem = true)
      (hq : usesPorts i = false → ec = s.ec ∧ bits = s.bits) :
      ExecCase i s (.next (retire (afterWork s mem ec bits)))
  /-- QB or UQB does its work and overruns the budget -/
  | overrun (mem : Memory) (ec : Coder) (bits info : Word) (hq : usesPorts i = true)
      (hmode : ∃ m, checkMode s = .ok m)
      (hmem : Keeps (fun a => ∀ m, (readsMode i = true → checkMode s = .ok m) → Writes i s m a) s.mem mem)
      (hmap : Memory.mapped s.caps s.mem = true → Memory.mapped s.caps mem = true) :
      ExecCase i s (.next (raise .budgetOverrun info (afterWork s mem ec bits)))

theorem execCase_stop {i : Instr} {s : State} {e : Stop} (h : EarlyStop s e) : ExecCase i s (stopWith e s) := by
  rcases h with ⟨m, k, rfl, hn⟩ | ⟨f, info, rfl, h1, h2⟩
  · exact .unwritten m k hn
  · exact .raised f info h1 h2

/-- A frame whose set lies in mapped addresses keeps the memory mapped. -/
theorem keeps_mapped {caps : Caps} {S : Nat → Prop} {m0 m1 : Memory} (h : Keeps S m0 m1)
    (hS : ∀ a, S a → addrMapped caps a = true) (h0 : Memory.mapped caps m0 = true) : Memory.mapped caps m1 = true := by
  rw [Memory.mapped_iff] at h0 ⊢
  intro a ha
  by_cases hs : S a
  · exact hS a hs
  · exact h0 a (by rw [← h.frame a hs]; exact ha)

/-! Every address a command may write is mapped (20_memory.md R66). -/

theorem inRange_spectrum_mapped {caps : Caps} {m : Mode} (hm : ModeFacts caps m) {sp : Spectrum} {lo hi a : Nat}
    (h : InRange (sel sp) lo hi a) (hle : hi ≤ Mode.flatStart m (m.ne + 1)) : addrMapped caps a = true := by
  obtain ⟨k, _, h2, rfl⟩ := inRange_index h
  exact hm.mapped_spectrum sp (by omega)

theorem inRange_energy_mapped {caps : Caps} {m : Mode} (hm : ModeFacts caps m) {bk : EnergyMem} {a : Nat}
    (h : InRange (bank bk) 0 (m.ne * m.c) a) : addrMapped caps a = true := by
  obtain ⟨k, _, h2, rfl⟩ := inRange_index h
  have hne : 0 < m.ne := by
    rcases Nat.eq_zero_or_pos m.ne with h0 | h0
    · rw [h0, Nat.zero_mul] at h2; omega
    · exact h0
  have h3 := hm.energyIndex_lt (i := 0) (c := 0) hne hm.c_pos
  rw [addrMapped_addr _ _ _ (by omega)]
  exact decide_eq_true (show k < max 1 (2 * caps.emax.val) by omega)

theorem inRange_gains_mapped {caps : Caps} {m : Mode} (hm : ModeFacts caps m) {a : Nat} (h : InRange .gains 0 m.np a) :
    addrMapped caps a = true := by
  obtain ⟨k, _, h2, rfl⟩ := inRange_index h
  have h3 := hm.np
  have h4 := caps.pmax.isLt
  rw [addrMapped_addr _ _ _ (by omega)]
  exact decide_eq_true (show k < max 1 caps.pmax.val by omega)

theorem inRange_pulses_mapped {caps : Caps} {m : Mode} (hm : ModeFacts caps m) {a : Nat} (h : InRange .pulses 0 m.ne a) :
    addrMapped caps a = true := by
  obtain ⟨k, _, h2, rfl⟩ := inRange_index h
  have h3 := hm.ne
  have h4 := caps.emax.isLt
  rw [addrMapped_addr _ _ _ (by omega)]
  exact decide_eq_true (show k < max 1 caps.emax.val by omega)

theorem inRange_wgt_mapped {caps : Caps} {m : Mode} (hm : ModeFacts caps m) {a : Nat}
    (h : InRange .wgt (Mode.flatStart m 0) (Mode.flatStart m m.ne) a) : addrMapped caps a = true := by
  obtain ⟨k, _, h2, rfl⟩ := inRange_index h
  have h3 := hm.flatStart_le (i := m.ne) (by omega)
  have h4 := ModeFacts.nmax_le caps
  rw [addrMapped_addr _ _ _ (by omega)]
  exact decide_eq_true (show k < Caps.nmax caps by omega)

theorem writes_mapped {i : Instr} {s : State} {m : Mode} (hi : readsMode i = true) (hm : ModeFacts s.caps m) {a : Nat}
    (h : Writes i s m a) : addrMapped s.caps a = true := by
  have hle := hm.flatStart_mono (i := m.ne) (j := m.ne + 1) (by omega) (Nat.le_refl _)
  have hpp : Mode.pitchStart m (m.np + 1) ≤ Mode.flatStart m (m.ne + 1) := Nat.mul_le_mul_left _ hm.padded
  have hq : ∀ sa sb, QuantWrites m sa sb a → addrMapped s.caps a = true := by
    rintro sa sb (h | h | h | h)
    · exact inRange_pulses_mapped hm h
    · exact inRange_spectrum_mapped hm h (Nat.le_refl _)
    · exact inRange_spectrum_mapped hm h hle
    · exact inRange_spectrum_mapped hm h hle
  cases i with
  | cbe sa bk => exact inRange_energy_mapped hm h
  | nrm sa sb bk => exact inRange_spectrum_mapped hm h (Nat.le_refl _)
  | dnrm sa sb bk => exact inRange_spectrum_mapped hm h (Nat.le_refl _)
  | rnrm sa =>
    rcases h with h | h
    · exact inRange_energy_mapped hm h
    · exact inRange_spectrum_mapped hm h (Nat.le_refl _)
  | rot sa dir => cases hi
  | cpg sa sb bk =>
    rcases h with h | h | h
    · exact inRange_wgt_mapped hm h
    · exact inRange_gains_mapped hm h
    · exact inRange_spectrum_mapped hm h hpp
  | pqb sb => exact inRange_spectrum_mapped hm h hpp
  | qb sa sb sc => exact hq sa sb h
  | uqb sa sb => exact hq sa sb h
  | smix sa bk dir => exact inRange_spectrum_mapped hm h (Nat.le_refl _)

/-- The ending of a command that reads the mode and works on the memories alone. -/
theorem execCase_withMode {i : Instr} {s : State} {work : Mode → Memory → Cmd Memory} (hi : readsMode i = true)
    (hwork : ∀ m, checkMode s = .ok m → (∀ e, work m s.mem = .error e → EarlyStop s e) ∧
      (∀ mem, work m s.mem = .ok mem → Keeps (Writes i s m) s.mem mem)) :
    ExecCase i s (withMode s work) := by
  unfold withMode conclude
  cases hm : checkMode s with
  | error e => exact execCase_stop (checkMode_error hm)
  | ok m =>
    obtain ⟨herr, hok⟩ := hwork m hm
    rw [ok_bind]
    cases hw : work m s.mem with
    | error e => exact execCase_stop (herr e hw)
    | ok mem =>
      have hk := hok mem hw
      exact .retired mem s.ec s.bits (fun _ => ⟨m, hm⟩)
        (hk.mono (fun a ha m' hm' => by have := hm' hi; rw [hm] at this; cases this; exact ha))
        (keeps_mapped hk (fun a ha => writes_mapped hi (checkMode_facts hm) ha)) (fun _ => ⟨rfl, rfl⟩)

theorem execCase_memWork {i : Instr} {s : State} {work : Mode → Memory → Cmd Memory} (hi : readsMode i = true)
    (hwork : ∀ m, checkMode s = .ok m → MemWork (Writes i s m) s.mem (work m s.mem)) : ExecCase i s (withMode s work) :=
  execCase_withMode hi (fun m hm => ⟨fun _ he => .inl ((hwork m hm).error he), fun _ hok => (hwork m hm).ok hok⟩)

/-- The ending of QB and UQB. -/
theorem execCase_quant {i : Instr} {s : State} {cfg : Config} {codec : Codec} {sa sb : Spectrum} {legal : Bool}
    (hi : readsMode i = true) (hq : usesPorts i = true) (hS : ∀ m a, QuantWrites m sa sb a → Writes i s m a) :
    ExecCase i s (concludeQuant cfg s (do
      let m ← checkMode s
      require legal (illegalOperand i)
      quantBands cfg codec m sa sb s)) := by
  unfold concludeQuant
  cases hm : checkMode s with
  | error e => exact execCase_stop (checkMode_error hm)
  | ok m =>
    have hf := checkMode_facts hm
    rw [ok_bind]
    cases legal with
    | false =>
      exact execCase_stop (earlyStop_raised (f := .illegalOperand) (by decide) (by decide))
    | true =>
      rw [require_true rfl, ok_bind]
      have hd := (quantBands_does hf cfg codec sa sb s).mono (hS m)
      cases hw : quantBands cfg codec m sa sb s with
      | error e => exact execCase_stop (.inl (hd.error hw))
      | ok t =>
        have hk := hd.ok hw
        have ht : t = afterWork s t.mem t.ec t.bits := by
          unfold quantBands at hw
          obtain ⟨r, _, hr⟩ := bind_ok.mp hw
          cases hr; rfl
        have hk' : Keeps (fun a => ∀ m', (readsMode i = true → checkMode s = .ok m') → Writes i s m' a) s.mem t.mem :=
          hk.mono (fun a ha m' hm' => by have := hm' hi; rw [hm] at this; cases this; exact ha)
        have hmap := keeps_mapped hk (fun a ha => writes_mapped hi hf ha)
        rw [ht]
        dsimp only
        split
        · exact .overrun _ _ _ _ hq ⟨m, hm⟩ hk' hmap
        · exact .retired _ _ _ (fun _ => ⟨m, hm⟩) hk' hmap (fun h => by rw [hq] at h; cases h)

theorem execCase_rot (cfg : Config) (sa : Spectrum) (dir : Dir) (s : State) :
    ExecCase (.rot sa dir) s (rot cfg sa dir s) := by
  unfold rot conclude
  cases hr : checkRotRange s with
  | error e =>
    refine execCase_stop ?_
    unfold checkRotRange at hr
    rcases bind_error.mp hr with h | ⟨_, _, h⟩
    · exact earlyStop_require (by decide) (by decide) h
    · exact earlyStop_require (by decide) (by decide) h
  | ok u =>
    rw [ok_bind]
    have hd := rotSlice_does cfg (drawsOf cfg s) sa (u32 s.rotOff) (u32 s.rotLen) s.rotTheta dir (u32 s.rotStride)
      (u32 s.rotIter) s.mem
    cases hw : rotSlice cfg (drawsOf cfg s) sa (u32 s.rotOff) (u32 s.rotLen) s.rotTheta dir (u32 s.rotStride)
      (u32 s.rotIter) s.mem with
    | error e => exact execCase_stop (.inl (hd.error hw))
    | ok mem =>
      have hk := hd.ok hw
      have hle : u32 s.rotOff + u32 s.rotLen ≤ Caps.nmax s.caps := by
        unfold checkRotRange at hr
        obtain ⟨_, _, h2⟩ := bind_ok.mp hr
        exact of_decide_eq_true (require_ok.mp h2)
      refine .retired mem s.ec s.bits (fun h => by cases h) (hk.mono (fun a ha _ _ => ha)) ?_ (fun _ => ⟨rfl, rfl⟩)
      refine keeps_mapped hk (fun a ha => ?_)
      obtain ⟨k, _, h2, rfl⟩ := inRange_index ha
      have h4 := ModeFacts.nmax_le s.caps
      rw [addrMapped_addr _ _ _ (by omega)]
      exact decide_eq_true (show k < Caps.nmax s.caps by omega)

/-- `exec` is the run of the machine's configuration. -/
theorem exec_eq_execWith (i : Instr) (s : State) : exec i s = execWith Config.hw i s := by cases i <;> rfl

/-- EVERYTHING A COMMAND CAN DO. -/
theorem execWith_cases (cfg : Config) (i : Instr) (s : State) : ExecCase i s (execWith cfg i s) := by
  cases i with
  | cbe sa bk => exact execCase_memWork rfl (fun m hm => bandEnergies_does (checkMode_facts hm) _ sa bk s.mem)
  | nrm sa sb bk => exact execCase_memWork rfl (fun m hm => scaleBands_does (checkMode_facts hm) _ _ sa sb bk s.mem)
  | dnrm sa sb bk => exact execCase_memWork rfl (fun m hm => scaleBands_does (checkMode_facts hm) _ _ sa sb bk s.mem)
  | rnrm sa => exact execCase_memWork rfl (fun m hm => renormalise_does (checkMode_facts hm) _ sa s.mem)
  | rot sa dir => exact execCase_rot _ sa dir s
  | cpg sa sb bk => exact execCase_memWork rfl (fun m hm => pitchGains_does (checkMode_facts hm) _ sa sb bk s.mem)
  | pqb sb => exact execCase_memWork rfl (fun m hm => applyGains_does (checkMode_facts hm) _ sb s.mem)
  | qb sa sb sc => exact execCase_quant (i := .qb sa sb sc) rfl rfl (fun m a h => h)
  | uqb sa sb => exact execCase_quant (i := .uqb sa sb) rfl rfl (fun m a h => h)
  | smix sa bk dir =>
    show ExecCase _ s (smix cfg sa bk dir s)
    unfold smix
    refine execCase_withMode (i := .smix sa bk dir) rfl (fun m hm => ?_)
    by_cases hc : m.c = 2
    · rw [require_true (decide_eq_true hc), ok_bind]
      have hd := stereoMix_does (checkMode_facts hm) hc (drawsOf cfg s) sa bk dir s.mem
      exact ⟨fun e he => .inl (hd.error he), fun mem hok => hd.ok hok⟩
    · rw [require_false (decide_eq_false hc), error_bind]
      exact ⟨fun e he => by cases he; exact earlyStop_raised (f := .illegalOperand) (by decide) (by decide),
        fun mem hok => by cases hok⟩

theorem exec_cases (i : Instr) (s : State) : ExecCase i s (exec i s) := by
  rw [exec_eq_execWith]; exact execWith_cases Config.hw i s

end Sys2Proof.Machine
end

