-- ==== Sys2Proof/Laws/Results.lean ====
section
/-! SUPPORT. What the commands' work computes, as arrays: one lemma per piece of work, from the values its memories hold at the start
to the values they hold at the end. Each says that the work ends well when the elements it reads are written. -/

namespace Sys2Proof.Machine

open F32

theorem vals_of_read {m0 m1 : Memory} {m : MemName} {k : Nat} (h : Memory.read m1 (addr m k) = Memory.read m0 (addr m k)) :
    vals m1 m k = vals m0 m k := by simp only [vals, h]

theorem read_some_vals {m1 : Memory} {m : MemName} {k : Nat} (h : (Memory.read m1 (addr m k)).isSome = true) :
    Memory.read m1 (addr m k) = some (vals m1 m k) := by
  obtain ⟨w, hw⟩ := Option.isSome_iff_exists.mp h
  simp [vals, hw]

structure Scatter {ι : Type} (A : ι → Nat) (V : ι → Word) (m0 : Memory) (D : ι → Prop) (m1 : Memory) : Prop where
  hit : ∀ x, D x → Memory.read m1 (A x) = some (V x)
  miss : ∀ a, (∀ x, D x → A x ≠ a) → Memory.read m1 a = Memory.read m0 a

theorem Scatter.start {ι : Type} {A : ι → Nat} {V : ι → Word} {m0 : Memory} {D : ι → Prop} (h : ∀ x, ¬ D x) : Scatter A V m0 D m0 :=
  ⟨fun x hx => absurd hx (h x), fun _ _ => rfl⟩

theorem Scatter.step {ι : Type} {A : ι → Nat} {V : ι → Word} {m0 : Memory} {D D' : ι → Prop} {m1 : Memory} (h : Scatter A V m0 D m1)
    (x0 : ι) {a : Nat} {v : Word} (ha : A x0 = a) (hv : V x0 = v) (hD : ∀ x, D' x ↔ D x ∨ x = x0) (hinj : ∀ x, D x → A x = A x0 → x = x0) :
    Scatter A V m0 D' (Memory.write m1 a v) := by
  subst ha hv
  constructor
  · intro x hx
    rw [Memory.read_write]
    split
    · next he =>
      rcases (hD x).mp hx with h1 | rfl
      · rw [hinj x h1 he.symm]
      · rfl
    · next hne =>
      rcases (hD x).mp hx with h1 | rfl
      · exact h.hit x h1
      · exact absurd rfl hne
  · intro a ha
    rw [Memory.read_write, if_neg (ha x0 ((hD x0).mpr (.inr rfl)))]
    exact h.miss a (fun x hx => ha x ((hD x).mpr (.inl hx)))

theorem Scatter.congr {ι : Type} {A : ι → Nat} {V : ι → Word} {m0 : Memory} {D D' : ι → Prop} {m1 : Memory} (h : Scatter A V m0 D m1)
    (hD : ∀ x, D' x ↔ D x) : Scatter A V m0 D' m1 :=
  ⟨fun x hx => h.hit x ((hD x).mp hx), fun a ha => h.miss a (fun x hx => ha x ((hD x).mpr hx))⟩

theorem flat_lt {caps : Caps} {m : Mode} (hm : ModeFacts caps m) {i c j : Nat} (hi : i < m.ne) (hc : c < m.c) (h1 : Mode.bandStart m i ≤ j) (h2 : j < Mode.bandStart m (i + 1)) :
    Mode.flatStart m 0 ≤ Mode.flat m j c ∧ Mode.flat m j c < Mode.flatStart m m.ne ∧ Mode.flatStart m m.ne ≤ Mode.flatStart m (m.ne+1) ∧ Mode.flatStart m (m.ne + 1) ≤ 65536 := by
  have hb := ModeFacts.flat_bounds hc h1 h2
  have h0 := hm.flatStart_mono (Nat.zero_le i) (by omega)
  have h3 := hm.flatStart_mono (i := i + 1) (j := m.ne) (by omega) (by omega)
  have h4 := hm.flatStart_mono (i := m.ne) (j := m.ne + 1) (by omega) (by omega)
  have h5 := hm.flatStart_le (Nat.le_refl (m.ne + 1))
  have h6 := ModeFacts.nmax_le caps
  omega

theorem bandEnergy_vals {caps : Caps} {m : Mode} (hm : ModeFacts caps m) (d : Draws) (sa : Spectrum) {c i : Nat} (hc : c < m.c) (hi : i < m.ne)
    {mem : Memory} {v : Vals} (hv : ∀ k, Mode.flatStart m 0 ≤ k → k < Mode.flatStart m m.ne → Memory.read mem (addr (sel sa) k) = some (v k)) :
    ∃ acc, bandEnergy d m sa c i mem = .ok acc ∧ fsqrt (d [c, i]) acc = bandEnergyOf d m c i v := by
  have hle := hm.bandStart_mono (i := i) (j := i + 1) (by omega) (by omega)
  obtain ⟨x, hx, rfl⟩ := forUp_sim (body := fun j acc => do
      let v ← readElem (sel sa) (Mode.flat m j c) mem
      .ok (fadd (d [c, i, j, 1]) acc (fmul (d [c, i, j, 0]) v v)))
    (f := fun j acc => fadd (d [c, i, j, 1]) acc (fmul (d [c, i, j, 0]) (v (j * m.c + c)) (v (j * m.c + c))))
    (fun _ x y => x = y) hle (x := EPS) (y := EPS) rfl (fun k x y h1 h2 h => by
      subst h
      obtain ⟨b1, b2, _⟩ := flat_lt hm hi hc h1 h2
      exact ⟨_, by rw [readElem_ok.mpr (hv _ b1 b2), ok_bind]; rfl, rfl⟩)
  exact ⟨_, hx, rfl⟩

abbrev energyAddr (m : Mode) (bk : EnergyMem) : Nat × Nat → Nat := fun x => addr (bank bk) (Mode.energyIndex m x.2 x.1)

theorem energyAddr_inj {caps : Caps} {m : Mode} (hm : ModeFacts caps m) (bk : EnergyMem) {x y : Nat × Nat} (hx : x.1 < m.c) (hy : y.1 < m.c)
    (h : energyAddr m bk x = energyAddr m bk y) : x = y := by
  have := addr_index_inj.mp h
  have := ModeFacts.flat_inj hx hy this
  exact Prod.ext this.2 this.1

theorem spectrum_ne_energy {sa : Spectrum} {bk : EnergyMem} {k k' : Nat} (hk : k < 65536) (hk' : k' < 65536) : addr (sel sa) k ≠ addr (bank bk) k' := by
  intro h
  have := ((addr_inj hk hk').mp h).1
  cases this

theorem bandEnergies_vals {caps : Caps} {m : Mode} (hm : ModeFacts caps m) (d : Draws) (sa : Spectrum) (bk : EnergyMem)
    {m0 : Memory} {v : Vals} (hv : ∀ k, Mode.flatStart m 0 ≤ k → k < Mode.flatStart m m.ne → Memory.read m0 (addr (sel sa) k) = some (v k)) :
    ∃ mem, bandEnergies d m sa bk m0 = .ok mem ∧
      Scatter (energyAddr m bk) (fun x => bandEnergyOf d m x.1 x.2 v) m0 (fun x => x.1 < m.c ∧ x.2 < m.ne) mem := by
  unfold bandEnergies
  obtain ⟨mem, h1, h2⟩ := forUp_total (lo := 0) (hi := m.c) (x := m0) (body := fun c mem =>
    forUp 0 m.ne (fun i mem => do
      let acc ← bandEnergy d m sa c i mem
      .ok (writeElem (bank bk) (Mode.energyIndex m i c) (fsqrt (d [c, i]) acc) mem)) mem)
    (fun c mem => Scatter (energyAddr m bk) (fun x => bandEnergyOf d m x.1 x.2 v) m0 (fun x => x.1 < c ∧ x.2 < m.ne) mem)
    (Nat.zero_le _) (Scatter.start (fun x h => absurd h.1 (by omega)))
    (fun c mem _ hc hs => by
      obtain ⟨mem', h1, h2⟩ := forUp_total (lo := 0) (hi := m.ne) (x := mem) (body := fun i mem => do
        let acc ← bandEnergy d m sa c i mem
        .ok (writeElem (bank bk) (Mode.energyIndex m i c) (fsqrt (d [c, i]) acc) mem))
        (fun i mem => Scatter (energyAddr m bk) (fun x => bandEnergyOf d m x.1 x.2 v) m0 (fun x => x.1 < c ∧ x.2 < m.ne ∨ x.1 = c ∧ x.2 < i) mem)
        (Nat.zero_le _) (hs.congr (fun x => by simp))
        (fun i mem _ hi hs => by
          have hv' : ∀ k, Mode.flatStart m 0 ≤ k → k < Mode.flatStart m m.ne → Memory.read mem (addr (sel sa) k) = some (v k) := by
            intro k hk1 hk2
            rw [hs.miss, hv k hk1 hk2]
            intro x hx
            have h65 := hm.flatStart_le (i := m.ne) (by omega)
            have h6 := ModeFacts.nmax_le caps
            have hx1 : x.1 < m.c := by omega
            have hx2 : x.2 < m.ne := by omega
            obtain ⟨e1, e2, e3⟩ := hm.energyIndex_lt hx2 hx1
            exact (spectrum_ne_energy (by omega) (by omega)).symm
          obtain ⟨acc, ha, hb⟩ := bandEnergy_vals hm d sa hc hi hv'
          refine ⟨_, by rw [ha, ok_bind], ?_⟩
          refine hs.step (c, i) rfl hb.symm (fun x => ?_) (fun x hx he => energyAddr_inj hm bk (by omega) hc he)
          rw [Prod.ext_iff]; dsimp only; omega)
      exact ⟨mem', h1, h2.congr (fun x => by omega)⟩)
  exact ⟨mem, h1, h2⟩

theorem energy_cover {caps : Caps} {m : Mode} (hm : ModeFacts caps m) {k : Nat} (h : k < m.ne * m.c) :
    ∃ i c, i < m.ne ∧ c < m.c ∧ k = i * m.c + c := by
  have hc := hm.c_pos
  refine ⟨k / m.c, k % m.c, Nat.div_lt_of_lt_mul (by rw [Nat.mul_comm]; exact h), Nat.mod_lt _ (by omega), ?_⟩
  rw [Nat.mul_comm]; exact (Nat.div_add_mod k m.c).symm

theorem written_vals {mem : Memory} {m : MemName} {lo hi : Nat} (h : Written mem m lo hi) :
    ∀ k, lo ≤ k → k < hi → Memory.read mem (addr m k) = some (vals mem m k) := fun k h1 h2 => read_some_vals (h k h2 h1)

/-! NRM -/
abbrev bandAddr (m : Mode) (sb : Spectrum) : Nat × Nat × Nat → Nat := fun x => addr (sel sb) (Mode.flat m x.2.2 x.1)

theorem bandAddr_inj {m : Mode} (sb : Spectrum) {x y : Nat × Nat × Nat} (hx : x.1 < m.c) (hy : y.1 < m.c)
    (h : bandAddr m sb x = bandAddr m sb y) : x.1 = y.1 ∧ x.2.2 = y.2.2 := by
  have := ModeFacts.flat_inj hx hy (addr_index_inj.mp h)
  exact ⟨this.2, this.1⟩

theorem band_unique {caps : Caps} {m : Mode} (hm : ModeFacts caps m) {i i' j : Nat} (hi : i < m.ne) (hi' : i' < m.ne) (h1 : Mode.bandStart m i ≤ j) (h2 : j < Mode.bandStart m (i+1))
    (h1' : Mode.bandStart m i' ≤ j) (h2' : j < Mode.bandStart m (i'+1)) : i = i' := by
  rcases Nat.lt_trichotomy i i' with h | h | h
  · have := hm.bandStart_mono (i := i + 1) (j := i') (by omega) (by omega); omega
  · exact h
  · have := hm.bandStart_mono (i := i' + 1) (j := i) (by omega) (by omega); omega

/-- the elements of bands done so far -/
abbrev InBand (m : Mode) (x : Nat × Nat × Nat) : Prop := Mode.bandStart m x.2.1 ≤ x.2.2 ∧ x.2.2 < Mode.bandStart m (x.2.1 + 1)

abbrev scaledVal (gain : Nat → Nat → Word → Word) (d : Draws) (m : Mode) (v E : Vals) : Nat × Nat × Nat → Word :=
  fun x => fmul (d [x.1, x.2.1, x.2.2, 3]) (v (Mode.flat m x.2.2 x.1)) (gain x.1 x.2.1 (E (Mode.energyIndex m x.2.1 x.1)))

/-- the elements done before band i of channel c -/
abbrev DoneBefore (m : Mode) (c i : Nat) (x : Nat × Nat × Nat) : Prop :=
  (x.1 < c ∧ x.2.1 < m.ne ∧ InBand m x) ∨ (x.1 = c ∧ x.2.1 < i ∧ InBand m x)

theorem done_facts {m : Mode} {c i j : Nat} (hc : c < m.c) (hi : i < m.ne) (hj : j ≤ Mode.bandStart m (i + 1)) {x : Nat × Nat × Nat}
    (h : DoneBefore m c i x ∨ (x.1 = c ∧ x.2.1 = i ∧ Mode.bandStart m i ≤ x.2.2 ∧ x.2.2 < j)) :
    x.1 < m.c ∧ x.2.1 < m.ne ∧ InBand m x := by
  rcases h with (h | h) | ⟨h1, h2, h3, h4⟩
  · exact ⟨by omega, h.2⟩
  · exact ⟨by omega, by omega, h.2.2⟩
  · exact ⟨by omega, by omega, by rw [h2]; exact h3, by rw [h2]; omega⟩

theorem done_ne {caps : Caps} {m : Mode} (hm : ModeFacts caps m) {c i j : Nat} (hc : c < m.c) (hi : i < m.ne) (hj1 : Mode.bandStart m i ≤ j)
    (hj2 : j < Mode.bandStart m (i + 1)) {x : Nat × Nat × Nat}
    (h : DoneBefore m c i x ∨ (x.1 = c ∧ x.2.1 = i ∧ Mode.bandStart m i ≤ x.2.2 ∧ x.2.2 < j)) (he : Mode.flat m x.2.2 x.1 = Mode.flat m j c) : False := by
  obtain ⟨hx1, hx2, hx3⟩ := done_facts hc hi (Nat.le_of_lt hj2) h
  obtain ⟨e1, e2⟩ := ModeFacts.flat_inj hx1 hc he
  have hu := band_unique hm hx2 hi hx3.1 hx3.2 (by rw [e1]; exact hj1) (by rw [e1]; exact hj2)
  omega

theorem done_succ {m : Mode} {c i : Nat} (x : Nat × Nat × Nat) :
    DoneBefore m c (i + 1) x ↔ DoneBefore m c i x ∨ (x.1 = c ∧ x.2.1 = i ∧ Mode.bandStart m i ≤ x.2.2 ∧ x.2.2 < Mode.bandStart m (i + 1)) := by
  have : x.1 = c ∧ x.2.1 < i + 1 ∧ InBand m x ↔ (x.1 = c ∧ x.2.1 < i ∧ InBand m x) ∨ (x.1 = c ∧ x.2.1 = i ∧ Mode.bandStart m i ≤ x.2.2 ∧ x.2.2 < Mode.bandStart m (i + 1)) := by
    constructor
    · rintro ⟨ha, hb, hc⟩
      rcases Nat.lt_succ_iff_lt_or_eq.mp hb with h | h
      · exact .inl ⟨ha, h, hc⟩
      · exact .inr ⟨ha, h, by rw [← h]; exact hc⟩
    · rintro (⟨ha, hb, hc⟩ | ⟨ha, hb, hc⟩)
      · exact ⟨ha, by omega, hc⟩
      · exact ⟨ha, by omega, by rw [InBand, hb]; exact hc⟩
  unfold DoneBefore
  rw [this, or_assoc]

theorem scaleBand_vals {caps : Caps} {m : Mode} (hm : ModeFacts caps m) (gain : Nat → Nat → Word → Word) (d : Draws)
    (sa sb : Spectrum) {c i : Nat} (hc : c < m.c) (hi : i < m.ne) {m0 mem : Memory} {v E : Vals}
    (hv : ∀ k, Mode.flatStart m 0 ≤ k → k < Mode.flatStart m m.ne → Memory.read m0 (addr (sel sa) k) = some (v k))
    (hs : Scatter (bandAddr m sb) (scaledVal gain d m v E) m0 (DoneBefore m c i) mem) :
    ∃ mem', scaleBand d m sa sb c i (gain c i (E (Mode.energyIndex m i c))) mem = .ok mem' ∧
      Scatter (bandAddr m sb) (scaledVal gain d m v E) m0 (DoneBefore m c (i + 1)) mem' := by
  unfold scaleBand
  obtain ⟨mem', h1, h2⟩ := forUp_total (lo := Mode.bandStart m i) (hi := Mode.bandStart m (i + 1)) (x := mem) (body := fun j mem => do
      let v ← readElem (sel sa) (Mode.flat m j c) mem
      .ok (writeElem (sel sb) (Mode.flat m j c) (fmul (d [c, i, j, 3]) v (gain c i (E (Mode.energyIndex m i c)))) mem))
    (fun j mem => Scatter (bandAddr m sb) (scaledVal gain d m v E) m0 (fun x => DoneBefore m c i x ∨ (x.1 = c ∧ x.2.1 = i ∧ Mode.bandStart m i ≤ x.2.2 ∧ x.2.2 < j)) mem)
    (hm.bandStart_mono (by omega) (by omega)) (hs.congr (fun x => by omega))
    (fun j mem hj1 hj2 hs => by
      obtain ⟨b1, b2, b3, b4⟩ := flat_lt hm hi hc hj1 hj2
      have hr : readElem (sel sa) (Mode.flat m j c) mem = .ok (v (Mode.flat m j c)) := by
        rw [readElem_ok, hs.miss, hv _ b1 b2]
        intro x hx he
        obtain ⟨hx1, hx2, hx3⟩ := done_facts hc hi (Nat.le_of_lt hj2) hx
        obtain ⟨c1, c2, c3, c4⟩ := flat_lt hm hx2 hx1 hx3.1 hx3.2
        exact done_ne hm hc hi hj1 hj2 hx ((addr_inj (by omega) (by omega)).mp he).2
      refine ⟨_, by rw [hr, ok_bind]; rfl, hs.step (c, i, j) rfl rfl (fun x => ?_) (fun x hx he => ?_)⟩
      · rw [Prod.ext_iff, Prod.ext_iff]; dsimp only; omega
      · exact absurd (addr_index_inj.mp he) (done_ne hm hc hi hj1 hj2 hx))
  exact ⟨mem', h1, h2.congr done_succ⟩

theorem scaleBands_vals {caps : Caps} {m : Mode} (hm : ModeFacts caps m) (gain : Nat → Nat → Word → Word) (d : Draws)
    (sa sb : Spectrum) (bk : EnergyMem) {m0 : Memory} {v E : Vals}
    (hv : ∀ k, Mode.flatStart m 0 ≤ k → k < Mode.flatStart m m.ne → Memory.read m0 (addr (sel sa) k) = some (v k))
    (hE : ∀ k, k < m.ne * m.c → Memory.read m0 (addr (bank bk) k) = some (E k)) :
    ∃ mem mem', scaleBands gain d m sa sb bk m0 = .ok mem' ∧ mem' = zeroTail m sb mem ∧
      Scatter (bandAddr m sb) (scaledVal gain d m v E) m0 (fun x => x.1 < m.c ∧ x.2.1 < m.ne ∧ InBand m x) mem := by
  unfold scaleBands
  obtain ⟨mem, h1, h2⟩ := forUp_total (lo := 0) (hi := m.c) (x := m0) (body := fun c mem =>
    forUp 0 m.ne (fun i mem => do
      let energy ← readElem (bank bk) (Mode.energyIndex m i c) mem
      scaleBand d m sa sb c i (gain c i energy) mem) mem)
    (fun c mem => Scatter (bandAddr m sb) (scaledVal gain d m v E) m0 (fun x => x.1 < c ∧ x.2.1 < m.ne ∧ InBand m x) mem)
    (Nat.zero_le _) (Scatter.start (fun x h => absurd h.1 (by omega)))
    (fun c mem _ hc hs => by
      obtain ⟨mem', h1, h2⟩ := forUp_total (lo := 0) (hi := m.ne) (x := mem) (body := fun i mem => do
          let energy ← readElem (bank bk) (Mode.energyIndex m i c) mem
          scaleBand d m sa sb c i (gain c i energy) mem)
        (fun i mem => Scatter (bandAddr m sb) (scaledVal gain d m v E) m0 (DoneBefore m c i) mem)
        (Nat.zero_le _) (hs.congr (fun x => by unfold DoneBefore; omega))
        (fun i mem _ hi hs => by
          have hE' : readElem (bank bk) (Mode.energyIndex m i c) mem = .ok (E (Mode.energyIndex m i c)) := by
            rw [readElem_ok, hs.miss, hE _ (hm.energyIndex_lt hi hc).1]
            intro x hx
            obtain ⟨hx1, hx2, hx3⟩ := done_facts hc hi (Nat.le_refl _) (.inl hx)
            obtain ⟨b1, b2, b3, b4⟩ := flat_lt hm hx2 hx1 hx3.1 hx3.2
            exact spectrum_ne_energy (by omega) (by have := (hm.energyIndex_lt hi hc); omega)
          rw [hE', ok_bind]
          exact scaleBand_vals hm gain d sa sb hc hi hv hs)
      refine ⟨mem', h1, h2.congr (fun x => ?_)⟩
      unfold DoneBefore; rw [Nat.lt_succ_iff_lt_or_eq]; tauto)
  exact ⟨mem, _, by rw [h1, ok_bind], rfl, h2⟩

theorem scale_finish {caps : Caps} {m : Mode} (hm : ModeFacts caps m) {sb : Spectrum} {V : Nat × Nat × Nat → Word} {m0 mem : Memory}
    (h : Scatter (bandAddr m sb) V m0 (fun x => x.1 < m.c ∧ x.2.1 < m.ne ∧ InBand m x) mem) :
    (∀ i c j, i < m.ne → c < m.c → m.b * Mode.e m i ≤ j → j < m.b * Mode.e m (i + 1) →
      Memory.read (zeroTail m sb mem) (addr (sel sb) (j * m.c + c)) = some (V (c, i, j))) ∧
    (∀ k, Mode.flatStart m m.ne ≤ k → k < Mode.flatStart m (m.ne + 1) → Memory.read (zeroTail m sb mem) (addr (sel sb) k) = some ZERO) ∧
    ∀ a, ¬ InRange (sel sb) (Mode.flatStart m 0) (Mode.flatStart m (m.ne + 1)) a →
      Memory.read (zeroTail m sb mem) a = Memory.read m0 a := by
  refine ⟨fun i c j hi hc h1 h2 => ?_, fun k h1 h2 => ?_, fun a ha => ?_⟩
  · obtain ⟨b1, b2, b3, b4⟩ := flat_lt hm hi hc h1 h2
    rw [zeroTail, read_zeroFill, if_neg]
    · exact h.hit (c, i, j) ⟨hc, hi, h1, h2⟩
    · unfold addr; unfold Mode.flat at b2; omega
  · rw [zeroTail, read_zeroFill, if_pos]
    unfold addr; omega
  · have h0 := hm.flatStart_mono (Nat.zero_le m.ne) (by omega)
    rw [zeroTail, read_zeroFill, if_neg]
    · refine h.miss a (fun x hx he => ha ?_)
      obtain ⟨b1, b2, b3, b4⟩ := flat_lt hm hx.2.1 hx.1 hx.2.2.1 hx.2.2.2
      rw [← he]; exact inRange_addr b1 (by omega)
    · rintro ⟨h1, h2⟩
      exact ha ⟨Nat.le_trans (Nat.add_le_add_left h0 _) h1, h2⟩

theorem energy_split {caps : Caps} {m : Mode} (hm : ModeFacts caps m) {bk : EnergyMem} {V : Nat × Nat → Word} {m0 mem : Memory}
    (h : Scatter (energyAddr m bk) V m0 (fun x => x.1 < m.c ∧ x.2 < m.ne) mem) {sp : Spectrum} {k : Nat} (hk : k < 65536) :
    Memory.read mem (addr (sel sp) k) = Memory.read m0 (addr (sel sp) k) := by
  refine h.miss _ (fun x hx => ?_)
  obtain ⟨e1, e2, e3⟩ := hm.energyIndex_lt hx.2 hx.1
  exact (spectrum_ne_energy hk (by omega)).symm

/-! ROT -/

/-- The elements in `T` hold the array's values; the rest is `m0`. -/
structure Holds (sp : Spectrum) (T : Nat → Prop) (m0 : Memory) (mem : Memory) (v : Vals) : Prop where
  inside : ∀ k, T k → Memory.read mem (addr (sel sp) k) = some (v k)
  outside : ∀ a, (∀ k, T k → a ≠ addr (sel sp) k) → Memory.read mem a = Memory.read m0 a

theorem Holds.set {sp : Spectrum} {T : Nat → Prop} {m0 mem : Memory} {v : Vals} (h : Holds sp T m0 mem v) {k : Nat} (w : Word)
    (hk : T k) : Holds sp T m0 (writeElem (sel sp) k w mem) (v.set k w) := by
  constructor
  · intro j hj
    rw [read_writeElem, Vals.set]
    by_cases hjk : j = k
    · subst hjk; simp
    · rw [if_neg hjk, if_neg (fun he => hjk (addr_index_inj.mp he).symm)]; exact h.inside j hj
  · intro a ha
    rw [read_writeElem, if_neg (fun he => ha k hk he.symm)]
    exact h.outside a ha

theorem rot2_holds {sp : Spectrum} {T : Nat → Prop} {m0 mem : Memory} {v : Vals} (h : Holds sp T m0 mem v) (d : Draws) {a b : Nat}
    (c s : Word) (ha : T a) (hb : T b) :
    ∃ mem', rot2 d sp a b c s mem = .ok mem' ∧ Holds sp T m0 mem' (rot2Vals d a b c s v) := by
  unfold rot2
  rw [readElem_ok.mpr (h.inside a ha), ok_bind, readElem_ok.mpr (h.inside b hb), ok_bind]
  exact ⟨_, rfl, (h.set _ ha).set _ hb⟩

/-- RotSlice runs to its end when every element of a pair holds a value, and its end holds `rotVals`. -/
theorem rotSlice_holds (cfg : Config) (d : Draws) {sp : Spectrum} {off len : Nat} {T : Nat → Prop} {m0 mem : Memory} {v : Vals}
    (theta : Word) (dir : Dir) (stride iter : Nat) (hT : ∀ i, i < len - stride → T (off + i) ∧ T (off + i + stride))
    (h : Holds sp T m0 mem v) :
    ∃ mem', rotSlice cfg d sp off len theta dir stride iter mem = .ok mem' ∧
      Holds sp T m0 mem' (rotVals cfg d off len theta dir stride iter v) := by
  unfold rotSlice rotVals
  refine forUp_sim (fun _ mem v => Holds sp T m0 mem v) (Nat.zero_le _) h (fun t mem v _ _ h => ?_)
  obtain ⟨mem1, h1, h2⟩ := forUp_sim (lo := 0) (hi := len - stride)
    (body := fun i mem => rot2 (Draws.sub (Draws.sub (Draws.sub d t) 0) i) sp (off + i) (off + i + stride) (cfg.fcos theta) (signed dir (cfg.fsin theta)) mem)
    (f := fun i v => rot2Vals (fun site => d (t :: 0 :: i :: site)) (off + i) (off + i + stride) (cfg.fcos theta) (signed dir (cfg.fsin theta)) v)
    (fun _ mem v => Holds sp T m0 mem v) (Nat.zero_le _) h
    (fun i mem v _ hi h => rot2_holds h _ _ _ (hT i hi).1 (hT i hi).2)
  obtain ⟨mem2, g1, g2⟩ := forDown_sim
    (body := fun i mem => rot2 (Draws.sub (Draws.sub (Draws.sub d t) 1) i) sp (off + i) (off + i + stride) (cfg.fcos theta) (signed dir (cfg.fsin theta)) mem)
    (f := fun i v => rot2Vals (fun site => d (t :: 1 :: i :: site)) (off + i) (off + i + stride) (cfg.fcos theta) (signed dir (cfg.fsin theta)) v)
    (fun mem v => Holds sp T m0 mem v) (len - 2 * stride) h2
    (fun i mem v hi h => rot2_holds h _ _ _ (hT i (by omega)).1 (hT i (by omega)).2)
  refine ⟨mem2, ?_, ?_⟩
  · unfold rotForward rotReverse
    rw [h1, ok_bind, g1]
  · cases dir <;> exact g2

/-! CPG -/
theorem fillWeights_vals {caps : Caps} {m : Mode} (hm : ModeFacts caps m) (bk : EnergyMem) {m0 : Memory} {E : Vals}
    (hE : ∀ k, k < m.ne * m.c → Memory.read m0 (addr (bank bk) k) = some (E k)) (W : Vals)
    (hW : ∀ i f, i < m.ne → Mode.flatStart m i ≤ f → f < Mode.flatStart m (i + 1) → W f = E (i * m.c + f % m.c)) :
    ∃ mem, fillWeights m bk m0 = .ok mem ∧
      Scatter (addr .wgt) W m0 (fun f => Mode.flatStart m 0 ≤ f ∧ f < Mode.flatStart m m.ne) mem := by
  unfold fillWeights
  obtain ⟨mem, h1, h2⟩ := forUp_total (lo := 0) (hi := m.ne) (x := m0) (body := fun i mem =>
    forUp (Mode.flatStart m i) (Mode.flatStart m (i + 1)) (fun f mem => do
      let w ← readElem (bank bk) (Mode.energyIndex m i (f % m.c)) mem
      .ok (writeElem .wgt f w mem)) mem)
    (fun i mem => Scatter (addr .wgt) W m0 (fun f => Mode.flatStart m 0 ≤ f ∧ f < Mode.flatStart m i) mem)
    (Nat.zero_le _) (Scatter.start (fun f h => by omega))
    (fun i mem _ hi hs => by
      have h0 := hm.flatStart_mono (Nat.zero_le i) (by omega)
      exact forUp_total (lo := Mode.flatStart m i) (hi := Mode.flatStart m (i + 1)) (x := mem)
        (fun g mem => Scatter (addr .wgt) W m0 (fun f => Mode.flatStart m 0 ≤ f ∧ f < g) mem)
        (hm.flatStart_mono (by omega) (by omega)) hs
        (fun f mem hf1 hf2 hs => by
          have hc := hm.c_pos
          have hlt := hm.energyIndex_lt hi (Nat.mod_lt f (by omega : 0 < m.c))
          have h5 := hm.flatStart_le (i := i+1) (by omega)
          have h6 := ModeFacts.nmax_le caps
          have hr : readElem (bank bk) (Mode.energyIndex m i (f % m.c)) mem = .ok (E (Mode.energyIndex m i (f % m.c))) := by
            rw [readElem_ok, hs.miss, hE _ hlt.1]
            intro g hg he
            have := ((addr_inj (by omega) (by omega)).mp he).1
            cases this
          exact ⟨_, by rw [hr, ok_bind]; rfl, hs.step f rfl (hW i f hi hf1 hf2) (fun g => by omega) (fun g hg he => addr_index_inj.mp he)⟩))
  exact ⟨mem, h1, h2⟩

theorem pitchSums_vals {m : Mode} (d : Draws) (sa sb : Spectrum) (k : Nat) (hle : Mode.pitchStart m k ≤ Mode.pitchStart m (k + 1)) {mem : Memory} {x pr w : Vals}
    (hx : ∀ f, Mode.pitchStart m k ≤ f → f < Mode.pitchStart m (k + 1) → Memory.read mem (addr (sel sa) f) = some (x f))
    (hp : ∀ f, Mode.pitchStart m k ≤ f → f < Mode.pitchStart m (k + 1) → Memory.read mem (addr (sel sb) f) = some (pr f))
    (hw : ∀ f, Mode.pitchStart m k ≤ f → f < Mode.pitchStart m (k + 1) → Memory.read mem (addr .wgt f) = some (w f)) :
    pitchSums d m sa sb k mem = .ok (pitchSumsOf d m k x pr w) := by
  unfold pitchSums
  obtain ⟨r, h1, rfl⟩ := forUp_sim (lo := Mode.pitchStart m k) (hi := Mode.pitchStart m (k + 1)) (body := fun f (sums : Word × Word) => do
      let x ← readElem (sel sa) f mem
      let pr ← readElem (sel sb) f mem
      let w ← readElem .wgt f mem
      .ok (fadd (d [k, f, 2]) sums.1 (fmul (d [k, f, 1]) (fmul (d [k, f, 0]) x pr) w),
           fadd (d [k, f, 5]) sums.2 (fmul (d [k, f, 4]) (fmul (d [k, f, 3]) x x) w)))
    (f := fun f sums =>
      (fadd (d [k, f, 2]) sums.1 (fmul (d [k, f, 1]) (fmul (d [k, f, 0]) (x f) (pr f)) (w f)),
       fadd (d [k, f, 5]) sums.2 (fmul (d [k, f, 4]) (fmul (d [k, f, 3]) (x f) (x f)) (w f))))
    (fun _ a b => a = b) hle (x := (ZERO, ZERO)) (y := (ZERO, ZERO)) rfl (fun f a b h1 h2 h => by
      subst h
      exact ⟨_, by rw [readElem_ok.mpr (hx f h1 h2), ok_bind, readElem_ok.mpr (hp f h1 h2), ok_bind, readElem_ok.mpr (hw f h1 h2), ok_bind], rfl⟩)
  exact h1


theorem space_le {m : MemName} : m.space ≤ 0x24 := by
  cases m with
  | spectrum s => cases s <;> decide
  | energy k => cases k <;> decide
  | _ => decide

/-- Elements of different memories have different addresses. -/
theorem addr_ne {m m' : MemName} (h : m ≠ m') {k k' : Nat} (hk : k < 65536) (hk' : k' < 65536) : addr m k ≠ addr m' k' :=
  fun he => h ((addr_inj hk hk').mp he).1

/-- An element of another memory is outside a range. -/
theorem not_inRange_of_ne {m m' : MemName} (h : m ≠ m') {lo hi k : Nat} (hhi : hi ≤ 65536) (hk : k < 65536) :
    ¬ InRange m' lo hi (addr m k) := by
  intro hr
  obtain ⟨j, _, h2, he⟩ := inRange_index hr
  exact addr_ne h hk (by omega) he

/-- The band of a flat index. -/
theorem flat_band {m : Mode} {f : Nat} : ∀ n, Mode.flatStart m 0 ≤ f → f < Mode.flatStart m n →
    ∃ i, i < n ∧ Mode.flatStart m i ≤ f ∧ f < Mode.flatStart m (i + 1)
  | 0, h1, h2 => absurd h2 (by omega)
  | n + 1, h1, h2 => by
    by_cases h : f < Mode.flatStart m n
    · obtain ⟨i, h3, h4⟩ := flat_band n h1 h
      exact ⟨i, by omega, h4⟩
    · exact ⟨n, by omega, by omega, h2⟩

theorem flat_band_unique {caps : Caps} {m : Mode} (hm : ModeFacts caps m) {i i' f : Nat} (hi : i < m.ne) (hi' : i' < m.ne)
    (h1 : Mode.flatStart m i ≤ f) (h2 : f < Mode.flatStart m (i + 1)) (h1' : Mode.flatStart m i' ≤ f)
    (h2' : f < Mode.flatStart m (i' + 1)) : i = i' := by
  rcases Nat.lt_trichotomy i i' with h | h | h
  · have := hm.flatStart_mono (i := i + 1) (j := i') (by omega) (by omega); omega
  · exact h
  · have := hm.flatStart_mono (i := i' + 1) (j := i) (by omega) (by omega); omega

/-- A pitch band lies between the first and the last pitch band, and inside the bands. -/
theorem pitch_bounds {caps : Caps} {m : Mode} (hm : ModeFacts caps m) {k f : Nat} (hk : k < m.np) (h1 : Mode.pitchStart m k ≤ f)
    (h2 : f < Mode.pitchStart m (k + 1)) :
    Mode.pitchStart m 0 ≤ f ∧ f < Mode.pitchStart m m.np ∧ Mode.flatStart m 0 ≤ f ∧ f < Mode.flatStart m m.ne ∧ f < 65536 := by
  have a1 := hm.pitchStart_mono (Nat.zero_le k) (by omega)
  have a2 := hm.pitchStart_mono (i := k + 1) (j := m.np) (by omega) (by omega)
  have a3 := hm.pitch_within (k := k) (by omega)
  have a4 := hm.pitch_within (k := k + 1) (by omega)
  have a5 := hm.flatStart_le (i := m.ne) (by omega)
  have a6 := ModeFacts.nmax_le caps
  omega

theorem pitchSumsOf_congr (d : Draws) (m : Mode) (k : Nat) (x pr : Vals) {w w' : Vals}
    (h : ∀ f, Mode.pitchStart m k ≤ f → f < Mode.pitchStart m (k + 1) → w f = w' f) :
    pitchSumsOf d m k x pr w = pitchSumsOf d m k x pr w' := by
  unfold pitchSumsOf upFold
  refine List.foldl_ext _ _ _ (fun a f hf => ?_)
  rw [List.mem_range'_1] at hf
  unfold Mode.pitchStart at h
  dsimp only
  rw [h f hf.1 (by omega)]

theorem pitchGains_vals {caps : Caps} {m : Mode} (hm : ModeFacts caps m) (d : Draws) (sa sb : Spectrum) (bk : EnergyMem)
    {m0 : Memory} {x pr E : Vals}
    (hx : ∀ f, Mode.pitchStart m 0 ≤ f → f < Mode.pitchStart m m.np → Memory.read m0 (addr (sel sa) f) = some (x f))
    (hp : ∀ f, Mode.pitchStart m 0 ≤ f → f < Mode.pitchStart m m.np → Memory.read m0 (addr (sel sb) f) = some (pr f))
    (hE : ∀ k, k < m.ne * m.c → Memory.read m0 (addr (bank bk) k) = some (E k)) :
    ∃ mem, pitchGains d m sa sb bk m0 = .ok mem ∧
      (∀ i f, i < m.ne → Mode.flatStart m i ≤ f → f < Mode.flatStart m (i + 1) →
        Memory.read mem (addr .wgt f) = some (E (i * m.c + f % m.c))) ∧
      (∀ k, k < m.np → Memory.read mem (addr .gains k) = some (gainOf d m k x pr (vals mem .wgt))) ∧
      (∀ k, Mode.pitchStart m m.np ≤ k → k < Mode.pitchStart m (m.np + 1) → Memory.read mem (addr (sel sb) k) = some ZERO) ∧
      ∀ a, ¬ InRange .wgt (Mode.flatStart m 0) (Mode.flatStart m m.ne) a → ¬ InRange .gains 0 m.np a →
        ¬ InRange (sel sb) (Mode.pitchStart m m.np) (Mode.pitchStart m (m.np + 1)) a → Memory.read mem a = Memory.read m0 a := by
  have hnm := ModeFacts.nmax_le caps
  have hpl1 := hm.pitchStart_le (k := m.np + 1) (by omega)
  have hfl := hm.flatStart_le (i := m.ne) (by omega)
  have hpe : m.np < 65536 := by have := hm.np; have := caps.pmax.isLt; omega
  classical
  let W : Vals := fun f => if h : ∃ i, i < m.ne ∧ Mode.flatStart m i ≤ f ∧ f < Mode.flatStart m (i + 1) then E (h.choose * m.c + f % m.c) else 0
  have hW : ∀ i f, i < m.ne → Mode.flatStart m i ≤ f → f < Mode.flatStart m (i + 1) → W f = E (i * m.c + f % m.c) := by
    intro i f hi h1 h2
    have h : ∃ i, i < m.ne ∧ Mode.flatStart m i ≤ f ∧ f < Mode.flatStart m (i + 1) := ⟨i, hi, h1, h2⟩
    simp only [W, dif_pos h]
    obtain ⟨c1, c2, c3⟩ := h.choose_spec
    rw [flat_band_unique hm c1 hi c2 c3 h1 h2]
  obtain ⟨mem1, g1, g2⟩ := fillWeights_vals hm bk hE W hW
  let G : Nat → Word := fun k => gainOf d m k x pr W
  obtain ⟨mem2, k1, k2⟩ := forUp_total (lo := 0) (hi := m.np) (x := mem1) (body := fun k mem => do
      let sums ← pitchSums d m sa sb k mem
      .ok (writeElem .gains k (pitchGain d k sums) mem))
    (fun k mem => Scatter (addr .gains) G mem1 (fun j => j < k) mem) (Nat.zero_le _) (Scatter.start (fun j h => by omega))
    (fun k mem _ hk hs => by
      have spec : ∀ sp f, f < 65536 → Memory.read mem (addr (sel sp) f) = Memory.read m0 (addr (sel sp) f) := by
        intro sp f hf
        rw [hs.miss, g2.miss]
        · exact fun y hy => addr_ne (by simp) (by omega) hf
        · exact fun y hy => addr_ne (by simp) (by omega) hf
      have hsum := pitchSums_vals d sa sb k (hm.pitchStart_mono (by omega) (by omega)) (mem := mem) (x := x) (pr := pr) (w := W)
        (fun f h1 h2 => by obtain ⟨c1, c2, c3, c4, c5⟩ := pitch_bounds hm hk h1 h2; rw [spec _ _ c5]; exact hx f c1 c2)
        (fun f h1 h2 => by obtain ⟨c1, c2, c3, c4, c5⟩ := pitch_bounds hm hk h1 h2; rw [spec _ _ c5]; exact hp f c1 c2)
        (fun f h1 h2 => by
          obtain ⟨c1, c2, c3, c4, c5⟩ := pitch_bounds hm hk h1 h2
          rw [hs.miss _ (fun y hy => addr_ne (by decide) (by omega) c5)]
          exact g2.hit f ⟨c3, c4⟩)
      exact ⟨_, by rw [hsum, ok_bind]; rfl, hs.step k rfl rfl (fun y => by omega) (fun y hy he => addr_index_inj.mp he)⟩)
  have outside : ∀ {m' : MemName} {k : Nat}, m' ≠ sel sb → k < 65536 →
      Memory.read (zeroPitchPadding m sb mem2) (addr m' k) = Memory.read mem2 (addr m' k) := by
    intro m' k hne hk
    rw [zeroPitchPadding, read_zeroFill, if_neg (not_inRange_of_ne hne (by omega) hk)]
  have wread : ∀ f, Mode.flatStart m 0 ≤ f → f < Mode.flatStart m m.ne →
      Memory.read (zeroPitchPadding m sb mem2) (addr .wgt f) = some (W f) := by
    intro f h1 h2
    rw [outside (by simp) (by omega), k2.miss _ (fun y hy => addr_ne (by decide) (by omega) (by omega))]
    exact g2.hit f ⟨h1, h2⟩
  refine ⟨zeroPitchPadding m sb mem2, ?_, ?_, ?_, ?_, ?_⟩
  · simp only [pitchGains, g1, ok_bind, k1]
  · intro i f hi h1 h2
    have a1 := hm.flatStart_mono (Nat.zero_le i) (by omega)
    have a2 := hm.flatStart_mono (i := i + 1) (j := m.ne) (by omega) (by omega)
    rw [wread f (by omega) (by omega), hW i f hi h1 h2]
  · intro k hk
    rw [outside (by simp) (by omega), k2.hit k hk]
    show some (gainOf d m k x pr W) = _
    unfold gainOf
    rw [pitchSumsOf_congr d m k x pr (w := W) (w' := vals (zeroPitchPadding m sb mem2) .wgt) (fun f h1 h2 => by
      obtain ⟨c1, c2, c3, c4, c5⟩ := pitch_bounds hm hk h1 h2
      simp only [vals, wread f c3 c4, Option.getD_some])]
  · intro k h1 h2
    rw [zeroPitchPadding, read_zeroFill, if_pos (inRange_addr h1 h2)]
  · intro a h1 h2 h3
    rw [zeroPitchPadding, read_zeroFill, if_neg h3, k2.miss, g2.miss]
    · rintro f hf' rfl; exact h1 (inRange_addr hf'.1 hf'.2)
    · rintro f hf' rfl; exact h2 (inRange_addr (Nat.zero_le _) hf')

theorem applyGains_vals {caps : Caps} {m : Mode} (hm : ModeFacts caps m) (d : Draws) (sb : Spectrum) {m0 : Memory} {x g : Vals}
    (hx : ∀ f, Mode.pitchStart m 0 ≤ f → f < Mode.pitchStart m m.np → Memory.read m0 (addr (sel sb) f) = some (x f))
    (hg : ∀ k, k < m.np → Mode.p m k < Mode.p m (k + 1) → Memory.read m0 (addr .gains k) = some (g k)) :
    ∃ mem, applyGains d m sb m0 = .ok mem ∧
      (∀ k f, k < m.np → Mode.pitchStart m k ≤ f → f < Mode.pitchStart m (k + 1) →
        Memory.read mem (addr (sel sb) f) = some (fmul (d [k, f]) (x f) (g k))) ∧
      (∀ k, Mode.pitchStart m m.np ≤ k → k < Mode.pitchStart m (m.np + 1) → Memory.read mem (addr (sel sb) k) = some ZERO) ∧
      ∀ a, ¬ InRange (sel sb) (Mode.pitchStart m 0) (Mode.pitchStart m (m.np + 1)) a → Memory.read mem a = Memory.read m0 a := by
  have hpe : m.np < 65536 := by have := hm.np; have := caps.pmax.isLt; omega
  let A : Nat × Nat → Nat := fun y => addr (sel sb) y.2
  let V : Nat × Nat → Word := fun y => fmul (d [y.1, y.2]) (x y.2) (g y.1)
  -- pitch bands do not overlap
  have hu : ∀ {k k' f : Nat}, k < m.np → k' < m.np → Mode.pitchStart m k ≤ f → f < Mode.pitchStart m (k + 1) →
      Mode.pitchStart m k' ≤ f → f < Mode.pitchStart m (k' + 1) → k = k' := by
    intro k k' f hk hk' h1 h2 h3 h4
    rcases Nat.lt_trichotomy k k' with h | h | h
    · have := hm.pitchStart_mono (i := k + 1) (j := k') (by omega) (by omega); omega
    · exact h
    · have := hm.pitchStart_mono (i := k' + 1) (j := k) (by omega) (by omega); omega
  obtain ⟨mem, h1, h2⟩ := forUp_total (lo := 0) (hi := m.np) (x := m0) (body := fun k mem =>
      forUp (Mode.pitchStart m k) (Mode.pitchStart m (k + 1)) (fun f mem => do
        let v ← readElem (sel sb) f mem
        let g ← readElem .gains k mem
        .ok (writeElem (sel sb) f (fmul (d [k, f]) v g) mem)) mem)
    (fun k mem => Scatter A V m0 (fun y => y.1 < k ∧ Mode.pitchStart m y.1 ≤ y.2 ∧ y.2 < Mode.pitchStart m (y.1 + 1)) mem)
    (Nat.zero_le _) (Scatter.start (fun y h => by omega))
    (fun k mem _ hk hs => by
      obtain ⟨mem', h1, h2⟩ := forUp_total (lo := Mode.pitchStart m k) (hi := Mode.pitchStart m (k + 1)) (x := mem)
        (body := fun f mem => do
          let v ← readElem (sel sb) f mem
          let g ← readElem .gains k mem
          .ok (writeElem (sel sb) f (fmul (d [k, f]) v g) mem))
        (fun f mem => Scatter A V m0 (fun y => (y.1 < k ∧ Mode.pitchStart m y.1 ≤ y.2 ∧ y.2 < Mode.pitchStart m (y.1 + 1)) ∨
          (y.1 = k ∧ Mode.pitchStart m k ≤ y.2 ∧ y.2 < f)) mem)
        (hm.pitchStart_mono (by omega) (by omega)) (hs.congr (fun y => by omega))
        (fun f mem hf1 hf2 hs => by
          obtain ⟨c1, c2, c3, c4, c5⟩ := pitch_bounds hm hk hf1 hf2
          have fresh : ∀ y : Nat × Nat, (y.1 < k ∧ Mode.pitchStart m y.1 ≤ y.2 ∧ y.2 < Mode.pitchStart m (y.1 + 1)) ∨
              (y.1 = k ∧ Mode.pitchStart m k ≤ y.2 ∧ y.2 < f) → y.2 ≠ f := by
            rintro y (⟨e1, e2, e3⟩ | ⟨e1, e2, e3⟩) rfl
            · have := hu (by omega) hk e2 e3 hf1 hf2; omega
            · omega
          have small : ∀ y : Nat × Nat, (y.1 < k ∧ Mode.pitchStart m y.1 ≤ y.2 ∧ y.2 < Mode.pitchStart m (y.1 + 1)) ∨
              (y.1 = k ∧ Mode.pitchStart m k ≤ y.2 ∧ y.2 < f) → y.2 < 65536 := by
            rintro y (⟨e1, e2, e3⟩ | ⟨e1, e2, e3⟩)
            · exact (pitch_bounds hm (by omega) e2 e3).2.2.2.2
            · omega
          have r1 : readElem (sel sb) f mem = .ok (x f) := by
            rw [readElem_ok, hs.miss _ (fun y hy he => fresh y hy (addr_index_inj.mp he)), hx f c1 c2]
          have r2 : readElem .gains k mem = .ok (g k) := by
            rw [readElem_ok, hs.miss _ (fun y hy => addr_ne (by simp) (small y hy) (by omega)), hg k hk]
            exact Nat.lt_of_mul_lt_mul_left (Nat.lt_of_le_of_lt hf1 hf2)
          refine ⟨_, by rw [r1, ok_bind, r2, ok_bind]; rfl, hs.step (k, f) rfl rfl (fun y => ?_) (fun y hy he => ?_)⟩
          · rw [Prod.ext_iff]; dsimp only; omega
          · exact absurd (addr_index_inj.mp he) (fresh y hy))
      refine ⟨mem', h1, h2.congr (fun y => ?_)⟩
      constructor
      · rintro ⟨e1, e2, e3⟩
        rcases Nat.lt_succ_iff_lt_or_eq.mp e1 with h | h
        · exact .inl ⟨h, e2, e3⟩
        · subst h; exact .inr ⟨rfl, e2, e3⟩
      · rintro (⟨e1, e2, e3⟩ | ⟨e1, e2, e3⟩)
        · exact ⟨by omega, e2, e3⟩
        · subst e1; exact ⟨by omega, e2, e3⟩)
  refine ⟨zeroPitchPadding m sb mem, ?_, ?_, ?_, ?_⟩
  · simp only [applyGains, h1, ok_bind]
  · intro k f hk e1 e2
    obtain ⟨c1, c2, c3, c4, c5⟩ := pitch_bounds hm hk e1 e2
    rw [zeroPitchPadding, read_zeroFill, if_neg]
    · exact h2.hit (k, f) ⟨hk, e1, e2⟩
    · unfold addr; omega
  · intro k e1 e2
    rw [zeroPitchPadding, read_zeroFill, if_pos (inRange_addr e1 e2)]
  · intro a ha
    have h0 := hm.pitchStart_mono (Nat.zero_le m.np) (by omega)
    have h3 := hm.pitchStart_mono (i := m.np) (j := m.np + 1) (by omega) (by omega)
    rw [zeroPitchPadding, read_zeroFill, if_neg (fun h => ha (inRange_mono h h0 (Nat.le_refl _)))]
    refine h2.miss a (fun y hy he => ha ?_)
    obtain ⟨c1, c2, c3, c4, c5⟩ := pitch_bounds hm hy.1 hy.2.1 hy.2.2
    rw [← he]; exact inRange_addr c1 (by omega)

theorem stereoMix_vals {caps : Caps} {m : Mode} (hm : ModeFacts caps m) (hc : m.c = 2) (d : Draws) (sa : Spectrum) (bk : EnergyMem)
    (dir : Dir) {m0 : Memory} {x E : Vals}
    (hx : ∀ k, Mode.flatStart m 0 ≤ k → k < Mode.flatStart m m.ne → Memory.read m0 (addr (sel sa) k) = some (x k))
    (hE : ∀ k, k < m.ne * m.c → Memory.read m0 (addr (bank bk) k) = some (E k)) :
    ∃ mem, stereoMix d m sa bk dir m0 = .ok mem ∧
      (∀ i j, i < m.ne → Mode.bandStart m i ≤ j → j < Mode.bandStart m (i + 1) →
        Memory.read mem (addr (sel sa) (2 * j)) =
          some (mixLeft d i j (stereoCoeffs d i dir (E (2 * i)) (E (2 * i + 1))) (x (2 * j)) (x (2 * j + 1))) ∧
        Memory.read mem (addr (sel sa) (2 * j + 1)) =
          some (mixRight d i j (stereoCoeffs d i dir (E (2 * i)) (E (2 * i + 1))) (x (2 * j)) (x (2 * j + 1)))) ∧
      (∀ k, Mode.flatStart m m.ne ≤ k → k < Mode.flatStart m (m.ne + 1) → Memory.read mem (addr (sel sa) k) = some ZERO) ∧
      ∀ a, ¬ InRange (sel sa) (Mode.flatStart m 0) (Mode.flatStart m (m.ne + 1)) a → Memory.read mem a = Memory.read m0 a := by
  -- a pair index: band, position, channel
  let A : Nat × Nat × Nat → Nat := bandAddr m sa
  let co := fun i => stereoCoeffs d i dir (E (2 * i)) (E (2 * i + 1))
  let V : Nat × Nat × Nat → Word := fun y =>
    if y.1 = 0 then mixLeft d y.2.1 y.2.2 (co y.2.1) (x (2 * y.2.2)) (x (2 * y.2.2 + 1))
    else mixRight d y.2.1 y.2.2 (co y.2.1) (x (2 * y.2.2)) (x (2 * y.2.2 + 1))
  let Dn : Nat → Nat × Nat × Nat → Prop := fun i y => y.1 < 2 ∧ y.2.1 < i ∧ InBand m y
  have hfl : ∀ j c, Mode.flat m j c = 2 * j + c := fun j c => by unfold Mode.flat; rw [hc]; omega
  obtain ⟨mem, h1, h2⟩ := forUp_total (lo := 0) (hi := m.ne) (x := m0) (body := fun i mem => do
      let lf ← readElem (bank bk) (2 * i) mem
      let rt ← readElem (bank bk) (2 * i + 1) mem
      let a := stereoCoeffs d i dir lf rt
      forUp (Mode.bandStart m i) (Mode.bandStart m (i + 1)) (fun j mem => do
        let xl ← readElem (sel sa) (2 * j) mem
        let xr ← readElem (sel sa) (2 * j + 1) mem
        .ok (writeElem (sel sa) (2 * j + 1) (mixRight d i j a xl xr)
              (writeElem (sel sa) (2 * j) (mixLeft d i j a xl xr) mem))) mem)
    (fun i mem => Scatter A V m0 (Dn i) mem)
    (Nat.zero_le _) (Scatter.start (fun y h => absurd h.2.1 (by omega)))
    (fun i mem _ hi hs => by
      have e0 := hm.energyIndex_lt (i := i) (c := 0) hi (by omega)
      have e1 := hm.energyIndex_lt (i := i) (c := 1) hi (by omega)
      unfold Mode.energyIndex at e0 e1
      rw [hc] at e0 e1
      have small : ∀ y, Dn i y → Mode.flat m y.2.2 y.1 < 65536 := by
        rintro y ⟨g1, g2, g3⟩
        obtain ⟨b1, b2, b3, b4⟩ := flat_lt hm (i := y.2.1) (by omega) (c := y.1) (by omega) g3.1 g3.2
        omega
      have r1 : readElem (bank bk) (2 * i) mem = .ok (E (2 * i)) := by
        rw [readElem_ok, hs.miss _ (fun y hy => addr_ne (by simp) (small y hy) (by omega)), hE _ (by rw [hc]; omega)]
      have r2 : readElem (bank bk) (2 * i + 1) mem = .ok (E (2 * i + 1)) := by
        rw [readElem_ok, hs.miss _ (fun y hy => addr_ne (by simp) (small y hy) (by omega)), hE _ (by rw [hc]; omega)]
      rw [r1, ok_bind, r2, ok_bind]
      obtain ⟨mem', h1, h2⟩ := forUp_total (lo := Mode.bandStart m i) (hi := Mode.bandStart m (i + 1)) (x := mem)
        (body := fun j mem => do
          let xl ← readElem (sel sa) (2 * j) mem
          let xr ← readElem (sel sa) (2 * j + 1) mem
          .ok (writeElem (sel sa) (2 * j + 1) (mixRight d i j (co i) xl xr)
                (writeElem (sel sa) (2 * j) (mixLeft d i j (co i) xl xr) mem)))
        (fun j mem => Scatter A V m0 (fun y => Dn i y ∨ (y.1 < 2 ∧ y.2.1 = i ∧ Mode.bandStart m i ≤ y.2.2 ∧ y.2.2 < j)) mem)
        (hm.bandStart_mono (by omega) (by omega)) (hs.congr (fun y => by omega))
        (fun j mem hj1 hj2 hs => by
          have fresh : ∀ y c, c < 2 → (Dn i y ∨ (y.1 < 2 ∧ y.2.1 = i ∧ Mode.bandStart m i ≤ y.2.2 ∧ y.2.2 < j)) →
              Mode.flat m y.2.2 y.1 ≠ Mode.flat m j c := by
            rintro y c hc2 hy he
            rcases hy with ⟨g1, g2, g3⟩ | ⟨g1, g2, g3, g4⟩
            · obtain ⟨f1, f2⟩ := ModeFacts.flat_inj (by omega) (by omega) he
              have := band_unique hm (i := y.2.1) (i' := i) (j := j) (by omega) hi (by rw [← f1]; exact g3.1) (by rw [← f1]; exact g3.2) hj1 hj2
              omega
            · obtain ⟨f1, f2⟩ := ModeFacts.flat_inj (by omega) (by omega) he
              omega
          have rd : ∀ c, c < 2 → Memory.read mem (addr (sel sa) (2 * j + c)) = some (x (2 * j + c)) := by
            intro c hc2
            obtain ⟨b1, b2, b3, b4⟩ := flat_lt hm hi (c := c) (by omega) hj1 hj2
            rw [hfl] at b1 b2
            rw [hs.miss, hx _ b1 b2]
            intro y hy he
            refine fresh y c hc2 hy ?_
            rw [hfl j c]; exact addr_index_inj.mp he
          have rd0 : Memory.read mem (addr (sel sa) (2 * j)) = some (x (2 * j)) := by
            have := rd 0 (by omega)
            rwa [Nat.add_zero] at this
          refine ⟨_, by rw [readElem_ok.mpr rd0, ok_bind, readElem_ok.mpr (rd 1 (by omega)), ok_bind], ?_⟩
          have s1 := hs.step (D' := fun y => (Dn i y ∨ (y.1 < 2 ∧ y.2.1 = i ∧ Mode.bandStart m i ≤ y.2.2 ∧ y.2.2 < j)) ∨ y = (0, i, j))
            (0, i, j) (a := addr (sel sa) (2 * j)) (v := mixLeft d i j (co i) (x (2 * j)) (x (2 * j + 1)))
            (by show addr _ (Mode.flat m j 0) = _; rw [hfl, Nat.add_zero]) (if_pos rfl) (fun y => Iff.rfl)
            (fun y hy he => absurd (addr_index_inj.mp he) (fresh y 0 (by omega) hy))
          refine s1.step (1, i, j) (by show addr _ (Mode.flat m j 1) = _; rw [hfl]) (if_neg Nat.one_ne_zero) (fun y => ?_) (fun y hy he => ?_)
          · rw [Prod.ext_iff, Prod.ext_iff, Prod.ext_iff, Prod.ext_iff]; dsimp only; omega
          · rcases hy with hy | rfl
            · exact absurd (addr_index_inj.mp he) (fresh y 1 (by omega) hy)
            · have := addr_index_inj.mp he
              dsimp only at this
              rw [hfl, hfl] at this; omega)
      refine ⟨mem', h1, h2.congr (fun y => ?_)⟩
      constructor
      · rintro ⟨g1, g2, g3⟩
        rcases Nat.lt_succ_iff_lt_or_eq.mp g2 with h | h
        · exact .inl ⟨g1, h, g3⟩
        · exact .inr ⟨g1, h, by rw [← h]; exact g3.1, by rw [← h]; exact g3.2⟩
      · rintro (⟨g1, g2, g3⟩ | ⟨g1, g2, g3, g4⟩)
        · exact ⟨g1, by omega, g3⟩
        · exact ⟨g1, by omega, by rw [g2]; exact g3, by rw [g2]; exact g4⟩)
  have h2' : Scatter (bandAddr m sa) V m0 (fun y => y.1 < m.c ∧ y.2.1 < m.ne ∧ InBand m y) mem :=
    h2.congr (fun y => by rw [hc])
  obtain ⟨f1, f2, f3⟩ := scale_finish hm h2'
  refine ⟨zeroTail m sa mem, ?_, fun i j hi e1 e2 => ⟨?_, ?_⟩, f2, f3⟩
  · unfold stereoMix
    rw [h1, ok_bind]
  · have := f1 i 0 j hi (by omega) e1 e2
    rw [hc, Nat.mul_comm j 2, Nat.add_zero] at this
    exact this.trans (congrArg some (if_pos rfl))
  · have := f1 i 1 j hi (by omega) e1 e2
    rw [hc, Nat.mul_comm j 2] at this
    exact this.trans (congrArg some (if_neg Nat.one_ne_zero))

end Sys2Proof.Machine
end

