-- ==== Sys2Proof/Laws/Quantiser.lean ====
section
/-! SUPPORT. QB and UQB as a run over arrays: each part of a band (R182, R184 to R186), a band, the band loop and the whole work, from the
elements written at the start to the values and the written elements at the end. -/

namespace Sys2Proof.Machine
open F32

/-- The memories, the coder and alpha of a run of the band loop are those of the arrays. -/
structure RunIs (sa sb : Spectrum) (r : QRun) (a : QArrays) : Prop where
  x : ∀ k, k < 65536 → vals r.mem (sel sa) k = a.x k
  p : ∀ k, k < 65536 → vals r.mem (sel sb) k = a.p k
  norm : ∀ k, k < 65536 → vals r.mem (sel .norm) k = a.norm k
  ec : r.ec = a.ec
  alpha : r.alpha = a.alpha

theorem sliceOf_congr {v w : Vals} {lo n : Nat} (h : ∀ k, lo ≤ k → k < lo + n → v k = w k) : sliceOf v lo n = sliceOf w lo n := by
  unfold sliceOf
  refine List.map_congr_left (fun k hk => ?_)
  rw [List.mem_range] at hk
  exact h _ (by omega) (by omega)

/-- A written slice is read as the slice of any array that agrees with the memory. -/
theorem readSlice_of {m : MemName} {mem : Memory} {lo n : Nat} {v : Vals} (hw : Written mem m lo (lo + n))
    (hv : ∀ k, k < 65536 → vals mem m k = v k) (hn : lo + n ≤ 65536) : readSlice m lo n mem = .ok (sliceOf v lo n) := by
  rw [readSlice_vals hw, sliceOf_congr (w := v) (fun k _ h2 => hv k (by omega))]

theorem read_writeBand {m : Mode} {sp : Spectrum} {i : Nat} {f : Nat → Word} {mem : Memory} {k : Nat} :
    Memory.read (writeBand m sp i f mem) (addr (sel sp) k) =
      if Mode.flatStart m i ≤ k ∧ k < Mode.flatStart m i + Mode.flatLen m i then some (f (k - Mode.flatStart m i))
      else Memory.read mem (addr (sel sp) k) := by
  unfold writeBand
  rw [read_writeSlice, takeValues_length]
  by_cases h : Mode.flatStart m i ≤ k ∧ k < Mode.flatStart m i + Mode.flatLen m i
  · rw [if_pos h, if_pos (by unfold addr; omega), show addr (sel sp) k - addr (sel sp) (Mode.flatStart m i) = k - Mode.flatStart m i by unfold addr; omega,
      takeValues_getElem? _ _ _ (by omega)]
  · rw [if_neg h, if_neg (by unfold addr; omega)]

theorem vals_writeBand {m : Mode} {sp : Spectrum} {i : Nat} {f : Nat → Word} {mem : Memory} (k : Nat) :
    vals (writeBand m sp i f mem) (sel sp) k = paste (vals mem (sel sp)) (Mode.flatStart m i) (Mode.flatLen m i) f k := by
  unfold vals paste
  rw [read_writeBand]
  split <;> rfl

theorem read_writeBand_ne {m : Mode} {sp : Spectrum} {i : Nat} {f : Nat → Word} {mem : Memory} {m' : MemName} {k : Nat} (h : m' ≠ sel sp)
    (hi : Mode.flatStart m i + Mode.flatLen m i ≤ 65536) (hk : k < 65536) :
    Memory.read (writeBand m sp i f mem) (addr m' k) = Memory.read mem (addr m' k) := by
  unfold writeBand
  rw [read_writeSlice, takeValues_length, ← addr_add, if_neg (not_inRange_of_ne h hi hk)]

theorem vals_writeBand_ne {m : Mode} {sp : Spectrum} {i : Nat} {f : Nat → Word} {mem : Memory} {m' : MemName} {k : Nat} (h : m' ≠ sel sp)
    (hi : Mode.flatStart m i + Mode.flatLen m i ≤ 65536) (hk : k < 65536) :
    vals (writeBand m sp i f mem) m' k = vals mem m' k := vals_of_read (read_writeBand_ne h hi hk)

theorem written_writeBand {m : Mode} {sp : Spectrum} {i : Nat} {f : Nat → Word} {mem : Memory} :
    Written (writeBand m sp i f mem) (sel sp) (Mode.flatStart m i) (Mode.flatStart m i + Mode.flatLen m i) := by
  intro k h1 h2
  rw [read_writeBand, if_pos ⟨h2, h1⟩]; rfl

/-! rotVals leaves what is outside the slice. -/

theorem upFold_keeps {α : Type} (P : α → Prop) {lo hi : Nat} {f : Nat → α → α} (hf : ∀ k y, lo ≤ k → k < hi → P y → P (f k y)) {x : α} (h : P x) :
    P (upFold lo hi f x) := by
  rcases Nat.le_total hi lo with hle | hle
  · rwa [upFold_empty hle]
  · obtain ⟨n, rfl⟩ := Nat.exists_eq_add_of_le hle
    clear hle
    induction n with
    | zero => rwa [upFold_empty (by omega)]
    | succ n ih =>
      rw [show lo + (n + 1) = lo + n + 1 by omega, upFold_snoc (by omega)]
      exact hf _ _ (by omega) (by omega) (ih (fun k y h1 h2 => hf k y h1 (by omega)))

theorem downFold_keeps {α : Type} (P : α → Prop) {f : Nat → α → α} : ∀ (n : Nat), (∀ k y, k < n → P y → P (f k y)) → ∀ {x : α}, P x →
    P (downFold n f x)
  | 0, _, _, h => h
  | n + 1, hf, x, h => by
    rw [downFold_succ]
    exact downFold_keeps P n (fun k y hk => hf k y (by omega)) (hf n x (by omega) h)

theorem rot2Vals_outside (d : Draws) {a b : Nat} (c s : Word) (v : Vals) {k : Nat} (ha : k ≠ a) (hb : k ≠ b) :
    rot2Vals d a b c s v k = v k := by
  unfold rot2Vals Vals.set
  rw [if_neg hb, if_neg ha]

theorem rotVals_outside (cfg : Config) (d : Draws) (off len : Nat) (theta : Word) (dir : Dir) (stride iter : Nat) (v : Vals) {k : Nat}
    (hk : ¬ (off ≤ k ∧ k < off + len)) : rotVals cfg d off len theta dir stride iter v k = v k := by
  unfold rotVals
  refine upFold_keeps (fun w : Vals => w k = v k) (fun t w _ _ hw => ?_) rfl
  refine downFold_keeps (fun w : Vals => w k = v k) _ (fun i w hi hw => ?_) (upFold_keeps (fun w : Vals => w k = v k) (fun i w _ hi hw => ?_) hw)
  · rw [rot2Vals_outside _ _ _ _ (by omega) (by omega)]; exact hw
  · rw [rot2Vals_outside _ _ _ _ (by omega) (by omega)]; exact hw

/-- The rotation reads only the slice. -/
theorem rotVals_congr (cfg : Config) (d : Draws) (off len : Nat) (theta : Word) (dir : Dir) (stride iter : Nat) {v w : Vals}
    (h : ∀ k, off ≤ k → k < off + len → v k = w k) :
    ∀ k, off ≤ k → k < off + len → rotVals cfg d off len theta dir stride iter v k = rotVals cfg d off len theta dir stride iter w k := by
  have two : ∀ (d : Draws) (a b : Nat) (c s : Word) (v w : Vals), (off ≤ a ∧ a < off + len) → (off ≤ b ∧ b < off + len) →
      (∀ k, off ≤ k → k < off + len → v k = w k) → ∀ k, off ≤ k → k < off + len → rot2Vals d a b c s v k = rot2Vals d a b c s w k := by
    intro d a b c s v w ha hb h k h1 h2
    unfold rot2Vals Vals.set
    rw [h a ha.1 ha.2, h b hb.1 hb.2, h k h1 h2]
  unfold rotVals
  have key : ∀ (n : Nat), ∀ k, off ≤ k → k < off + len →
      upFold 0 n (fun t v =>
        downFold (len - 2 * stride) (fun i v => rot2Vals (fun site => d (t :: 1 :: i :: site)) (off + i) (off + i + stride) (cfg.fcos theta)
            (match dir with | .plus => cfg.fsin theta | .minus => fneg (cfg.fsin theta)) v)
          (upFold 0 (len - stride) (fun i v => rot2Vals (fun site => d (t :: 0 :: i :: site)) (off + i) (off + i + stride) (cfg.fcos theta)
            (match dir with | .plus => cfg.fsin theta | .minus => fneg (cfg.fsin theta)) v) v)) v k =
      upFold 0 n (fun t v =>
        downFold (len - 2 * stride) (fun i v => rot2Vals (fun site => d (t :: 1 :: i :: site)) (off + i) (off + i + stride) (cfg.fcos theta)
            (match dir with | .plus => cfg.fsin theta | .minus => fneg (cfg.fsin theta)) v)
          (upFold 0 (len - stride) (fun i v => rot2Vals (fun site => d (t :: 0 :: i :: site)) (off + i) (off + i + stride) (cfg.fcos theta)
            (match dir with | .plus => cfg.fsin theta | .minus => fneg (cfg.fsin theta)) v) v)) w k := by
    intro n
    induction n with
    | zero => intro k h1 h2; rw [upFold_empty (by omega), upFold_empty (by omega)]; exact h k h1 h2
    | succ n ih =>
      rw [upFold_snoc (by omega), upFold_snoc (by omega)]
      have up : ∀ n, n ≤ len - stride → ∀ {v w : Vals} (d : Draws) (c s : Word), (∀ k, off ≤ k → k < off + len → v k = w k) →
          ∀ k, off ≤ k → k < off + len →
          upFold 0 n (fun i v => rot2Vals (fun site => d (i :: site)) (off + i) (off + i + stride) c s v) v k =
          upFold 0 n (fun i v => rot2Vals (fun site => d (i :: site)) (off + i) (off + i + stride) c s v) w k := by
        intro n hn v w d c s h
        induction n with
        | zero => intro k h1 h2; rw [upFold_empty (by omega), upFold_empty (by omega)]; exact h k h1 h2
        | succ n ih =>
          rw [upFold_snoc (by omega), upFold_snoc (by omega)]
          exact two _ _ _ _ _ _ _ (by omega) (by omega) (ih (by omega))
      have down : ∀ n, n ≤ len - 2 * stride → ∀ {v w : Vals} (d : Draws) (c s : Word), (∀ k, off ≤ k → k < off + len → v k = w k) →
          ∀ k, off ≤ k → k < off + len →
          downFold n (fun i v => rot2Vals (fun site => d (i :: site)) (off + i) (off + i + stride) c s v) v k =
          downFold n (fun i v => rot2Vals (fun site => d (i :: site)) (off + i) (off + i + stride) c s v) w k := by
        intro n
        induction n with
        | zero => intro hn v w d c s h k h1 h2; exact h k h1 h2
        | succ n ih =>
          intro hn v w d c s h
          rw [downFold_succ, downFold_succ]
          exact ih (by omega) d c s (two _ _ _ _ _ _ _ (by omega) (by omega) h)
      exact down _ (Nat.le_refl _) (fun site => d (n :: 1 :: site)) _ _ (up _ (Nat.le_refl _) (fun site => d (n :: 0 :: site)) _ _ ih)
  exact key iter

theorem rotBand_vals {caps : Caps} {m : Mode} (hm : ModeFacts caps m) (cfg : Config) (d : Draws) {sp : Spectrum} {i : Nat} (hi : i < m.ne)
    {mem : Memory} {v : Vals} (theta : Word) (dir : Dir) (hv : ∀ k, k < 65536 → vals mem (sel sp) k = v k)
    (hw : Written mem (sel sp) (Mode.flatStart m i) (Mode.flatStart m i + Mode.flatLen m i)) :
    ∃ mem', rotBand cfg d m sp i theta dir mem = .ok mem' ∧
      (∀ k, k < 65536 → vals mem' (sel sp) k =
        rotVals cfg d (Mode.flatStart m i) (Mode.flatLen m i) theta dir (Mode.bq m) 8 v k) ∧
      (∀ a, ¬ InRange (sel sp) (Mode.flatStart m i) (Mode.flatStart m i + Mode.flatLen m i) a → Memory.read mem' a = Memory.read mem a) ∧
      Written mem' (sel sp) (Mode.flatStart m i) (Mode.flatStart m i + Mode.flatLen m i) := by
  have hb := hm.flatStart_le (i := i + 1) (by omega)
  have hn := ModeFacts.nmax_le caps
  have hl := hm.flatStart_add_flatLen (i := i) (by omega)
  have hh : Holds sp (fun k => Mode.flatStart m i ≤ k ∧ k < Mode.flatStart m i + Mode.flatLen m i) mem mem v :=
    ⟨fun k hk => by rw [read_some_vals (hw k hk.2 hk.1), hv k (by omega)], fun _ _ => rfl⟩
  obtain ⟨mem', h1, h2⟩ := rotSlice_holds cfg d (off := Mode.flatStart m i) (len := Mode.flatLen m i) theta dir (Mode.bq m) ITER_Q
    (fun j hj => by constructor <;> constructor <;> omega) hh
  have out : ∀ a, ¬ InRange (sel sp) (Mode.flatStart m i) (Mode.flatStart m i + Mode.flatLen m i) a →
      Memory.read mem' a = Memory.read mem a :=
    fun a ha => h2.outside a (fun k hk he => ha (he ▸ inRange_addr hk.1 hk.2))
  refine ⟨mem', h1, fun k hk => ?_, out, fun k e1 e2 => by rw [h2.inside k ⟨e2, e1⟩]; rfl⟩
  by_cases hin : Mode.flatStart m i ≤ k ∧ k < Mode.flatStart m i + Mode.flatLen m i
  · unfold vals; rw [h2.inside k hin]; rfl
  · rw [rotVals_outside _ _ _ _ _ _ _ _ _ hin, ← hv k hk]
    exact vals_of_read (out _ (fun hr => hin (by obtain ⟨j, j1, j2, he⟩ := inRange_index hr; have := addr_index_inj.mp he; omega)))

/-- Which elements a band of QB or UQB needs beside the prediction and the context: the encoder reads the target, and W if it codes
pulses; the decoder reads the target only in the context copy of a band that ends with no pulses. -/
def BandReady (cfg : Config) (m : Mode) (codec : Codec) (sa : Spectrum) (i : Nat) (q0 : Int) (r : QRun) : Prop :=
  match codec with
  | .encoder sc => Written r.mem (sel sa) (Mode.flatStart m i) (Mode.flatStart m i + Mode.flatLen m i) ∧
      (0 < q0 → Written r.mem (sel sc) (Mode.flatStart m i) (Mode.flatStart m i + Mode.flatLen m i))
  | .decoder => Written r.mem (sel sa) (Mode.flatStart m i) (Mode.flatStart m i + Mode.flatLen m i) ∨ 0 < codedPulses m i q0 ∨
      (q0 ≤ 0 ∧ ∀ nctx, intraContext m i r.mem = .ok nctx →
        (cfg.intraFold { mode := m, band := i, side := .decoder, nctx := nctx, xs := none }).xs ≠ none) ∨
      (q0 = 1 ∧ ∀ nctx, intraContext m i r.mem = .ok nctx →
        (cfg.intraUnquant { mode := m, band := i, q := 0, nctx := nctx, ec := r.ec }).xs ≠ none)

/-- The array W of the encoder; the decoder has none. -/
def WIs (codec : Codec) (sa sb : Spectrum) (r : QRun) (w : Option Vals) : Prop :=
  match codec with
  | .encoder sc => sc ≠ sa ∧ sc ≠ sb ∧ sc ≠ .norm ∧ ∃ wv, w = some wv ∧ ∀ k, k < 65536 → vals r.mem (sel sc) k = wv k
  | .decoder => w = none

/-- The operands are memories of their own. -/
structure Distinct (sa sb : Spectrum) : Prop where
  ab : sa ≠ sb
  an : sa ≠ .norm
  bn : sb ≠ .norm

theorem sel_ne {a b : Spectrum} (h : a ≠ b) : sel a ≠ sel b := fun he => h (by injection he)

/-- Band i's elements. -/
abbrev BandW (m : Mode) (sp : Spectrum) (i : Nat) (mem : Memory) : Prop :=
  Written mem (sel sp) (Mode.flatStart m i) (Mode.flatStart m i + Mode.flatLen m i)

/-- What is written after the mode decision. -/
def Decided (m : Mode) (codec : Codec) (sa : Spectrum) (i : Nat) (q0 : Int) (r : QRun) : Prop :=
  match codec with
  | .encoder sc => BandW m sa i r.mem ∧ (0 < q0 → BandW m sc i r.mem)
  | .decoder => BandW m sa i r.mem ∨ 0 < codedPulses m i q0

theorem modeDecision_vals {caps : Caps} {m : Mode} (hm : ModeFacts caps m) (cfg : Config) (codec : Codec) {sa sb : Spectrum}
    (hd : Distinct sa sb) {i : Nat} (hi : i < m.ne) (q0 : Int) {r : QRun} {a : QArrays} {w : Option Vals} (hr : RunIs sa sb r a)
    (hw : WIs codec sa sb r w) (hp : BandW m sb i r.mem) (hn : Written r.mem (sel .norm) 0 (Mode.flatStart m i))
    (hx : BandReady cfg m codec sa i q0 r) :
    ∃ r', modeDecision cfg codec m sa sb i q0 r = .ok r' ∧ RunIs sa sb r' (decideVals cfg m w i q0 a) ∧ WIs codec sa sb r' w ∧
      BandW m sb i r'.mem ∧
      Decided m codec sa i q0 r' := by
  have hb := hm.flatStart_le (i := i + 1) (by omega)
  have hnm := ModeFacts.nmax_le caps
  have hl := hm.flatStart_add_flatLen (i := i) (by omega)
  have hctx : intraContext m i r.mem = .ok (sliceOf a.norm 0 (Mode.flatStart m i)) :=
    readSlice_of (by simpa using hn) hr.norm (by omega)
  -- the writes of an answer
  have ans : ∀ (ps : Nat → Word) (xs : Option (Nat → Word)) (ec : Coder),
      let r' : QRun := { mem := writeIntra m sa sb i ps xs r.mem, ec := ec, alpha := ALPHA_INTRA }
      RunIs sa sb r' { a with x := pasteOption a.x (Mode.flatStart m i) (Mode.flatLen m i) xs, p := paste a.p (Mode.flatStart m i) (Mode.flatLen m i) ps, ec := ec, alpha := ALPHA_INTRA } ∧
      WIs codec sa sb r' w ∧ BandW m sb i r'.mem ∧
      (BandW m sa i r.mem ∨ xs ≠ none → BandW m sa i r'.mem) ∧
      ∀ sc, sc ≠ sa → sc ≠ sb → BandW m sc i r.mem → BandW m sc i r'.mem := by
    intro ps xs ec r'
    have other : ∀ sp, sp ≠ sa → sp ≠ sb → ∀ k, k < 65536 → Memory.read r'.mem (addr (sel sp) k) = Memory.read r.mem (addr (sel sp) k) := by
      intro sp h1 h2 k hk
      show Memory.read (writeIntra m sa sb i ps xs r.mem) _ = _
      cases xs with
      | none => exact read_writeBand_ne (sel_ne h2) (by omega) hk
      | some f =>
        show Memory.read (writeBand m sa i f (writeBand m sb i ps r.mem)) _ = _
        rw [read_writeBand_ne (sel_ne h1) (by omega) hk, read_writeBand_ne (sel_ne h2) (by omega) hk]
    have pb : ∀ k, k < 65536 → Memory.read r'.mem (addr (sel sb) k) = Memory.read (writeBand m sb i ps r.mem) (addr (sel sb) k) := by
      intro k hk
      show Memory.read (writeIntra m sa sb i ps xs r.mem) _ = _
      cases xs with
      | none => rfl
      | some f => exact read_writeBand_ne (sel_ne (fun h => hd.ab h.symm)) (by omega) hk
    refine ⟨⟨fun k hk => ?_, fun k hk => ?_, fun k hk => ?_, rfl, rfl⟩, ?_, ?_, ?_, ?_⟩
    · show vals (writeIntra m sa sb i ps xs r.mem) _ k = _
      cases xs with
      | none =>
        show vals (writeBand m sb i ps r.mem) _ k = _
        rw [vals_writeBand_ne (sel_ne hd.ab) (by omega) hk]; exact hr.x k hk
      | some f =>
        show vals (writeBand m sa i f (writeBand m sb i ps r.mem)) _ k = _
        rw [vals_writeBand]
        show paste _ _ _ f k = paste a.x _ _ f k
        unfold paste
        split
        · rfl
        · rw [vals_writeBand_ne (sel_ne hd.ab) (by omega) hk]; exact hr.x k hk
    · rw [vals_of_read (pb k hk), vals_writeBand]
      show paste _ _ _ ps k = paste a.p _ _ ps k
      unfold paste
      split
      · rfl
      · exact hr.p k hk
    · rw [vals_of_read (other .norm (fun h => hd.an h.symm) (fun h => hd.bn h.symm) k hk)]; exact hr.norm k hk
    · cases codec with
      | encoder sc =>
        obtain ⟨h1, h2, h3, wv, h4, h5⟩ := hw
        exact ⟨h1, h2, h3, wv, h4, fun k hk => by rw [vals_of_read (other sc h1 h2 k hk)]; exact h5 k hk⟩
      | decoder => exact hw
    · intro k h1 h2
      rw [pb k (by omega)]; exact written_writeBand k h1 h2
    · intro h k h1 h2
      cases xs with
      | none =>
        rcases h with h | h
        · show (Memory.read (writeBand m sb i ps r.mem) _).isSome = true
          rw [read_writeBand_ne (sel_ne hd.ab) (by omega) (by omega)]; exact h k h1 h2
        · exact absurd rfl h
      | some f => exact written_writeBand k h1 h2
    · intro sc h1 h2 h k h3 h4
      rw [other sc h1 h2 k (by omega)]; exact h k h3 h4
  have hcond : intraMode m i q0 = true ↔ (m.pend ≤ Mode.e m i ∨ q0 ≤ 0) := by
    simp [intraMode]
  unfold modeDecision decideVals
  by_cases hc : m.pend ≤ Mode.e m i ∨ q0 ≤ 0
  · rw [if_pos (hcond.mpr hc), if_pos hc]
    have hcoded : codedPulses m i q0 = q0 - 1 := by unfold codedPulses; rw [if_pos (hcond.mpr hc)]
    by_cases hq : q0 - 1 < 0
    · rw [if_pos hq, if_pos hq]
      cases codec with
      | encoder sc =>
        obtain ⟨h1, h2, h3, wv, rfl, h5⟩ := id hw
        have hxs : bandSlice m sa i r.mem = .ok (sliceOf a.x (Mode.flatStart m i) (Mode.flatLen m i)) := readSlice_of hx.1 hr.x (by omega)
        obtain ⟨g1, g2, g3, g4, g5⟩ := ans (cfg.intraFold { mode := m, band := i, side := .encoder, nctx := sliceOf a.norm 0 (Mode.flatStart m i), xs := some (sliceOf a.x (Mode.flatStart m i) (Mode.flatLen m i)) }).ps
          (cfg.intraFold { mode := m, band := i, side := .encoder, nctx := sliceOf a.norm 0 (Mode.flatStart m i), xs := some (sliceOf a.x (Mode.flatStart m i) (Mode.flatLen m i)) }).xs r.ec
        refine ⟨_, by rw [callFold, hctx, ok_bind]; dsimp only; rw [hxs, ok_bind, ok_bind], ?_, g2, g3, g4 (.inl hx.1), fun h => g5 sc h1 h2 (hx.2 h)⟩
        have : r.ec = a.ec := hr.ec
        rw [this] at g1 ⊢
        exact g1
      | decoder =>
        obtain rfl := id hw
        obtain ⟨g1, g2, g3, g4, g5⟩ := ans (cfg.intraFold { mode := m, band := i, side := .decoder, nctx := sliceOf a.norm 0 (Mode.flatStart m i), xs := none }).ps
          (cfg.intraFold { mode := m, band := i, side := .decoder, nctx := sliceOf a.norm 0 (Mode.flatStart m i), xs := none }).xs r.ec
        refine ⟨_, by rw [callFold, hctx, ok_bind]; dsimp only; rw [ok_bind], ?_, g2, g3, ?_⟩
        · have : r.ec = a.ec := hr.ec
          rw [this] at g1 ⊢
          exact g1
        · rcases hx with h | h | ⟨_, h⟩ | ⟨h, _⟩
          · exact .inl (g4 (.inl h))
          · exact .inr h
          · exact .inl (g4 (.inr (h _ hctx)))
          · omega
    · rw [if_neg hq, if_neg hq]
      cases codec with
      | encoder sc =>
        obtain ⟨h1, h2, h3, wv, rfl, h5⟩ := id hw
        have hxs : bandSlice m sa i r.mem = .ok (sliceOf a.x (Mode.flatStart m i) (Mode.flatLen m i)) := readSlice_of hx.1 hr.x (by omega)
        have hws : bandSlice m sc i r.mem = .ok (sliceOf wv (Mode.flatStart m i) (Mode.flatLen m i)) := readSlice_of (hx.2 (by omega)) h5 (by omega)
        obtain ⟨g1, g2, g3, g4, g5⟩ := ans
          (cfg.intraPrediction { mode := m, band := i, q := q0 - 1, nctx := sliceOf a.norm 0 (Mode.flatStart m i), xs := sliceOf a.x (Mode.flatStart m i) (Mode.flatLen m i), ws := sliceOf wv (Mode.flatStart m i) (Mode.flatLen m i), ec := a.ec }).ps
          (cfg.intraPrediction { mode := m, band := i, q := q0 - 1, nctx := sliceOf a.norm 0 (Mode.flatStart m i), xs := sliceOf a.x (Mode.flatStart m i) (Mode.flatLen m i), ws := sliceOf wv (Mode.flatStart m i) (Mode.flatLen m i), ec := a.ec }).xs
          (cfg.intraPrediction { mode := m, band := i, q := q0 - 1, nctx := sliceOf a.norm 0 (Mode.flatStart m i), xs := sliceOf a.x (Mode.flatStart m i) (Mode.flatLen m i), ws := sliceOf wv (Mode.flatStart m i) (Mode.flatLen m i), ec := a.ec }).ec
        refine ⟨_, by rw [callIntra, hctx, ok_bind]; dsimp only; rw [hxs, ok_bind, hws, ok_bind, ok_bind, hr.ec], g1, g2, g3, g4 (.inl hx.1), fun h => g5 sc h1 h2 (hx.2 h)⟩
      | decoder =>
        obtain rfl := id hw
        obtain ⟨g1, g2, g3, g4, g5⟩ := ans (cfg.intraUnquant { mode := m, band := i, q := q0 - 1, nctx := sliceOf a.norm 0 (Mode.flatStart m i), ec := a.ec }).ps
          (cfg.intraUnquant { mode := m, band := i, q := q0 - 1, nctx := sliceOf a.norm 0 (Mode.flatStart m i), ec := a.ec }).xs
          (cfg.intraUnquant { mode := m, band := i, q := q0 - 1, nctx := sliceOf a.norm 0 (Mode.flatStart m i), ec := a.ec }).ec
        refine ⟨_, by rw [callIntra, hctx, ok_bind]; dsimp only; rw [ok_bind, hr.ec], g1, g2, g3, ?_⟩
        rcases hx with h | h | ⟨h, _⟩ | ⟨rfl, h⟩
        · exact .inl (g4 (.inl h))
        · exact .inr h
        · omega
        · rw [hr.ec] at h
          exact .inl (g4 (.inr (h _ hctx)))
  · rw [if_neg (fun h => hc (hcond.mp h)), if_neg hc]
    refine ⟨r, rfl, hr, hw, hp, ?_⟩
    cases codec with
    | encoder sc => exact hx
    | decoder =>
      have hcoded : codedPulses m i q0 = q0 := by unfold codedPulses; rw [if_neg (fun h => hc (hcond.mp h))]
      exact .inr (by rw [hcoded]; omega)

theorem vqVals_encoder (cfg : Config) (d : Draws) (m : Mode) (wv : Vals) (i : Nat) (q0 : Int) {q : Int} (a : QArrays) (hpos : 0 < q)
    {theta : Word} (hth : bandTheta d (Mode.flatLen m i) q0 = theta) {req : AlgQuantRequest}
    (hreq : req = { xs := sliceOf (rotVals cfg (Draws.sub d 6) (Mode.flatStart m i) (Mode.flatLen m i) theta .minus (Mode.bq m) 8 a.x) (Mode.flatStart m i) (Mode.flatLen m i), ws := sliceOf wv (Mode.flatStart m i) (Mode.flatLen m i), len := Mode.flatLen m i, q := q, ps := sliceOf (rotVals cfg (Draws.sub d 5) (Mode.flatStart m i) (Mode.flatLen m i) theta .minus (Mode.bq m) 8 a.p) (Mode.flatStart m i) (Mode.flatLen m i), alpha := a.alpha, ec := a.ec }) :
    vqVals cfg d m (some wv) i q0 q a =
      { x := rotVals cfg (Draws.sub d 7) (Mode.flatStart m i) (Mode.flatLen m i) theta .plus (Mode.bq m) 8
          (paste (rotVals cfg (Draws.sub d 6) (Mode.flatStart m i) (Mode.flatLen m i) theta .minus (Mode.bq m) 8 a.x) (Mode.flatStart m i) (Mode.flatLen m i) (cfg.algQuant req).xs)
        p := rotVals cfg (Draws.sub d 5) (Mode.flatStart m i) (Mode.flatLen m i) theta .minus (Mode.bq m) 8 a.p
        norm := a.norm, ec := (cfg.algQuant req).ec, alpha := a.alpha } := by
  subst hth hreq
  exact if_pos hpos

theorem vqVals_decoder (cfg : Config) (d : Draws) (m : Mode) (i : Nat) (q0 : Int) {q : Int} (a : QArrays) (hpos : 0 < q)
    {theta : Word} (hth : bandTheta d (Mode.flatLen m i) q0 = theta) {req : AlgUnquantRequest}
    (hreq : req = { len := Mode.flatLen m i, q := q, ps := sliceOf (rotVals cfg (Draws.sub d 5) (Mode.flatStart m i) (Mode.flatLen m i) theta .minus (Mode.bq m) 8 a.p) (Mode.flatStart m i) (Mode.flatLen m i), alpha := a.alpha, ec := a.ec }) :
    vqVals cfg d m none i q0 q a =
      { x := rotVals cfg (Draws.sub d 7) (Mode.flatStart m i) (Mode.flatLen m i) theta .plus (Mode.bq m) 8
          (paste a.x (Mode.flatStart m i) (Mode.flatLen m i) (cfg.algUnquant req).xs)
        p := rotVals cfg (Draws.sub d 5) (Mode.flatStart m i) (Mode.flatLen m i) theta .minus (Mode.bq m) 8 a.p
        norm := a.norm, ec := (cfg.algUnquant req).ec, alpha := a.alpha } := by
  subst hth hreq
  exact if_pos hpos

theorem vqVals_none (cfg : Config) (d : Draws) (m : Mode) (w : Option Vals) (i : Nat) (q0 : Int) {q : Int} (a : QArrays) (hpos : ¬ 0 < q) :
    vqVals cfg d m w i q0 q a = a := if_neg hpos

/-- A rotation of a band inside a run. -/
theorem vqStep_vals {caps : Caps} {m : Mode} (hm : ModeFacts caps m) (cfg : Config) (d : Draws) (codec : Codec) {sa sb : Spectrum}
    (hd : Distinct sa sb) {i : Nat} (hi : i < m.ne) (q0 : Int) {r : QRun} {a : QArrays} {w : Option Vals} (hr : RunIs sa sb r a)
    (hw : WIs codec sa sb r w) (hp : BandW m sb i r.mem) (hx : Decided m codec sa i q0 r) (hq0 : 0 < codedPulses m i q0 → 0 < q0) :
    ∃ r', vqStep cfg d codec m sa sb i (codedPulses m i q0) (bandTheta d (Mode.flatLen m i) q0) r = .ok r' ∧
      RunIs sa sb r' (vqVals cfg d m w i q0 (codedPulses m i q0) a) ∧ WIs codec sa sb r' w ∧ BandW m sb i r'.mem ∧ BandW m sa i r'.mem := by
  have hb := hm.flatStart_le (i := i + 1) (by omega)
  have hnm := ModeFacts.nmax_le caps
  have hl := hm.flatStart_add_flatLen (i := i) (by omega)
  generalize hq : codedPulses m i q0 = q at *
  generalize hth : bandTheta d (Mode.flatLen m i) q0 = theta
  unfold vqStep
  by_cases hpos : 0 < q
  · rw [if_pos hpos]
    unfold vqCoded
    obtain ⟨mem1, g1, v1, f1, w1⟩ := rotBand_vals hm cfg (Draws.sub d 5) hi theta .minus hr.p hp
    rw [g1, ok_bind]
    -- memories other than SB are as before
    have o1 : ∀ sp, sp ≠ sb → ∀ k, k < 65536 → Memory.read mem1 (addr (sel sp) k) = Memory.read r.mem (addr (sel sp) k) :=
      fun sp hne k hk => f1 _ (not_inRange_of_ne (sel_ne hne) (by omega) hk)
    cases codec with
    | encoder sc =>
      obtain ⟨h1, h2, h3, wv, rfl, h5⟩ := hw
      obtain ⟨hx1, hx2⟩ := hx
      dsimp only
      have vx1 : ∀ k, k < 65536 → vals mem1 (sel sa) k = a.x k := fun k hk => by rw [vals_of_read (o1 sa hd.ab k hk)]; exact hr.x k hk
      have wx1 : BandW m sa i mem1 := fun k e1 e2 => by rw [o1 sa hd.ab k (by omega)]; exact hx1 k e1 e2
      obtain ⟨mem2, g2, v2, f2, w2⟩ := rotBand_vals hm cfg (Draws.sub d 6) hi theta .minus vx1 wx1
      rw [g2, ok_bind]
      have o2 : ∀ sp, sp ≠ sa → ∀ k, k < 65536 → Memory.read mem2 (addr (sel sp) k) = Memory.read mem1 (addr (sel sp) k) :=
        fun sp hne k hk => f2 _ (not_inRange_of_ne (sel_ne hne) (by omega) hk)
      have vp2 : ∀ k, k < 65536 → vals mem2 (sel sb) k = _ := fun k hk => (vals_of_read (o2 sb (fun h => hd.ab h.symm) k hk)).trans (v1 k hk)
      have wp2 : BandW m sb i mem2 := fun k e1 e2 => by rw [o2 sb (fun h => hd.ab h.symm) k (by omega)]; exact w1 k e1 e2
      have vw2 : ∀ k, k < 65536 → vals mem2 (sel sc) k = wv k := fun k hk => by
        rw [vals_of_read ((o2 sc h1 k hk).trans (o1 sc h2 k hk))]; exact h5 k hk
      have ww2 : BandW m sc i mem2 := fun k e1 e2 => by
        rw [(o2 sc h1 k (by omega)).trans (o1 sc h2 k (by omega))]; exact hx2 (hq0 hpos) k e1 e2
      have b1 : bandSlice m sa i mem2 = _ := readSlice_of w2 v2 (by omega)
      have b2 : bandSlice m sc i mem2 = _ := readSlice_of ww2 vw2 (by omega)
      have b3 : bandSlice m sb i mem2 = _ := readSlice_of wp2 vp2 (by omega)
      rw [b1, ok_bind, b2, ok_bind, b3, ok_bind]
      generalize hreq : AlgQuantRequest.mk _ _ _ _ _ _ _ = req
      have hreq' : req = { xs := sliceOf (rotVals cfg (Draws.sub d 6) (Mode.flatStart m i) (Mode.flatLen m i) theta .minus (Mode.bq m) 8 a.x) (Mode.flatStart m i) (Mode.flatLen m i), ws := sliceOf wv (Mode.flatStart m i) (Mode.flatLen m i), len := Mode.flatLen m i, q := q, ps := sliceOf (rotVals cfg (Draws.sub d 5) (Mode.flatStart m i) (Mode.flatLen m i) theta .minus (Mode.bq m) 8 a.p) (Mode.flatStart m i) (Mode.flatLen m i), alpha := a.alpha, ec := a.ec } := by
        rw [← hreq, hr.ec, hr.alpha]
      have v3 : ∀ k, k < 65536 → vals (writeBand m sa i (cfg.algQuant req).xs mem2) (sel sa) k =
          paste (rotVals cfg (Draws.sub d 6) (Mode.flatStart m i) (Mode.flatLen m i) theta .minus (Mode.bq m) 8 a.x) (Mode.flatStart m i) (Mode.flatLen m i) (cfg.algQuant req).xs k := by
        intro k hk
        rw [vals_writeBand]
        unfold paste
        split
        · rfl
        · exact v2 k hk
      obtain ⟨mem4, g4, v4, f4, w4⟩ := rotBand_vals hm cfg (Draws.sub d 7) hi theta .plus v3 written_writeBand
      have o4 : ∀ sp, sp ≠ sa → ∀ k, k < 65536 → Memory.read mem4 (addr (sel sp) k) = Memory.read mem2 (addr (sel sp) k) :=
        fun sp hne k hk => (f4 _ (not_inRange_of_ne (sel_ne hne) (by omega) hk)).trans (read_writeBand_ne (sel_ne hne) (by omega) hk)
      rw [vqVals_encoder cfg d m wv i q0 a hpos hth hreq']
      refine ⟨{ mem := mem4, ec := (cfg.algQuant req).ec, alpha := r.alpha }, by rw [g4, ok_bind], ⟨v4, fun k hk => ?_, fun k hk => ?_, rfl, hr.alpha⟩, ⟨h1, h2, h3, wv, rfl, fun k hk => ?_⟩, fun k e1 e2 => ?_, w4⟩
      · exact (vals_of_read (o4 sb (fun h => hd.ab h.symm) k hk)).trans (vp2 k hk)
      · exact (vals_of_read (((o4 .norm (fun h => hd.an h.symm) k hk).trans (o2 .norm (fun h => hd.an h.symm) k hk)).trans (o1 .norm (fun h => hd.bn h.symm) k hk))).trans (hr.norm k hk)
      · exact (vals_of_read (o4 sc h1 k hk)).trans (vw2 k hk)
      · show (Memory.read mem4 _).isSome = true
        rw [o4 sb (fun h => hd.ab h.symm) k (by omega)]; exact wp2 k e1 e2
    | decoder =>
      obtain rfl := hw
      dsimp only
      have vx1 : ∀ k, k < 65536 → vals mem1 (sel sa) k = a.x k := fun k hk => by rw [vals_of_read (o1 sa hd.ab k hk)]; exact hr.x k hk
      have b3 : bandSlice m sb i mem1 = _ := readSlice_of w1 v1 (by omega)
      rw [b3, ok_bind]
      generalize hreq : AlgUnquantRequest.mk _ _ _ _ _ = req
      have hreq' : req = { len := Mode.flatLen m i, q := q, ps := sliceOf (rotVals cfg (Draws.sub d 5) (Mode.flatStart m i) (Mode.flatLen m i) theta .minus (Mode.bq m) 8 a.p) (Mode.flatStart m i) (Mode.flatLen m i), alpha := a.alpha, ec := a.ec } := by
        rw [← hreq, hr.ec, hr.alpha]
      have v3 : ∀ k, k < 65536 → vals (writeBand m sa i (cfg.algUnquant req).xs mem1) (sel sa) k =
          paste a.x (Mode.flatStart m i) (Mode.flatLen m i) (cfg.algUnquant req).xs k := by
        intro k hk
        rw [vals_writeBand]
        unfold paste
        split
        · rfl
        · exact vx1 k hk
      obtain ⟨mem4, g4, v4, f4, w4⟩ := rotBand_vals hm cfg (Draws.sub d 7) hi theta .plus v3 written_writeBand
      have o4 : ∀ sp, sp ≠ sa → ∀ k, k < 65536 → Memory.read mem4 (addr (sel sp) k) = Memory.read mem1 (addr (sel sp) k) :=
        fun sp hne k hk => (f4 _ (not_inRange_of_ne (sel_ne hne) (by omega) hk)).trans (read_writeBand_ne (sel_ne hne) (by omega) hk)
      rw [vqVals_decoder cfg d m i q0 a hpos hth hreq']
      refine ⟨{ mem := mem4, ec := (cfg.algUnquant req).ec, alpha := r.alpha }, by rw [g4, ok_bind], ⟨v4, fun k hk => ?_, fun k hk => ?_, rfl, hr.alpha⟩, rfl, fun k e1 e2 => ?_, w4⟩
      · exact (vals_of_read (o4 sb (fun h => hd.ab h.symm) k hk)).trans (v1 k hk)
      · exact (vals_of_read ((o4 .norm (fun h => hd.an h.symm) k hk).trans (o1 .norm (fun h => hd.bn h.symm) k hk))).trans (hr.norm k hk)
      · show (Memory.read mem4 _).isSome = true
        rw [o4 sb (fun h => hd.ab h.symm) k (by omega)]; exact w1 k e1 e2
  · rw [if_neg hpos, vqVals_none _ _ _ _ _ _ _ hpos]
    refine ⟨r, rfl, hr, hw, hp, ?_⟩
    cases codec with
    | encoder sc => exact hx.1
    | decoder => 
      rcases hx with h | h
      · exact h
      · exact absurd (hq ▸ h) hpos

theorem contextCopy_vals {caps : Caps} {m : Mode} (hm : ModeFacts caps m) (d : Draws) {sa : Spectrum} (hn : sa ≠ .norm) {i : Nat} (hi : i < m.ne)
    (n : Word) {mem : Memory} {x : Vals} (hx : ∀ k, k < 65536 → vals mem (sel sa) k = x k) (hw : BandW m sa i mem) :
    ∃ mem', contextCopy d m sa i n mem = .ok mem' ∧
      (∀ k, Mode.flatStart m i ≤ k → k < Mode.flatStart m (i + 1) → Memory.read mem' (addr (sel .norm) k) = some (fmul (d [8, k]) (x k) n)) ∧
      ∀ a, ¬ InRange (sel .norm) (Mode.flatStart m i) (Mode.flatStart m (i + 1)) a → Memory.read mem' a = Memory.read mem a := by
  have hb := hm.flatStart_le (i := i + 1) (by omega)
  have hnm := ModeFacts.nmax_le caps
  have hl := hm.flatStart_add_flatLen (i := i) (by omega)
  unfold contextCopy
  obtain ⟨mem', h1, h2⟩ := forUp_total (lo := Mode.flatStart m i) (hi := Mode.flatStart m (i + 1)) (x := mem) (body := fun f mem => do
      let v ← readElem (sel sa) f mem
      .ok (writeElem (sel .norm) f (fmul (d [8, f]) v n) mem))
    (fun f mem' => Scatter (addr (sel .norm)) (fun k => fmul (d [8, k]) (x k) n) mem (fun k => Mode.flatStart m i ≤ k ∧ k < f) mem')
    (by omega) (Scatter.start (fun k h => by omega))
    (fun f mem' e1 e2 hs => by
      have hr : readElem (sel sa) f mem' = .ok (x f) := by
        rw [readElem_ok, hs.miss _ (fun k hk => addr_ne (sel_ne (fun h => hn h.symm)) (by omega) (by omega)), read_some_vals (hw f (by omega) e1),
          hx f (by omega)]
      exact ⟨_, by rw [hr, ok_bind]; rfl, hs.step f rfl rfl (fun k => by omega) (fun k hk he => addr_index_inj.mp he)⟩)
  refine ⟨mem', h1, fun k e1 e2 => h2.hit k ⟨e1, e2⟩, fun a ha => h2.miss a (fun k hk he => ha ?_)⟩
  rw [← he]; exact inRange_addr hk.1 hk.2

/-- One band of QB or UQB, on arrays. -/
theorem quantBand_vals {caps : Caps} {m : Mode} (hm : ModeFacts caps m) (cfg : Config) (d : Draws) (codec : Codec) {sa sb : Spectrum}
    (hd : Distinct sa sb) {i : Nat} (hi : i < m.ne) {pl : Word} {r : QRun} {a : QArrays} {w : Option Vals} (hr : RunIs sa sb r a)
    (hw : WIs codec sa sb r w) (hpl : Memory.read r.mem (addr .pulses i) = some pl) (hp : BandW m sb i r.mem)
    (hn : Written r.mem (sel .norm) 0 (Mode.flatStart m i)) (hx : BandReady cfg m codec sa i (s32 pl) r) :
    ∃ r', quantBand cfg d codec m sa sb i r = .ok r' ∧ RunIs sa sb r' (bandVals cfg d m w i (s32 pl) a) ∧ WIs codec sa sb r' w ∧
      BandW m sb i r'.mem ∧ BandW m sa i r'.mem ∧ Written r'.mem (sel .norm) 0 (Mode.flatStart m (i + 1)) := by
  have hb := hm.flatStart_le (i := i + 1) (by omega)
  have hnm := ModeFacts.nmax_le caps
  have hl := hm.flatStart_add_flatLen (i := i) (by omega)
  unfold quantBand
  rw [readElem_ok.mpr hpl, ok_bind]
  obtain ⟨r1, g1, a1, w1, p1, x1⟩ := modeDecision_vals hm cfg codec hd hi (s32 pl) hr hw hp hn hx
  dsimp only
  rw [g1, ok_bind]
  have hq0 : 0 < codedPulses m i (s32 pl) → 0 < s32 pl := by
    intro h
    unfold codedPulses at h
    split at h <;> omega
  obtain ⟨r2, g2, a2, w2, p2, x2⟩ := vqStep_vals hm cfg d codec hd hi (s32 pl) a1 w1 p1 x1 hq0
  rw [g2, ok_bind]
  obtain ⟨mem3, g3, v3, f3⟩ := contextCopy_vals hm d hd.an hi (contextScale d (Mode.flatLen m i)) a2.x x2
  rw [g3, ok_bind]
  have o3 : ∀ {m' : MemName} {k : Nat}, m' ≠ sel .norm → k < 65536 → Memory.read mem3 (addr m' k) = Memory.read r2.mem (addr m' k) :=
    fun hne hk => f3 _ (not_inRange_of_ne hne (by omega) hk)
  have hq : codedPulses m i (s32 pl) = if m.pend ≤ Mode.e m i ∨ s32 pl ≤ 0 then s32 pl - 1 else s32 pl := by
    unfold codedPulses
    by_cases hc : m.pend ≤ Mode.e m i ∨ s32 pl ≤ 0
    · rw [if_pos hc, if_pos (by simpa [intraMode] using hc)]
    · rw [if_neg hc, if_neg (by simpa [intraMode] using hc)]
  rw [hq] at a2 v3
  refine ⟨_, rfl, ⟨fun k hk => ?_, fun k hk => ?_, fun k hk => ?_, a2.ec, a2.alpha⟩, ?_, fun k e1 e2 => ?_, fun k e1 e2 => ?_, fun k e1 e2 => ?_⟩
  · exact (vals_of_read (o3 (sel_ne hd.an) hk)).trans (a2.x k hk)
  · exact (vals_of_read (o3 (sel_ne hd.bn) hk)).trans (a2.p k hk)
  · show vals mem3 _ k = if _ then _ else _
    by_cases hin : Mode.flatStart m i ≤ k ∧ k < Mode.flatStart m i + Mode.flatLen m i
    · refine Eq.trans ?_ (if_pos hin).symm
      unfold vals
      rw [v3 k hin.1 (by omega)]; rfl
    · refine Eq.trans ?_ (if_neg hin).symm
      refine (vals_of_read (f3 _ (fun hr => hin ?_))).trans (a2.norm k hk)
      obtain ⟨j, j1, j2, he⟩ := inRange_index hr
      have := addr_index_inj.mp he
      omega
  · cases codec with
    | encoder sc =>
      obtain ⟨h1, h2, h3, wv, h4, h5⟩ := w2
      exact ⟨h1, h2, h3, wv, h4, fun k hk => (vals_of_read (o3 (sel_ne h3) hk)).trans (h5 k hk)⟩
    | decoder => exact w2
  · rw [o3 (sel_ne hd.bn) (by omega)]; exact p2 k e1 e2
  · rw [o3 (sel_ne hd.an) (by omega)]; exact x2 k e1 e2
  · by_cases hk : Mode.flatStart m i ≤ k
    · rw [v3 k hk e1]; rfl
    · rw [f3 _ (fun hr => by obtain ⟨j, j1, j2, he⟩ := inRange_index hr; have := addr_index_inj.mp he; omega)]
      have k1 := ((modeDecision_does hm cfg codec sa sb hi (s32 pl) r).ok g1).grows _ (hn k (by omega) e2)
      exact ((vqStep_does hm cfg d codec sa sb hi _ _ r1).ok g2).grows _ k1

theorem read_prologue_pulses (cfg : Config) (m : Mode) (s : State) {i : Nat} (hi : i < m.ne) :
    Memory.read (quantPrologue cfg m s).mem (addr .pulses i) = some (pulsesFor cfg m s i) := by
  unfold quantPrologue
  rw [read_writeSlice, takeValues_length, if_pos (by unfold addr; omega)]
  have : addr .pulses i - addr .pulses 0 = i := by unfold addr; omega
  rw [this, takeValues_getElem? _ _ _ hi]
  rfl

theorem read_prologue (cfg : Config) {m : Mode} (hne : m.ne < 65536) (s : State) {m' : MemName} (h : m' ≠ .pulses) {k : Nat} (hk : k < 65536) :
    Memory.read (quantPrologue cfg m s).mem (addr m' k) = Memory.read s.mem (addr m' k) := by
  unfold quantPrologue
  rw [read_writeSlice, takeValues_length, ← addr_add, if_neg (not_inRange_of_ne h (by omega) hk)]

theorem quantLoop_vals {caps : Caps} {m : Mode} (hm : ModeFacts caps m) (cfg : Config) (codec : Codec) {sa sb : Spectrum}
    (hd : Distinct sa sb) (s : State) {w : Option Vals} (hw : WIs codec sa sb (quantPrologue cfg m s) w)
    (hp : Written s.mem (sel sb) (Mode.flatStart m 0) (Mode.flatStart m m.ne)) (hn : Written s.mem (sel .norm) 0 (Mode.flatStart m 0))
    (hx : ∀ i r, i < m.ne → (∀ a, (Memory.read (quantPrologue cfg m s).mem a).isSome = true → (Memory.read r.mem a).isSome = true) →
      BandReady cfg m codec sa i (s32 (pulsesFor cfg m s i)) r) :
    ∃ r, quantLoop cfg (drawsOf cfg s) codec m sa sb (quantPrologue cfg m s) = .ok r ∧ RunIs sa sb r (quantVals cfg m w sa sb s m.ne) ∧
      WIs codec sa sb r w ∧ Keeps (QuantSet m sa sb) (quantPrologue cfg m s).mem r.mem ∧
      Written r.mem (sel sa) (Mode.flatStart m 0) (Mode.flatStart m m.ne) ∧
      Written r.mem (sel .norm) 0 (Mode.flatStart m m.ne) := by
  have hne : m.ne < 65536 := by have := hm.ne; have := caps.emax.isLt; omega
  have hnm := ModeFacts.nmax_le caps
  have hfl := hm.flatStart_le (i := m.ne) (by omega)
  have h0 := hm.flatStart_mono (Nat.zero_le m.ne) (by omega)
  unfold quantLoop quantVals
  obtain ⟨r, g1, g2⟩ := forUp_sim (lo := 0) (hi := m.ne)
    (body := fun i r => quantBand cfg (Draws.sub (drawsOf cfg s) i) codec m sa sb i r)
    (f := fun i a => bandVals cfg (fun site => cfg.freeNaN s.draws (i :: site)) m w i (s32 (pulsesFor cfg m s i)) a)
    (fun i r a => RunIs sa sb r a ∧ WIs codec sa sb r w ∧ Keeps (QuantSet m sa sb) (quantPrologue cfg m s).mem r.mem ∧
      Written r.mem (sel sa) (Mode.flatStart m 0) (Mode.flatStart m i) ∧ Written r.mem (sel .norm) 0 (Mode.flatStart m i))
    (Nat.zero_le _)
    (x := quantPrologue cfg m s)
    (y := { x := vals s.mem (sel sa), p := vals s.mem (sel sb), norm := vals s.mem (sel .norm), ec := s.ec, alpha := ALPHA_INTER })
    ⟨⟨fun k hk => vals_of_read (read_prologue cfg hne s (by simp) hk), fun k hk => vals_of_read (read_prologue cfg hne s (by simp) hk),
      fun k hk => vals_of_read (read_prologue cfg hne s (by simp) hk), rfl, rfl⟩, hw, Keeps.refl _ _, fun k h1 h2 => by omega,
      fun k h1 h2 => by rw [read_prologue cfg hne s (by simp) (by omega)]; exact hn k h1 h2⟩
    (fun i r a _ hi ⟨hr, hw', hk, hsa, hnorm⟩ => by
      have a1 := hm.flatStart_mono (Nat.zero_le i) (by omega)
      have a2 := hm.flatStart_mono (i := i + 1) (j := m.ne) (by omega) (by omega)
      have hl := hm.flatStart_add_flatLen (i := i) (by omega)
      have hpl : Memory.read r.mem (addr .pulses i) = some (pulsesFor cfg m s i) := by
        rw [hk.frame, read_prologue_pulses cfg m s hi]
        rintro (h | h | h)
        · exact not_inRange_of_ne (m := .pulses) (by simp) (by omega) (by omega) h
        · exact not_inRange_of_ne (m := .pulses) (by simp) (by omega) (by omega) h
        · exact not_inRange_of_ne (m := .pulses) (by simp) (by omega) (by omega) h
      have hpw : BandW m sb i r.mem := fun k e1 e2 => hk.grows _ (by
        rw [read_prologue cfg hne s (by simp) (by omega)]; exact hp k (by omega) (by omega))
      obtain ⟨r', b1, b2, b3, b4, b5, b6⟩ := quantBand_vals hm cfg (Draws.sub (drawsOf cfg s) i) codec hd hi hr hw' hpl hpw hnorm
        (hx i r hi hk.grows)
      have hk' := (quantBand_does hm cfg (Draws.sub (drawsOf cfg s) i) codec sa sb hi r).ok b1
      refine ⟨r', b1, b2, b3, hk.trans hk', fun k e1 e2 => ?_, b6⟩
      by_cases h : k < Mode.flatStart m i
      · exact hk'.grows _ (hsa k h e2)
      · exact b5 k (by omega) (by omega))
  exact ⟨r, g1, g2⟩

/-- All of QB's or UQB's work, on arrays. -/
theorem quantBands_vals {caps : Caps} {m : Mode} (hm : ModeFacts caps m) (cfg : Config) (codec : Codec) {sa sb : Spectrum}
    (hd : Distinct sa sb) (s : State) {w : Option Vals} (hw : WIs codec sa sb (quantPrologue cfg m s) w)
    (hp : Written s.mem (sel sb) (Mode.flatStart m 0) (Mode.flatStart m m.ne)) (hn : Written s.mem (sel .norm) 0 (Mode.flatStart m 0))
    (hx : ∀ i r, i < m.ne → (∀ a, (Memory.read (quantPrologue cfg m s).mem a).isSome = true → (Memory.read r.mem a).isSome = true) →
      BandReady cfg m codec sa i (s32 (pulsesFor cfg m s i)) r) :
    ∃ mem, quantBands cfg codec m sa sb s =
        .ok { s with mem := mem, ec := (quantVals cfg m w sa sb s m.ne).ec, bits := BitVec.ofInt 32 (budget cfg s) } ∧
      (∀ i, i < m.ne → Memory.read mem (addr .pulses i) = some (pulsesFor cfg m s i)) ∧
      (∀ k, Mode.flatStart m 0 ≤ k → k < Mode.flatStart m m.ne →
        Memory.read mem (addr (sel sa) k) = some ((quantVals cfg m w sa sb s m.ne).x k) ∧
        Memory.read mem (addr (sel sb) k) = some ((quantVals cfg m w sa sb s m.ne).p k) ∧
        Memory.read mem (addr (sel .norm) k) = some ((quantVals cfg m w sa sb s m.ne).norm k)) ∧
      (∀ k, Mode.flatStart m m.ne ≤ k → k < Mode.flatStart m (m.ne + 1) → Memory.read mem (addr (sel sa) k) = some ZERO) ∧
      ∀ ad, ¬ QuantWrites m sa sb ad → Memory.read mem ad = Memory.read s.mem ad := by
  have hne : m.ne < 65536 := by have := hm.ne; have := caps.emax.isLt; omega
  have hnm := ModeFacts.nmax_le caps
  have hfl := hm.flatStart_le (i := m.ne) (by omega)
  have hfl1 := hm.flatStart_le (i := m.ne + 1) (by omega)
  obtain ⟨r, g1, g2, g3, g4, g5, g6⟩ := quantLoop_vals hm cfg codec hd s hw hp hn hx
  have hdoes := (quantBands_does hm cfg codec sa sb s)
  have hq : quantBands cfg codec m sa sb s =
      .ok { s with mem := zeroTail m sa r.mem, ec := (quantVals cfg m w sa sb s m.ne).ec, bits := BitVec.ofInt 32 (budget cfg s) } := by
    unfold quantBands
    rw [g1, ok_bind, g2.ec]
  have tail : ∀ {m' : MemName} {k : Nat}, (m' ≠ sel sa ∨ k < Mode.flatStart m m.ne) → k < 65536 →
      Memory.read (zeroTail m sa r.mem) (addr m' k) = Memory.read r.mem (addr m' k) := by
    intro m' k h hk
    rw [zeroTail, read_zeroFill, if_neg]
    intro hr
    rcases h with h | h
    · exact not_inRange_of_ne h (by omega) hk hr
    · by_cases hm' : m' = sel sa
      · subst hm'
        obtain ⟨j, j1, j2, he⟩ := inRange_index hr
        have := addr_index_inj.mp he
        omega
      · exact not_inRange_of_ne hm' (by omega) hk hr
  have npul : ∀ k, k < 65536 → ¬ QuantSet m sa sb (addr .pulses k) := by
    rintro k hk (h | h | h)
    · exact not_inRange_of_ne (m := .pulses) (by simp) (by omega) (by omega) h
    · exact not_inRange_of_ne (m := .pulses) (by simp) (by omega) (by omega) h
    · exact not_inRange_of_ne (m := .pulses) (by simp) (by omega) (by omega) h
  refine ⟨_, hq, fun i hi => ?_, fun k h1 h2 => ⟨?_, ?_, ?_⟩, fun k h1 h2 => ?_, fun ad had => (hdoes.ok hq).frame ad had⟩
  · rw [tail (.inl (by simp)) (by omega), g4.frame _ (npul i (by omega)), read_prologue_pulses cfg m s hi]
  · rw [tail (.inr h2) (by omega), read_some_vals (g5 k h2 h1), g2.x k (by omega)]
  · have hb : (Memory.read r.mem (addr (sel sb) k)).isSome = true := g4.grows _ (by
      rw [read_prologue cfg hne s (by simp) (by omega)]; exact hp k h2 h1)
    rw [tail (.inl (sel_ne (fun h => hd.ab h.symm))) (by omega), read_some_vals hb, g2.p k (by omega)]
  · rw [tail (.inl (sel_ne (fun h => hd.an h.symm))) (by omega), read_some_vals (g6 k h2 (Nat.zero_le _)), g2.norm k (by omega)]
  · rw [zeroTail, read_zeroFill, if_pos (inRange_addr h1 h2)]
end Sys2Proof.Machine
end

