-- ==== Sys2Proof/Laws/ModeRun.lean ====
section
/-! SUPPORT. The checks of step 3 of 30_encoding.md R91 against the conditions that Safety.lean states for them: under `ModeOk` a
command runs with that mode. -/

namespace Sys2Proof.Machine
open F32

/-- The table a mode names, as the list of its entries. -/
def tableList (s : State) (m : MemName) (n : Nat) : List Nat := (List.range n).map (tableVal s m)

/-- An entry of that list is the table's element. -/
theorem entry_tableList (s : State) (m : MemName) {n k : Nat} (h : k < n) : entry (tableList s m n) k = tableVal s m k := entry_range _ h

/-- Each check of 10_state.md R46, as the code asks it, is the rule's condition. -/
theorem check4_iff (s : State) : ebandsRise (u32 s.modeNE) (tableList s .ebands (u32 s.modeNE + 2)) = true ↔ ModeCheck s 4 := by
  simp only [ebandsRise, List.all_eq_true, List.mem_range, decide_eq_true_eq, ModeCheck]
  constructor
  · intro h k hk
    have := h k (by omega)
    rwa [entry_tableList _ _ (by omega), entry_tableList _ _ (by omega)] at this
  · intro h k hk
    rw [entry_tableList _ _ (by omega), entry_tableList _ _ (by omega)]; exact h k (by omega)

theorem check5_iff (s : State) : pbandsRise (u32 s.modeNP) (tableList s .pbands (u32 s.modeNP + 2)) = true ↔ ModeCheck s 5 := by
  simp only [pbandsRise, List.all_eq_true, List.mem_range, decide_eq_true_eq, ModeCheck]
  constructor
  · intro h k hk
    have := h k (by omega)
    rwa [entry_tableList _ _ (by omega), entry_tableList _ _ (by omega)] at this
  · intro h k hk
    rw [entry_tableList _ _ (by omega), entry_tableList _ _ (by omega)]; exact h k (by omega)

theorem check8_iff (s : State) : pendOnBoundary (u32 s.modeNE) (u32 s.modePEND) (tableList s .ebands (u32 s.modeNE + 2)) = true ↔ ModeCheck s 8 := by
  simp only [pendOnBoundary, List.any_eq_true, List.mem_range, beq_iff_eq, ModeCheck]
  constructor
  · rintro ⟨k, hk, h⟩
    exact ⟨k, by omega, by rwa [entry_tableList _ _ hk] at h⟩
  · rintro ⟨k, hk, h⟩
    exact ⟨k, by omega, by rwa [entry_tableList _ _ (by omega)]⟩

theorem check6_iff (s : State) : (decide (entry (tableList s .ebands (u32 s.modeNE + 2)) 0 ≤ entry (tableList s .pbands (u32 s.modeNP + 2)) 0) &&
    decide (entry (tableList s .pbands (u32 s.modeNP + 2)) (u32 s.modeNP) ≤ entry (tableList s .ebands (u32 s.modeNE + 2)) (u32 s.modeNE))) = true ↔ ModeCheck s 6 := by
  simp only [Bool.and_eq_true, decide_eq_true_eq, ModeCheck]
  rw [entry_tableList _ _ (by omega), entry_tableList _ _ (by omega), entry_tableList _ _ (by omega), entry_tableList _ _ (by omega)]

theorem check7_iff (s : State) : decide (entry (tableList s .pbands (u32 s.modeNP + 2)) (u32 s.modeNP + 1) ≤ entry (tableList s .ebands (u32 s.modeNE + 2)) (u32 s.modeNE + 1)) = true ↔ ModeCheck s 7 := by
  simp only [decide_eq_true_eq, ModeCheck]
  rw [entry_tableList _ _ (by omega), entry_tableList _ _ (by omega)]

/-- The length check of step 3 likewise. -/
theorem lengthCheck_iff (s : State) : decide (u32 s.modeB * u32 s.modeC * entry (tableList s .ebands (u32 s.modeNE + 2)) (u32 s.modeNE + 1) ≤ Caps.nmax s.caps) = true ↔ spectrumLength s ≤ Caps.nmax s.caps := by
  simp only [decide_eq_true_eq, spectrumLength]
  rw [entry_tableList _ _ (by omega)]

theorem check1_iff (s : State) : decide (1 ≤ u32 s.modeB) = true ↔ ModeCheck s 1 := by simp only [decide_eq_true_eq, ModeCheck]
theorem check2_iff (s : State) : (decide (u32 s.modeC = 1) || decide (u32 s.modeC = 2)) = true ↔ ModeCheck s 2 := by
  simp only [Bool.or_eq_true, decide_eq_true_eq, ModeCheck]
theorem check3_iff (s : State) : (decide (u32 s.modeNE ≤ s.caps.emax.val) && decide (u32 s.modeNP ≤ s.caps.pmax.val)) = true ↔ ModeCheck s 3 := by
  simp only [Bool.and_eq_true, decide_eq_true_eq, ModeCheck]

/-- A written table reads as its list. -/
theorem readTable_ebands {s : State} (h : Written s.mem .ebands 0 (u32 s.modeNE + 2)) :
    readTable .ebands (u32 s.modeNE + 2) s.mem = .ok (tableList s .ebands (u32 s.modeNE + 2)) := readTable_written h
theorem readTable_pbands {s : State} (h : Written s.mem .pbands 0 (u32 s.modeNP + 2)) :
    readTable .pbands (u32 s.modeNP + 2) s.mem = .ok (tableList s .pbands (u32 s.modeNP + 2)) := readTable_written h

theorem eq_false_of_iff {b : Bool} {P : Prop} (h : b = true ↔ P) (hP : ¬ P) : b = false := by
  cases b
  · rfl
  · exact absurd (h.mp rfl) hP

/-- A mode that meets every check is the mode a command runs with. -/
theorem checkMode_of_modeOk {s : State} {m : Mode} (h : ModeOk s m) : checkMode s = .ok m := by
  obtain ⟨⟨rfl', hc, hne, hnp, hpe, heb, hpb⟩, ⟨ht, hv⟩, hl⟩ := h
  have v := fun j h1 h2 => hv j h1 h2
  simp only [checkMode]
  rw [require_true ((check1_iff s).mpr (hv 1 (by omega) (by omega))), ok_bind, require_true ((check2_iff s).mpr (hv 2 (by omega) (by omega))), ok_bind,
    require_true ((check3_iff s).mpr (hv 3 (by omega) (by omega))), ok_bind, readTable_ebands (ht.1 (by omega)), ok_bind,
    require_true ((check4_iff s).mpr (hv 4 (by omega) (by omega))), ok_bind, readTable_pbands (ht.2 (by omega)), ok_bind,
    require_true ((check5_iff s).mpr (hv 5 (by omega) (by omega))), ok_bind,
    require_true ((check6_iff s).mpr (hv 6 (by omega) (by omega))), ok_bind,
    require_true ((check7_iff s).mpr (hv 7 (by omega) (by omega))), ok_bind,
    require_true ((check8_iff s).mpr (hv 8 (by omega) (by omega))), ok_bind,
    require_true ((lengthCheck_iff s).mpr hl), ok_bind]
  cases m
  dsimp only at *
  subst rfl' hc hne hnp hpe heb hpb
  rfl

/-- A command that reads the mode and finds it bad raises that fault (30_encoding.md R91 step 3). -/
theorem exec_of_mode_error {i : Instr} {s : State} {f : FaultCode} {w : Word} (hi : readsMode i = true) (h : checkMode s = .error (.raised f w)) :
    exec i s = .next (raise f w s) := by
  cases i with
  | rot => cases hi
  | cbe a b => show withMode s _ = _; simp only [withMode, conclude, h, error_bind, stopWith]
  | nrm a b c => show withMode s _ = _; simp only [withMode, conclude, h, error_bind, stopWith]
  | dnrm a b c => show withMode s _ = _; simp only [withMode, conclude, h, error_bind, stopWith]
  | rnrm a => show withMode s _ = _; simp only [withMode, conclude, h, error_bind, stopWith]
  | cpg a b c => show withMode s _ = _; simp only [withMode, conclude, h, error_bind, stopWith]
  | pqb a => show withMode s _ = _; simp only [withMode, conclude, h, error_bind, stopWith]
  | smix a b c => show smix _ _ _ _ s = _; simp only [smix, withMode, conclude, h, error_bind, stopWith]
  | qb a b c => show concludeQuant _ s _ = _; simp only [concludeQuant, h, error_bind, stopWith]
  | uqb a b => show concludeQuant _ s _ = _; simp only [concludeQuant, h, error_bind, stopWith]

/-- A well-formed QB has the operands that step 2 asks for. -/
theorem qb_legal_of_wellFormed {sa sb sc : Spectrum} (h : (Instr.qb sa sb sc).WellFormed = true) : qbOperandsLegal sa sb sc = true ∧ Distinct sa sb ∧ sc ≠ sa ∧ sc ≠ sb ∧ sc ≠ .norm := by
  revert h
  cases sa <;> cases sb <;> cases sc <;> simp +decide <;> exact ⟨by decide, by decide, by decide⟩

/-- A well-formed UQB has the operands that step 2 asks for. -/
theorem uqb_legal_of_wellFormed {sa sb : Spectrum} (h : (Instr.uqb sa sb).WellFormed = true) : uqbOperandsLegal sa sb = true ∧ Distinct sa sb := by
  revert h
  cases sa <;> cases sb <;> simp +decide <;> exact ⟨by decide, by decide, by decide⟩

/-- An address outside the four areas is not written by QB or UQB. -/
theorem not_quantWrites {m : Mode} {sa sb : Spectrum} {ad : Nat} (h1 : ¬ InRange .pulses 0 m.ne ad)
   (h2 : ¬ InRange (sel sa) (Mode.flatStart m 0) (Mode.flatStart m (m.ne + 1)) ad)
   (h3 : ¬ InRange (sel sb) (Mode.flatStart m 0) (Mode.flatStart m m.ne) ad)
   (h4 : ¬ InRange (sel .norm) (Mode.flatStart m 0) (Mode.flatStart m m.ne) ad) : ¬ QuantWrites m sa sb ad := by
  rintro (h | h | h | h)
  · exact h1 h
  · exact h2 h
  · exact h3 h
  · exact h4 h

end Sys2Proof.Machine
end

