-- ==== Sys2Proof/Laws/PerInstr.lean ====
section
/-! SUPPORT. The statements made per instruction: family `Encoding` says that the decoder reads an instruction back from its own
encoding, with every operand at every value (30_encoding.md R84, R89). -/

namespace Sys2Proof.Laws.Encoding

/-- The decoder gives the instruction back. -/
def Statement (i : Instr) : Prop := decode (encode i) = .ok i

theorem cbe (sa : Spectrum) (bk : EnergyMem) : Statement (.cbe sa bk) := by
  cases sa <;> cases bk <;> rfl

theorem nrm (sa sb : Spectrum) (bk : EnergyMem) : Statement (.nrm sa sb bk) := by
  cases sa <;> cases sb <;> cases bk <;> rfl

theorem dnrm (sa sb : Spectrum) (bk : EnergyMem) : Statement (.dnrm sa sb bk) := by
  cases sa <;> cases sb <;> cases bk <;> rfl

theorem rnrm (sa : Spectrum) : Statement (.rnrm sa) := by
  cases sa <;> rfl

theorem rot (sa : Spectrum) (dir : Dir) : Statement (.rot sa dir) := by
  cases sa <;> cases dir <;> rfl

theorem cpg (sa sb : Spectrum) (bk : EnergyMem) : Statement (.cpg sa sb bk) := by
  cases sa <;> cases sb <;> cases bk <;> rfl

theorem pqb (sb : Spectrum) : Statement (.pqb sb) := by
  cases sb <;> rfl

theorem qb (sa sb sc : Spectrum) : Statement (.qb sa sb sc) := by
  cases sa <;> cases sb <;> cases sc <;> rfl

theorem uqb (sa sb : Spectrum) : Statement (.uqb sa sb) := by
  cases sa <;> cases sb <;> rfl

theorem smix (sa : Spectrum) (bk : EnergyMem) (dir : Dir) : Statement (.smix sa bk dir) := by
  cases sa <;> cases bk <;> cases dir <;> rfl

end Sys2Proof.Laws.Encoding
end

