-- ==== Sys2Proof/Laws/Twin.lean ====
section
/-! SUPPORT. The encoder's and the decoder's runs side by side (45_quantiser.md R189): the relation between their arrays before a
band, and that a band keeps it. -/

namespace Sys2Proof.Machine
open F32

/-- A loop with one more turn runs that turn last. -/
theorem forUp_snoc {α : Type} {lo : Nat} (body : Nat → α → Cmd α) : ∀ (n : Nat) (x : α),
    forUp lo (lo + n + 1) body x = (forUp lo (lo + n) body x >>= body (lo + n)) := by
  intro n
  induction n generalizing lo with
  | zero => 
    intro x
    rw [forUp_cons (by omega), forUp_empty (hi := lo + 0) (by omega), ok_bind, Nat.add_zero]
    cases h : body lo x with
    | ok y => rw [ok_bind, forUp_empty (by omega)]
    | error e => rw [error_bind]
  | succ n ih =>
    intro x
    rw [forUp_cons (by omega), forUp_cons (hi := lo + (n + 1)) (by omega)]
    cases h : body lo x with
    | ok y =>
      rw [ok_bind, ok_bind]
      have := ih (lo := lo + 1) y
      rw [show lo + (n + 1) + 1 = lo + 1 + n + 1 by omega, show lo + (n + 1) = lo + 1 + n by omega]
      exact this
    | error e => rfl

/-- What every turn of a falling loop keeps holds at its end. -/
theorem forDown_inv {α : Type} {body : Nat → α → Cmd α} (P : α → Prop) : ∀ (n : Nat) {x x' : α}, forDown body n x = .ok x' → P x →
    (∀ k x y, k < n → P x → body k x = .ok y → P y) → P x'
  | 0, x, x', h, h0, _ => by cases h; exact h0
  | n + 1, x, x', h, h0, hs => by
    rw [forDown_succ] at h
    obtain ⟨y, hy, h⟩ := bind_ok.mp h
    exact forDown_inv P n h (hs n x y (by omega) h0 hy) (fun k x y hk => hs k x y (by omega))

/-- Rot2 writes only elements that it has read. -/
theorem rot2_fresh {d : Draws} {sp : Spectrum} {a b : Nat} {c s : Word} {m0 m1 : Memory} (h : rot2 d sp a b c s m0 = .ok m1) (ad : Nat)
    (had : (Memory.read m1 ad).isSome = true) : (Memory.read m0 ad).isSome = true := by
  unfold rot2 at h
  obtain ⟨x1, h1, h⟩ := bind_ok.mp h
  obtain ⟨x2, h2, h⟩ := bind_ok.mp h
  cases h
  rw [read_writeElem, read_writeElem] at had
  split at had
  · next he => rw [← he, readElem_ok.mp h2]; rfl
  · split at had
    · next he => rw [← he, readElem_ok.mp h1]; rfl
    · exact had

/-- A rotation writes only elements that it has read. -/
theorem rotSlice_fresh {cfg : Config} {d : Draws} {sp : Spectrum} {off len : Nat} {theta : Word} {dir : Dir} {stride iter : Nat} {mem mem' : Memory}
    (h : rotSlice cfg d sp off len theta dir stride iter mem = .ok mem') (a : Nat) (ha : (Memory.read mem' a).isSome = true) :
    (Memory.read mem a).isSome = true := by
  unfold rotSlice at h
  revert a
  refine forUp_inv (fun _ m1 => ∀ a, (Memory.read m1 a).isSome = true → (Memory.read mem a).isSome = true) (Nat.zero_le _) h (fun _ h => h) ?_
  intro t m0 m1 _ _ hp hb
  obtain ⟨m2, h1, h2⟩ := bind_ok.mp hb
  unfold rotForward at h1
  unfold rotReverse at h2
  refine forDown_inv (fun m1 => ∀ a, (Memory.read m1 a).isSome = true → (Memory.read mem a).isSome = true) _ h2 ?_ ?_
  · refine forUp_inv (fun _ m1 => ∀ a, (Memory.read m1 a).isSome = true → (Memory.read mem a).isSome = true) (Nat.zero_le _) h1 hp ?_
    intro i x y _ _ hx hy a ha
    exact hx a (rot2_fresh hy a ha)
  · intro i x y _ hx hy a ha
    exact hx a (rot2_fresh hy a ha)

/-- A band that the encoder completed had its target written, and W if it codes pulses. -/
theorem quantBand_encoder_ready {caps : Caps} {m : Mode} (hm : ModeFacts caps m) {cfg : Config} {d : Draws} {sa sb sc : Spectrum}
    {i : Nat} (hi : i < m.ne) {pl : Word} {r r' : QRun}
    (hpl : Memory.read r.mem (addr .pulses i) = some pl) (h : quantBand cfg d (.encoder sc) m sa sb i r = .ok r') :
    BandReady cfg m (.encoder sc) sa i (s32 pl) r := by
  have hb := hm.flatStart_le (i := i + 1) (by omega)
  have hnm := ModeFacts.nmax_le caps
  have hl := hm.flatStart_add_flatLen (i := i) (by omega)
  unfold quantBand at h
  rw [readElem_ok.mpr hpl, ok_bind] at h
  obtain ⟨r1, h1, h⟩ := bind_ok.mp h
  obtain ⟨r2, h2, h⟩ := bind_ok.mp h
  unfold modeDecision at h1
  by_cases hin : intraMode m i (s32 pl) = true
  · rw [if_pos hin] at h1
    by_cases hq : s32 pl - 1 < 0
    · rw [if_pos hq] at h1
      obtain ⟨ans, h3, _⟩ := bind_ok.mp h1
      obtain ⟨nctx, _, h3⟩ := bind_ok.mp h3
      obtain ⟨xs, h5, _⟩ := bind_ok.mp h3
      exact ⟨(readSlice_ok h5).1, fun h => by omega⟩
    · rw [if_neg hq] at h1
      obtain ⟨ans, h3, _⟩ := bind_ok.mp h1
      obtain ⟨nctx, _, h3⟩ := bind_ok.mp h3
      obtain ⟨xs, h5, h3⟩ := bind_ok.mp h3
      obtain ⟨ws, h6, _⟩ := bind_ok.mp h3
      exact ⟨(readSlice_ok h5).1, fun _ => (readSlice_ok h6).1⟩
  · rw [if_neg hin] at h1
    cases h1
    have hcp : codedPulses m i (s32 pl) = s32 pl := by unfold codedPulses; rw [if_neg hin]
    have hpos : 0 < s32 pl := by
      simp only [intraMode, Bool.or_eq_true, decide_eq_true_eq] at hin
      omega
    unfold vqStep at h2
    rw [hcp, if_pos hpos] at h2
    unfold vqCoded at h2
    obtain ⟨mem1, h3, h2⟩ := bind_ok.mp h2
    obtain ⟨mem2, h4, h2⟩ := bind_ok.mp h2
    obtain ⟨xs, h5, h2⟩ := bind_ok.mp h2
    obtain ⟨ws, h6, h2⟩ := bind_ok.mp h2
    have back : ∀ a, (Memory.read mem2 a).isSome = true → (Memory.read r.mem a).isSome = true :=
      fun a ha => rotSlice_fresh h3 a (rotSlice_fresh h4 a ha)
    exact ⟨fun k e1 e2 => back _ ((readSlice_ok h5).1 k e1 e2), fun _ k e1 e2 => back _ ((readSlice_ok h6).1 k e1 e2)⟩

/-- A band of the encoder goes from its coder state to the one it leaves by coding calls alone. -/
theorem bandVals_leadsTo (cfg : Config) (d : Draws) (m : Mode) (wv : Vals) (i : Nat) (q0 : Int) (a : QArrays) {f : Coder}
    (h : LeadsTo cfg (bandVals cfg d m (some wv) i q0 a).ec f) :
    LeadsTo cfg (decideVals cfg m (some wv) i q0 a).ec f ∧ LeadsTo cfg a.ec f := by
  have vq : ∀ (q : Int) (b : QArrays), LeadsTo cfg (vqVals cfg d m (some wv) i q0 q b).ec f → LeadsTo cfg b.ec f := by
    intro q b h
    by_cases hq : 0 < q
    · rw [vqVals_encoder cfg d m wv i q0 b hq rfl rfl] at h; exact .vq _ f h
    · rwa [vqVals_none cfg d m _ i q0 b hq] at h
  have h1 : LeadsTo cfg (decideVals cfg m (some wv) i q0 a).ec f := vq _ _ h
  refine ⟨h1, ?_⟩
  unfold decideVals at h1
  dsimp only at h1
  split at h1
  · split at h1
    · exact h1
    · exact .intra _ f h1
  · exact h1

/-- The encoder's and the decoder's arrays before band `i`, the encoder's run ending in the coder state `f`. -/
structure Twin (Reads : Coder → Coder → Coder → Prop) (f : Coder) (m : Mode) (i : Nat) (ae ad : QArrays) : Prop where
  x : ∀ k, Mode.flatStart m 0 ≤ k → k < Mode.flatStart m i → ae.x k = ad.x k
  p : ∀ k, Mode.flatStart m 0 ≤ k → k < Mode.flatStart m m.ne → ae.p k = ad.p k
  norm : ∀ k, k < Mode.flatStart m i → ae.norm k = ad.norm k
  ec : Reads f ae.ec ad.ec
  alpha : ae.alpha = ad.alpha

/-- One band keeps the two runs together (45_quantiser.md R189), given collaborators that agree. -/
theorem twin_band {caps : Caps} {m : Mode} (hm : ModeFacts caps m) {cfg : Config} {Reads : Coder → Coder → Coder → Prop} {fin : Coder} (hA : Agreeing cfg Reads) (d : Draws)
    (wv : Vals) {i : Nat} (hi : i < m.ne) (q0 : Int) {ae ad : QArrays} (h : Twin Reads fin m i ae ad)
    (hfin : LeadsTo cfg (bandVals cfg d m (some wv) i q0 ae).ec fin) :
    Twin Reads fin m (i + 1) (bandVals cfg d m (some wv) i q0 ae) (bandVals cfg d m none i q0 ad) := by
  have hl := hm.flatStart_add_flatLen (i := i) (by omega)
  have a1 := hm.flatStart_mono (Nat.zero_le i) (by omega)
  have a2 := hm.flatStart_mono (i := i + 1) (j := m.ne) (by omega) (by omega)
  have hctx : sliceOf ae.norm 0 (Mode.flatStart m i) = sliceOf ad.norm 0 (Mode.flatStart m i) :=
    sliceOf_congr (fun k _ h2 => h.norm k (by omega))
  have hdec := (bandVals_leadsTo cfg d m wv i q0 ae hfin).1
  have hvq : LeadsTo cfg (vqVals cfg d m (some wv) i q0 (if m.pend ≤ Mode.e m i ∨ q0 ≤ 0 then q0 - 1 else q0)
    (decideVals cfg m (some wv) i q0 ae)).ec fin := hfin
  generalize hq : (if m.pend ≤ Mode.e m i ∨ q0 ≤ 0 then q0 - 1 else q0) = q at hvq
  -- after the mode decision
  have dec : let be := decideVals cfg m (some wv) i q0 ae
      let bd := decideVals cfg m none i q0 ad
      (∀ k, Mode.flatStart m 0 ≤ k → k < Mode.flatStart m i → be.x k = bd.x k) ∧
      (q ≤ 0 → ∀ k, Mode.flatStart m i ≤ k → k < Mode.flatStart m (i + 1) → be.x k = bd.x k) ∧
      (∀ k, Mode.flatStart m 0 ≤ k → k < Mode.flatStart m m.ne → be.p k = bd.p k) ∧
      (∀ k, k < Mode.flatStart m i → be.norm k = bd.norm k) ∧ Reads fin be.ec bd.ec ∧ be.alpha = bd.alpha := by
    intro be bd
    by_cases hc : m.pend ≤ Mode.e m i ∨ q0 ≤ 0
    · rw [if_pos hc] at hq
      have out : ∀ (v : Vals) (f : Option (Nat → Word)) k, k < Mode.flatStart m i → pasteOption v (Mode.flatStart m i) (Mode.flatLen m i) f k = v k := by
        intro v f k hk
        cases f with
        | none => rfl
        | some g => exact if_neg (by omega)
      by_cases hq0 : q0 - 1 < 0
      · have hbe : be = { ae with
            x := pasteOption ae.x (Mode.flatStart m i) (Mode.flatLen m i) (cfg.intraFold { mode := m, band := i, side := .encoder, nctx := sliceOf ae.norm 0 (Mode.flatStart m i), xs := some (sliceOf ae.x (Mode.flatStart m i) (Mode.flatLen m i)) }).xs, p := paste ae.p (Mode.flatStart m i) (Mode.flatLen m i) (cfg.intraFold { mode := m, band := i, side := .encoder, nctx := sliceOf ae.norm 0 (Mode.flatStart m i), xs := some (sliceOf ae.x (Mode.flatStart m i) (Mode.flatLen m i)) }).ps, alpha := ALPHA_INTRA } := by
          show decideVals cfg m (some wv) i q0 ae = _
          unfold decideVals; rw [if_pos hc, if_pos hq0]; rfl
        have hbd : bd = { ad with
            x := pasteOption ad.x (Mode.flatStart m i) (Mode.flatLen m i) (cfg.intraFold { mode := m, band := i, side := .decoder, nctx := sliceOf ae.norm 0 (Mode.flatStart m i), xs := none }).xs, p := paste ad.p (Mode.flatStart m i) (Mode.flatLen m i) (cfg.intraFold { mode := m, band := i, side := .decoder, nctx := sliceOf ae.norm 0 (Mode.flatStart m i), xs := none }).ps, alpha := ALPHA_INTRA } := by
          show decideVals cfg m none i q0 ad = _
          unfold decideVals; rw [if_pos hc, if_pos hq0, hctx]; rfl
        obtain ⟨f1, f, g, f2, f3, f4⟩ := hA.fold m i (sliceOf ae.norm 0 (Mode.flatStart m i)) (sliceOf ae.x (Mode.flatStart m i) (Mode.flatLen m i))
        rw [hbe, hbd]
        refine ⟨fun k e1 e2 => ?_, fun _ k e1 e2 => ?_, fun k e1 e2 => ?_, fun k e => h.norm k e, h.ec, rfl⟩
        · dsimp only; rw [out _ _ _ e2, out _ _ _ e2]; exact h.x k e1 e2
        · dsimp only; rw [f2, f3]
          show paste _ _ _ f k = paste _ _ _ g k
          unfold paste
          rw [if_pos (by omega), if_pos (by omega)]; exact f4 _ (by omega)
        · dsimp only
          unfold paste
          split
          · exact f1 _ (by omega)
          · exact h.p k e1 e2
      · have hbe : be = { ae with
            x := pasteOption ae.x (Mode.flatStart m i) (Mode.flatLen m i) (cfg.intraPrediction { mode := m, band := i, q := q0 - 1, nctx := sliceOf ae.norm 0 (Mode.flatStart m i), xs := (sliceOf ae.x (Mode.flatStart m i) (Mode.flatLen m i)), ws := sliceOf wv (Mode.flatStart m i) (Mode.flatLen m i), ec := ae.ec }).xs, p := paste ae.p (Mode.flatStart m i) (Mode.flatLen m i) (cfg.intraPrediction { mode := m, band := i, q := q0 - 1, nctx := sliceOf ae.norm 0 (Mode.flatStart m i), xs := (sliceOf ae.x (Mode.flatStart m i) (Mode.flatLen m i)), ws := sliceOf wv (Mode.flatStart m i) (Mode.flatLen m i), ec := ae.ec }).ps, alpha := ALPHA_INTRA, ec := (cfg.intraPrediction { mode := m, band := i, q := q0 - 1, nctx := sliceOf ae.norm 0 (Mode.flatStart m i), xs := (sliceOf ae.x (Mode.flatStart m i) (Mode.flatLen m i)), ws := sliceOf wv (Mode.flatStart m i) (Mode.flatLen m i), ec := ae.ec }).ec } := by
          show decideVals cfg m (some wv) i q0 ae = _
          unfold decideVals; rw [if_pos hc, if_neg hq0]; rfl
        have hbd : bd = { ad with
            x := pasteOption ad.x (Mode.flatStart m i) (Mode.flatLen m i) (cfg.intraUnquant { mode := m, band := i, q := q0 - 1, nctx := sliceOf ae.norm 0 (Mode.flatStart m i), ec := ad.ec }).xs, p := paste ad.p (Mode.flatStart m i) (Mode.flatLen m i) (cfg.intraUnquant { mode := m, band := i, q := q0 - 1, nctx := sliceOf ae.norm 0 (Mode.flatStart m i), ec := ad.ec }).ps, alpha := ALPHA_INTRA, ec := (cfg.intraUnquant { mode := m, band := i, q := q0 - 1, nctx := sliceOf ae.norm 0 (Mode.flatStart m i), ec := ad.ec }).ec } := by
          show decideVals cfg m none i q0 ad = _
          unfold decideVals; rw [if_pos hc, if_neg hq0, hctx]; rfl
        obtain ⟨f1, f2, f3⟩ := hA.intra m i (q0 - 1) (sliceOf ae.norm 0 (Mode.flatStart m i)) (sliceOf ae.x (Mode.flatStart m i) (Mode.flatLen m i)) (sliceOf wv (Mode.flatStart m i) (Mode.flatLen m i)) fin ae.ec ad.ec h.ec (by
          rw [show decideVals cfg m (some wv) i q0 ae = _ from hbe] at hdec; exact hdec)
        rw [hbe, hbd]
        refine ⟨fun k e1 e2 => ?_, fun hqq k e1 e2 => ?_, fun k e1 e2 => ?_, fun k e => h.norm k e, f2, rfl⟩
        · dsimp only; rw [out _ _ _ e2, out _ _ _ e2]; exact h.x k e1 e2
        · obtain ⟨f, g, f4, f5, f6⟩ := f3 (by omega)
          dsimp only; rw [f4, f5]
          show paste _ _ _ f k = paste _ _ _ g k
          unfold paste
          rw [if_pos (by omega), if_pos (by omega)]; exact f6 _ (by omega)
        · dsimp only
          unfold paste
          split
          · exact f1 _ (by omega)
          · exact h.p k e1 e2
    · rw [if_neg hc] at hq
      have hbe : be = ae := by show decideVals cfg m (some wv) i q0 ae = _; unfold decideVals; rw [if_neg hc]
      have hbd : bd = ad := by show decideVals cfg m none i q0 ad = _; unfold decideVals; rw [if_neg hc]
      rw [hbe, hbd]
      exact ⟨h.x, fun hq' => by omega, h.p, h.norm, h.ec, h.alpha⟩
  -- after the VQ step
  have vq : let be := vqVals cfg d m (some wv) i q0 q (decideVals cfg m (some wv) i q0 ae)
      let bd := vqVals cfg d m none i q0 q (decideVals cfg m none i q0 ad)
      (∀ k, Mode.flatStart m 0 ≤ k → k < Mode.flatStart m (i + 1) → be.x k = bd.x k) ∧
      (∀ k, Mode.flatStart m 0 ≤ k → k < Mode.flatStart m m.ne → be.p k = bd.p k) ∧
      (∀ k, k < Mode.flatStart m i → be.norm k = bd.norm k) ∧ Reads fin be.ec bd.ec ∧ be.alpha = bd.alpha := by
    generalize decideVals cfg m (some wv) i q0 ae = be at *
    generalize decideVals cfg m none i q0 ad = bd at *
    obtain ⟨d1, d2, d3, d4, d5, d6⟩ := dec
    by_cases hpos : 0 < q
    · have hvq' := hvq
      rw [vqVals_encoder cfg d m wv i q0 be hpos rfl rfl] at hvq'
      rw [vqVals_encoder cfg d m wv i q0 be hpos rfl rfl, vqVals_decoder cfg d m i q0 bd hpos rfl rfl]
      generalize bandTheta d (Mode.flatLen m i) q0 = theta at hvq' ⊢
      have hps : sliceOf (rotVals cfg (Draws.sub d 5) (Mode.flatStart m i) (Mode.flatLen m i) theta .minus (Mode.bq m) 8 be.p) (Mode.flatStart m i) (Mode.flatLen m i) =
          sliceOf (rotVals cfg (Draws.sub d 5) (Mode.flatStart m i) (Mode.flatLen m i) theta .minus (Mode.bq m) 8 bd.p) (Mode.flatStart m i) (Mode.flatLen m i) :=
        sliceOf_congr (rotVals_congr _ _ _ _ _ _ _ _ (fun k e1 e2 => d3 k (by omega) (by omega)))
      dsimp only at hvq'
      rw [hps, d6] at hvq' ⊢
      obtain ⟨v1, v2⟩ := hA.vq (sliceOf (rotVals cfg (Draws.sub d 6) (Mode.flatStart m i) (Mode.flatLen m i) theta .minus (Mode.bq m) 8 be.x) (Mode.flatStart m i) (Mode.flatLen m i))
        (sliceOf wv (Mode.flatStart m i) (Mode.flatLen m i)) (Mode.flatLen m i) q
        (sliceOf (rotVals cfg (Draws.sub d 5) (Mode.flatStart m i) (Mode.flatLen m i) theta .minus (Mode.bq m) 8 bd.p) (Mode.flatStart m i) (Mode.flatLen m i)) bd.alpha fin be.ec bd.ec d5 hvq'
      refine ⟨fun k e1 e2 => ?_, fun k e1 e2 => ?_, d4, v2, rfl⟩
      · dsimp only
        by_cases hk : Mode.flatStart m i ≤ k
        · refine rotVals_congr _ _ _ _ _ _ _ _ (fun j j1 j2 => ?_) k hk (by omega)
          unfold paste
          rw [if_pos ⟨j1, j2⟩, if_pos ⟨j1, j2⟩]
          exact v1 _ (by omega)
        · rw [rotVals_outside _ _ _ _ _ _ _ _ _ (by omega), rotVals_outside _ _ _ _ _ _ _ _ _ (by omega)]
          unfold paste
          rw [if_neg (by omega), if_neg (by omega), rotVals_outside _ _ _ _ _ _ _ _ _ (by omega)]
          exact d1 k e1 (by omega)
      · dsimp only
        by_cases hk : Mode.flatStart m i ≤ k ∧ k < Mode.flatStart m i + Mode.flatLen m i
        · exact rotVals_congr _ _ _ _ _ _ _ _ (fun j j1 j2 => d3 j (by omega) (by omega)) k hk.1 hk.2
        · rw [rotVals_outside _ _ _ _ _ _ _ _ _ hk, rotVals_outside _ _ _ _ _ _ _ _ _ hk]
          exact d3 k e1 e2
    · rw [vqVals_none _ _ _ _ _ _ _ hpos, vqVals_none _ _ _ _ _ _ _ hpos]
      refine ⟨fun k e1 e2 => ?_, d3, d4, d5, d6⟩
      by_cases hk : k < Mode.flatStart m i
      · exact d1 k e1 hk
      · exact d2 (by omega) k (by omega) e2
  obtain ⟨v1, v2, v3, v4, v5⟩ := vq
  rw [← hq] at v1 v2 v3 v4 v5
  refine ⟨v1, v2, fun k e => ?_, v4, v5⟩
  show (if _ then _ else _) = (if _ then _ else _)
  by_cases hk : Mode.flatStart m i ≤ k ∧ k < Mode.flatStart m i + Mode.flatLen m i
  · refine (if_pos hk).trans (Eq.trans ?_ (if_pos hk).symm)
    rw [v1 k (by omega) e]
  · refine (if_neg hk).trans (Eq.trans ?_ (if_neg hk).symm)
    exact v3 k (by omega)

end Sys2Proof.Machine
end

