-- ==== Sys2Proof/Laws/Reads.lean ====
section
/-! SUPPORT. A command that reads an unwritten element does not end well (10_state.md R57, 60_exceptions.md R241): one lemma per piece of
work, for the addresses of `ReadsFirst`. With the `_does` lemma of the same work, which says that it stops only as UNWRITTEN, each says
that the work ends in that fault. -/

namespace Sys2Proof.Machine
open F32

/-- The computation does not end well. -/
def Stops {α : Type} (r : Cmd α) : Prop := ∀ x, r ≠ .ok x

theorem stops_bind {α β : Type} {r : Cmd α} {f : α → Cmd β} (h : ∀ y, r = .ok y → Stops (f y)) : Stops (r >>= f) := by
  intro x hx
  obtain ⟨y, h1, h2⟩ := bind_ok.mp hx
  exact h y h1 x h2

theorem stops_bind_left {α β : Type} {r : Cmd α} {f : α → Cmd β} (h : Stops r) : Stops (r >>= f) :=
  stops_bind fun y hy => absurd hy (h y)

theorem stops_readElem {m : MemName} {k : Nat} {mem : Memory} (h : Memory.read mem (addr m k) = none) : Stops (readElem m k mem) := by
  intro w hw
  rw [readElem_ok.mp hw] at h
  cases h

theorem stops_readSlice {m : MemName} {lo n k : Nat} {mem : Memory} (h : Memory.read mem (addr m k) = none) (h1 : lo ≤ k)
    (h2 : k < lo + n) : Stops (readSlice m lo n mem) := by
  intro ws hw
  have := (readSlice_ok hw).1 k h2 h1
  rw [h] at this
  cases this

/-- A loop stops at the round `k0` if that round stops wherever the rounds before it lead. -/
theorem stops_forUp_at {α : Type} {lo hi k0 : Nat} {body : Nat → α → Cmd α} (h1 : lo ≤ k0) (h2 : k0 < hi) {x : α}
    (atK : ∀ y, forUp lo k0 body x = .ok y → Stops (body k0 y)) : Stops (forUp lo hi body x) := by
  obtain ⟨n, rfl⟩ := Nat.exists_eq_add_of_le h1
  induction n generalizing lo x with
  | zero =>
    rw [forUp_cons (by omega)]
    exact stops_bind_left (atK x (forUp_empty (by omega) body x))
  | succ n ih =>
    rw [forUp_cons (by omega)]
    refine stops_bind fun y hy => ih (lo := lo + 1) (by omega) (by omega) (fun z hz => ?_)
    have := atK z
    rw [forUp_cons (by omega), hy, ok_bind] at this
    rw [show lo + 1 + n = lo + (n + 1) by omega] at hz ⊢
    exact this hz

/-- A loop stops at the round `k0` if the rounds before it, where they end well, keep a condition under which `k0` does not. -/
theorem stops_forUp {α : Type} {lo hi k0 : Nat} {body : Nat → α → Cmd α} (P : α → Prop) (h1 : lo ≤ k0) (h2 : k0 < hi)
    (before : ∀ k x y, lo ≤ k → k < k0 → P x → body k x = .ok y → P y) (atK : ∀ x, P x → Stops (body k0 x)) {x : α} (hx : P x) :
    Stops (forUp lo hi body x) :=
  stops_forUp_at h1 h2 fun y hy => atK y (forUp_inv (fun _ => P) h1 hy hx before)

/-- What does not write an address leaves it unwritten. -/
theorem Does.miss {α : Type} {a : Nat} {m0 : Memory} {get : α → Memory} {r : Cmd α} (h : Does (fun x => x ≠ a) m0 get r) {y : α}
    (hy : r = .ok y) (hn : Memory.read m0 a = none) : Memory.read (get y) a = none := by
  rw [(h.ok hy).frame a (fun h => h rfl), hn]

/-- The position and channel of a flat index. -/
theorem flat_position {caps : Caps} {m : Mode} (hm : ModeFacts caps m) {i f : Nat} (h1 : Mode.flatStart m i ≤ f)
    (h2 : f < Mode.flatStart m (i + 1)) :
    ∃ j c, c < m.c ∧ Mode.bandStart m i ≤ j ∧ j < Mode.bandStart m (i + 1) ∧ f = Mode.flat m j c := by
  have hc := hm.c_pos
  rw [ModeFacts.flatStart_eq] at h1 h2
  refine ⟨f / m.c, f % m.c, Nat.mod_lt _ hc, (Nat.le_div_iff_mul_le hc).mpr h1, (Nat.div_lt_iff_lt_mul hc).mpr h2, ?_⟩
  unfold Mode.flat
  rw [Nat.mul_comm]; exact (Nat.div_add_mod f m.c).symm

/-- An address of the bands of a spectrum memory, by channel, band and position. -/
theorem band_address {caps : Caps} {m : Mode} (hm : ModeFacts caps m) {sp : Spectrum} {a : Nat}
    (h : InRange (sel sp) (Mode.flatStart m 0) (Mode.flatStart m m.ne) a) :
    ∃ c i j, c < m.c ∧ i < m.ne ∧ Mode.bandStart m i ≤ j ∧ j < Mode.bandStart m (i + 1) ∧ a = addr (sel sp) (Mode.flat m j c) := by
  obtain ⟨k, h1, h2, rfl⟩ := inRange_index h
  obtain ⟨i, hi, e1, e2⟩ := flat_band m.ne h1 h2
  obtain ⟨j, c, hc, j1, j2, rfl⟩ := flat_position hm e1 e2
  exact ⟨c, i, j, hc, hi, j1, j2, rfl⟩

/-- An address of the energies a mode uses, by band and channel. -/
theorem energy_address {caps : Caps} {m : Mode} (hm : ModeFacts caps m) {bk : EnergyMem} {a : Nat}
    (h : InRange (bank bk) 0 (m.ne * m.c) a) : ∃ i c, i < m.ne ∧ c < m.c ∧ a = addr (bank bk) (Mode.energyIndex m i c) := by
  obtain ⟨k, _, h2, rfl⟩ := inRange_index h
  obtain ⟨i, c, hi, hc, rfl⟩ := energy_cover hm h2
  exact ⟨i, c, hi, hc, rfl⟩

/-! ### CBE, NRM, DNRM, RNRM -/

theorem bandEnergy_stops {d : Draws} {m : Mode} {sa : Spectrum} {c i j : Nat} {mem : Memory} (h1 : Mode.bandStart m i ≤ j)
    (h2 : j < Mode.bandStart m (i + 1)) (hn : Memory.read mem (addr (sel sa) (Mode.flat m j c)) = none) :
    Stops (bandEnergy d m sa c i mem) :=
  stops_forUp (fun _ => True) h1 h2 (fun _ _ _ _ _ _ _ => trivial) (fun _ _ => stops_bind_left (stops_readElem hn)) trivial

/-- CBE's work on an unwritten band element of SA. -/
theorem bandEnergies_stops {caps : Caps} {m : Mode} (hm : ModeFacts caps m) (d : Draws) {sa : Spectrum} (bk : EnergyMem) {mem : Memory}
    {a : Nat} (ha : InRange (sel sa) (Mode.flatStart m 0) (Mode.flatStart m m.ne) a) (hn : Memory.read mem a = none) :
    Stops (bandEnergies d m sa bk mem) := by
  obtain ⟨c, i, j, hc, hi, j1, j2, rfl⟩ := band_address hm ha
  have hf := flat_lt hm hi hc j1 j2
  have one : ∀ c' i' mem, c' < m.c → i' < m.ne → Does (fun x => x ≠ addr (sel sa) (Mode.flat m j c)) mem (fun x => x)
      (bandEnergy d m sa c' i' mem >>= fun acc => .ok (writeElem (bank bk) (Mode.energyIndex m i' c') (fsqrt (d [c', i']) acc) mem)) :=
    fun c' i' mem hc' hi' => does_bind (bandEnergy_does d m sa c' i' mem _) (fun _ _ _ => (Keeps.refl _ mem).writeElem _
      (fun he => spectrum_ne_energy (by omega) (by have := hm.energyIndex_lt hi' hc'; omega) he.symm))
  refine stops_forUp (fun mem => Memory.read mem (addr (sel sa) (Mode.flat m j c)) = none) (Nat.zero_le _) hc
    (fun c' x y _ hc' hx hy => (does_forUp (get := fun x => x) (fun i' mem _ hi' => one c' i' mem (by omega) hi') x).miss hy hx)
    (fun x hx => ?_) hn
  exact stops_forUp (fun mem => Memory.read mem (addr (sel sa) (Mode.flat m j c)) = none) (Nat.zero_le _) hi
    (fun i' x y _ hi' hx hy => (one c i' x hc (by omega)).miss hy hx)
    (fun x hx => stops_bind_left (bandEnergy_stops j1 j2 hx)) hx

/-- A band scaled does not write an address that is none of the band's in SB. -/
theorem scaleBand_misses {d : Draws} {m : Mode} {sa sb : Spectrum} {c i : Nat} {g : Word} {mem : Memory} {a : Nat}
    (h : ∀ j, Mode.bandStart m i ≤ j → j < Mode.bandStart m (i + 1) → addr (sel sb) (Mode.flat m j c) ≠ a) :
    Does (fun x => x ≠ a) mem (fun x => x) (scaleBand d m sa sb c i g mem) :=
  does_forUp (get := fun x => x) (fun j _ h1 h2 => memWork_read_write (h j h1 h2)) mem

/-- NRM's and DNRM's work on an unwritten band element of SA. -/
theorem scaleBands_stops {caps : Caps} {m : Mode} (hm : ModeFacts caps m) (gain : Nat → Nat → Word → Word) (d : Draws)
    {sa : Spectrum} (sb : Spectrum) (bk : EnergyMem) {mem : Memory} {a : Nat}
    (ha : InRange (sel sa) (Mode.flatStart m 0) (Mode.flatStart m m.ne) a) (hn : Memory.read mem a = none) :
    Stops (scaleBands gain d m sa sb bk mem) := by
  obtain ⟨c, i, j, hc, hi, j1, j2, rfl⟩ := band_address hm ha
  have hf := flat_lt hm hi hc j1 j2
  have apart : ∀ c' i' j', c' < m.c → i' < m.ne → Mode.bandStart m i' ≤ j' → j' < Mode.bandStart m (i' + 1) → (c', j') ≠ (c, j) →
      addr (sel sb) (Mode.flat m j' c') ≠ addr (sel sa) (Mode.flat m j c) := by
    intro c' i' j' hc' hi' e1 e2 hne he
    have hf' := flat_lt hm hi' hc' e1 e2
    obtain ⟨_, hk⟩ := (addr_inj (by omega) (by omega)).mp he
    obtain ⟨rfl, rfl⟩ := ModeFacts.flat_inj hc' hc hk
    exact hne rfl
  refine stops_bind_left (stops_forUp (fun mem => Memory.read mem (addr (sel sa) (Mode.flat m j c)) = none) (Nat.zero_le _) hc
    (fun c' x y _ hc' hx hy => (does_forUp (get := fun x => x) (fun i' mem _ hi' => ?_) x).miss hy hx) (fun x hx => ?_) hn)
  · exact does_readElem (fun _ _ => scaleBand_misses (fun j' e1 e2 => apart c' i' j' (by omega) hi' e1 e2 (by simp; omega)))
  · refine stops_forUp (fun mem => Memory.read mem (addr (sel sa) (Mode.flat m j c)) = none) (Nat.zero_le _) hi
      (fun i' x y _ hi' hx hy => ?_) (fun x hx => stops_bind fun _ _ => ?_) hx
    · have hb := hm.bandStart_mono (i := i' + 1) (j := i) (by omega) (by omega)
      obtain ⟨_, _, hy⟩ := bind_ok.mp hy
      exact (scaleBand_misses (fun j' e1 e2 => apart c i' j' hc (by omega) e1 e2 (by simp; omega))).miss hy hx
    · refine stops_forUp (fun mem => Memory.read mem (addr (sel sa) (Mode.flat m j c)) = none) j1 j2 (fun j' x y e1 e2 hx hy => ?_)
        (fun x hx => stops_bind_left (stops_readElem hx)) hx
      obtain ⟨_, _, hy⟩ := bind_ok.mp hy
      cases hy
      rw [read_writeElem, if_neg (apart c i j' hc hi e1 (by omega) (by simp; omega)), hx]

/-- NRM's and DNRM's work on an unwritten energy. -/
theorem scaleBands_stops_energy {caps : Caps} {m : Mode} (hm : ModeFacts caps m) (gain : Nat → Nat → Word → Word) (d : Draws)
    (sa sb : Spectrum) {bk : EnergyMem} {mem : Memory} {a : Nat} (ha : InRange (bank bk) 0 (m.ne * m.c) a)
    (hn : Memory.read mem a = none) : Stops (scaleBands gain d m sa sb bk mem) := by
  obtain ⟨i, c, hi, hc, rfl⟩ := energy_address hm ha
  have he := hm.energyIndex_lt hi hc
  have miss : ∀ c' i' g mem, c' < m.c → i' < m.ne → Does (fun x => x ≠ addr (bank bk) (Mode.energyIndex m i c)) mem (fun x => x)
      (scaleBand d m sa sb c' i' g mem) :=
    fun c' i' g mem hc' hi' => scaleBand_misses (fun j' e1 e2 => by
      have hf' := flat_lt hm hi' hc' e1 e2
      exact spectrum_ne_energy (by omega) (by omega))
  refine stops_bind_left (stops_forUp (fun mem => Memory.read mem (addr (bank bk) (Mode.energyIndex m i c)) = none) (Nat.zero_le _) hc
    (fun c' x y _ hc' hx hy => (does_forUp (get := fun x => x)
      (fun i' mem _ hi' => does_readElem (fun _ _ => miss c' i' _ mem (by omega) hi')) x).miss hy hx) (fun x hx => ?_) hn)
  exact stops_forUp (fun mem => Memory.read mem (addr (bank bk) (Mode.energyIndex m i c)) = none) (Nat.zero_le _) hi
    (fun i' x y _ hi' hx hy => by
      obtain ⟨_, _, hy⟩ := bind_ok.mp hy
      exact (miss c i' _ x hc (by omega)).miss hy hx)
    (fun x hx => stops_bind_left (stops_readElem hx)) hx

/-! ### ROT -/

/-- RotSlice's work on an unwritten element of a pair. -/
theorem rotSlice_stops (cfg : Config) (d : Draws) {sp : Spectrum} {off len : Nat} (theta : Word) (dir : Dir) {stride iter k : Nat}
    {mem : Memory} (hi : 0 < iter) (hk : RotTouches off len stride k) (hn : Memory.read mem (addr (sel sp) k) = none) :
    Stops (rotSlice cfg d sp off len theta dir stride iter mem) := by
  obtain ⟨h1, h2, h3⟩ := hk
  obtain ⟨i, hil, hik⟩ : ∃ i, i < len - stride ∧ (k = off + i ∨ k = off + i + stride) := by
    rcases h3 with h | h
    · exact ⟨k - off, by omega, .inl (by omega)⟩
    · exact ⟨k - off - stride, by omega, .inr (by omega)⟩
  refine stops_forUp (fun mem => Memory.read mem (addr (sel sp) k) = none) (Nat.le_refl 0) hi (fun _ _ _ _ h => absurd h (Nat.not_lt_zero _))
    (fun x hx => stops_bind_left ?_) hn
  refine stops_forUp (fun mem => Memory.read mem (addr (sel sp) k) = none) (Nat.zero_le _) hil (fun i' x y _ _ hx hy => ?_)
    (fun x hx => ?_) hx
  · cases hr : Memory.read y (addr (sel sp) k) with
    | none => rfl
    | some w =>
      have := rot2_fresh hy (addr (sel sp) k) (by rw [hr]; rfl)
      rw [hx] at this
      cases this
  · rcases hik with rfl | rfl
    · exact stops_bind_left (stops_readElem hx)
    · exact stops_bind fun _ _ => stops_bind_left (stops_readElem hx)

/-! ### CPG, PQB -/

/-- The pitch band of a flat index. -/
theorem pitch_band {m : Mode} {f : Nat} : ∀ n, Mode.pitchStart m 0 ≤ f → f < Mode.pitchStart m n →
    ∃ k, k < n ∧ Mode.pitchStart m k ≤ f ∧ f < Mode.pitchStart m (k + 1)
  | 0, h1, h2 => absurd h2 (by omega)
  | n + 1, h1, h2 => by
    by_cases h : f < Mode.pitchStart m n
    · obtain ⟨k, h3, h4⟩ := pitch_band n h1 h
      exact ⟨k, by omega, h4⟩
    · exact ⟨n, by omega, by omega, h2⟩

/-- CPG's work on an unwritten energy. -/
theorem pitchGains_stops_energy {caps : Caps} {m : Mode} (hm : ModeFacts caps m) (d : Draws) (sa sb : Spectrum) {bk : EnergyMem}
    {mem : Memory} {a : Nat} (ha : InRange (bank bk) 0 (m.ne * m.c) a) (hn : Memory.read mem a = none) :
    Stops (pitchGains d m sa sb bk mem) := by
  obtain ⟨i, c, hi, hc, rfl⟩ := energy_address hm ha
  have hcp := hm.c_pos
  have he := hm.energyIndex_lt hi hc
  have hlt : Mode.bandStart m i < Mode.bandStart m (i + 1) := Nat.mul_lt_mul_of_pos_left (hm.rise i (by omega)) hm.b
  have hb := ModeFacts.flat_bounds (m := m) (i := i) hc (Nat.le_refl _) hlt
  have hmod : Mode.flat m (Mode.bandStart m i) c % m.c = c := by
    unfold Mode.flat
    rw [Nat.mul_comm, Nat.mul_add_mod, Nat.mod_eq_of_lt hc]
  have one : ∀ (i' f w : Nat) (mem : Memory) (k : Nat), f < 65536 →
      Does (fun x => x ≠ addr (bank bk) (Mode.energyIndex m i c)) mem (fun x => x)
        (readElem (bank bk) k mem >>= fun w => .ok (writeElem .wgt f w mem)) :=
    fun i' f w mem k hf => memWork_read_write (f := fun w => w) (addr_ne (by simp) hf (by omega))
  have small : ∀ i' f, i' < m.ne → f < Mode.flatStart m (i' + 1) → f < 65536 := by
    intro i' f hi' hf
    have := hm.flatStart_le (i := i' + 1) (by omega)
    have := ModeFacts.nmax_le caps
    omega
  refine stops_bind_left (stops_forUp (fun mem => Memory.read mem (addr (bank bk) (Mode.energyIndex m i c)) = none) (Nat.zero_le _) hi
    (fun i' x y _ hi' hx hy => (does_forUp (get := fun x => x)
      (fun f mem _ hf => one i' f 0 mem _ (small i' f (by omega) hf)) x).miss hy hx) (fun x hx => ?_) hn)
  refine stops_forUp (fun mem => Memory.read mem (addr (bank bk) (Mode.energyIndex m i c)) = none) hb.1 hb.2
    (fun f x y _ hf hx hy => (one i f 0 x _ (small i f hi (by omega))).miss hy hx) (fun x hx => ?_) hx
  exact stops_bind_left (stops_readElem (by rw [hmod]; exact hx))

/-- CPG's work on an unwritten element of SA or SB in the pitch bands. -/
theorem pitchGains_stops {caps : Caps} {m : Mode} (hm : ModeFacts caps m) (d : Draws) {sa sb : Spectrum} (bk : EnergyMem)
    {mem : Memory} {a : Nat} (ha : InRange (sel sa) (Mode.pitchStart m 0) (Mode.pitchStart m m.np) a ∨
      InRange (sel sb) (Mode.pitchStart m 0) (Mode.pitchStart m m.np) a) (hn : Memory.read mem a = none) :
    Stops (pitchGains d m sa sb bk mem) := by
  obtain ⟨sp, f, h1, h2, rfl, hsp⟩ : ∃ sp f, Mode.pitchStart m 0 ≤ f ∧ f < Mode.pitchStart m m.np ∧ a = addr (sel sp) f ∧ (sp = sa ∨ sp = sb) := by
    rcases ha with h | h <;> obtain ⟨f, h1, h2, rfl⟩ := inRange_index h
    · exact ⟨sa, f, h1, h2, rfl, .inl rfl⟩
    · exact ⟨sb, f, h1, h2, rfl, .inr rfl⟩
  obtain ⟨k, hk, e1, e2⟩ := pitch_band m.np h1 h2
  obtain ⟨_, _, _, _, hf⟩ := pitch_bounds hm hk e1 e2
  have hnp : m.np < 65536 := by have := hm.np; have := caps.pmax.isLt; omega
  have hw : ∀ x, InRange .wgt (Mode.flatStart m 0) (Mode.flatStart m m.ne) x → x ≠ addr (sel sp) f := by
    rintro x hx rfl
    exact not_inRange_of_ne (m := sel sp) (by simp)
      (by have := hm.flatStart_le (i := m.ne) (by omega); have := ModeFacts.nmax_le caps; omega) hf hx
  refine stops_bind fun mem1 hm1 => stops_bind_left ?_
  refine stops_forUp (fun mem => Memory.read mem (addr (sel sp) f) = none) (Nat.zero_le _) hk
    (fun k' x y _ hk' hx hy => (does_bind (pitchSums_does d m sa sb k' x _) (fun _ _ _ =>
      does_pure (get := fun x => x) ((Keeps.refl (fun x => x ≠ addr (sel sp) f) x).writeElem _ (addr_ne (by simp) (by omega) hf)))).miss hy hx) (fun x hx => stops_bind_left ?_)
    (((fillWeights_does hm bk mem).mono hw).miss hm1 hn)
  refine stops_forUp (fun _ => True) e1 e2 (fun _ _ _ _ _ _ _ => trivial) (fun _ _ => ?_) trivial
  rcases hsp with rfl | rfl
  · exact stops_bind_left (stops_readElem hx)
  · exact stops_bind fun _ _ => stops_bind_left (stops_readElem hx)

/-- A pitch band of PQB does not write an address that is none of the band's. -/
theorem applyBand_misses {d : Draws} {m : Mode} {sb : Spectrum} {k : Nat} {mem : Memory} {a : Nat}
    (h : ∀ f, Mode.pitchStart m k ≤ f → f < Mode.pitchStart m (k + 1) → addr (sel sb) f ≠ a) :
    Does (fun x => x ≠ a) mem (fun x => x) (forUp (Mode.pitchStart m k) (Mode.pitchStart m (k + 1)) (fun f mem => do
      let v ← readElem (sel sb) f mem
      let g ← readElem .gains k mem
      .ok (writeElem (sel sb) f (fmul (d [k, f]) v g) mem)) mem) :=
  does_forUp (get := fun x => x) (fun f _ h1 h2 => does_readElem (fun _ _ => memWork_read_write (h f h1 h2))) mem

/-- PQB's work on an unwritten element of SB in the pitch bands. -/
theorem applyGains_stops {caps : Caps} {m : Mode} (hm : ModeFacts caps m) (d : Draws) {sb : Spectrum} {mem : Memory} {a : Nat}
    (ha : InRange (sel sb) (Mode.pitchStart m 0) (Mode.pitchStart m m.np) a) (hn : Memory.read mem a = none) :
    Stops (applyGains d m sb mem) := by
  obtain ⟨f, h1, h2, rfl⟩ := inRange_index ha
  obtain ⟨k, hk, e1, e2⟩ := pitch_band m.np h1 h2
  refine stops_bind_left (stops_forUp (fun mem => Memory.read mem (addr (sel sb) f) = none) (Nat.zero_le _) hk
    (fun k' x y _ hk' hx hy => (applyBand_misses (fun f' _ b2 he => ?_)).miss hy hx) (fun x hx => ?_) hn)
  · have := addr_index_inj.mp he
    have := hm.pitchStart_mono (i := k' + 1) (j := k) (by omega) (by omega)
    omega
  · exact stops_forUp (fun mem => Memory.read mem (addr (sel sb) f) = none) e1 e2
      (fun f' x y b1 b2 hx hy => by
        obtain ⟨_, _, hy⟩ := bind_ok.mp hy
        obtain ⟨_, _, hy⟩ := bind_ok.mp hy
        cases hy
        rw [read_writeElem, if_neg (fun he => by have := addr_index_inj.mp he; omega), hx])
      (fun x hx => stops_bind_left (stops_readElem hx)) hx

/-- PQB's work on an unwritten gain of a pitch band that has an element. -/
theorem applyGains_stops_gain {caps : Caps} {m : Mode} (hm : ModeFacts caps m) (d : Draws) (sb : Spectrum) {mem : Memory} {k : Nat}
    (hk : k < m.np) (hp : Mode.p m k < Mode.p m (k + 1)) (hn : Memory.read mem (addr .gains k) = none) :
    Stops (applyGains d m sb mem) := by
  have hnp : m.np < 65536 := by have := hm.np; have := caps.pmax.isLt; omega
  have hlt : Mode.pitchStart m k < Mode.pitchStart m (k + 1) := Nat.mul_lt_mul_of_pos_left hp hm.bq_pos
  refine stops_bind_left (stops_forUp (fun mem => Memory.read mem (addr .gains k) = none) (Nat.zero_le _) hk
    (fun k' x y _ hk' hx hy => (applyBand_misses (fun f b1 b2 => ?_)).miss hy hx) (fun x hx => ?_) hn)
  · exact addr_ne (by simp) (pitch_bounds hm (by omega) b1 b2).2.2.2.2 (by omega)
  · exact stops_forUp (fun mem => Memory.read mem (addr .gains k) = none) (Nat.le_refl _) hlt
      (fun f x y b1 b2 => absurd b2 (by omega)) (fun x hx => stops_bind fun _ _ => stops_bind_left (stops_readElem hx)) hx

/-! ### SMIX -/

/-- A band of SMIX does not write an address that is none of the band's pairs. -/
theorem mixBand_misses {d : Draws} {m : Mode} {sa : Spectrum} {i : Nat} {co : Word × Word} {mem : Memory} {a : Nat}
    (h : ∀ j, Mode.bandStart m i ≤ j → j < Mode.bandStart m (i + 1) → addr (sel sa) (2 * j) ≠ a ∧ addr (sel sa) (2 * j + 1) ≠ a) :
    Does (fun x => x ≠ a) mem (fun x => x) (forUp (Mode.bandStart m i) (Mode.bandStart m (i + 1)) (fun j mem => do
      let xl ← readElem (sel sa) (2 * j) mem
      let xr ← readElem (sel sa) (2 * j + 1) mem
      .ok (writeElem (sel sa) (2 * j + 1) (mixRight d i j co xl xr)
            (writeElem (sel sa) (2 * j) (mixLeft d i j co xl xr) mem))) mem) :=
  does_forUp (get := fun x => x) (fun j mem h1 h2 => does_readElem (fun _ _ => does_readElem (fun _ _ =>
    does_pure (get := fun x => x) (((Keeps.refl (fun x => x ≠ a) mem).writeElem _ (h j h1 h2).1).writeElem _ (h j h1 h2).2)))) mem

/-- SMIX's work on an unwritten band element of SA. -/
theorem stereoMix_stops {caps : Caps} {m : Mode} (hm : ModeFacts caps m) (hc : m.c = 2) (d : Draws) {sa : Spectrum} (bk : EnergyMem)
    (dir : Dir) {mem : Memory} {a : Nat} (ha : InRange (sel sa) (Mode.flatStart m 0) (Mode.flatStart m m.ne) a)
    (hn : Memory.read mem a = none) : Stops (stereoMix d m sa bk dir mem) := by
  obtain ⟨c, i, j, hcc, hi, j1, j2, rfl⟩ := band_address hm ha
  have hfl : Mode.flat m j c = 2 * j + c := by unfold Mode.flat; rw [hc]; omega
  rw [hfl] at hn
  refine stops_bind_left (stops_forUp (fun mem => Memory.read mem (addr (sel sa) (2 * j + c)) = none) (Nat.zero_le _) hi
    (fun i' x y _ hi' hx hy => ?_) (fun x hx => stops_bind fun _ _ => stops_bind fun _ _ => ?_) hn)
  · obtain ⟨_, _, hy⟩ := bind_ok.mp hy
    obtain ⟨_, _, hy⟩ := bind_ok.mp hy
    have hb := hm.bandStart_mono (i := i' + 1) (j := i) (by omega) (by omega)
    exact (mixBand_misses (fun j' e1 e2 => ⟨fun he => by have := addr_index_inj.mp he; omega,
      fun he => by have := addr_index_inj.mp he; omega⟩)).miss hy hx
  · refine stops_forUp (fun mem => Memory.read mem (addr (sel sa) (2 * j + c)) = none) j1 j2 (fun j' x y e1 e2 hx hy => ?_)
      (fun x hx => ?_) hx
    · obtain ⟨_, _, hy⟩ := bind_ok.mp hy
      obtain ⟨_, _, hy⟩ := bind_ok.mp hy
      cases hy
      rw [read_writeElem, if_neg (fun he => by have := addr_index_inj.mp he; omega), read_writeElem,
        if_neg (fun he => by have := addr_index_inj.mp he; omega), hx]
    · obtain rfl | rfl : c = 0 ∨ c = 1 := by omega
      · exact stops_bind_left (stops_readElem hx)
      · exact stops_bind fun _ _ => stops_bind_left (stops_readElem hx)

/-- SMIX's work on an unwritten energy. -/
theorem stereoMix_stops_energy {caps : Caps} {m : Mode} (hm : ModeFacts caps m) (hc : m.c = 2) (d : Draws) (sa : Spectrum)
    {bk : EnergyMem} (dir : Dir) {mem : Memory} {a : Nat} (ha : InRange (bank bk) 0 (m.ne * m.c) a)
    (hn : Memory.read mem a = none) : Stops (stereoMix d m sa bk dir mem) := by
  obtain ⟨i, c, hi, hcc, rfl⟩ := energy_address hm ha
  have he := hm.energyIndex_lt hi hcc
  have hidx : Mode.energyIndex m i c = 2 * i + c := by unfold Mode.energyIndex; rw [hc]; omega
  rw [hidx] at hn he
  refine stops_bind_left (stops_forUp (fun mem => Memory.read mem (addr (bank bk) (2 * i + c)) = none) (Nat.zero_le _) hi
    (fun i' x y _ hi' hx hy => ?_) (fun x hx => ?_) hn)
  · obtain ⟨_, _, hy⟩ := bind_ok.mp hy
    obtain ⟨_, _, hy⟩ := bind_ok.mp hy
    refine (mixBand_misses (fun j' e1 e2 => ?_)).miss hy hx
    have h0 := flat_lt hm (i := i') (by omega) (by omega : 0 < m.c) e1 e2
    have h1 := flat_lt hm (i := i') (by omega) (by omega : 1 < m.c) e1 e2
    unfold Mode.flat at h0 h1
    rw [hc] at h0 h1
    exact ⟨spectrum_ne_energy (by omega) (by omega), spectrum_ne_energy (by omega) (by omega)⟩
  · obtain rfl | rfl : c = 0 ∨ c = 1 := by omega
    · exact stops_bind_left (stops_readElem hx)
    · exact stops_bind fun _ _ => stops_bind_left (stops_readElem hx)

/-! ### QB, UQB -/

/-- An index outside a band is in none of the areas the band writes. -/
theorem not_bandSet_of_lt {caps : Caps} {m : Mode} (hm : ModeFacts caps m) {sa sb sp : Spectrum} {i k : Nat} (hi : i < m.ne)
    (hk : k < 65536) (h : k < Mode.flatStart m i ∨ Mode.flatStart m (i + 1) ≤ k) : ¬ BandSet m sa sb i (addr (sel sp) k) := by
  have hu := hm.flatStart_le (i := i + 1) (by omega)
  have hn := ModeFacts.nmax_le caps
  have out : ∀ sp', ¬ InRange (sel sp') (Mode.flatStart m i) (Mode.flatStart m (i + 1)) (addr (sel sp) k) := by
    intro sp' hr
    obtain ⟨j, _, j2, he⟩ := inRange_index hr
    have := ((addr_inj (by omega) (by omega)).mp he).2
    omega
  exact fun h => h.elim (out _) (fun h => h.elim (out _) (out _))

/-- QB and UQB stop if a band does that needs an element which is unwritten at the start and which no earlier band writes; the pulse
count of the band is then what the allocator gave. -/
theorem quantBands_stops {caps : Caps} {m : Mode} (hm : ModeFacts caps m) (cfg : Config) {codec : Codec} {sa sb sp : Spectrum} {s : State}
    {i k : Nat} (hi : i < m.ne) (hk : k < 65536)
    (hout : ∀ i', i' < i → k < Mode.flatStart m i' ∨ Mode.flatStart m (i' + 1) ≤ k)
    (hn : Memory.read s.mem (addr (sel sp) k) = none)
    (band : ∀ r, forUp 0 i (fun i r => quantBand cfg (Draws.sub (drawsOf cfg s) i) codec m sa sb i r) (quantPrologue cfg m s) = .ok r →
      Memory.read r.mem (addr (sel sp) k) = none → Memory.read r.mem (addr .pulses i) = some (pulsesFor cfg m s i) →
      Stops (quantBand cfg (Draws.sub (drawsOf cfg s) i) codec m sa sb i r)) :
    Stops (quantBands cfg codec m sa sb s) := by
  have hnm := ModeFacts.nmax_le caps
  have hne : m.ne < 65536 := by have := hm.ne; have := caps.emax.isLt; omega
  have start : Memory.read (quantPrologue cfg m s).mem (addr (sel sp) k) = none := by
    rw [read_prologue cfg hne s (by simp) hk, hn]
  have pulses := read_prologue_pulses cfg m s hi
  have loop : Stops (quantLoop cfg (drawsOf cfg s) codec m sa sb (quantPrologue cfg m s)) := by
    generalize quantPrologue cfg m s = r0 at start pulses band ⊢
    generalize pulsesFor cfg m s i = p at pulses band
    unfold quantLoop
    refine stops_forUp_at (body := fun i r => quantBand cfg (Draws.sub (drawsOf cfg s) i) codec m sa sb i r)
      (Nat.zero_le _) hi (fun r hr => ?_)
    have kept := forUp_inv
      (fun _ (r : QRun) => Memory.read r.mem (addr (sel sp) k) = none ∧ Memory.read r.mem (addr .pulses i) = some p)
      (Nat.zero_le i) hr ⟨start, pulses⟩ (fun i' r r' _ hi' hr hb => ?_)
    · exact band r hr kept.1 kept.2
    · have hkp := (quantBand_writes hm cfg _ codec sa sb (i := i') (by omega) r).ok hb
      have hu' := hm.flatStart_le (i := i' + 1) (by omega)
      have out : ∀ sp', ¬ InRange (sel sp') (Mode.flatStart m i') (Mode.flatStart m (i' + 1)) (addr .pulses i) :=
        fun sp' => not_inRange_of_ne (by simp) (by omega) (by omega)
      have f1 := hkp.frame (addr (sel sp) k) (not_bandSet_of_lt hm (by omega) hk (hout i' hi'))
      have f2 := hkp.frame (addr .pulses i) (fun h => h.elim (out sa) (fun h => h.elim (out sb) (out .norm)))
      exact ⟨f1.trans hr.1, f2.trans hr.2⟩
  exact stops_bind_left loop

/-- The same for an element of the band's own range. -/
theorem quantBands_stops_inside {caps : Caps} {m : Mode} (hm : ModeFacts caps m) (cfg : Config) {codec : Codec} {sa sb sp : Spectrum}
    {s : State} {i k : Nat} (hi : i < m.ne) (h1 : Mode.flatStart m i ≤ k) (h2 : k < Mode.flatStart m (i + 1))
    (hn : Memory.read s.mem (addr (sel sp) k) = none)
    (band : ∀ r, forUp 0 i (fun i r => quantBand cfg (Draws.sub (drawsOf cfg s) i) codec m sa sb i r) (quantPrologue cfg m s) = .ok r →
      Memory.read r.mem (addr (sel sp) k) = none → Memory.read r.mem (addr .pulses i) = some (pulsesFor cfg m s i) →
      Stops (quantBand cfg (Draws.sub (drawsOf cfg s) i) codec m sa sb i r)) :
    Stops (quantBands cfg codec m sa sb s) := by
  have hu := hm.flatStart_le (i := i + 1) (by omega)
  have hnm := ModeFacts.nmax_le caps
  refine quantBands_stops hm cfg hi (by omega) (fun i' hi' => .inr ?_) hn band
  have := hm.flatStart_mono (i := i' + 1) (j := i) (by omega) (by omega)
  omega

/-- QB's work on an unwritten band element of its target. -/
theorem quantBands_stops_target {caps : Caps} {m : Mode} (hm : ModeFacts caps m) (cfg : Config) {sa : Spectrum} (sb sc : Spectrum)
    {s : State} {a : Nat} (ha : InRange (sel sa) (Mode.flatStart m 0) (Mode.flatStart m m.ne) a) (hn : Memory.read s.mem a = none) :
    Stops (quantBands cfg (.encoder sc) m sa sb s) := by
  obtain ⟨k, h1, h2, rfl⟩ := inRange_index ha
  obtain ⟨i, hi, e1, e2⟩ := flat_band m.ne h1 h2
  refine quantBands_stops_inside hm cfg hi e1 e2 hn (fun r _ hr hp r' hb => ?_)
  have := (quantBand_encoder_ready hm hi hp hb).1 k (by rw [hm.flatStart_add_flatLen (by omega)]; exact e2) e1
  rw [hr] at this
  cases this

/-- QB's work on an unwritten element of SC in a band with pulses. -/
theorem quantBands_stops_weight {caps : Caps} {m : Mode} (hm : ModeFacts caps m) (cfg : Config) (sa sb : Spectrum) {sc : Spectrum}
    {s : State} {i a : Nat} (hi : i < m.ne) (hq : 0 < s32 (pulsesFor cfg m s i))
    (ha : InRange (sel sc) (Mode.flatStart m i) (Mode.flatStart m (i + 1)) a) (hn : Memory.read s.mem a = none) :
    Stops (quantBands cfg (.encoder sc) m sa sb s) := by
  obtain ⟨k, e1, e2, rfl⟩ := inRange_index ha
  refine quantBands_stops_inside hm cfg hi e1 e2 hn (fun r _ hr hp r' hb => ?_)
  have := (quantBand_encoder_ready hm hi hp hb).2 hq k (by rw [hm.flatStart_add_flatLen (by omega)]; exact e2) e1
  rw [hr] at this
  cases this

/-- QB's and UQB's work on an unwritten element of SB in a band that codes pulses in inter mode. -/
theorem quantBands_stops_prediction {caps : Caps} {m : Mode} (hm : ModeFacts caps m) (cfg : Config) (codec : Codec) (sa : Spectrum)
    {sb : Spectrum} {s : State} {a : Nat} (ha : InterPrediction cfg s m sb a) (hn : Memory.read s.mem a = none) :
    Stops (quantBands cfg codec m sa sb s) := by
  obtain ⟨i, hi, hpend, hq, ha⟩ := ha
  obtain ⟨k, e1, e2, rfl⟩ := inRange_index ha
  have hlen := hm.flatStart_add_flatLen (i := i) (by omega)
  refine quantBands_stops_inside hm cfg hi e1 e2 hn (fun r _ hr hp r' hb => ?_)
  have hinter : intraMode m i (s32 (pulsesFor cfg m s i)) = false := by
    unfold intraMode; rw [decide_eq_false (by omega), decide_eq_false (by omega)]; rfl
  have hcoded : codedPulses m i (s32 (pulsesFor cfg m s i)) = s32 (pulsesFor cfg m s i) := by
    unfold codedPulses; rw [hinter]; rfl
  unfold quantBand at hb
  rw [readElem_ok.mpr hp, ok_bind] at hb
  obtain ⟨r1, hd, hb⟩ := bind_ok.mp hb
  obtain ⟨r2, hv, _⟩ := bind_ok.mp hb
  unfold modeDecision at hd
  rw [hinter, if_neg (by decide)] at hd
  cases hd
  unfold vqStep at hv
  rw [hcoded, if_pos hq] at hv
  unfold vqCoded at hv
  obtain ⟨mem1, h1, hv⟩ := bind_ok.mp hv
  have hw : (Memory.read mem1 (addr (sel sb) k)).isSome = true := by
    cases codec with
    | encoder sc =>
      obtain ⟨mem2, g1, hv⟩ := bind_ok.mp hv
      obtain ⟨xs, _, hv⟩ := bind_ok.mp hv
      obtain ⟨ws, _, hv⟩ := bind_ok.mp hv
      obtain ⟨ps, g2, _⟩ := bind_ok.mp hv
      exact rotSlice_fresh g1 _ ((readSlice_ok g2).1 k (by rw [hlen]; exact e2) e1)
    | decoder =>
      obtain ⟨ps, g2, _⟩ := bind_ok.mp hv
      exact (readSlice_ok g2).1 k (by rw [hlen]; exact e2) e1
  have := rotSlice_fresh h1 _ hw
  rw [hr] at this
  cases this

/-- The context copy on an unwritten element of its band (45_quantiser.md R186). -/
theorem contextCopy_stops (d : Draws) {m : Mode} {sa : Spectrum} (hn : sa ≠ .norm) {i k : Nat} (h1 : Mode.flatStart m i ≤ k)
    (h2 : k < Mode.flatStart m (i + 1)) (hk : k < 65536) (hu : Mode.flatStart m (i + 1) ≤ 65536) (n : Word) {mem : Memory}
    (h : Memory.read mem (addr (sel sa) k) = none) : Stops (contextCopy d m sa i n mem) :=
  stops_forUp (fun mem => Memory.read mem (addr (sel sa) k) = none) h1 h2
    (fun f x y _ hf hx hy => by
      obtain ⟨_, _, hy⟩ := bind_ok.mp hy
      cases hy
      rw [read_writeElem, if_neg (addr_ne (sel_ne hn.symm) (by omega) hk), hx])
    (fun _ hx => stops_bind_left (stops_readElem hx)) h

/-- UQB's work on an unwritten element of SA in a band that nothing fills before the context copy reads it. -/
theorem quantBands_stops_copy {caps : Caps} {m : Mode} (hm : ModeFacts caps m) (cfg : Config) {sa sb : Spectrum} (hd : Distinct sa sb)
    {s : State} {a : Nat} (ha : UnfilledBand cfg s m sa sb a) (hn : Memory.read s.mem a = none) :
    Stops (quantBands cfg .decoder m sa sb s) := by
  obtain ⟨i, hi, ha, hq, hans⟩ := ha
  obtain ⟨k, e1, e2, rfl⟩ := inRange_index ha
  have hu := hm.flatStart_le (i := i + 1) (by omega)
  have hnm := ModeFacts.nmax_le caps
  have hl := hm.flatStart_add_flatLen (i := i) (by omega)
  have miss : ∀ (ps : Nat → Word) (mem : Memory), Memory.read mem (addr (sel sa) k) = none →
      Memory.read (writeIntra m sa sb i ps none mem) (addr (sel sa) k) = none := fun ps mem h =>
    (read_writeBand_ne (sel_ne hd.ab) (by omega) (by omega)).trans h
  refine quantBands_stops_inside hm cfg hi e1 e2 hn (fun r hrun hr hp r' hb => ?_)
  have hans := fun nctx => hans r nctx hrun
  unfold quantBand at hb
  rw [readElem_ok.mpr hp, ok_bind] at hb
  generalize s32 (pulsesFor cfg m s i) = q0 at hq hans hb
  have hintra : intraMode m i q0 = true := by
    unfold intraMode; simp only [Bool.or_eq_true, decide_eq_true_eq]; omega
  have hcoded : ¬ 0 < codedPulses m i q0 := by unfold codedPulses; rw [if_pos hintra]; omega
  obtain ⟨r1, h1, hb⟩ := bind_ok.mp hb
  obtain ⟨r2, h2, hb⟩ := bind_ok.mp hb
  obtain ⟨mem, h3, _⟩ := bind_ok.mp hb
  unfold vqStep at h2
  rw [if_neg hcoded] at h2
  cases h2
  refine contextCopy_stops _ hd.an e1 e2 (by omega) (by omega) _ ?_ mem h3
  unfold modeDecision at h1
  rw [if_pos hintra] at h1
  split at h1
  · obtain ⟨ans, h4, h1⟩ := bind_ok.mp h1
    obtain ⟨nctx, h5, h4⟩ := bind_ok.mp h4
    cases h4
    cases h1
    dsimp only
    rw [(hans nctx h5).1 (by omega)]
    exact miss _ _ hr
  · obtain rfl : q0 = 1 := by omega
    obtain ⟨ans, h4, h1⟩ := bind_ok.mp h1
    obtain ⟨nctx, h5, h4⟩ := bind_ok.mp h4
    cases h4
    cases h1
    dsimp only
    rw [show (1 : Int) - 1 = 0 from rfl, (hans nctx h5).2 rfl]
    exact miss _ _ hr

/-- QB's and UQB's work on an unwritten element of the NORM prefix, when a band takes intra mode. -/
theorem quantBands_stops_context {caps : Caps} {m : Mode} (hm : ModeFacts caps m) (cfg : Config) (codec : Codec) (sa sb : Spectrum)
    {s : State} {a : Nat} (ha : IntraContext cfg s m a) (hn : Memory.read s.mem a = none) :
    Stops (quantBands cfg codec m sa sb s) := by
  obtain ⟨⟨i, hi, hmode⟩, ha⟩ := ha
  obtain ⟨k, _, e2, rfl⟩ := inRange_index ha
  have hu := hm.flatStart_le (i := 0) (by omega)
  have hnm := ModeFacts.nmax_le caps
  have hle := hm.flatStart_mono (Nat.zero_le i) (by omega)
  refine quantBands_stops hm cfg hi (by omega) (fun i' hi' => .inl ?_) hn (fun r _ hr hp r' hb => ?_)
  · have := hm.flatStart_mono (Nat.zero_le i') (by omega)
    omega
  · have hintra : intraMode m i (s32 (pulsesFor cfg m s i)) = true := by
      unfold intraMode; simp only [Bool.or_eq_true, decide_eq_true_eq]; exact hmode
    have hctx : Stops (intraContext m i r.mem) := stops_readSlice hr (Nat.zero_le _) (by omega)
    unfold quantBand at hb
    rw [readElem_ok.mpr hp, ok_bind] at hb
    obtain ⟨r1, hd, _⟩ := bind_ok.mp hb
    unfold modeDecision at hd
    rw [if_pos hintra] at hd
    split at hd
    · obtain ⟨ans, h3, _⟩ := bind_ok.mp hd
      obtain ⟨nctx, h4, _⟩ := bind_ok.mp h3
      exact hctx _ h4
    · obtain ⟨ans, h3, _⟩ := bind_ok.mp hd
      obtain ⟨nctx, h4, _⟩ := bind_ok.mp h3
      exact hctx _ h4

end Sys2Proof.Machine
end

