-- ==== Sys2Proof/Tests/Slice0.lean ====
section
/-! SUPPORT. Tests. Part 1: each check of WellFormed refuses an ill-formed term. Part 2: words written out from R81 and R84 decode to the
command they stand for. Part 3: the worked vectors of 95_test_vectors.md, one step each. Part 4: for every statement that has
hypotheses, a state and operands that meet them. -/

namespace Sys2Proof.Tests

open Sys2Proof Sys2Proof.Machine Sys2Proof.Machine.F32

/-! ### Part 1: WellFormed (20_memory.md R73) -/

theorem test_qb_refuses_sa_sb : (Instr.qb .x .x .w).WellFormed = false := by decide
theorem test_qb_refuses_sa_sc : (Instr.qb .x .p .x).WellFormed = false := by decide
theorem test_qb_refuses_sb_sc : (Instr.qb .x .p .p).WellFormed = false := by decide
theorem test_qb_refuses_sa_norm : (Instr.qb .norm .p .w).WellFormed = false := by decide
theorem test_qb_refuses_sb_norm : (Instr.qb .x .norm .w).WellFormed = false := by decide
theorem test_qb_refuses_sc_norm : (Instr.qb .x .p .norm).WellFormed = false := by decide
theorem test_uqb_refuses_sa_sb : (Instr.uqb .x .x).WellFormed = false := by decide
theorem test_uqb_refuses_sa_norm : (Instr.uqb .norm .p).WellFormed = false := by decide
theorem test_uqb_refuses_sb_norm : (Instr.uqb .x .norm).WellFormed = false := by decide
theorem test_wellformed_accepts : (Instr.qb .x .p .w).WellFormed = true ∧ (Instr.uqb .x .p).WellFormed = true := by decide

/-! ### Part 2: decoding. Each word is written in the field order of R81: OPC, SA, SB, SC, BK, DIR, RSV. -/

theorem test_word_cbe : decode 0b00000001_0001_0000_0000_1_0_0000000000 = .ok (.cbe .x .tmpe) := by rfl
theorem test_word_nrm : decode 0b00000010_0000_0001_0000_0_0_0000000000 = .ok (.nrm .freq .x .bank) := by rfl
theorem test_word_dnrm : decode 0b00000011_0100_0011_0000_1_0_0000000000 = .ok (.dnrm .norm .w .tmpe) := by rfl
theorem test_word_rnrm : decode 0b00000100_0001_0000_0000_0_0_0000000000 = .ok (.rnrm .x) := by rfl
theorem test_word_rot : decode 0b00000101_0001_0000_0000_0_1_0000000000 = .ok (.rot .x .minus) := by rfl
theorem test_word_cpg : decode 0b00000110_0001_0010_0000_0_0_0000000000 = .ok (.cpg .x .p .bank) := by rfl
theorem test_word_pqb : decode 0b00000111_0000_0010_0000_0_0_0000000000 = .ok (.pqb .p) := by rfl
theorem test_word_qb : decode 0b00001000_0001_0010_0011_0_0_0000000000 = .ok (.qb .x .p .w) := by rfl
theorem test_word_uqb : decode 0b00001001_0001_0010_0000_0_0_0000000000 = .ok (.uqb .x .p) := by rfl
theorem test_word_smix : decode 0b00001010_0000_0000_0000_1_1_0000000000 = .ok (.smix .freq .tmpe .minus) := by rfl

/-- V-X1 to V-X10: the illegal words of section 2.7. -/
theorem test_illegal_words :
    [0x00000000, 0xFFFFFFFF, 0x0B000000, 0x01500000, 0x01010000, 0x04000800, 0x07100000, 0x09120400, 0x05000800,
      0x01000001].all (fun w => (decodeTableWord 32 w).isNone) = true := by decide

/-! ### Part 3: one step each, from 95_test_vectors.md. Words: 1 = 0x3F800000, 3 = 0x40400000, 4 = 0x40800000, and so on. -/

/-- The capacities the vectors assume: NMAX 64, EMAX 8, PMAX 8; a coder state of 10. -/
def base : State := { State.reset with caps := ⟨63, 8, 8⟩, ec := ⟨10⟩ }

def put (m : MemName) (ws : List Word) (s : State) : State := { s with mem := writeSlice m 0 ws s.mem }

/-- A mode written `B, C, e, p, PEND`. -/
def mode (b c : Word) (e p : List Word) (pend : Word) : State :=
  put .pbands p (put .ebands e
    { base with modeB := b, modeC := c, modeNE := BitVec.ofNat 32 (e.length - 2), modeNP := BitVec.ofNat 32 (p.length - 2),
                modePEND := pend })

/-- The outcome is a next state that passes a check. -/
def nextAnd (o : Host.Outcome State Fault Refusal) (p : State → Bool) : Bool :=
  match o with
  | .next t => p t
  | .fault _ => false
  | .refused _ => false

/-- The first elements of a memory. -/
def shows (t : State) (m : MemName) (ws : List Word) : Bool :=
  ((List.range ws.length).map fun k => Memory.read t.mem (addr m k)) == ws.map some

/-- Stub collaborators of section 2.6, with the sine and cosine the vectors give. -/
def stub (pl : List Word) : Config :=
  { (default : Config) with
    fcos := fun t => if t = 0x3DCCCCCD then 0x3F7EB898 else if t = 0x3B93FC0A then 0x3F7FFF55 else 0x3F7FFE8B
    fsin := fun t => if t = 0x3DCCCCCD then 0x3DCC7577 else if t = 0x3B93FC0A then 0x3B93FBE9 else 0x3BDA73A5
    bitsUsed := fun c => c.code
    computeAllocation := fun _ i => pl.getD i 0
    algQuant := fun r => { xs := fun k => if k + 1 = r.len then 0xBF800000 else 0, ec := ⟨r.ec.code + r.q.toNat⟩ }
    algUnquant := fun r => { xs := fun k => if k + 1 = r.len then 0xBF800000 else 0, ec := ⟨r.ec.code + r.q.toNat⟩ }
    intraFold := fun _ => { ps := fun _ => 0, xs := some fun k => if k = 0 then 0x3F800000 else 0 }
    intraPrediction := fun r => { ps := fun _ => 0, xs := none, ec := ⟨r.ec.code + 1⟩ }
    intraUnquant := fun r => { ps := fun _ => 0, xs := none, ec := ⟨r.ec.code + 1⟩ } }

def zeros (n : Nat) : List Word := List.replicate n 0

/-- Mode of V-A3 with its FREQ. -/
def bands2 : State := put (sel .freq) [0x40400000, 0x40800000, 0, 0, 0x3F800000, 0x3F800000, 0x3F800000, 0x3F800000,
  0x40E00000, 0x40E00000] (mode 2 1 [0, 2, 4, 5] [0, 4, 5] 0)

/-- Mode and FREQ of V-A4. -/
def stereo : State := put (sel .freq) ([0x3F800000, 0, 0, 0x3F800000] ++ zeros 4 ++ [0x40C00000, 0x40C00000])
  (mode 1 2 [0, 4, 5] [0, 4, 5] 0)

/-- V-A3. -/
theorem test_cbe_two_bands :
    nextAnd (exec (.cbe .freq .bank) bands2) (fun t => shows t (bank .bank) [0x40A00000, 0x40000000] && t.seq == 1) = true := by
  decide

/-- V-A4: the energies interleave by channel. -/
theorem test_cbe_stereo :
    nextAnd (exec (.cbe .freq .bank) stereo) (fun t => shows t (bank .bank) [0x3F800000, 0x3F800000]) = true := by decide

/-- V-B2, first command; the padding that held 7 is zeroed in X alone. -/
theorem test_nrm_two_bands :
    nextAnd (exec (.nrm .freq .x .bank) (put (bank .bank) [0x40A00000, 0x40000000] bands2)) (fun t =>
      shows t (sel .x) [0x3F19999A, 0x3F4CCCCD, 0, 0, 0x3F000000, 0x3F000000, 0x3F000000, 0x3F000000, 0, 0]) = true := by decide

/-- V-B3: SQRT_C of two channels. -/
theorem test_nrm_stereo :
    nextAnd (exec (.nrm .freq .x .bank) (put (bank .bank) [0x3F800000, 0x3F800000] stereo)) (fun t =>
      shows t (sel .x) ([0x3F3504F3, 0, 0, 0x3F3504F3] ++ zeros 6)) = true := by decide

/-- V-B3, second command. -/
theorem test_dnrm_stereo :
    nextAnd (exec (.dnrm .freq .freq .bank)
      (put (sel .freq) ([0x3F3504F3, 0, 0, 0x3F3504F3] ++ zeros 4 ++ [0x40C00000, 0x40C00000])
        (put (bank .bank) [0x3F800000, 0x3F800000] stereo))) (fun t =>
      shows t (sel .freq) ([0x3F7FFFFF, 0, 0, 0x3F7FFFFF] ++ zeros 6)) = true := by decide

/-- V-B8: one command, TMPE and X. -/
theorem test_rnrm :
    nextAnd (exec (.rnrm .freq) bands2) (fun t => shows t (bank .tmpe) [0x40A00000, 0x40000000] && t.seq == 1 &&
      shows t (sel .freq) [0x3F19999A, 0x3F4CCCCD, 0, 0, 0x3F000000, 0x3F000000, 0x3F000000, 0x3F000000, 0, 0]) = true := by
  decide

def rotState (off len stride iter theta : Word) (xs : List Word) : State :=
  put (sel .x) xs { base with rotOff := off, rotLen := len, rotStride := stride, rotIter := iter, rotTheta := theta }

/-- V-C8: the slice is inside the memory. -/
theorem test_rot_slice :
    nextAnd (rot (stub []) .x .plus (rotState 2 3 1 1 0x3DCCCCCD [0x41100000, 0x41100000, 0x3F800000, 0, 0, 0x41100000]))
      (fun t => shows t (sel .x) [0x41100000, 0x41100000, 0x3F7AE8E9, 0x3E4AEDE2, 0x3C234B6C, 0x41100000]) = true := by decide

/-- V-C3: the direction. -/
theorem test_rot_minus :
    nextAnd (rot (stub []) .x .minus (rotState 0 3 1 1 0x3DCCCCCD [0x3F800000, 0, 0]))
      (fun t => shows t (sel .x) [0x3F7AE8E9, 0xBE4AEDE2, 0x3C234B6C]) = true := by decide

def pitchState (p xs ps bk : List Word) : State :=
  put (sel .x) xs (put (sel .p) ps (put (bank .bank) bk (mode 1 1 [0, 2, 4, 5] p 0)))

/-- V-D3: a negative correlation clips to 0. -/
theorem test_cpg_gains :
    nextAnd (exec (.cpg .x .p .bank) (pitchState [0, 2, 4, 5] [0x3F800000, 0, 0, 0x3F800000, 0]
      [0x3F000000, 0x3F000000, 0, 0xBF800000, 0x40800000] [0x40800000, 0x3E800000])) (fun t =>
      shows t .gains [0x3EE66666, 0] && shows t (sel .p) [0x3F000000, 0x3F000000, 0, 0xBF800000, 0] &&
      shows t .wgt [0x40800000, 0x40800000, 0x3E800000, 0x3E800000]) = true := by decide

/-- V-D8: the weight of an element is its own channel's. -/
theorem test_cpg_stereo :
    nextAnd (exec (.cpg .x .p .bank) (put (sel .x) [0x3F800000, 0x3F800000, 0x3F800000, 0x3F800000, 0, 0]
      (put (sel .p) [0x3F800000, 0, 0x3F800000, 0, 0x40A00000, 0x40A00000] (put (bank .bank) [0x3F800000, 0x40400000]
        (mode 1 2 [0, 2, 3] [0, 2, 3] 0))))) (fun t =>
      shows t .gains [0x3E666666] && shows t .wgt [0x3F800000, 0x40400000, 0x3F800000, 0x40400000] &&
      shows t (sel .p) [0x3F800000, 0, 0x3F800000, 0, 0, 0]) = true := by decide

/-- V-D11: a product that is -0.0. -/
theorem test_pqb :
    nextAnd (exec (.pqb .p) (put .gains [0x3F600000, 0] (pitchState [0, 2, 4, 5] []
      [0x3F19999A, 0x3F4CCCCD, 0x3F3504F3, 0xBF3504F3, 0] []))) (fun t =>
      shows t (sel .p) [0x3F066667, 0x3F333333, 0, 0x80000000, 0]) = true := by decide

/-- V-G6: two bands, each with its own coefficients. -/
theorem test_smix_plus :
    nextAnd (exec (.smix .freq .bank .plus) (put (sel .freq) [0x3F800000, 0x3F800000, 0x3F800000, 0x3F800000, 0x40E00000, 0x40E00000]
      (put (bank .bank) [0x40400000, 0x40800000, 0x3F800000, 0] (mode 1 2 [0, 1, 2, 3] [0, 2, 3] 0)))) (fun t =>
      shows t (sel .freq) [0x3FB32A07, 0xBE4CC250, 0x3F7EBAC1, 0x3F7EBAC1, 0, 0]) = true := by decide

/-- V-G2b: the direction. -/
theorem test_smix_minus :
    nextAnd (exec (.smix .freq .bank .minus) (put (sel .freq) ([0x43FA0000, 0x37800000] ++ zeros 8)
      (put (bank .bank) [0x43960000, 0x43C80000] stereo))) (fun t =>
      shows t (sel .freq) ([0x43960000, 0x43C80000] ++ zeros 8)) = true := by decide

/-- Mode Q of section 2.6 with P. -/
def modeQ (pend bits : Word) : State :=
  put (sel .p) [0x3F4CCCCD, 0x3F19999A, 0x3F800000, 0, 0, 0x3F800000, 0x40A00000]
    { mode 1 1 [0, 2, 4, 6, 7] [0, 4, 7] pend with totalBits := bits }

def modeQX (pend bits : Word) : State :=
  put (sel .w) (List.replicate 7 0x3F800000)
    (put (sel .x) [0x3F19999A, 0x3F4CCCCD, 0x3F4CCCCD, 0xBF19999A, 0x3F800000, 0, 0x40A00000] (modeQ pend bits))

/-- P4's end state of X, P, NORM and PULSES. -/
def showsP4 (t : State) : Bool :=
  shows t (sel .x) [0x3F800000, 0, 0x3D5A598B, 0xBF7FA2CD, 0x3D13F3CD, 0xBF7FD53B, 0] &&
  shows t (sel .p) [0, 0, 0x3F7FA2CD, 0xBD5A598B, 0, 0, 0x40A00000] &&
  shows t (sel .norm) [0x3DB504F3, 0, 0x3B9A6588, 0xBDB4C30C, 0x3B513C78, 0xBDB4E6B5] && shows t .pulses [0, 2, 3] &&
  t.ec == ⟨15⟩

/-- P4: an intra band, an inter band with alpha 0, an intra band with pulses. -/
theorem test_qb_p4 :
    nextAnd (qb (stub [0, 2, 3]) .x .p .w (modeQX 4 100)) (fun t => showsP4 t && t.bits == 89 && t.seq == 1) = true := by
  decide +kernel

/-- V-F4: all the work is done, then BUDGET_OVERRUN. -/
theorem test_qb_overrun :
    nextAnd (qb (stub [0, 2, 3]) .x .p .w (modeQX 4 14)) (fun t =>
      showsP4 t && t.bits == 3 && t.halt && t.cause == 6 && t.info == 15 && t.seq == 0) = true := by
  decide +kernel

/-- P4's decoder half, with X never written. -/
theorem test_uqb_p4 :
    nextAnd (uqb (stub [0, 2, 3]) .x .p (modeQ 4 100)) (fun t => showsP4 t && t.bits == 89 && t.seq == 1) = true := by
  decide +kernel

/-- V-F3: the decoder's third band stays unwritten and the context copy reads it. -/
theorem test_uqb_unwritten :
    uqb (stub [3, 3, 1]) .x .p (modeQ 4 100) = .fault (.unwritten (sel .x) 4) := by rfl

/-- A fault's registers. -/
def faulted (o : Host.Outcome State Fault Refusal) (code : BitVec 8) (info : Word) : Bool :=
  nextAnd o fun t => t.halt && t.cause == code && t.info == info && t.seq == 0

/-- V-X11, V-X12, V-X13 and V-C10, V-F5, V-G7: the fault a command raises. -/
theorem test_faults :
    faulted (exec (.cbe .freq .bank) base) 3 1 = true ∧
    faulted (exec (.smix .freq .bank .plus) (mode 1 3 [0, 8, 9] [0, 8, 9] 0)) 3 2 = true ∧
    faulted (exec (.cbe .freq .bank) { mode 1 1 [0, 8, 9] [0, 8, 9] 0 with modeNE := 9 }) 3 3 = true ∧
    faulted (exec (.rot .x .plus) { base with rotOff := 60, rotLen := 5 }) 5 65 = true ∧
    faulted (exec (.qb .x .x .w) (modeQ 4 100)) 2 0x08113000 = true ∧
    faulted (exec (.smix .freq .bank .plus) (mode 1 1 [0, 4, 5] [0, 4, 5] 0)) 2 0x0A000000 = true := by decide

/-- P5: the first command after reset, one while halted, and the soft reset. -/
theorem test_first_command_after_reset :
    nextAnd (step (State.reset.withFetchWord 32 0x01000000)) (fun t => t.halt && t.cause == 3 && t.info == 1) = true := by decide

theorem test_illegal_command_after_reset :
    nextAnd (step (State.reset.withFetchWord 32 0x01500000)) (fun t => t.halt && t.cause == 1 && t.info == 0x01500000) = true := by
  decide

/-- Binary32: the smallest subnormal halved ties to zero; the largest finite value doubled is an infinity; 1/3. -/
theorem test_rounding :
    fmul 0 0x00000001 0x3F000000 = 0 ∧ fadd 0 0x7F7FFFFF 0x7F7FFFFF = 0x7F800000 ∧ fdiv 0 0x3F800000 0x40400000 = 0x3EAAAAAB ∧
    fsqrt 0 0x40000000 = 0x3FB504F3 ∧ i2f 16777217 = 0x4B800000 ∧ i2f (-3) = 0xC0400000 := by decide

/-! ### Part 4: witnesses. `full` has NMAX 4, EMAX 1, PMAX 1 and every element written: one band of two elements and one padding
position in two channels, and a ROT slice that ends at NMAX. -/

def full : State :=
  put .ebands [0, 1, 2] <| put .pbands [0, 1, 2] <| put (sel .freq) [ONE, 0, 0xBF800000, ONE] <| put (sel .x) [ONE, ONE, ONE, ONE] <|
  put (sel .p) [ONE, 0, 0, ONE] <| put (sel .w) [ONE, ONE, ONE, ONE] <| put (sel .norm) [0, 0, 0, 0] <|
  put (bank .bank) [ONE, ONE] <| put (bank .tmpe) [ONE, 0] <| put .gains [K_GAIN] <| put .pulses [1] <| put .wgt [0, 0, 0, 0]
  { State.reset with caps := ⟨3, 1, 1⟩, ec := ⟨10⟩, modeB := 1, modeC := 2, modeNE := 1, modeNP := 1, modePEND := 1,
                     totalBits := 100, rotOff := 1, rotLen := 3 }

def fullMode : Mode := { b := 1, c := 2, ne := 1, np := 1, pend := 1, ebands := [0, 1, 2], pbands := [0, 1, 2] }

/-- `full` with one channel. -/
def mono : State := { full with modeC := 1 }

def monoMode : Mode := { fullMode with c := 1 }

/-- ModeCheck as a test. -/
def passes (s : State) : Nat → Bool
  | 1 => decide (1 ≤ u32 s.modeB)
  | 2 => decide (u32 s.modeC = 1 ∨ u32 s.modeC = 2)
  | 3 => decide (u32 s.modeNE ≤ s.caps.emax.val ∧ u32 s.modeNP ≤ s.caps.pmax.val)
  | 4 => decide (∀ k, k ≤ u32 s.modeNE → tableVal s .ebands k < tableVal s .ebands (k + 1))
  | 5 => decide (∀ k, k ≤ u32 s.modeNP → tableVal s .pbands k ≤ tableVal s .pbands (k + 1))
  | 6 => decide (tableVal s .ebands 0 ≤ tableVal s .pbands 0 ∧
      tableVal s .pbands (u32 s.modeNP) ≤ tableVal s .ebands (u32 s.modeNE))
  | 7 => decide (tableVal s .pbands (u32 s.modeNP + 1) ≤ tableVal s .ebands (u32 s.modeNE + 1))
  | 8 => decide (∃ k, k ≤ u32 s.modeNE + 1 ∧ u32 s.modePEND = tableVal s .ebands k)
  | _ => true

theorem passes_iff (s : State) (k : Nat) : passes s k = true ↔ ModeCheck s k := by
  unfold passes ModeCheck
  split <;> simp

def tablesTest (s : State) (k : Nat) : Bool :=
  decide ((4 ≤ k → Written s.mem .ebands 0 (u32 s.modeNE + 2)) ∧ (5 ≤ k → Written s.mem .pbands 0 (u32 s.modeNP + 2)))

theorem firstFailed_of {s : State} {k : Nat}
    (h : (decide (1 ≤ k) && decide (k ≤ 8) && tablesTest s k && (List.range k).all (passes s) && !passes s k) = true) :
    FirstFailedCheck s k := by
  simp only [Bool.and_eq_true, decide_eq_true_eq, tablesTest, List.all_eq_true, List.mem_range, Bool.not_eq_true'] at h
  obtain ⟨⟨⟨⟨h1, h2⟩, h3⟩, h4⟩, h5⟩ := h
  exact ⟨h1, h2, h3, fun j _ hj => (passes_iff s j).mp (h4 j hj), fun hc => by rw [(passes_iff s k).mpr hc] at h5; cases h5⟩

theorem modeValid_of {s : State} (h : (tablesTest s 8 && (List.range 9).all (passes s)) = true) : ModeValid s := by
  simp only [Bool.and_eq_true, decide_eq_true_eq, tablesTest, List.all_eq_true, List.mem_range] at h
  exact ⟨h.1, fun j _ hj => (passes_iff s j).mp (h.2 j (by omega))⟩

theorem full_mode : ModeOk full fullMode :=
  ⟨by unfold HoldsMode; decide, modeValid_of (by decide), by decide⟩

theorem mono_mode : ModeOk mono monoMode :=
  ⟨by unfold HoldsMode; decide, modeValid_of (by decide), by decide⟩

theorem next_of {o : Host.Outcome State Fault Refusal} {p : State → Bool} (h : nextAnd o p = true) :
    ∃ t, o = .next t ∧ p t = true := by
  cases o with
  | next t => exact ⟨t, rfl, h⟩
  | fault f => cases h
  | refused r => cases h

/-! Runs of `full` through `exec`, whose configuration nobody can evaluate. -/

def running (t : State) : Bool := !t.halt

theorem full_cbe : nextAnd (exec (.cbe .freq .bank) full) running = true := by decide
theorem full_nrm : nextAnd (exec (.nrm .freq .x .bank) full) running = true := by decide
theorem full_dnrm : nextAnd (exec (.dnrm .x .freq .bank) full) running = true := by decide
theorem full_rnrm : nextAnd (exec (.rnrm .x) full) running = true := by decide
theorem full_rot : nextAnd (exec (.rot .x .minus) full) running = true := by decide
theorem full_cpg : nextAnd (exec (.cpg .x .p .bank) full) running = true := by decide
theorem full_pqb : nextAnd (exec (.pqb .p) full) running = true := by decide
theorem full_smix : nextAnd (exec (.smix .x .bank .minus) full) running = true := by decide

theorem full_facts : ModeFacts full.caps fullMode := by
  refine checkMode_facts (s := full) ?_
  rfl

theorem concludeQuant_next {cfg : Config} {s : State} {t : State} : ∃ u, concludeQuant cfg s (.ok t) = .next u ∧
    (u.halt = t.halt ∨ u.cause = 0x06) := by
  unfold concludeQuant
  dsimp only
  split
  · exact ⟨_, rfl, .inr rfl⟩
  · exact ⟨_, rfl, .inl rfl⟩

theorem full_after_prologue (cfg : Config) {a : Nat} (h : (Memory.read full.mem a).isSome = true) :
    (Memory.read (quantPrologue cfg fullMode full).mem a).isSome = true :=
  (quantPrologue_keeps cfg fullMode .x .p full).grows a h

theorem full_band (sp : Spectrum) {i k : Nat} (hi : i < fullMode.ne) (hk : k < Mode.flatStart fullMode i + Mode.flatLen fullMode i) :
    (Memory.read full.mem (addr (sel sp) k)).isSome = true := by
  have hi : i = 0 := Nat.lt_one_iff.mp hi
  subst hi
  have hk : k < 2 := hk
  revert k
  cases sp <;> decide

theorem full_qb : ∃ t, exec (.qb .x .p .w) full = .next t ∧ (t.halt = false ∨ t.cause = 0x06) := by
  obtain ⟨mem, h1, _⟩ := quantBands_vals full_facts Config.hw (.encoder .w) (sa := .x) (sb := .p) ⟨by decide, by decide, by decide⟩ full
    (w := some (vals (quantPrologue Config.hw fullMode full).mem (sel .w))) ⟨by decide, by decide, by decide, _, rfl, fun _ _ => rfl⟩
    (by decide) (by decide)
    (fun i r hi hg => ⟨fun k hk _ => hg _ (full_after_prologue _ (full_band .x hi hk)),
      fun _ k hk _ => hg _ (full_after_prologue _ (full_band .w hi hk))⟩)
  have : exec (.qb .x .p .w) full = concludeQuant Config.hw full (quantBands Config.hw (.encoder .w) fullMode .x .p full) := rfl
  rw [this, h1]
  exact concludeQuant_next

theorem full_uqb : ∃ t, exec (.uqb .x .p) full = .next t ∧ (t.halt = false ∨ t.cause = 0x06) := by
  obtain ⟨mem, h1, _⟩ := quantBands_vals full_facts Config.hw .decoder (sa := .x) (sb := .p) ⟨by decide, by decide, by decide⟩ full
    (w := none) rfl (by decide) (by decide)
    (fun i r hi hg => .inl (fun k hk _ => hg _ (full_after_prologue _ (full_band .x hi hk))))
  have : exec (.uqb .x .p) full = concludeQuant Config.hw full (quantBands Config.hw .decoder fullMode .x .p full) := rfl
  rw [this, h1]
  exact concludeQuant_next

/-- The state in which the host's next move is this one. -/
def about (mv : HostMove) (s : State) : State := { s with moves := [mv] }

def halted : State := { full with halt := true, cause := 3, info := 8 }

theorem test_witness_StepRunsDecodedCommand :
    ((about (commandMove 0x05100400) full).busy = false ∧ (about (commandMove 0x05100400) full).halt = false ∧
      (about (commandMove 0x05100400) full).moves = .write 0x00 0x06 0x05100400 :: [] ∧ decode 0x05100400 = .ok (.rot .x .minus)) ∧
    (State.reset.busy = false ∧ State.reset.halt = false ∧ decodeTableWord 32 0x05100400 = some (.rot .x .minus)) :=
  ⟨⟨rfl, rfl, rfl, rfl⟩, rfl, rfl, rfl⟩

theorem test_witness_IllegalWordRaisesIllegalCmd :
    (about (commandMove 0) full).busy = false ∧ (about (commandMove 0) full).halt = false ∧
      (about (commandMove 0) full).moves = .write 0x00 0x06 0 :: [] ∧ IllegalWord 0 := ⟨rfl, rfl, rfl, .inl rfl⟩

/-- Each clause: a write to CMD, to STATUS and to the last element of FREQ; a read of that element and of STATUS. -/
theorem test_witness_HaltedCoreIgnoresWritesAndAnswersReads :
    halted.halt = true ∧ halted.busy = false ∧
    (about (.write 0x00 0x06 0x01000000) halted).moves = .write 0x00 0x06 0x01000000 :: [] ∧
    ¬((0x00 : BitVec 8) = 0x00 ∧ (0x06 : BitVec 16) = 0x01) ∧ ¬((0x00 : BitVec 8) = 0x00 ∧ (0x02 : BitVec 16) = 0x01) ∧
    (about (.read 0x10 3) halted).moves = .read 0x10 3 :: [] ∧ hostRead { halted with halt := false } 0x10 3 = .ok ONE ∧
    ¬((0x10 : BitVec 8) = 0x00 ∧ (3 : BitVec 16) = 0x02) ∧
    (about (.read 0x00 0x02) halted).moves = .read 0x00 0x02 :: [] := by
  refine ⟨rfl, rfl, rfl, by decide, by decide, rfl, rfl, by decide, rfl⟩

/-- Both resets leave HALT, and a command runs in a halted state if `exec` is asked to. -/
theorem test_witness_OnlyResetLeavesHalt :
    (∃ t, step (about (.write 0x00 0x01 0xFFFFFFFF) halted) = .next t ∧ t.halt = false) ∧
    (∃ t, step (about .powerOnReset halted) = .next t ∧ t.halt = false) ∧
    (∃ t, exec (.rot .x .minus) halted = .next t ∧ halted.halt = true) := by
  refine ⟨⟨_, rfl, rfl⟩, ⟨_, rfl, rfl⟩, ?_⟩
  obtain ⟨t, h, _⟩ := next_of (o := exec (.rot .x .minus) halted) (p := fun _ => true) (by decide)
  exact ⟨t, h, rfl⟩

theorem test_witness_ResetRestoresEveryRegister :
    halted.busy = false ∧ (1 : Word).getLsbD 0 = true ∧ (about (.write 0x00 0x01 1) halted).moves = .write 0x00 0x01 1 :: [] ∧
    (about .powerOnReset halted).moves = .powerOnReset :: [] ∧
    (0xFFFFFFFE : Word).getLsbD 0 = false ∧
    (about (.write 0x00 0x01 0xFFFFFFFE) halted).moves = .write 0x00 0x01 0xFFFFFFFE :: [] ∧
    readsMode (.cbe .freq .bank) = true := ⟨rfl, by decide, rfl, rfl, by decide, rfl, rfl⟩

/-- An RW register, an index with no register, and the RO register ID. -/
theorem test_witness_RegisterWriteReadsBack :
    full.halt = false ∧ full.busy = false ∧ (about (.write 0x00 0x24 7) full).moves = .write 0x00 0x24 7 :: [] ∧
    ((0x24 : BitVec 16) ≠ 0x01 ∧ (0x24 : BitVec 16) ≠ 0x06) ∧ ((0x25 : BitVec 16) ≠ 0x01 ∧ (0x25 : BitVec 16) ≠ 0x06) ∧
    ((0x00 : BitVec 16) ≠ 0x01 ∧ (0x00 : BitVec 16) ≠ 0x06) := by decide

/-- The last listed index of WGT and the one above it; the last index of a space that is not there. -/
theorem test_witness_MemoryWriteReadsBack :
    full.halt = false ∧ full.busy = false ∧ (about (.write 0x24 3 7) full).moves = .write 0x24 3 7 :: [] ∧ (0x24 : BitVec 8) ≠ 0 ∧
    addrMapped full.caps (0x24 * 65536 + 3) = true ∧ addrMapped full.caps (0x24 * 65536 + 4) = false ∧
    addrMapped full.caps (0x25 * 65536 + 65535) = false ∧ ¬((0x24 : Nat) = 0x24 ∧ (4 : Nat) = 3) := by decide

theorem test_witness_AddressMapListsTheTable :
    (65535 : Nat) < 65536 ∧ addrMapped ⟨65535, 65534, 65534⟩ (0x10 * 65536 + 65535) = true ∧
    addrMapped ⟨3, 0, 0⟩ (0x20 * 65536 + 1) = false := by decide

theorem test_witness_HostReadHasNoSideEffect :
    (about (.read 0x10 3) full).busy = false ∧ (about (.read 0x10 3) full).moves = .read 0x10 3 :: [] ∧
    hostRead (about (.read 0x10 3) full) 0x10 3 = .ok ONE ∧
    memOfSpace 0x10 = some (sel .freq) ∧ 63 < (sel .freq).size base.caps ∧ Memory.read base.mem (addr (sel .freq) 63) = none := by
  refine ⟨rfl, rfl, rfl, rfl, by decide, rfl⟩

theorem test_witness_OnlyCommandsSetHalt :
    (State.reset.withFetchWord 32 0x01000000).halt = false ∧
    ∃ t, step (State.reset.withFetchWord 32 0x01000000) = .next t ∧ t.halt = true := by
  refine ⟨rfl, ?_⟩
  exact next_of (o := step (State.reset.withFetchWord 32 0x01000000)) (p := fun t => t.halt) (by decide)

/-- A command that retires at SEQ = 2^32 - 1; both resets; a move that is neither, and a write to CMD while HALT = 1. -/
theorem test_witness_SeqCountsRetiredCommands :
    (full.halt = false ∧ ∃ t, step ({ full with seq := 0xFFFFFFFF }.withFetchWord 32 0x05100400) = .next t ∧ t.halt = false) ∧
    (∃ t, step (about .powerOnReset full) = .next t ∧ IsReset .powerOnReset) ∧
    (∃ t, step (about (.write 0x00 0x01 3) full) = .next t ∧ IsReset (.write 0x00 0x01 3)) ∧
    (∃ t, step (about (.write 0x00 0x10 5) full) = .next t ∧ ¬ IsReset (.write 0x00 0x10 5) ∧
      ∀ w : Word, HostMove.write 0x00 0x10 5 ≠ .write 0x00 0x06 w) ∧
    ∃ t, step (about (commandMove 0) halted) = .next t ∧ ¬ IsReset (commandMove 0) ∧ (about (commandMove 0) halted).halt = true := by
  refine ⟨⟨rfl, ?_⟩, ⟨_, rfl, .inl rfl⟩, ⟨_, rfl, .inr ⟨3, rfl, by decide⟩⟩, ⟨_, rfl, ?_, fun w h => by cases h⟩, ⟨_, rfl, ?_, rfl⟩⟩
  · obtain ⟨t, h, h2⟩ := next_of (o := step ({ full with seq := 0xFFFFFFFF }.withFetchWord 32 0x05100400)) (p := running) (by decide)
    exact ⟨t, h, by simpa [running] using h2⟩
  · rintro (h | ⟨w, h, _⟩) <;> cases h
  · rintro (h | ⟨w, h, _⟩) <;> cases h

/-- V-X11 to V-X19: each check is the first to fail somewhere, on a command that reads the mode. -/
theorem test_witness_FirstFailedCheckRaisesModeInvalid :
    readsMode (.cbe .freq .bank) = true ∧ FirstFailedCheck base 1 ∧
    FirstFailedCheck (mode 1 3 [0, 8, 9] [0, 8, 9] 0) 2 ∧
    FirstFailedCheck { mode 1 1 [0, 8, 9] [0, 8, 9] 0 with modeNE := 9 } 3 ∧
    FirstFailedCheck (mode 1 1 [0, 8, 8] [0, 8, 9] 0) 4 ∧ FirstFailedCheck (mode 1 1 [0, 8, 9] [4, 2, 9] 0) 5 ∧
    FirstFailedCheck (mode 1 1 [2, 8, 9] [0, 8, 9] 2) 6 ∧ FirstFailedCheck (mode 1 1 [0, 8, 9] [0, 9, 9] 0) 6 ∧
    FirstFailedCheck (mode 1 1 [0, 8, 9] [0, 8, 10] 0) 7 ∧ FirstFailedCheck (mode 1 1 [0, 8, 9] [0, 8, 9] 5) 8 := by
  refine ⟨rfl, ?_, ?_, ?_, ?_, ?_, ?_, ?_, ?_, ?_⟩ <;> exact firstFailed_of (by decide)

/-- V-X20: the product is 100 with NMAX 64, and 65 with NMAX 64. -/
theorem test_witness_LongSpectrumRaisesLength :
    readsMode (.cbe .freq .bank) = true ∧
    (ModeValid (mode 1 1 [0, 8, 100] [0, 8, 100] 0) ∧ Caps.nmax base.caps < spectrumLength (mode 1 1 [0, 8, 100] [0, 8, 100] 0)) ∧
    (ModeValid (mode 1 1 [0, 8, 65] [0, 8, 65] 0) ∧ Caps.nmax base.caps < spectrumLength (mode 1 1 [0, 8, 65] [0, 8, 65] 0)) :=
  ⟨rfl, ⟨modeValid_of (by decide), by decide⟩, modeValid_of (by decide), by decide⟩

theorem test_witness_ForbiddenOperandsRaiseIllegalOperand :
    ModeOk mono monoMode ∧ monoMode.c = 1 ∧ (Spectrum.x = .x ∨ Spectrum.x = .w ∨ Spectrum.x = .w) ∧
      (Spectrum.x = .norm ∨ Spectrum.norm = .norm) := ⟨mono_mode, rfl, .inl rfl, .inr rfl⟩

/-- Stride 0; and a slice of NMAX + 1 elements. -/
theorem test_witness_RotOutOfRangeRaisesRotRange :
    u32 { full with rotStride := 0 }.rotStride = 0 ∧
    (u32 { full with rotOff := 2 }.rotStride ≠ 0 ∧
      Caps.nmax full.caps < u32 { full with rotOff := 2 }.rotOff + u32 { full with rotOff := 2 }.rotLen) := by decide

/-- Each ending: a fault of the start checks; BUDGET_OVERRUN, with collaborators that are written out; and a retirement. -/
theorem test_witness_FaultsArePrecise :
    (mono.halt = false ∧ ∃ t, execWith Config.hw (.smix .x .bank .plus) mono = .next t ∧ t.halt = true ∧ t.cause ≠ 0x06) ∧
    ((modeQX 4 14).halt = false ∧ ∃ t, execWith (stub [0, 2, 3]) (.qb .x .p .w) (modeQX 4 14) = .next t ∧ t.halt = true ∧ t.cause = 0x06) ∧
    (full.halt = false ∧ ∃ t, execWith Config.hw (.cbe .freq .bank) full = .next t ∧ t.halt = false) := by
  refine ⟨⟨rfl, ?_⟩, ⟨rfl, ?_⟩, rfl, ?_⟩
  · obtain ⟨t, h, h2⟩ := next_of (o := exec (.smix .x .bank .plus) mono) (p := fun t => t.halt && t.cause == 2) (by decide)
    simp only [Bool.and_eq_true, beq_iff_eq] at h2
    exact ⟨t, h, h2.1, by rw [h2.2]; decide⟩
  · obtain ⟨t, h, h2⟩ := next_of test_qb_overrun
    simp only [Bool.and_eq_true, beq_iff_eq] at h2
    exact ⟨t, h, h2.1.1.1.2, h2.1.1.2⟩
  · obtain ⟨t, h, h2⟩ := next_of full_cbe
    exact ⟨t, h, by simpa [running] using h2⟩

/-- P4's mode. -/
def modeQMode : Mode := { b := 1, c := 1, ne := 3, np := 1, pend := 4, ebands := [0, 2, 4, 6, 7], pbands := [0, 4, 7] }

theorem modeQ_ok : ModeOk (modeQX 4 14) modeQMode ∧ ModeOk (modeQX 4 100) modeQMode ∧ ModeOk (modeQ 4 100) modeQMode := by
  refine ⟨⟨?_, modeValid_of (by decide), by decide⟩, ⟨?_, modeValid_of (by decide), by decide⟩, ⟨?_, modeValid_of (by decide), by decide⟩⟩ <;>
    (unfold HoldsMode; decide)

/-- QB over the budget and within it, and UQB within it. -/
theorem test_witness_BudgetIsCheckedAfterTheWork :
    (ModeOk (modeQX 4 14) modeQMode ∧ ModeOk (modeQX 4 100) modeQMode ∧ ModeOk (modeQ 4 100) modeQMode) ∧
    (Instr.qb .x .p .w).WellFormed = true ∧ (Instr.uqb .x .p).WellFormed = true ∧
    (∃ t, execWith (stub [0, 2, 3]) (.qb .x .p .w) (modeQX 4 14) = .next t ∧ t.cause = 0x06) ∧
    (∃ t, execWith (stub [0, 2, 3]) (.qb .x .p .w) (modeQX 4 100) = .next t ∧ t.seq = 1) ∧
    (∃ t, execWith (stub [0, 2, 3]) (.uqb .x .p) (modeQ 4 100) = .next t ∧ t.seq = 1) := by
  refine ⟨modeQ_ok, rfl, rfl, ?_, ?_, ?_⟩
  · obtain ⟨t, h, h2⟩ := next_of test_qb_overrun
    simp only [Bool.and_eq_true, beq_iff_eq] at h2
    exact ⟨t, h, h2.1.1.2⟩
  · obtain ⟨t, h, h2⟩ := next_of test_qb_p4
    simp only [Bool.and_eq_true, beq_iff_eq] at h2
    exact ⟨t, h, h2.2⟩
  · obtain ⟨t, h, h2⟩ := next_of test_uqb_p4
    simp only [Bool.and_eq_true, beq_iff_eq] at h2
    exact ⟨t, h, h2.2⟩

/-- `full` with one element unwritten. -/
def without (m : MemName) (k : Nat) : State := { full with mem := full.mem.filter fun cell => cell.1 != addr m k }

/-- ModeOk as a test. -/
def modeTest (s : State) (m : Mode) : Bool :=
  decide (m = { b := u32 s.modeB, c := u32 s.modeC, ne := u32 s.modeNE, np := u32 s.modeNP, pend := u32 s.modePEND,
                ebands := (List.range (u32 s.modeNE + 2)).map (tableVal s .ebands),
                pbands := (List.range (u32 s.modeNP + 2)).map (tableVal s .pbands) }) &&
  (tablesTest s 8 && (List.range 9).all (passes s)) && decide (spectrumLength s ≤ Caps.nmax s.caps)

theorem modeOk_of {s : State} {m : Mode} (h : modeTest s m = true) : ModeOk s m := by
  simp only [modeTest, Bool.and_eq_true, decide_eq_true_eq] at h
  obtain ⟨⟨rfl, h2⟩, h3⟩ := h
  exact ⟨⟨rfl, rfl, rfl, rfl, rfl, rfl, rfl⟩, modeValid_of (by simp only [Bool.and_eq_true]; exact h2), h3⟩

/-- Element `k` of memory `n` is unwritten in a state in which the command may start, and the command reads it. -/
def Missing (cfg : Config) (i : Instr) (s : State) (m : Mode) (n : MemName) (k : Nat) : Prop :=
  Startable i s m ∧ ReadsFirst cfg i s m (addr n k) ∧ Memory.read s.mem (addr n k) = none

/-- One channel and a band that starts at 1, in intra mode: NORM[0] is the context. One element is unwritten. -/
def shifted (n : MemName) (k : Nat) : State :=
  { put .ebands [1, 2, 3] (put .pbands [1, 2, 3] (without n k)) with modeC := 1 }

/-- Collaborators whose fold answers carry no Xs'. -/
def bareFold : Config := { stub [0] with intraFold := fun _ => { ps := fun _ => 0, xs := none } }

def shiftedMode : Mode := { b := 1, c := 1, ne := 1, np := 1, pend := 1, ebands := [1, 2, 3], pbands := [1, 2, 3] }

/-- An unwritten element is read; an unwritten table entry of either table; and every entry of `ReadsFirst`, the last element of its
range where that is not the only one. -/
theorem test_witness_CommandsFaultOnlyAtUnwrittenElements :
    exec (.rot .x .plus) { base with rotLen := 2 } = .fault (.unwritten (sel .x) 0) ∧
    (readsMode (.cbe .freq .bank) = true ∧ (∀ j, 1 ≤ j → j ≤ 3 → ModeCheck { base with modeB := 1, modeC := 1 } j) ∧
      ¬ Written base.mem .ebands 0 2) ∧
    ((∀ j, 1 ≤ j → j ≤ 4 → ModeCheck (put .ebands [0, 1] { base with modeB := 1, modeC := 1 }) j) ∧
      Written (put .ebands [0, 1] base).mem .ebands 0 2 ∧ ¬ Written (put .ebands [0, 1] base).mem .pbands 0 2) := by
  refine ⟨by rfl, ⟨rfl, fun j h1 h2 => (passes_iff _ j).mp ?_, by decide⟩, fun j h1 h2 => (passes_iff _ j).mp ?_, by decide, by decide⟩
  · obtain rfl | rfl | rfl : j = 1 ∨ j = 2 ∨ j = 3 := by omega
    all_goals decide
  · obtain rfl | rfl | rfl | rfl : j = 1 ∨ j = 2 ∨ j = 3 ∨ j = 4 := by omega
    all_goals decide

theorem test_witness_ReadsFirst :
    Missing (stub [3]) (.cbe .freq .bank) (without (sel .freq) 1) fullMode (sel .freq) 1 ∧
    Missing (stub [3]) (.nrm .freq .x .bank) (without (sel .freq) 1) fullMode (sel .freq) 1 ∧
    Missing (stub [3]) (.nrm .freq .x .bank) (without (bank .bank) 1) fullMode (bank .bank) 1 ∧
    Missing (stub [3]) (.dnrm .x .x .tmpe) (without (sel .x) 1) fullMode (sel .x) 1 ∧
    Missing (stub [3]) (.dnrm .x .x .tmpe) (without (bank .tmpe) 1) fullMode (bank .tmpe) 1 ∧
    Missing (stub [3]) (.rnrm .x) (without (sel .x) 1) fullMode (sel .x) 1 ∧
    Missing (stub [3]) (.rot .x .minus) (without (sel .x) 3) fullMode (sel .x) 3 ∧
    Missing (stub [3]) (.cpg .x .p .bank) (without (bank .bank) 1) fullMode (bank .bank) 1 ∧
    Missing (stub [3]) (.cpg .x .p .bank) (without (sel .x) 1) fullMode (sel .x) 1 ∧
    Missing (stub [3]) (.cpg .x .p .bank) (without (sel .p) 1) fullMode (sel .p) 1 ∧
    Missing (stub [3]) (.pqb .p) (without (sel .p) 1) fullMode (sel .p) 1 ∧
    Missing (stub [3]) (.pqb .p) (without .gains 0) fullMode .gains 0 ∧
    Missing (stub [3]) (.qb .x .p .w) (without (sel .x) 1) fullMode (sel .x) 1 ∧
    Missing (stub [3]) (.qb .x .p .w) (without (sel .w) 1) fullMode (sel .w) 1 ∧
    Missing (stub [3]) (.qb .x .p .w) (without (sel .p) 1) fullMode (sel .p) 1 ∧
    Missing (stub [3]) (.qb .x .p .w) (shifted (sel .norm) 0) shiftedMode (sel .norm) 0 ∧
    Missing (stub [3]) (.uqb .x .p) (without (sel .p) 1) fullMode (sel .p) 1 ∧
    Missing (stub [3]) (.uqb .x .p) (shifted (sel .norm) 0) shiftedMode (sel .norm) 0 ∧
    Missing bareFold (.uqb .x .p) (without (sel .x) 1) fullMode (sel .x) 1 ∧
    Missing (stub [1]) (.uqb .x .p) (shifted (sel .x) 1) shiftedMode (sel .x) 1 ∧
    Missing (stub [3]) (.smix .x .bank .minus) (without (sel .x) 1) fullMode (sel .x) 1 ∧
    Missing (stub [3]) (.smix .x .bank .minus) (without (bank .bank) 1) fullMode (bank .bank) 1 := by
  have m : ∀ {n k}, modeTest (without n k) fullMode = true → ModeOk (without n k) fullMode := modeOk_of
  have ms : ∀ {n k}, modeTest (shifted n k) shiftedMode = true → ModeOk (shifted n k) shiftedMode := modeOk_of
  refine ⟨⟨m (by decide), ?_, by decide⟩, ⟨m (by decide), .inl ?_, by decide⟩, ⟨m (by decide), .inr ?_, by decide⟩,
    ⟨m (by decide), .inl ?_, by decide⟩, ⟨m (by decide), .inr ?_, by decide⟩, ⟨m (by decide), ?_, by decide⟩,
    ⟨⟨by decide, by decide⟩, ⟨by decide, 3, ⟨by decide, by decide, .inr (by decide)⟩, rfl⟩, by decide⟩,
    ⟨m (by decide), .inl ?_, by decide⟩, ⟨m (by decide), .inr (.inl ?_), by decide⟩, ⟨m (by decide), .inr (.inr ?_), by decide⟩,
    ⟨m (by decide), .inl ?_, by decide⟩, ⟨m (by decide), .inr ⟨0, by decide, by decide, rfl⟩, by decide⟩,
    ⟨⟨m (by decide), rfl⟩, .inl ?_, by decide⟩, ⟨⟨m (by decide), rfl⟩, .inr (.inl ⟨0, by decide, by decide, ?_⟩), by decide⟩,
    ⟨⟨m (by decide), rfl⟩, .inr (.inr (.inl ⟨0, by decide, by decide, by decide, ?_⟩)), by decide⟩,
    ⟨⟨ms (by decide), rfl⟩, .inr (.inr (.inr ⟨⟨0, by decide, .inl (by decide)⟩, ?_⟩)), by decide⟩,
    ⟨⟨m (by decide), rfl⟩, .inl ⟨0, by decide, by decide, by decide, ?_⟩, by decide⟩,
    ⟨⟨ms (by decide), rfl⟩, .inr (.inl ⟨⟨0, by decide, .inl (by decide)⟩, ?_⟩), by decide⟩,
    ⟨⟨m (by decide), rfl⟩, .inr (.inr ⟨0, by decide, ?_, .inl (by decide), fun _ _ _ _ => ⟨fun _ => rfl, fun h => absurd h (by decide)⟩⟩),
      by decide⟩,
    ⟨⟨ms (by decide), rfl⟩, .inr (.inr ⟨0, by decide, ?_, .inr (by decide), fun _ _ _ _ => ⟨fun h => absurd h (by decide), fun _ => rfl⟩⟩),
      by decide⟩,
    ⟨⟨m (by decide), rfl⟩, .inl ?_, by decide⟩, ⟨⟨m (by decide), rfl⟩, .inr ?_, by decide⟩⟩
  all_goals (constructor <;> decide)

theorem test_witness_EveryCommandCompletesOnWrittenMemory : AllWritten full := by
  intro a h
  unfold addrMapped at h
  split at h
  · rename_i m hm
    have hk := of_decide_eq_true h
    have ha : a = m.space * 65536 + a % 65536 := by
      have hs : m.space = a / 65536 := by
        revert hm; generalize a / 65536 = n
        unfold memOfSpace; split <;> intro hm <;> first | (cases hm; rfl) | cases hm
      rw [hs]; omega
    rw [ha]
    generalize a % 65536 = k at hk
    revert k
    have hsz : ∀ m : MemName, m.size full.caps ≤ 4 := by
      intro m; cases m <;> first | decide | (rename_i sp; cases sp <;> decide)
    have key : ∀ m : MemName, ∀ k, k < m.size full.caps → (Memory.read full.mem (m.space * 65536 + k)).isSome = true := by
      intro m; cases m <;> first | decide | (rename_i sp; cases sp <;> decide)
    exact key m
  · cases h

theorem test_witness_StepKeepsTheInvariant :
    full.Inv = true ∧ ∃ t, step (full.withFetchWord 32 0x05100400) = .next t ∧ (full.withFetchWord 32 0x05100400).Inv = true := by
  refine ⟨by decide, ?_⟩
  obtain ⟨t, h, _⟩ := next_of (o := step (full.withFetchWord 32 0x05100400)) (p := running) (by decide)
  exact ⟨t, h, by decide⟩

/-- Some command ends in a next state; and one that uses no port; the last index of a table. -/
theorem test_witness_CommandsLeaveModeAndRegisters :
    (∃ t, exec (.qb .x .p .w) full = .next t) ∧ (∃ t, exec (.cbe .freq .bank) full = .next t) ∧
      usesPorts (.cbe .freq .bank) = false ∧ (65535 : Nat) < 65536 :=
  ⟨full_qb.imp fun _ h => h.1, (next_of full_cbe).imp fun _ h => h.1, rfl, by decide⟩

theorem test_witness_CbeFrame : ∃ t, exec (.cbe .freq .bank) full = .next t := (next_of full_cbe).imp fun _ h => h.1

theorem test_witness_NormaliserFrames :
    (∃ t, exec (.nrm .freq .x .bank) full = .next t) ∧ (∃ t, exec (.dnrm .x .freq .bank) full = .next t) ∧
      ∃ t, exec (.rnrm .x) full = .next t :=
  ⟨(next_of full_nrm).imp fun _ h => h.1, (next_of full_dnrm).imp fun _ h => h.1, (next_of full_rnrm).imp fun _ h => h.1⟩

theorem test_witness_RotFrame : ∃ t, exec (.rot .x .minus) full = .next t := (next_of full_rot).imp fun _ h => h.1

theorem test_witness_PitchFrames :
    (∃ t, exec (.cpg .x .p .bank) full = .next t) ∧ ∃ t, exec (.pqb .p) full = .next t :=
  ⟨(next_of full_cpg).imp fun _ h => h.1, (next_of full_pqb).imp fun _ h => h.1⟩

theorem test_witness_SmixFrame : ∃ t, exec (.smix .x .bank .minus) full = .next t := (next_of full_smix).imp fun _ h => h.1

theorem test_witness_QuantiserFrames :
    (∃ t, exec (.qb .x .p .w) full = .next t) ∧ ∃ t, exec (.uqb .x .p) full = .next t :=
  ⟨full_qb.imp fun _ h => h.1, full_uqb.imp fun _ h => h.1⟩

/-- For every command that the statement names, and the first and last element of each padding. -/
theorem test_witness_PaddingIsZeroAfterEveryResult :
    ModeOk full fullMode ∧ full.halt = false ∧
    (∀ i ∈ [Instr.nrm .freq .x .bank, .dnrm .x .freq .bank, .rnrm .x, .cpg .x .p .bank, .pqb .p, .smix .x .bank .minus],
      ∃ t, exec i full = .next t ∧ (t.halt = false ∨ t.cause = 0x06)) ∧
    (∃ t, exec (.qb .x .p .w) full = .next t ∧ (t.halt = false ∨ t.cause = 0x06)) ∧
    (∃ t, exec (.uqb .x .p) full = .next t ∧ (t.halt = false ∨ t.cause = 0x06)) ∧
    (Mode.flatStart fullMode fullMode.ne = 2 ∧ Mode.flatStart fullMode (fullMode.ne + 1) = 4 ∧
      Mode.pitchStart fullMode fullMode.np = 2 ∧ Mode.pitchStart fullMode (fullMode.np + 1) = 4) := by
  have run : ∀ {i}, nextAnd (exec i full) running = true → ∃ t, exec i full = .next t ∧ (t.halt = false ∨ t.cause = 0x06) :=
    fun h => (next_of h).imp fun t h => ⟨h.1, .inl (by simpa [running] using h.2)⟩
  refine ⟨full_mode, rfl, ?_, full_qb, full_uqb, by decide⟩
  simp only [List.mem_cons, List.not_mem_nil, or_false, forall_eq_or_imp, forall_eq]
  exact ⟨run full_nrm, run full_dnrm, run full_rnrm, run full_cpg, run full_pqb, run full_smix⟩

theorem test_witness_CommandsIgnoreForeignParameters :
    (∃ t, exec (.rot .x .minus) full = .next t) ∧ usesPorts (.qb .x .p .w) = true ∧ ∃ t, exec (.qb .x .p .w) full = .next t :=
  ⟨(next_of full_rot).imp fun _ h => h.1, rfl, full_qb.imp fun _ h => h.1⟩

/-- The band is flat elements 0 and 1; element 0 of BANK is left's, element 1 right's. -/
theorem test_witness_CbeComputesBandEnergies :
    ModeOk full fullMode ∧ Written full.mem (sel .freq) (Mode.flatStart fullMode 0) (Mode.flatStart fullMode fullMode.ne) ∧
      0 < fullMode.ne ∧ 1 < fullMode.c := ⟨full_mode, by decide, by decide, by decide⟩

theorem test_witness_NrmDividesByBandEnergy :
    ModeOk full fullMode ∧ Written full.mem (sel .freq) (Mode.flatStart fullMode 0) (Mode.flatStart fullMode fullMode.ne) ∧
      Written full.mem (bank .bank) 0 (fullMode.ne * fullMode.c) ∧
      fullMode.b * Mode.e fullMode 0 ≤ 0 ∧ 0 < fullMode.b * Mode.e fullMode 1 := ⟨full_mode, by decide, by decide, by decide, by decide⟩

theorem test_witness_DnrmMultipliesByBandEnergy :
    ModeOk full fullMode ∧ Written full.mem (sel .x) (Mode.flatStart fullMode 0) (Mode.flatStart fullMode fullMode.ne) ∧
      Written full.mem (bank .tmpe) 0 (fullMode.ne * fullMode.c) := ⟨full_mode, by decide, by decide⟩

theorem test_witness_RnrmMeasuresThenNormalises :
    ModeOk full fullMode ∧ Written full.mem (sel .x) (Mode.flatStart fullMode 0) (Mode.flatStart fullMode fullMode.ne) :=
  ⟨full_mode, by decide⟩

/-- The slice is elements 1 to 3 and ends at NMAX; and, with `stride < L < 2*stride`, elements 0 and 2 of a slice whose element 1 is
unwritten. -/
theorem test_witness_RotRotatesTheSlice :
    (u32 full.rotStride ≠ 0 ∧ u32 full.rotOff + u32 full.rotLen = Caps.nmax full.caps ∧
      ∀ k, RotTouches (u32 full.rotOff) (u32 full.rotLen) (u32 full.rotStride) k → (Memory.read full.mem (addr (sel .x) k)).isSome = true) ∧
    (let s := { without (sel .x) 1 with rotOff := 0, rotLen := 3, rotStride := 2 }
     u32 s.rotStride ≠ 0 ∧ u32 s.rotOff + u32 s.rotLen ≤ Caps.nmax s.caps ∧ Memory.read s.mem (addr (sel .x) 1) = none ∧
      RotTouches (u32 s.rotOff) (u32 s.rotLen) (u32 s.rotStride) 2 ∧ ¬ RotTouches (u32 s.rotOff) (u32 s.rotLen) (u32 s.rotStride) 1 ∧
      ∀ k, RotTouches (u32 s.rotOff) (u32 s.rotLen) (u32 s.rotStride) k → (Memory.read s.mem (addr (sel .x) k)).isSome = true) := by
  unfold RotTouches
  refine ⟨⟨by decide, by decide, fun k h => ?_⟩, by decide, by decide, by decide, by decide, by decide, fun k h => ?_⟩
  · have h4 : k < 4 := h.2.1
    clear h
    revert k; decide
  · have h : k < 3 ∧ (k + 2 < 3 ∨ 2 ≤ k) := ⟨by simpa using h.2.1, by simpa using h.2.2⟩
    obtain rfl | rfl : k = 0 ∨ k = 2 := by omega
    all_goals decide

/-- L = stride with nothing written; and iter = 0. -/
theorem test_witness_RotWithEmptyPassesRetires :
    (u32 { base with rotLen := 1 }.rotStride ≠ 0 ∧
      u32 { base with rotLen := 1 }.rotOff + u32 { base with rotLen := 1 }.rotLen ≤ Caps.nmax base.caps ∧
      u32 { base with rotLen := 1 }.rotLen ≤ u32 { base with rotLen := 1 }.rotStride) ∧
    (u32 full.rotStride ≠ 0 ∧ u32 full.rotOff + u32 full.rotLen ≤ Caps.nmax full.caps ∧ u32 { full with rotIter := 0 }.rotIter = 0) := by
  decide

theorem test_witness_CpgComputesPitchGains :
    ModeOk full fullMode ∧ Written full.mem (sel .x) (Mode.pitchStart fullMode 0) (Mode.pitchStart fullMode fullMode.np) ∧
      Written full.mem (sel .p) (Mode.pitchStart fullMode 0) (Mode.pitchStart fullMode fullMode.np) ∧
      Written full.mem (bank .bank) 0 (fullMode.ne * fullMode.c) := ⟨full_mode, by decide, by decide, by decide⟩

theorem test_witness_PqbAppliesPitchGains :
    ModeOk full fullMode ∧ Written full.mem (sel .p) (Mode.pitchStart fullMode 0) (Mode.pitchStart fullMode fullMode.np) ∧
      ∀ k, k < fullMode.np → Mode.p fullMode k < Mode.p fullMode (k + 1) → (Memory.read full.mem (addr .gains k)).isSome = true :=
  ⟨full_mode, by decide, by decide⟩

theorem test_witness_SmixRotatesEveryPair :
    ModeOk full fullMode ∧ fullMode.c = 2 ∧
      Written full.mem (sel .x) (Mode.flatStart fullMode 0) (Mode.flatStart fullMode fullMode.ne) ∧
      Written full.mem (bank .bank) 0 (fullMode.ne * fullMode.c) := ⟨full_mode, rfl, by decide, by decide⟩

theorem test_witness_QbQuantisesEveryBand :
    ModeOk full fullMode ∧ (Instr.qb .x .p .w).WellFormed = true ∧
      Written full.mem (sel .x) (Mode.flatStart fullMode 0) (Mode.flatStart fullMode fullMode.ne) ∧
      Written full.mem (sel .p) (Mode.flatStart fullMode 0) (Mode.flatStart fullMode fullMode.ne) ∧
      (∀ i, i < fullMode.ne → 0 < s32 (pulsesFor Config.hw fullMode full i) →
        Written full.mem (sel .w) (Mode.flatStart fullMode i) (Mode.flatStart fullMode (i + 1))) ∧
      Written full.mem (sel .norm) 0 (Mode.flatStart fullMode 0) := by
  refine ⟨full_mode, rfl, by decide, by decide, fun i hi _ => ?_, by decide⟩
  obtain rfl : i = 0 := Nat.lt_one_iff.mp hi
  decide

theorem test_witness_UqbDequantisesEveryBand :
    ModeOk full fullMode ∧ (Instr.uqb .x .p).WellFormed = true ∧
      (∀ i, i < fullMode.ne → DecoderBandFilled Config.hw fullMode .x full i) ∧
      Written full.mem (sel .p) (Mode.flatStart fullMode 0) (Mode.flatStart fullMode fullMode.ne) ∧
      Written full.mem (sel .norm) 0 (Mode.flatStart fullMode 0) := by
  refine ⟨full_mode, rfl, fun i hi => .inl ?_, by decide, by decide⟩
  obtain rfl : i = 0 := Nat.lt_one_iff.mp hi
  decide

/-- A run of one band in intra mode (no pulses) and one in inter mode (three pulses, `e[0] < PEND`). -/
theorem test_witness_AlphaStaysZeroAfterAnIntraBand :
    ModeOk full fullMode ∧ 1 ≤ fullMode.ne ∧
    (∃ r, forUp 0 1 (fun i r => quantBand (stub [0]) (Draws.sub (fun _ => 0) i) .decoder fullMode .x .p i r)
        (quantPrologue (stub [0]) fullMode full) = .ok r ∧ s32 (pulsesFor (stub [0]) fullMode full 0) ≤ 0) ∧
    (∃ r, forUp 0 1 (fun i r => quantBand (stub [3]) (Draws.sub (fun _ => 0) i) .decoder fullMode .x .p i r)
        (quantPrologue (stub [3]) fullMode full) = .ok r ∧ Mode.e fullMode 0 < fullMode.pend ∧
        0 < s32 (pulsesFor (stub [3]) fullMode full 0)) := by
  have okOf : ∀ {x : Cmd QRun}, (match x with | .ok _ => true | .error _ => false) = true → ∃ r, x = .ok r := by
    intro x h; cases x with
    | ok r => exact ⟨r, rfl⟩
    | error e => cases h
  refine ⟨full_mode, by decide, ?_, ?_⟩
  · exact (okOf (by decide +kernel)).imp fun r h => ⟨h, by decide⟩
  · exact (okOf (by decide +kernel)).imp fun r h => ⟨h, by decide, by decide⟩

/-- Collaborators that keep their side, and whose codeword is the first element of the target. The encoder's coder state is 0 until
it has written that word `w`, and then `w + 1`; later calls write nothing. The decoder's is `2*f` before it has read the state `f`,
and `2*f + 1` after. -/
def agreeing : Config :=
  { stub [3] with
    bitsUsed := fun _ => 0
    algQuant := fun r =>
      if r.ec.code = 0 then { xs := fun _ => r.xs.headD 0, ec := ⟨(r.xs.headD 0).toNat + 1⟩ } else { xs := fun _ => 0, ec := r.ec }
    algUnquant := fun r =>
      if r.ec.code % 2 = 0 then { xs := fun _ => BitVec.ofNat 32 (r.ec.code / 2 - 1), ec := ⟨r.ec.code + 1⟩ }
      else { xs := fun _ => 0, ec := r.ec }
    intraPrediction := fun r => { ps := fun _ => 0, xs := some fun _ => 0, ec := r.ec }
    intraUnquant := fun r => { ps := fun _ => 0, xs := some fun _ => 0, ec := r.ec } }

/-- The decoder reads what the encoder produced. -/
def readsProduced (f a b : Coder) : Prop :=
  (a.code = 0 ∧ b.code = 2 * f.code) ∨ (a.code ≠ 0 ∧ a = f ∧ b.code = 2 * f.code + 1)

/-- Once the word is written the state stays. -/
theorem agreeing_settles {a f : Coder} (h : LeadsTo agreeing a f) (h0 : a.code ≠ 0) : a = f := by
  induction h with
  | done f => rfl
  | vq r f _ ih =>
    have : (agreeing.algQuant r).ec = r.ec := by
      show (if r.ec.code = 0 then _ else _ : AlgAnswer).ec = r.ec
      rw [if_neg h0]
    rw [this] at ih
    exact ih h0
  | intra r f _ ih => exact ih h0

theorem agreeing_agrees : Agreeing agreeing readsProduced := by
  refine ⟨fun _ _ _ _ => rfl, ?_, fun m i nctx xs => ⟨fun _ _ => rfl, _, _, rfl, rfl, fun _ _ => rfl⟩, ?_⟩
  · intro xs ws len q ps alpha f a b hr
    show LeadsTo agreeing (if a.code = 0 then _ else _ : AlgAnswer).ec f →
      (∀ k, k < len → (if a.code = 0 then _ else _ : AlgAnswer).xs k = (if b.code % 2 = 0 then _ else _ : AlgAnswer).xs k) ∧
        readsProduced f (if a.code = 0 then _ else _ : AlgAnswer).ec (if b.code % 2 = 0 then _ else _ : AlgAnswer).ec
    rcases hr with ⟨h1, h2⟩ | ⟨h1, rfl, h2⟩
    · rw [if_pos h1, if_pos (by omega)]
      intro hl
      have hf : (⟨(xs.headD 0).toNat + 1⟩ : Coder) = f := agreeing_settles hl (Nat.succ_ne_zero _)
      subst hf
      refine ⟨fun k _ => ?_, .inr ⟨Nat.succ_ne_zero _, rfl, by rw [h2]⟩⟩
      show xs.headD 0 = BitVec.ofNat 32 (b.code / 2 - 1)
      rw [h2, Nat.mul_div_cancel_left _ (by decide), Nat.add_sub_cancel, BitVec.ofNat_toNat, BitVec.setWidth_eq]
    · rw [if_neg h1, if_neg (by omega)]
      exact fun _ => ⟨fun _ _ => rfl, .inr ⟨h1, rfl, h2⟩⟩
  · intro m i q nctx xs ws f a b hr
    exact fun _ => ⟨fun _ _ => rfl, hr, fun _ => ⟨_, _, rfl, rfl, fun _ _ => rfl⟩⟩

/-- A CORE whose encoder has written nothing. -/
def encoding (x : Word) : State := { put (sel .x) [x, x] full with ec := ⟨0⟩ }

/-- What the encoder produces depends on its target. -/
theorem test_codeword_depends_on_target :
    nextAnd (qb agreeing .x .p .w (encoding 0)) (fun t => t.ec == ⟨1⟩) = true ∧
    nextAnd (qb agreeing .x .p .w (encoding ONE)) (fun t => t.ec != ⟨1⟩ && t.ec != ⟨0⟩) = true := by
  constructor <;> decide +kernel

theorem test_witness_EncoderAndDecoderAgree :
    Agreeing agreeing readsProduced ∧ (Instr.qb .x .p .w).WellFormed = true ∧ ModeOk (encoding ONE) fullMode ∧
      (encoding ONE).halt = false ∧
      (∀ k, Mode.flatStart fullMode 0 ≤ k → k < Mode.flatStart fullMode fullMode.ne → ∃ w,
        Memory.read (encoding ONE).mem (addr (sel .p) k) = some w ∧ Memory.read (encoding ONE).mem (addr (sel .p) k) = some w) ∧
      (∀ k, k < Mode.flatStart fullMode 0 → ∃ w,
        Memory.read (encoding ONE).mem (addr (sel .norm) k) = some w ∧ Memory.read (encoding ONE).mem (addr (sel .norm) k) = some w) ∧
      ∃ t, qb agreeing .x .p .w (encoding ONE) = .next t ∧
        readsProduced t.ec (encoding ONE).ec { encoding ONE with ec := ⟨2 * t.ec.code⟩ }.ec := by
  refine ⟨agreeing_agrees, rfl, modeOk_of (by decide), rfl, fun k h1 h2 => ?_, fun k h => absurd h (Nat.not_lt_zero k), ?_⟩
  · have h2 : k < 2 := h2
    have : (Memory.read (encoding ONE).mem (addr (sel .p) k)).isSome = true := by clear h1; revert k; decide
    obtain ⟨w, hw⟩ := Option.isSome_iff_exists.mp this
    exact ⟨w, hw, hw⟩
  · exact (next_of test_codeword_depends_on_target.2).imp fun _ h => ⟨h.1, .inl ⟨rfl, rfl⟩⟩

/-- The value of a word, at the words the witnesses use. -/
theorem value_one : valueR ONE = 2 ^ 149 := by
  have h1 : exponentOf ONE = 127 := rfl
  have h2 : fractionOf ONE = 0 := rfl
  have h3 : ONE.getLsbD 31 = false := rfl
  simp only [valueR, h1, h2, h3]; norm_num

theorem value_negZero : valueR 0x80000000 = 0 := by
  have h1 : exponentOf 0x80000000 = 0 := rfl
  have h2 : fractionOf 0x80000000 = 0 := rfl
  simp only [valueR, h1, h2]; norm_num

theorem value_leastNegative : valueR 0x80000001 = -1 := by
  have h1 : exponentOf 0x80000001 = 0 := rfl
  have h2 : fractionOf 0x80000001 = 1 := rfl
  have h3 : (0x80000001 : Word).getLsbD 31 = true := rfl
  simp only [valueR, h1, h2, h3]; norm_num

/-- The least and the greatest finite words; a divisor that is not zero; a root of zero. -/
theorem test_witness_ArithmeticRoundsToNearestEven :
    IsFinite 0x00000001 ∧ IsFinite 0xFF7FFFFF ∧ IsFinite ONE ∧ IsFinite 0x80000000 ∧ valueR ONE ≠ 0 ∧ 0 ≤ valueR 0x80000000 := by
  refine ⟨by decide, by decide, by decide, by decide, ?_, ?_⟩
  · rw [value_one]; positivity
  · rw [value_negZero]

theorem test_witness_ComparisonsFollowTheValues :
    IsNaN 0x7F800001 ∧ ¬ IsNaN 0x7F800000 ∧ ¬ IsNaN 0x80000000 := by decide

theorem test_witness_ExceptionalOperandsGiveDefaultResults :
    IsNaN 0xFF800001 ∧ IsInf 0x7F800000 ∧ IsInf 0xFF800000 ∧ (0x7F800000 : Word).getLsbD 31 ≠ (0xFF800000 : Word).getLsbD 31 ∧
    valueR 0x80000000 = 0 ∧ (IsFinite 0x80000001 ∧ valueR 0x80000001 ≠ 0) ∧ valueR 0x80000001 < 0 ∧
    IsNaN (fadd 0xFF800001 0x7F800000 0xFF800000) ∧ IsNaN (fsub 0xFF800001 0x7F800000 0x7F800000) ∧
    IsNaN (fmul 0xFF800001 0x7F800000 0) ∧ IsNaN (fdiv 0xFF800001 0 0) ∧ IsNaN (fsqrt 0xFF800001 0x80000001) := by
  refine ⟨by decide, by decide, by decide, by decide, value_negZero, ⟨by decide, ?_⟩, ?_, by decide, by decide, by decide, by decide,
    by decide⟩ <;>
    rw [value_leastNegative] <;> norm_num

theorem test_witness_ClipLimitsToZeroAndOne : IsNaN 0x7F800001 ∧ clip01 0x7F800001 = 0x7F800001 := by decide

theorem test_witness_CbeResultIsPositive :
    ModeOk full fullMode ∧ Written full.mem (sel .freq) (Mode.flatStart fullMode 0) (Mode.flatStart fullMode fullMode.ne) ∧
    (∀ k, Mode.flatStart fullMode 0 ≤ k → k < Mode.flatStart fullMode fullMode.ne → ¬ IsNaN (vals full.mem (sel .freq) k)) ∧
    0 < fullMode.ne ∧ 1 < fullMode.c := by
  refine ⟨full_mode, by decide, fun k _ h => ?_, by decide, by decide⟩
  have h : k < 2 := h
  revert k; decide

theorem test_witness_CpgGainsLieBelowTheLimit :
    ModeOk full fullMode ∧ (∃ t, exec (.cpg .x .p .bank) full = .next t) ∧ 0 < fullMode.np :=
  ⟨full_mode, (next_of full_cpg).imp fun _ h => h.1, by decide⟩

/-- Two zeros of opposite sign; equal operands; each sign of an infinite operand; a zero and a nonzero factor. -/
theorem test_witness_ResultsHaveTheIeeeSign :
    ¬ IsNaN 0x80000000 ∧ ¬ IsNaN ZERO ∧ ¬ IsNaN ONE ∧ ¬ IsNaN 0x7F800000 ∧ ¬ IsNaN 0xFF800000 ∧
    IsFinite 0x80000000 ∧ IsFinite ONE ∧ valueR 0x80000000 + valueR 0x80000000 = 0 ∧ valueR ONE - valueR ONE = 0 ∧
    valueR 0x80000000 = 0 ∧ IsInf 0x7F800000 ∧ IsInf 0xFF800000 ∧ (IsInf ONE → ONE = 0x7F800000) ∧
    fneg 0xFF800000 = 0x7F800000 ∧ valueR ONE ≠ 0 ∧ (0x7F800000 : Word).getLsbD 31 = false ∧
    ¬ IsNaN (fmul 0 ONE ONE) ∧ ¬ IsNaN (fdiv 0 ONE ONE) := by
  refine ⟨by decide, by decide, by decide, by decide, by decide, by decide, by decide, ?_, sub_self _, value_negZero, by decide,
    by decide, by decide, by decide, ?_, by decide, by decide, by decide⟩
  · rw [value_negZero, add_zero]
  · rw [value_one]; positivity

theorem test_witness_IdleStepAndCoderExchange :
    full.moves = [] ∧ full.busy = false ∧ (about (.setCoder ⟨7⟩) full).moves = .setCoder ⟨7⟩ :: [] := ⟨rfl, rfl, rfl⟩

end Sys2Proof.Tests
end

/-! ### Binary32 arithmetic: rounding, comparison and the signs of results (00_scope.md R9, 60_exceptions.md R234)

An equation for each operation on the operands a claim speaks of, and from these the claims. -/

namespace Sys2Proof.Machine.F32

/-! The sign flip. -/

theorem getLsbD_fneg (a : Word) (k : Nat) : (fneg a).getLsbD k = if k = 31 then !a.getLsbD 31 else a.getLsbD k := by
  have hbit : (0x80000000 : Word).getLsbD k = decide (k = 31) := by
    rw [show (0x80000000 : Word) = BitVec.twoPow 32 31 from rfl, BitVec.getLsbD_twoPow]
    simp [eq_comm]
  rw [fneg, BitVec.getLsbD_xor, hbit]
  by_cases h : k = 31
  · subst h; simp
  · simp [h]

@[simp] theorem sign_fneg (a : Word) : sign (fneg a) = !sign a := by
  rw [sign_eq, sign_eq, getLsbD_fneg, if_pos rfl]

@[simp] theorem magnitude_fneg (a : Word) : magnitude (fneg a) = magnitude a := by
  rw [magnitude, fneg, BitVec.toNat_xor, Nat.xor_mod_two_pow]
  exact Nat.xor_zero _

@[simp] theorem fneg_fneg (a : Word) : fneg (fneg a) = a := word_ext (by simp) (by simp)

theorem isNaN_fneg (a : Word) : IsNaN (fneg a) ↔ IsNaN a := by
  rw [← isNaN_iff, ← isNaN_iff, isNaN, isNaN, magnitude_fneg]

theorem isInf_fneg (a : Word) : IsInf (fneg a) ↔ IsInf a := by
  rw [← isInf_iff, ← isInf_iff, isInf, isInf, magnitude_fneg]

theorem isFinite_fneg (a : Word) : IsFinite (fneg a) ↔ IsFinite a := by
  rw [finite_iff, finite_iff, magnitude_fneg]

@[simp] theorem valueR_fneg (a : Word) : valueR (fneg a) = -valueR a := by
  rw [valueR_eq, valueR_eq, sign_fneg, magnitude_fneg]
  cases sign a <;> simp

/-! The delivered NaN and the infinities. -/

theorem isNaN_nanResult (nan : Word) : IsNaN (nanResult nan) := by
  unfold nanResult
  split
  next h => exact (isNaN_iff nan).mp h
  next => decide

theorem isInf_pack (s : Bool) : IsInf (pack s infMagnitude) := by
  cases s <;> decide

theorem magnitude_of_isInf {a : Word} (h : IsInf a) : magnitude a = infMagnitude :=
  beq_iff_eq.mp ((isInf_iff a).mpr h)

theorem IsInf.notNaN {a : Word} (h : IsInf a) : isNaN a = false :=
  (isNaN_false a).mpr fun hn => hn.2 h.2

theorem isInf_false (a : Word) : isInf a = false ↔ ¬ IsInf a := by
  rw [← isInf_iff, Bool.not_eq_true]

theorem units_ne_zero (a : Word) : units a ≠ 0 ↔ valueR a ≠ 0 := by
  rw [Ne, units_eq_zero, Ne, valueR_eq_zero]

theorem units_of_isInf {a : Word} (h : IsInf a) : units a ≠ 0 := by
  rw [Ne, units_eq_zero, magnitude_of_isInf h]
  decide

/-! Comparison. -/

theorem units_lt_iff (a b : Word) : units a < units b ↔ magnitude a < magnitude b :=
  magValue_strictMono.lt_iff_lt

/-- The order of the keys is the order of the values: units grow with magnitudes, and a sign turns both around. -/
theorem orderKey_lt_iff (a b : Word) : orderKey a < orderKey b ↔ valueR a < valueR b := by
  have hab := units_lt_iff a b
  have hba := units_lt_iff b a
  have ha := units_eq_zero a
  have hb := units_eq_zero b
  rw [valueR_value, valueR_value, Int.cast_lt, orderKey, orderKey, value, value]
  cases sign a <;> cases sign b <;> simp only [if_true, if_false, Bool.false_eq_true] <;> omega

/-- Settles O54: a comparison is that of the order keys, and these are ordered as the values are. -/
theorem comparisonsFollowTheValues : Obligations.ComparisonsFollowTheValues := by
  intro a b
  constructor
  · rintro (h | h) <;> simp [fgt, flt, (isNaN_iff _).mpr h]
  · intro ha hb
    rw [← isNaN_false] at ha hb
    simp [fgt, flt, ha, hb, orderKey_lt_iff]

/-! The operations on finite words. -/

theorem fadd_of_finite (nan : Word) {a b : Word} (ha : IsFinite a) (hb : IsFinite b) :
    fadd nan a b = if value a + value b = 0 then pack (sign a && sign b) 0
      else pack (decide (value a + value b < 0)) (roundUnits (value a + value b).natAbs 1) := by
  simp [fadd, IsFinite.notNaN ha, IsFinite.notNaN hb, IsFinite.notInf ha, IsFinite.notInf hb]

theorem fmul_of_finite (nan : Word) {a b : Word} (ha : IsFinite a) (hb : IsFinite b) :
    fmul nan a b = pack (sign a != sign b) (roundUnits (units a * units b) (2 ^ 149)) := by
  simp [fmul, IsFinite.notNaN ha, IsFinite.notNaN hb, IsFinite.notInf ha, IsFinite.notInf hb]

theorem fdiv_of_finite (nan : Word) {a b : Word} (ha : IsFinite a) (hb : IsFinite b) (h0 : units b ≠ 0) :
    fdiv nan a b = pack (sign a != sign b) (roundUnits (units a * 2 ^ 149) (units b)) := by
  simp [fdiv, IsFinite.notNaN ha, IsFinite.notNaN hb, IsFinite.notInf ha, IsFinite.notInf hb, h0]

theorem fsqrt_of_zero (nan : Word) {a : Word} (h0 : magnitude a = 0) : fsqrt nan a = a := by
  simp [fsqrt, isNaN, h0]

theorem fsqrt_of_finite_pos (nan : Word) {a : Word} (ha : IsFinite a) (h0 : magnitude a ≠ 0) (hs : sign a = false) :
    fsqrt nan a = pack false (roundUnits (2 * isqrt (units a * 2 ^ 149) +
      if isqrt (units a * 2 ^ 149) * isqrt (units a * 2 ^ 149) < units a * 2 ^ 149 then 1 else 0) 2) := by
  simp [fsqrt, IsFinite.notNaN ha, IsFinite.notInf ha, h0, hs]

/-! Rounding. -/

/-- A packed rounding is the nearest word to what it rounds. -/
theorem roundedTo_pack_roundUnits (s : Bool) (num : Nat) {den : Nat} (hd : 0 < den) :
    RoundedTo (pack s (roundUnits num den)) ((if s then -1 else 1) * (num / den : ℝ)) :=
  roundedTo_pack (roundUnits_nearest hd) (by positivity) s

theorem roundedTo_zero {a : Word} (h : magnitude a = 0) : RoundedTo a 0 := by
  have ha : a = pack (sign a) 0 := word_ext (sign_pack _ (by decide)).symm (by rw [h, magnitude_pack _ (by decide)])
  have h0 := roundedTo_pack (nearest_self (Nat.zero_le _)) (by simp [magValue_zero]) (sign a)
  rwa [← ha, magValue_zero, Nat.cast_zero, mul_zero] at h0

/-- An integer of units, rounded by its absolute value and its sign. -/
theorem roundedTo_pack_int (k : Int) (n : Nat) :
    RoundedTo (pack (decide (k < 0)) (roundUnits (k.natAbs * n) 1)) (k * n : ℝ) := by
  have h := roundedTo_pack_roundUnits (decide (k < 0)) (k.natAbs * n) Nat.one_pos
  have hk : (if decide (k < 0) then -1 else 1) * ((k.natAbs * n : Nat) / (1 : Nat) : ℝ) = (k * n : ℝ) := by
    have habs : ((k.natAbs : Nat) : ℝ) = |(k : ℝ)| := by rw [Nat.cast_natAbs, Int.cast_abs]
    push_cast
    rw [habs, div_one, ← mul_assoc]
    by_cases hneg : k < 0
    · rw [abs_of_neg (by exact_mod_cast hneg)]; simp [hneg]
    · rw [abs_of_nonneg (by exact_mod_cast not_lt.mp hneg)]; simp [hneg]
  rwa [hk] at h

theorem i2f_rounded (k : Int) : RoundedTo (i2f k) ((k : ℝ) * 2 ^ 149) := by
  have h := roundedTo_pack_int k (2 ^ 149)
  rwa [Nat.cast_pow, Nat.cast_ofNat] at h

theorem fadd_rounded (nan : Word) {a b : Word} (ha : IsFinite a) (hb : IsFinite b) :
    RoundedTo (fadd nan a b) (valueR a + valueR b) := by
  rw [fadd_of_finite nan ha hb, valueR_value, valueR_value, ← Int.cast_add]
  split
  next h0 => rw [h0, Int.cast_zero]; exact roundedTo_zero (magnitude_pack _ (by decide))
  next =>
    have h := roundedTo_pack_int (value a + value b) 1
    rwa [Nat.mul_one, Nat.cast_one, mul_one] at h

theorem fsub_rounded (nan : Word) {a b : Word} (ha : IsFinite a) (hb : IsFinite b) :
    RoundedTo (fsub nan a b) (valueR a - valueR b) := by
  rw [sub_eq_add_neg, ← valueR_fneg]
  exact fadd_rounded nan ha ((isFinite_fneg b).mpr hb)

theorem signFactor_inv (s : Bool) : (if s then -1 else 1 : ℝ)⁻¹ = if s then -1 else 1 := by
  cases s <;> simp

/-- The exclusive or of two signs is the product of their factors. -/
theorem signFactor_bne (s t : Bool) : (if (s != t) then -1 else 1 : ℝ) = (if s then -1 else 1) * (if t then -1 else 1) := by
  cases s <;> cases t <;> simp

theorem fmul_rounded (nan : Word) {a b : Word} (ha : IsFinite a) (hb : IsFinite b) :
    RoundedTo (fmul nan a b) (valueR a * valueR b / 2 ^ 149) := by
  have h := roundedTo_pack_roundUnits (sign a != sign b) (units a * units b) (Nat.two_pow_pos 149)
  rw [fmul_of_finite nan ha hb, valueR_units, valueR_units]
  convert h using 1
  rw [signFactor_bne]
  push_cast
  ring

theorem fdiv_rounded (nan : Word) {a b : Word} (ha : IsFinite a) (hb : IsFinite b) (h0 : valueR b ≠ 0) :
    RoundedTo (fdiv nan a b) (valueR a / valueR b * 2 ^ 149) := by
  have hu := (units_ne_zero b).mpr h0
  have h := roundedTo_pack_roundUnits (sign a != sign b) (units a * 2 ^ 149) (Nat.pos_of_ne_zero hu)
  rw [fdiv_of_finite nan ha hb hu, valueR_units, valueR_units]
  convert h using 1
  rw [signFactor_bne, div_eq_mul_inv, mul_inv, signFactor_inv]
  push_cast
  ring

theorem fsqrt_rounded (nan : Word) {a : Word} (ha : IsFinite a) (h0 : 0 ≤ valueR a) :
    RoundedTo (fsqrt nan a) (Real.sqrt (valueR a * 2 ^ 149)) := by
  by_cases hz : magnitude a = 0
  · rw [fsqrt_of_zero nan hz, (valueR_eq_zero a).mpr hz, zero_mul, Real.sqrt_zero]
    exact roundedTo_zero hz
  have hu : 0 < units a := Nat.pos_of_ne_zero (by rwa [Ne, units_eq_zero])
  have hs : sign a = false := by
    by_contra hs
    have hneg : value a < 0 := by rw [value, if_pos (by simpa using hs)]; omega
    rw [valueR_value] at h0
    exact absurd (by exact_mod_cast h0) (not_le.mpr hneg)
  have hbig : 2 ^ 48 ≤ units a * 2 ^ 149 := by omega
  have h := roundedTo_pack (nearest_sqrt hbig) (Real.sqrt_nonneg _) false
  rw [if_neg Bool.false_ne_true, one_mul] at h
  have hv : valueR a * 2 ^ 149 = ((units a * 2 ^ 149 : Nat) : ℝ) := by
    rw [valueR_units, hs, if_neg Bool.false_ne_true, one_mul]
    rw [Nat.cast_mul, Nat.cast_pow, Nat.cast_ofNat]
  rwa [fsqrt_of_finite_pos nan ha hz hs, hv]

/-- Settles O53: each operation packs one rounding (`roundUnits_nearest`, for the root `nearest_sqrt`) of the exact result. -/
theorem arithmeticRoundsToNearestEven : Obligations.ArithmeticRoundsToNearestEven :=
  ⟨i2f_rounded, fun nan _ _ ha hb =>
    ⟨fadd_rounded nan ha hb, fsub_rounded nan ha hb, fmul_rounded nan ha hb, fdiv_rounded nan ha hb, fsqrt_rounded nan ha⟩⟩

/-! Signs and infinities. -/

theorem fadd_of_inf_left (nan : Word) {a b : Word} (ha : IsInf a) (hb : ¬ IsNaN b) (hab : IsInf b → b = a) :
    fadd nan a b = a := by
  by_cases hi : IsInf b
  · simp [fadd, hab hi, IsInf.notNaN ha, (isInf_iff a).mpr ha]
  · simp [fadd, IsInf.notNaN ha, (isInf_iff a).mpr ha, (isNaN_false b).mpr hb, (isInf_false b).mpr hi]

theorem fadd_of_inf_right (nan : Word) {a b : Word} (ha : IsInf a) (hb : ¬ IsNaN b) (hab : IsInf b → b = a) :
    fadd nan b a = a := by
  by_cases hi : IsInf b
  · rw [hab hi]
    exact fadd_of_inf_left nan ha ((isNaN_false a).mp (IsInf.notNaN ha)) fun _ => rfl
  · simp [fadd, IsInf.notNaN ha, (isNaN_false b).mpr hb, (isInf_false b).mpr hi, (isInf_iff a).mpr ha]

/-- A zero sum of finite words is +0, unless both addends are negative. -/
theorem fadd_of_sum_zero (nan : Word) {a b : Word} (ha : IsFinite a) (hb : IsFinite b) (h0 : valueR a + valueR b = 0) :
    fadd nan a b = if sign a && sign b then 0x80000000 else ZERO := by
  rw [valueR_value, valueR_value] at h0
  rw [fadd_of_finite nan ha hb, if_pos (by exact_mod_cast h0)]
  cases sign a && sign b <;> rfl

/-- A product of words that are no NaNs is a NaN, or has the exclusive or of their signs. -/
theorem fmul_cases (nan : Word) {a b : Word} (ha : ¬ IsNaN a) (hb : ¬ IsNaN b) :
    IsNaN (fmul nan a b) ∨ ∃ m, m ≤ infMagnitude ∧ fmul nan a b = pack (sign a != sign b) m := by
  unfold fmul
  rw [(isNaN_false a).mpr ha, (isNaN_false b).mpr hb, Bool.or_self, if_neg Bool.false_ne_true]
  split_ifs
  · exact .inl (isNaN_nanResult nan)
  · exact .inr ⟨_, Nat.le_refl _, rfl⟩
  · exact .inr ⟨_, roundUnits_le_inf _ _, rfl⟩

/-- A quotient of words that are no NaNs is a NaN, or has the exclusive or of their signs. -/
theorem fdiv_cases (nan : Word) {a b : Word} (ha : ¬ IsNaN a) (hb : ¬ IsNaN b) :
    IsNaN (fdiv nan a b) ∨ ∃ m, m ≤ infMagnitude ∧ fdiv nan a b = pack (sign a != sign b) m := by
  unfold fdiv
  rw [(isNaN_false a).mpr ha, (isNaN_false b).mpr hb, Bool.or_self, if_neg Bool.false_ne_true]
  split_ifs
  · exact .inl (isNaN_nanResult nan)
  · exact .inr ⟨_, Nat.le_refl _, rfl⟩
  · exact .inr ⟨_, Nat.zero_le _, rfl⟩
  · exact .inl (isNaN_nanResult nan)
  · exact .inr ⟨_, Nat.le_refl _, rfl⟩
  · exact .inr ⟨_, roundUnits_le_inf _ _, rfl⟩

theorem sign_fmul (nan : Word) {a b : Word} (ha : ¬ IsNaN a) (hb : ¬ IsNaN b) (h : ¬ IsNaN (fmul nan a b)) :
    sign (fmul nan a b) = (sign a != sign b) := by
  obtain ⟨m, hm, he⟩ := (fmul_cases nan ha hb).resolve_left h
  rw [he, sign_pack _ (le_inf_lt hm)]

theorem sign_fdiv (nan : Word) {a b : Word} (ha : ¬ IsNaN a) (hb : ¬ IsNaN b) (h : ¬ IsNaN (fdiv nan a b)) :
    sign (fdiv nan a b) = (sign a != sign b) := by
  obtain ⟨m, hm, he⟩ := (fdiv_cases nan ha hb).resolve_left h
  rw [he, sign_pack _ (le_inf_lt hm)]

theorem fmul_comm (nan a b : Word) : fmul nan a b = fmul nan b a := by
  simp only [fmul, Bool.or_comm, Nat.mul_comm, bne_comm (a := sign a)]

theorem fmul_of_inf (nan : Word) {a b : Word} (ha : IsInf a) (hb : ¬ IsNaN b) (h0 : valueR b ≠ 0) :
    fmul nan a b = pack (sign a != sign b) infMagnitude := by
  simp [fmul, IsInf.notNaN ha, (isNaN_false b).mpr hb, (isInf_iff a).mpr ha, units_of_isInf ha,
    (units_ne_zero b).mpr h0]

theorem fdiv_inf_of_finite (nan : Word) {a b : Word} (ha : IsInf a) (hb : IsFinite b) :
    fdiv nan a b = pack (sign a != sign b) infMagnitude := by
  simp [fdiv, IsInf.notNaN ha, IsFinite.notNaN hb, (isInf_iff a).mpr ha, IsFinite.notInf hb]

theorem fdiv_finite_of_inf (nan : Word) {a b : Word} (ha : IsInf a) (hb : IsFinite b) :
    fdiv nan b a = pack (sign b != sign a) 0 := by
  simp [fdiv, IsInf.notNaN ha, IsFinite.notNaN hb, (isInf_iff a).mpr ha, IsFinite.notInf hb]

theorem fsqrt_of_inf (nan : Word) {a : Word} (ha : IsInf a) (hs : sign a = false) : fsqrt nan a = a := by
  simp [fsqrt, IsInf.notNaN ha, (isInf_iff a).mpr ha, hs]

/-- Settles O59: clause by clause, each from the equation of its operation on those operands. -/
theorem resultsHaveTheIeeeSign : Obligations.ResultsHaveTheIeeeSign := by
  refine ⟨getLsbD_fneg, rfl, fun nan a b ha hb => ?_⟩
  simp only [← sign_eq]
  refine ⟨fadd_of_sum_zero nan, fun hfa hfb h0 => ?zeroDifference, fun h0 => fsqrt_of_zero nan ((valueR_eq_zero a).mp h0),
    sign_fmul nan ha hb, sign_fdiv nan ha hb,
    fun hi hab => ⟨fadd_of_inf_left nan hi hb hab, fadd_of_inf_right nan hi hb hab⟩,
    fun hi hab => ?infDifference, fun hi h0 => ?infProduct, fun hi hf => ?infQuotient, fsqrt_of_inf nan⟩
  case zeroDifference =>
    rw [← sign_fneg]
    exact fadd_of_sum_zero nan hfa ((isFinite_fneg b).mpr hfb) (by rw [valueR_fneg, ← sub_eq_add_neg, h0])
  case infDifference =>
    constructor
    · refine fadd_of_inf_left nan hi (mt (isNaN_fneg b).mp hb) fun hib => ?_
      rw [hab ((isInf_fneg b).mp hib), fneg_fneg]
    · exact fadd_of_inf_right nan ((isInf_fneg a).mpr hi) hb hab
  case infProduct =>
    rw [fmul_comm nan b a, fmul_of_inf nan hi hb h0]
    exact ⟨isInf_pack _, isInf_pack _⟩
  case infQuotient =>
    rw [fdiv_inf_of_finite nan hi hf, fdiv_finite_of_inf nan hi hf, valueR_eq_zero, magnitude_pack _ (by decide)]
    exact ⟨isInf_pack _, rfl⟩

end Sys2Proof.Machine.F32

/-! ### The host port and the step (10_state.md R22 to R43, 20_memory.md R61, 70_reset_and_hazards.md R260)

What each kind of move does, as equations of `step`; and everything a step that ends in a next state can have been, said once
(`step_cases`), from which the claims about all steps follow. -/

namespace Sys2Proof.Machine

/-! One move. -/

theorem step_of_idle {s : State} (hm : s.moves = []) : step s = .next s := by simp only [step, nextMove, hm]

theorem step_of_move {s : State} {mv : HostMove} {rest : List HostMove} (hm : s.moves = mv :: rest) :
    step s = performMove mv { s with moves := rest } := by simp only [step, nextMove, hm]

theorem step_of_powerOn {s : State} {rest : List HostMove} (hm : s.moves = .powerOnReset :: rest) :
    step s = .next (afterReset s rest) := step_of_move hm

theorem step_of_setCoder {s : State} {ec : Coder} {rest : List HostMove} (hb : s.busy = false)
    (hm : s.moves = .setCoder ec :: rest) : step s = .next { s with moves := rest, ec := ec } := by
  rw [step_of_move hm]
  exact if_neg (by simp [hb])

theorem step_of_write {s : State} {sp : BitVec 8} {ix : BitVec 16} {w : Word} {rest : List HostMove} (hb : s.busy = false)
    (hm : s.moves = .write sp ix w :: rest) : step s = hostWrite sp.toNat ix.toNat w { s with moves := rest } := by
  rw [step_of_move hm]
  exact if_neg (by simp [hb])

theorem step_of_ctrl {s : State} {w : Word} {rest : List HostMove} (hb : s.busy = false)
    (hm : s.moves = .write 0x00 0x01 w :: rest) :
    step s = .next (if w.getLsbD 0 then afterReset s rest else { s with moves := rest }) := step_of_write hb hm

theorem step_of_command {s : State} {w : Word} {rest : List HostMove} (hb : s.busy = false) (hh : s.halt = false)
    (hm : s.moves = .write 0x00 0x06 w :: rest) : step s = issue w { s with moves := rest } := by
  rw [step_of_write hb hm, hostWrite, if_neg (by decide), if_neg (by simp [hh]), if_pos (by decide)]

theorem step_of_register {s : State} {ix : BitVec 16} {w : Word} {rest : List HostMove} (hb : s.busy = false)
    (hh : s.halt = false) (h1 : ix ≠ 0x01) (h6 : ix ≠ 0x06) (hm : s.moves = .write 0x00 ix w :: rest) :
    step s = .next (csrWrite ix.toNat w { s with moves := rest }) := by
  have h1' : ix.toNat ≠ 1 := fun h => h1 (BitVec.eq_of_toNat_eq h)
  have h6' : ix.toNat ≠ 6 := fun h => h6 (BitVec.eq_of_toNat_eq h)
  rw [step_of_write hb hm, hostWrite, if_neg (by simp [h1']), if_neg (by simp [hh]), if_neg (by simp [h6']), if_pos (by decide)]

/-! Every move. -/

/-- EVERYTHING A STEP CAN DO that ends in a next state. -/
inductive StepCase (s : State) : State → Prop
  /-- the host has no move left -/
  | idle (hm : s.moves = []) : StepCase s s
  /-- power-on, or a write to CTRL with bit 0 set -/
  | reset {mv : HostMove} {rest : List HostMove} (hm : s.moves = mv :: rest) (hr : IsReset mv) : StepCase s (afterReset s rest)
  /-- the coder's owner replaces its state -/
  | coder {ec : Coder} {rest : List HostMove} (hm : s.moves = .setCoder ec :: rest) :
      StepCase s { s with moves := rest, ec := ec }
  /-- a read delivers a word -/
  | read {sp : BitVec 8} {ix : BitVec 16} {rest : List HostMove} (w : Word) (hm : s.moves = .read sp ix :: rest) :
      StepCase s { s with moves := rest, readData := some w }
  /-- a write that the CORE ignores: to CTRL with bit 0 clear, or to anything else while HALT = 1 -/
  | ignored {sp : BitVec 8} {ix : BitVec 16} {w : Word} {rest : List HostMove} (hm : s.moves = .write sp ix w :: rest)
      (hr : ¬ IsReset (.write sp ix w)) (hi : s.halt = true ∨ ix ≠ 0x06) : StepCase s { s with moves := rest }
  /-- a command -/
  | command {w : Word} {rest : List HostMove} {t : State} (hm : s.moves = .write 0x00 0x06 w :: rest) (hh : s.halt = false)
      (ht : issue w { s with moves := rest } = .next t) : StepCase s t
  /-- a write to space 0x00 beside CTRL and CMD -/
  | register {ix : BitVec 16} {w : Word} {rest : List HostMove} (hm : s.moves = .write 0x00 ix w :: rest) (h1 : ix ≠ 0x01)
      (h6 : ix ≠ 0x06) : StepCase s (csrWrite ix.toNat w { s with moves := rest })
  /-- a write outside space 0x00 -/
  | memory {sp : BitVec 8} {ix : BitVec 16} {w : Word} {rest : List HostMove} (hm : s.moves = .write sp ix w :: rest)
      (h0 : sp ≠ 0x00) : StepCase s (memWrite sp.toNat ix.toNat w { s with moves := rest })

theorem not_isReset_write {sp : BitVec 8} {ix : BitVec 16} {w : Word} (h : sp ≠ 0x00 ∨ ix ≠ 0x01 ∨ w.getLsbD 0 = false) :
    ¬ IsReset (.write sp ix w) := by
  rintro (hr | ⟨w', hr, hw⟩)
  · cases hr
  · cases hr
    rcases h with h | h | h
    · exact h rfl
    · exact h rfl
    · rw [hw] at h
      cases h

/-- While BUSY = 1 a host write is refused. -/
theorem busy_of_write {s t : State} {sp : BitVec 8} {ix : BitVec 16} {w : Word} {rest : List HostMove}
    (hm : s.moves = .write sp ix w :: rest) (h : step s = .next t) : s.busy = false := by
  cases hb : s.busy with
  | false => rfl
  | true =>
    rw [step_of_move hm, performMove, if_pos hb] at h
    cases h

theorem stepCase_write {s t : State} {sp : BitVec 8} {ix : BitVec 16} {w : Word} {rest : List HostMove}
    (hm : s.moves = .write sp ix w :: rest) (h : step s = .next t) : StepCase s t := by
  have hb := busy_of_write hm h
  by_cases hctrl : sp = 0x00 ∧ ix = 0x01
  · obtain ⟨rfl, rfl⟩ := hctrl
    rw [step_of_ctrl hb hm] at h
    cases hw : w.getLsbD 0 with
    | true =>
      rw [hw] at h
      cases h
      exact .reset hm (.inr ⟨w, rfl, hw⟩)
    | false =>
      rw [hw] at h
      cases h
      exact .ignored hm (not_isReset_write (.inr (.inr hw))) (.inr (by decide))
  have hctrl' : ¬(sp.toNat = 0 ∧ ix.toNat = 1) := fun ⟨h0, h1⟩ =>
    hctrl ⟨BitVec.eq_of_toNat_eq h0, BitVec.eq_of_toNat_eq h1⟩
  cases hh : s.halt with
  | true =>
    rw [step_of_write hb hm, hostWrite, if_neg hctrl', if_pos hh] at h
    cases h
    exact .ignored hm (not_isReset_write ((not_and_or.mp hctrl).imp_right .inl)) (.inl hh)
  | false =>
    by_cases h0 : sp = 0x00
    · subst h0
      by_cases h6 : ix = 0x06
      · subst h6
        rw [step_of_command hb hh hm] at h
        exact .command hm hh h
      · have h1 : ix ≠ 0x01 := fun h1 => hctrl ⟨rfl, h1⟩
        rw [step_of_register hb hh h1 h6 hm] at h
        cases h
        exact .register hm h1 h6
    · have h0' : sp.toNat ≠ 0 := fun h => h0 (BitVec.eq_of_toNat_eq h)
      rw [step_of_write hb hm, hostWrite, if_neg hctrl', if_neg (by simp [hh]), if_neg (by simp [h0']), if_neg h0'] at h
      cases h
      exact .memory hm h0

theorem step_cases {s t : State} (h : step s = .next t) : StepCase s t := by
  cases hm : s.moves with
  | nil =>
    rw [step_of_idle hm] at h
    cases h
    exact .idle hm
  | cons mv rest =>
    cases mv with
    | powerOnReset =>
      rw [step_of_powerOn hm] at h
      cases h
      exact .reset hm (.inl rfl)
    | setCoder ec =>
      rw [step_of_move hm, performMove] at h
      split at h
      · cases h
      · cases h
        exact .coder hm
    | read sp ix =>
      rw [step_of_move hm, performMove] at h
      split at h
      · cases h
      · split at h
        · cases h
          exact .read _ hm
        · cases h
    | write sp ix w => exact stepCase_write hm h

/-! What a host write to a register or to an element changes. -/

@[simp] theorem csrWrite_caps (ix : Nat) (w : Word) (s : State) : (csrWrite ix w s).caps = s.caps := by
  unfold csrWrite; split <;> rfl
@[simp] theorem csrWrite_busy (ix : Nat) (w : Word) (s : State) : (csrWrite ix w s).busy = s.busy := by
  unfold csrWrite; split <;> rfl
@[simp] theorem csrWrite_halt (ix : Nat) (w : Word) (s : State) : (csrWrite ix w s).halt = s.halt := by
  unfold csrWrite; split <;> rfl
@[simp] theorem csrWrite_cause (ix : Nat) (w : Word) (s : State) : (csrWrite ix w s).cause = s.cause := by
  unfold csrWrite; split <;> rfl
@[simp] theorem csrWrite_info (ix : Nat) (w : Word) (s : State) : (csrWrite ix w s).info = s.info := by
  unfold csrWrite; split <;> rfl
@[simp] theorem csrWrite_seq (ix : Nat) (w : Word) (s : State) : (csrWrite ix w s).seq = s.seq := by
  unfold csrWrite; split <;> rfl
@[simp] theorem csrWrite_mem (ix : Nat) (w : Word) (s : State) : (csrWrite ix w s).mem = s.mem := by
  unfold csrWrite; split <;> rfl
@[simp] theorem csrWrite_ec (ix : Nat) (w : Word) (s : State) : (csrWrite ix w s).ec = s.ec := by
  unfold csrWrite; split <;> rfl
@[simp] theorem csrWrite_moves (ix : Nat) (w : Word) (s : State) : (csrWrite ix w s).moves = s.moves := by
  unfold csrWrite; split <;> rfl

/-- A host write outside space 0x00 is ignored, or makes one listed element written. -/
theorem memWrite_cases (sp ix : Nat) (w : Word) (s : State) :
    memWrite sp ix w s = s ∨
      ∃ m, ix < m.size s.caps ∧ memWrite sp ix w s = { s with mem := writeElem m ix w s.mem } := by
  unfold memWrite
  split
  · exact .inl rfl
  · next m _ =>
    split
    · next hx => exact .inr ⟨m, hx, rfl⟩
    · exact .inl rfl

theorem memWrite_halt (sp ix : Nat) (w : Word) (s : State) : (memWrite sp ix w s).halt = s.halt := by
  rcases memWrite_cases sp ix w s with he | ⟨m, _, he⟩ <;> rw [he]

theorem memWrite_seq (sp ix : Nat) (w : Word) (s : State) : (memWrite sp ix w s).seq = s.seq := by
  rcases memWrite_cases sp ix w s with he | ⟨m, _, he⟩ <;> rw [he]

/-! How a command ends, for the flags, SEQ and the invariant. -/

theorem faultCode_range (f : FaultCode) : 1 ≤ (FaultCode.code f).toNat ∧ (FaultCode.code f).toNat ≤ 6 := by
  cases f <;> decide

/-- What every command that ends leaves: BUSY = 0, a memory in the form it had, and either a retirement or a fault taken. -/
structure CommandEnd (s t : State) : Prop where
  caps : t.caps = s.caps
  busy : t.busy = false
  wf : Memory.wf s.mem = true → Memory.wf t.mem = true
  mapped : Memory.mapped s.caps s.mem = true → Memory.mapped s.caps t.mem = true
  flags : (t.halt = s.halt ∧ t.cause = s.cause ∧ t.info = s.info ∧ t.seq = s.seq + 1) ∨
    (t.halt = true ∧ t.seq = s.seq ∧ ∃ f, t.cause = FaultCode.code f)

theorem commandEnd_raise (f : FaultCode) (info : Word) (s : State) : CommandEnd s (raise f info s) :=
  ⟨rfl, rfl, id, id, .inr ⟨rfl, rfl, f, rfl⟩⟩

theorem exec_end {i : Instr} {s t : State} (h : exec i s = .next t) : CommandEnd s t := by
  have hc := exec_cases i s
  rw [h] at hc
  cases hc with
  | raised f info _ _ => exact commandEnd_raise f info s
  | retired mem ec bits _ hmem hmap _ => exact ⟨rfl, rfl, hmem.wf, hmap, .inl ⟨rfl, rfl, rfl, rfl⟩⟩
  | overrun mem ec bits info _ _ hmem hmap => exact ⟨rfl, rfl, hmem.wf, hmap, .inr ⟨rfl, rfl, .budgetOverrun, rfl⟩⟩

theorem issue_of_decode {w : Word} {i : Instr} (h : decode w = .ok i) (s : State) : issue w s = exec i (begin s) := by
  simp only [issue, h]

theorem CommandEnd.of_begin {s t : State} (h : CommandEnd (begin s) t) : CommandEnd s t :=
  ⟨h.caps, h.busy, h.wf, h.mapped, h.flags⟩

theorem issue_end {w : Word} {s t : State} (h : issue w s = .next t) : CommandEnd s t := by
  cases hd : decode w with
  | error e =>
    simp only [issue, hd] at h
    cases h
    exact (commandEnd_raise .illegalCmd w (begin s)).of_begin
  | ok i =>
    rw [issue_of_decode hd] at h
    exact (exec_end h).of_begin

/-! ### The invariant, HALT and SEQ (10_state.md R26 to R29, R62; 60_exceptions.md R228) -/

theorem State.flagsOk_iff (s : State) : State.flagsOk s = true ↔
    s.busy = false ∧ (s.halt = true → 1 ≤ s.cause.toNat ∧ s.cause.toNat ≤ 6) ∧ (s.halt = false → s.cause = 0 ∧ s.info = 0) := by
  cases hh : s.halt <;> simp [State.flagsOk, hh]

theorem State.inv_iff (s : State) :
    s.Inv = true ↔ Memory.wf s.mem = true ∧ Memory.mapped s.caps s.mem = true ∧ State.flagsOk s = true := by
  simp only [State.Inv, Bool.and_eq_true, and_assoc]

theorem inv_afterReset (s : State) (rest : List HostMove) : (afterReset s rest).Inv = true := rfl

/-- A listed element that becomes written leaves the memory inside the address map. -/
theorem mapped_writeElem {caps : Caps} {mem : Memory} {m : MemName} {k : Nat} (w : Word) (hk : k < 65536)
    (hs : k < m.size caps) (h : Memory.mapped caps mem = true) : Memory.mapped caps (writeElem m k w mem) = true := by
  refine keeps_mapped (S := fun a => a = addr m k) ((Keeps.refl _ mem).writeElem w rfl) (fun a ha => ?_) h
  rw [ha, addrMapped_addr caps m k hk]
  exact decide_eq_true hs

theorem inv_memWrite {sp : Nat} {ix : BitVec 16} (w : Word) {s : State} (h : s.Inv = true) :
    (memWrite sp ix.toNat w s).Inv = true ∧ (memWrite sp ix.toNat w s).caps = s.caps := by
  rcases memWrite_cases sp ix.toNat w s with he | ⟨m, hx, he⟩
  · rw [he]
    exact ⟨h, rfl⟩
  · rw [he]
    obtain ⟨hwf, hmap, hflags⟩ := (State.inv_iff s).mp h
    exact ⟨(State.inv_iff _).mpr ⟨wf_writeElem m _ w s.mem hwf, mapped_writeElem w ix.isLt hx hmap, hflags⟩, rfl⟩

theorem inv_csrWrite (ix : Nat) (w : Word) (s : State) : (csrWrite ix w s).Inv = s.Inv := by
  simp only [State.Inv, State.flagsOk, csrWrite_mem, csrWrite_caps, csrWrite_busy, csrWrite_halt, csrWrite_cause, csrWrite_info]

theorem CommandEnd.inv {s t : State} (e : CommandEnd s t) (hh : s.halt = false) (h : s.Inv = true) : t.Inv = true := by
  obtain ⟨hwf, hmap, hflags⟩ := (State.inv_iff s).mp h
  obtain ⟨_, _, hzero⟩ := (State.flagsOk_iff s).mp hflags
  refine (State.inv_iff t).mpr ⟨e.wf hwf, e.caps ▸ e.mapped hmap, (State.flagsOk_iff t).mpr ⟨e.busy, fun ht => ?_, fun ht => ?_⟩⟩
  · rcases e.flags with ⟨hk, _⟩ | ⟨_, _, f, hf⟩
    · rw [ht, hh] at hk
      cases hk
    · rw [hf]
      exact faultCode_range f
  · rcases e.flags with ⟨_, hc, hi, _⟩ | ⟨hk, _⟩
    · rw [hc, hi]
      exact hzero hh
    · rw [ht] at hk
      cases hk

/-- Settles O30: a reset gives the reset state's memory and flags, a host write adds at most a listed element (`inv_memWrite`), and a
command keeps the memory's form and ends with one of the six codes or none (`exec_end`). -/
theorem stepKeepsTheInvariant : Obligations.StepKeepsTheInvariant := by
  intro s t h hs
  cases step_cases hs with
  | idle _ => exact ⟨h, rfl⟩
  | reset _ _ => exact ⟨inv_afterReset s _, rfl⟩
  | coder _ => exact ⟨h, rfl⟩
  | read _ _ => exact ⟨h, rfl⟩
  | ignored _ _ _ => exact ⟨h, rfl⟩
  | command _ hh ht => exact ⟨(issue_end ht).inv hh h, (issue_end ht).caps⟩
  | register _ _ _ => exact ⟨(inv_csrWrite _ _ _).trans h, csrWrite_caps _ _ _⟩
  | memory _ _ => exact inv_memWrite _ h

/-- Settles O29: no element is written and every flag is clear. -/
theorem resetMeetsTheInvariant : Obligations.ResetMeetsTheInvariant := rfl

/-- Settles O17: of all a step can do only a command sets HALT, and it does so by taking a fault. -/
theorem onlyCommandsSetHalt : Obligations.OnlyCommandsSetHalt := by
  intro s t hh hs ht
  have running : ¬ s.halt = true := by simp [hh]
  cases step_cases hs with
  | idle _ => exact absurd ht running
  | reset _ _ => cases ht
  | coder _ => exact absurd ht running
  | read _ _ => exact absurd ht running
  | ignored _ _ _ => exact absurd ht running
  | command hm _ he =>
    refine ⟨_, _, hm, ?_⟩
    rcases (issue_end he).flags with ⟨hk, _⟩ | ⟨_, _, f, hf⟩
    · exact absurd (hk.symm.trans ht) running
    · rw [hf]
      exact faultCode_range f
  | register _ _ _ => exact absurd ((csrWrite_halt _ _ _).symm.trans ht) running
  | memory _ _ => exact absurd ((memWrite_halt _ _ _ _).symm.trans ht) running

/-- A command that ends without a fault has counted, one that took a fault has not. -/
theorem CommandEnd.seq {s t : State} (e : CommandEnd s t) (hh : s.halt = false) :
    t.seq = if t.halt then s.seq else BitVec.ofNat 32 (s.seq.toNat + 1) := by
  rcases e.flags with ⟨hk, _, _, hseq⟩ | ⟨hk, hseq, _⟩
  · rw [hk, hh, hseq, if_neg Bool.false_ne_true]
    simp [BitVec.ofNat_add]
  · rw [hk, hseq, if_pos rfl]

/-- Settles O18: a command's SEQ is `CommandEnd.seq`, a reset's is R58's, and `step_cases` shows that no other move changes it. -/
theorem seqCountsRetiredCommands : Obligations.SeqCountsRetiredCommands := by
  intro s t hs
  refine ⟨fun w rest hh hm => ?command, fun mv rest hm hr => ?reset, fun hother => ?other⟩
  case command =>
    rw [step_of_command (busy_of_write hm hs) hh hm] at hs
    exact (issue_end hs).seq hh
  case reset =>
    rcases hr with rfl | ⟨w, rfl, hw⟩
    · rw [step_of_powerOn hm] at hs
      cases hs
      rfl
    · rw [step_of_ctrl (busy_of_write hm hs) hm, if_pos hw] at hs
      cases hs
      rfl
  case other =>
    cases step_cases hs with
    | idle _ => rfl
    | reset hm hr => exact absurd hr (hother _ _ hm).1
    | coder _ => rfl
    | read _ _ => rfl
    | ignored _ _ _ => rfl
    | command hm hh _ =>
      rcases (hother _ _ hm).2 with h | h
      · exact absurd (hh.symm.trans h) (by decide)
      · exact absurd rfl (h _)
    | register _ _ _ => exact csrWrite_seq _ _ _
    | memory _ _ => exact memWrite_seq _ _ _ _

/-! ### Single moves and the registers the host reads (10_state.md R23 to R43, R58) -/

/-- Settles O60: the equations of the step for an empty list and for `setCoder`. -/
theorem idleStepAndCoderExchange : Obligations.IdleStepAndCoderExchange :=
  ⟨fun _ => step_of_idle, fun _ _ _ => step_of_setCoder⟩

theorem decode_of_decodeTableWord {nbits w : Nat} {i : Instr} (h : decodeTableWord nbits w = some i) :
    decode (BitVec.ofNat 32 (w % 2 ^ nbits)) = .ok i := by
  unfold decodeTableWord at h
  split at h
  · next hd =>
    cases h
    exact hd
  · cases h

/-- Settles O6: the step issues the word (`step_of_command`), and issuing it executes what it decodes to. -/
theorem stepRunsDecodedCommand : Obligations.StepRunsDecodedCommand := by
  refine ⟨fun s w i rest hb hh hm hd => ?_, fun s nbits w i hb hh hd => ?_⟩
  · rw [step_of_command hb hh hm, issue_of_decode hd]
    rfl
  · rw [step_of_command (s := s.withFetchWord nbits w) hb hh rfl, issue_of_decode (decode_of_decodeTableWord hd)]
    rfl

theorem checkMode_afterReset (s : State) (rest : List HostMove) : checkMode (afterReset s rest) = .error (modeInvalid 1) := rfl

/-- Settles O10: both resets give `afterReset`, where check 1 of ModeValid fails since MODE_B is 0. -/
theorem resetRestoresEveryRegister : Obligations.ResetRestoresEveryRegister := by
  intro s rest
  refine ⟨fun w hb hw hm => ?_, step_of_powerOn, fun w hb hw hm => ?_, rfl, fun _ => rfl, fun i hi => ?_⟩
  · rw [step_of_ctrl hb hm, if_pos hw]
  · rw [step_of_ctrl hb hm, hw, if_neg Bool.false_ne_true]
  · exact exec_of_mode_error hi (checkMode_afterReset s rest)

/-- Settles O11: each register of R58's table read in the reset state. -/
theorem resetValuesReadByTheHost : Obligations.ResetValuesReadByTheHost := by
  refine ⟨rfl, ?_, rfl, rfl, fun _ => rfl⟩
  simp only [List.forall_mem_cons, List.not_mem_nil, false_imp_iff, implies_true, and_true]
  exact ⟨rfl, rfl, rfl, rfl, rfl, rfl, rfl, rfl, rfl, rfl, rfl, rfl, rfl, rfl, rfl, rfl⟩

theorem ofNat_eq_append (hi lo : Nat) (h1 : hi < 65536) (h2 : lo < 65536) :
    BitVec.ofNat 32 (hi * 65536 + lo) = BitVec.ofNat 16 hi ++ BitVec.ofNat 16 lo := by
  apply BitVec.eq_of_toNat_eq
  simp only [BitVec.toNat_append, BitVec.toNat_ofNat]
  rw [Nat.mod_eq_of_lt (by omega), Nat.mod_eq_of_lt h1, Nat.mod_eq_of_lt h2, ← Nat.shiftLeft_add_eq_or_of_lt h2]
  omega

/-- Settles O12: STATUS by its four values, CAUSE extended by zeros, CAP_EP as the number of its two halves. -/
theorem hardwiredAndStatusRegistersRead : Obligations.HardwiredAndStatusRegistersRead := by
  intro s
  refine ⟨rfl, ⟨statusWord s, rfl, ?status⟩, congrArg Except.ok ?cause, rfl, congrArg Except.ok ?capEp⟩
  case status =>
    unfold statusWord
    cases s.busy <;> cases s.halt <;> decide
  case cause => exact BitVec.setWidth_eq_append (x := s.cause) (w := 32) (by decide)
  case capEp => exact ofNat_eq_append _ _ (by omega) (by omega)

/-- A control register after a host write: an RW register at that index holds the word, every other reads as before. -/
theorem csrRead_csrWrite (ix : Nat) (w : Word) (s : State) (j : Nat) : csrRead (csrWrite ix w s) j =
    if j = ix ∧ ix ∈ [0x10, 0x11, 0x12, 0x13, 0x14, 0x18, 0x20, 0x21, 0x22, 0x23, 0x24] then w else csrRead s j := by
  unfold csrWrite
  split
  case h_12 => simp_all
  all_goals
    split
    · next hj =>
      rw [hj.1]
      rfl
    · next hj =>
      unfold csrRead
      split <;> try rfl
      exact absurd ⟨rfl, by decide⟩ hj

/-- Settles O13: the step is the register write, and `csrRead_csrWrite` is what the host then reads. -/
theorem registerWriteReadsBack : Obligations.RegisterWriteReadsBack := by
  intro s rest ix w hh hb h1 h6 hm
  refine ⟨_, step_of_register hb hh h1 h6 hm, by simp, by simp, by simp, by simp [hh], by simp [hb], fun j => ?_⟩
  show Except.ok (csrRead _ j) = _
  rw [csrRead_csrWrite]
  split <;> rfl

/-! ### What no command writes (10_state.md R47) -/

theorem space_le_of_inRange {m : MemName} {lo hi a : Nat} (h : InRange m lo hi a) : m.space * 65536 ≤ a :=
  Nat.le_trans (Nat.le_add_right _ lo) h.1

/-- Every memory that a command writes lies above the two tables. -/
theorem writes_above_tables {i : Instr} {s : State} {m : Mode} {a : Nat} (h : Writes i s m a) : 0x100000 ≤ a := by
  have spectrum : ∀ {sp lo hi}, InRange (sel sp) lo hi a → 0x100000 ≤ a := fun {sp _ _} hr =>
    Nat.le_trans (by cases sp <;> decide) (space_le_of_inRange hr)
  have energy : ∀ {bk lo hi}, InRange (bank bk) lo hi a → 0x100000 ≤ a := fun {bk _ _} hr =>
    Nat.le_trans (by cases bk <;> decide) (space_le_of_inRange hr)
  have quant : ∀ {sa sb}, QuantWrites m sa sb a → 0x100000 ≤ a := by
    rintro sa sb (h | h | h | h)
    · exact Nat.le_trans (by decide) (space_le_of_inRange h)
    · exact spectrum h
    · exact spectrum h
    · exact spectrum h
  cases i with
  | cbe sa bk => exact energy h
  | nrm sa sb bk => exact spectrum h
  | dnrm sa sb bk => exact spectrum h
  | rnrm sa => exact h.elim energy spectrum
  | rot sa dir => exact spectrum h
  | cpg sa sb bk =>
    rcases h with h | h | h
    · exact Nat.le_trans (by decide) (space_le_of_inRange h)
    · exact Nat.le_trans (by decide) (space_le_of_inRange h)
    · exact spectrum h
  | pqb sb => exact spectrum h
  | qb sa sb sc => exact quant h
  | uqb sa sb => exact quant h
  | smix sa bk dir => exact spectrum h

/-- What a command writes leaves both tables as they were, whether it reads the mode or not. -/
theorem keeps_tables {i : Instr} {s : State} {mem : Memory} (hmode : readsMode i = true → ∃ m, checkMode s = .ok m)
    (hk : Keeps (fun a => ∀ m, (readsMode i = true → checkMode s = .ok m) → Writes i s m a) s.mem mem) {a : Nat}
    (ha : a < 0x100000) : Memory.read mem a = Memory.read s.mem a := by
  obtain ⟨m, hm⟩ : ∃ m, readsMode i = true → checkMode s = .ok m := by
    cases hi : readsMode i with
    | true => exact (hmode hi).imp fun _ h _ => h
    | false => exact ⟨default, fun h => by cases h⟩
  exact hk.frame a fun hw => absurd (writes_above_tables (hw m hm)) (Nat.not_le_of_lt ha)

/-- Settles O31: by `exec_cases` a command changes the fields that the statement names, and no table lies where it writes. -/
theorem commandsLeaveModeAndRegisters : Obligations.CommandsLeaveModeAndRegisters := by
  intro i s t h
  have below : ∀ {k}, k < 65536 → addr .ebands k < 0x100000 ∧ addr .pbands k < 0x100000 := fun {k} hk => by
    simp only [addr, MemName.space]
    omega
  have hc := exec_cases i s
  rw [h] at hc
  cases hc with
  | raised f info _ _ => exact ⟨rfl, fun _ => ⟨rfl, rfl⟩, fun _ _ => ⟨rfl, rfl⟩⟩
  | retired mem ec bits hmode hmem _ hq =>
    exact ⟨rfl, hq, fun k hk => ⟨keeps_tables hmode hmem (below hk).1, keeps_tables hmode hmem (below hk).2⟩⟩
  | overrun mem ec bits info hq hmode hmem _ =>
    exact ⟨rfl, fun hn => absurd (hq.symm.trans hn) (by decide),
      fun k hk => ⟨keeps_tables (fun _ => hmode) hmem (below hk).1, keeps_tables (fun _ => hmode) hmem (below hk).2⟩⟩

/-! ### Step 3 of 30_encoding.md R91 (10_state.md R46) -/

theorem HoldsMode.e {s : State} {m : Mode} (h : HoldsMode s m) {k : Nat} (hk : k ≤ m.ne + 1) :
    Mode.e m k = tableVal s .ebands k := by
  obtain ⟨_, _, hne, _, _, he, _⟩ := h
  rw [Mode.e, he, entry_range _ (by omega)]

theorem HoldsMode.p {s : State} {m : Mode} (h : HoldsMode s m) {k : Nat} (hk : k ≤ m.np + 1) :
    Mode.p m k = tableVal s .pbands k := by
  obtain ⟨_, _, _, hnp, _, _, hp⟩ := h
  rw [Mode.p, hp, entry_range _ (by omega)]

/-- The checks that `ModeFacts` states of the mode, stated of the registers and tables that hold it. -/
theorem ModeFacts.modeCheck {s : State} {m : Mode} (f : ModeFacts s.caps m) (h : HoldsMode s m) :
    ∀ j, 1 ≤ j → j ≤ 8 → ModeCheck s j := by
  have ⟨hb, hc, hne, hnp, hpend, _, _⟩ := h
  intro j h1 h8
  interval_cases j <;> simp only [ModeCheck, ← hb, ← hc, ← hne, ← hnp, ← hpend]
  · exact f.b
  · exact f.c
  · exact ⟨f.ne, f.np⟩
  · intro k hk
    rw [← h.e (by omega), ← h.e (by omega)]
    exact f.rise k hk
  · intro k hk
    rw [← h.p (by omega), ← h.p (by omega)]
    exact f.prise k hk
  · rw [← h.e (by omega), ← h.e (by omega), ← h.p (by omega), ← h.p (by omega)]
    exact ⟨f.first, f.last⟩
  · rw [← h.e (by omega), ← h.p (by omega)]
    exact f.padded
  · obtain ⟨k, hk, hp⟩ := f.pend
    exact ⟨k, hk, hp.trans (h.e hk)⟩

theorem modeOk_of_checkMode {s : State} {m : Mode} (h : checkMode s = .ok m) : ModeOk s m := by
  obtain ⟨hold, hwe, hwp, f⟩ := checkMode_inv h
  have ⟨hb, hc, hne, hnp, _, _, _⟩ := hold
  rw [hne] at hwe
  rw [hnp] at hwp
  refine ⟨hold, ⟨⟨fun _ => hwe, fun _ => hwp⟩, f.modeCheck hold⟩, ?_⟩
  rw [spectrumLength, ← hb, ← hc, ← hne, ← hold.e (Nat.le_refl _)]
  exact f.length

/-- Settles O19: what passes meets every condition (`modeOk_of_checkMode`), and what meets them passes (`checkMode_of_modeOk`). -/
theorem modeChecksAcceptExactlyValidModes : Obligations.ModeChecksAcceptExactlyValidModes :=
  fun _ _ => ⟨modeOk_of_checkMode, checkMode_of_modeOk⟩

/-! ### The padding after a result (10_state.md R50)

The work of each command that writes a spectrum memory ends with its padding zeroed; a command that has not stopped early leaves
the memory of its work. -/

/-- The padding tail of a spectrum memory holds ZERO. -/
def TailZero (m : Mode) (sp : Spectrum) (mem : Memory) : Prop :=
  ∀ k, Mode.flatStart m m.ne ≤ k → k < Mode.flatStart m (m.ne + 1) → Memory.read mem (addr (sel sp) k) = some F32.ZERO

/-- The pitch padding of a spectrum memory holds ZERO. -/
def PitchZero (m : Mode) (sp : Spectrum) (mem : Memory) : Prop :=
  ∀ k, Mode.pitchStart m m.np ≤ k → k < Mode.pitchStart m (m.np + 1) → Memory.read mem (addr (sel sp) k) = some F32.ZERO

theorem read_zeroFill_inside {m : MemName} {lo hi k : Nat} (h1 : lo ≤ k) (h2 : k < hi) (mem : Memory) :
    Memory.read (zeroFill m lo hi mem) (addr m k) = some F32.ZERO := by
  rw [read_zeroFill, if_pos (inRange_addr h1 h2)]

theorem tailZero_zeroTail (m : Mode) (sp : Spectrum) (mem : Memory) : TailZero m sp (zeroTail m sp mem) :=
  fun _ h1 h2 => read_zeroFill_inside h1 h2 mem

theorem pitchZero_zeroPitchPadding (m : Mode) (sp : Spectrum) (mem : Memory) : PitchZero m sp (zeroPitchPadding m sp mem) :=
  fun _ h1 h2 => read_zeroFill_inside h1 h2 mem

theorem scaleBands_tailZero {gain : Nat → Nat → Word → Word} {d : Draws} {m : Mode} {sa sb : Spectrum} {bk : EnergyMem}
    {mem mem' : Memory} (h : scaleBands gain d m sa sb bk mem = .ok mem') : TailZero m sb mem' := by
  obtain ⟨_, _, h⟩ := bind_ok.mp h
  cases h
  exact tailZero_zeroTail m sb _

theorem renormalise_tailZero {d : Draws} {m : Mode} {sa : Spectrum} {mem mem' : Memory}
    (h : renormalise d m sa mem = .ok mem') : TailZero m sa mem' := by
  obtain ⟨_, _, h⟩ := bind_ok.mp h
  exact scaleBands_tailZero h

theorem stereoMix_tailZero {d : Draws} {m : Mode} {sa : Spectrum} {bk : EnergyMem} {dir : Dir} {mem mem' : Memory}
    (h : stereoMix d m sa bk dir mem = .ok mem') : TailZero m sa mem' := by
  obtain ⟨_, _, h⟩ := bind_ok.mp h
  cases h
  exact tailZero_zeroTail m sa _

theorem quantBands_tailZero {cfg : Config} {codec : Codec} {m : Mode} {sa sb : Spectrum} {s t : State}
    (h : quantBands cfg codec m sa sb s = .ok t) : TailZero m sa t.mem := by
  obtain ⟨_, _, h⟩ := bind_ok.mp h
  cases h
  exact tailZero_zeroTail m sa _

theorem pitchGains_pitchZero {d : Draws} {m : Mode} {sa sb : Spectrum} {bk : EnergyMem} {mem mem' : Memory}
    (h : pitchGains d m sa sb bk mem = .ok mem') : PitchZero m sb mem' := by
  obtain ⟨_, _, h⟩ := bind_ok.mp h
  obtain ⟨_, _, h⟩ := bind_ok.mp h
  cases h
  exact pitchZero_zeroPitchPadding m sb _

theorem applyGains_pitchZero {d : Draws} {m : Mode} {sb : Spectrum} {mem mem' : Memory}
    (h : applyGains d m sb mem = .ok mem') : PitchZero m sb mem' := by
  obtain ⟨_, _, h⟩ := bind_ok.mp h
  cases h
  exact pitchZero_zeroPitchPadding m sb _

/-- The command did its work: it retired, or raised BUDGET_OVERRUN after it. -/
abbrev Worked (t : State) : Prop := t.halt = false ∨ t.cause = 0x06

theorem budgetOverrun_of_code {f : FaultCode} : FaultCode.code f = 0x06 → f = .budgetOverrun := by
  cases f <;> decide

theorem not_worked_of_earlyStop {s t : State} {e : Stop} (he : EarlyStop s e) (h : stopWith e s = .next t) : ¬ Worked t := by
  rcases he with ⟨_, _, rfl, _⟩ | ⟨f, info, rfl, _, hf⟩
  · cases h
  · cases h
    rintro (hw | hw)
    · cases hw
    · exact hf (budgetOverrun_of_code hw)

/-- A command on the memories alone that did its work leaves the memory of its work. -/
theorem withMode_worked {s t : State} {m : Mode} {work : Mode → Memory → Cmd Memory} (hm : checkMode s = .ok m)
    (he : ∀ e, work m s.mem = .error e → EarlyStop s e) (h : withMode s work = .next t) (hw : Worked t) :
    work m s.mem = .ok t.mem := by
  rw [withMode, hm, ok_bind] at h
  cases hwork : work m s.mem with
  | error e =>
    rw [hwork] at h
    exact absurd hw (not_worked_of_earlyStop (he e hwork) h)
  | ok mem =>
    rw [hwork] at h
    cases h
    rfl

theorem memWork_worked {s t : State} {m : Mode} {work : Mode → Memory → Cmd Memory} {S : Nat → Prop} (hm : checkMode s = .ok m)
    (hd : MemWork S s.mem (work m s.mem)) (h : withMode s work = .next t) (hw : Worked t) : work m s.mem = .ok t.mem :=
  withMode_worked hm (fun _ he => .inl (hd.error he)) h hw

/-- SMIX likewise, after its operand check. -/
theorem smix_worked {cfg : Config} {s t : State} {m : Mode} {sa : Spectrum} {bk : EnergyMem} {dir : Dir}
    (hm : checkMode s = .ok m) (h : smix cfg sa bk dir s = .next t) (hw : Worked t) :
    stereoMix (drawsOf cfg s) m sa bk dir s.mem = .ok t.mem := by
  have hok := withMode_worked hm (fun e he => ?_) h hw
  · obtain ⟨_, _, hok⟩ := bind_ok.mp hok
    exact hok
  · rcases bind_error.mp he with hr | ⟨_, hr, hs⟩
    · exact earlyStop_require (by decide) (by decide) hr
    · have hc := of_decide_eq_true (require_ok.mp hr)
      exact .inl ((stereoMix_does (checkMode_facts hm) hc _ sa bk dir s.mem).error hs)

/-- QB and UQB likewise: the budget check changes no memory. -/
theorem concludeQuant_worked {cfg : Config} {codec : Codec} {i : Instr} {legal : Bool} {s t : State} {m : Mode}
    {sa sb : Spectrum} (hm : checkMode s = .ok m)
    (h : concludeQuant cfg s (do
      let m ← checkMode s
      require legal (illegalOperand i)
      quantBands cfg codec m sa sb s) = .next t) (hw : Worked t) :
    ∃ w, quantBands cfg codec m sa sb s = .ok w ∧ t.mem = w.mem := by
  rw [hm, ok_bind] at h
  cases hr : require legal (illegalOperand i) with
  | error e =>
    rw [hr] at h
    exact absurd hw (not_worked_of_earlyStop (earlyStop_require (by decide) (by decide) hr) h)
  | ok _ =>
    rw [hr, ok_bind] at h
    cases hq : quantBands cfg codec m sa sb s with
    | error e =>
      rw [hq] at h
      exact absurd hw (not_worked_of_earlyStop (.inl ((quantBands_does (checkMode_facts hm) cfg codec sa sb s).error hq)) h)
    | ok w =>
      rw [hq, concludeQuant] at h
      split at h
      · cases h
        exact ⟨w, rfl, rfl⟩
      · cases h
        exact ⟨w, rfl, rfl⟩

/-- Settles O38: the memory that the command leaves is its work's (the `_worked` lemmas), which ends with the padding zeroed (the
`_tailZero` and `_pitchZero` lemmas). -/
theorem paddingIsZeroAfterEveryResult : Obligations.PaddingIsZeroAfterEveryResult := by
  intro i s t m hm _ h hw
  have hc := checkMode_of_modeOk hm
  have hf := checkMode_facts hc
  cases i with
  | cbe sa bk => trivial
  | nrm sa sb bk => exact scaleBands_tailZero (memWork_worked hc (scaleBands_does hf _ _ sa sb bk s.mem) h hw)
  | dnrm sa sb bk => exact scaleBands_tailZero (memWork_worked hc (scaleBands_does hf _ _ sa sb bk s.mem) h hw)
  | rnrm sa => exact renormalise_tailZero (memWork_worked hc (renormalise_does hf _ sa s.mem) h hw)
  | rot sa dir => trivial
  | cpg sa sb bk => exact pitchGains_pitchZero (memWork_worked hc (pitchGains_does hf _ sa sb bk s.mem) h hw)
  | pqb sb => exact applyGains_pitchZero (memWork_worked hc (applyGains_does hf _ sb s.mem) h hw)
  | qb sa sb sc =>
    obtain ⟨w, hq, ht⟩ := concludeQuant_worked (i := .qb sa sb sc) hc h hw
    exact ht ▸ quantBands_tailZero hq
  | uqb sa sb =>
    obtain ⟨w, hq, ht⟩ := concludeQuant_worked (i := .uqb sa sb) hc h hw
    exact ht ▸ quantBands_tailZero hq
  | smix sa bk dir => exact stereoMix_tailZero (smix_worked hc h hw)

/-! ### Unwritten elements (10_state.md R57, 60_exceptions.md R241)

Work that stops at all stops at an unwritten element (its `_does` lemma), and it stops where it reads one first (its `_stops` lemmas). -/

/-- The command ends in the model's fault, at an element that is unwritten. -/
abbrev EndsUnwritten (s : State) (o : Host.Outcome State Fault Refusal) : Prop :=
  ∃ n k, o = .fault (.unwritten n k) ∧ Memory.read s.mem (addr n k) = none

theorem Does.stop_unwritten {α : Type} {S : Nat → Prop} {m0 : Memory} {get : α → Memory} {r : Cmd α} (hd : Does S m0 get r)
    (hs : Stops r) : ∃ n k, r = .error (.unwritten n k) ∧ Memory.read m0 (addr n k) = none := by
  cases r with
  | ok x => exact absurd rfl (hs x)
  | error e =>
    obtain ⟨n, k, rfl, hn⟩ := hd
    exact ⟨n, k, rfl, hn⟩

theorem withMode_endsUnwritten {s : State} {m : Mode} {work : Mode → Memory → Cmd Memory} {S : Nat → Prop} (hm : ModeOk s m)
    (hd : ModeFacts s.caps m → MemWork S s.mem (work m s.mem)) (hs : ModeFacts s.caps m → Stops (work m s.mem)) :
    EndsUnwritten s (withMode s work) := by
  have hc := checkMode_of_modeOk hm
  have hf := checkMode_facts hc
  obtain ⟨n, k, he, hn⟩ := (hd hf).stop_unwritten (hs hf)
  exact ⟨n, k, by rw [withMode, hc, ok_bind, he]; rfl, hn⟩

theorem concludeQuant_endsUnwritten {cfg : Config} {codec : Codec} {i : Instr} {legal : Bool} {s : State} {m : Mode}
    {sa sb : Spectrum} (hm : ModeOk s m) (hl : legal = true)
    (hs : ModeFacts s.caps m → Stops (quantBands cfg codec m sa sb s)) :
    EndsUnwritten s (concludeQuant cfg s (do
      let m ← checkMode s
      require legal (illegalOperand i)
      quantBands cfg codec m sa sb s)) := by
  have hc := checkMode_of_modeOk hm
  have hf := checkMode_facts hc
  obtain ⟨n, k, he, hn⟩ := (quantBands_does hf cfg codec sa sb s).stop_unwritten (hs hf)
  exact ⟨n, k, by rw [hc, ok_bind, require_true hl, ok_bind, he]; rfl, hn⟩

theorem smix_endsUnwritten {cfg : Config} {s : State} {m : Mode} {sa : Spectrum} {bk : EnergyMem} {dir : Dir}
    (hm : ModeOk s m) (hc : m.c = 2) (hs : ModeFacts s.caps m → Stops (stereoMix (drawsOf cfg s) m sa bk dir s.mem)) :
    EndsUnwritten s (smix cfg sa bk dir s) := by
  have hr : require (decide (m.c = 2)) (illegalOperand (.smix sa bk dir)) = .ok () := require_true (decide_eq_true hc)
  refine withMode_endsUnwritten hm (S := InRange (sel sa) (Mode.flatStart m 0) (Mode.flatStart m (m.ne + 1)))
    (fun hf => ?_) (fun hf => ?_)
  · rw [hr]
    exact stereoMix_does hf hc _ sa bk dir s.mem
  · rw [hr]
    exact hs hf

theorem rot_endsUnwritten {cfg : Config} {s : State} {sa : Spectrum} {dir : Dir} (h0 : u32 s.rotStride ≠ 0)
    (hle : u32 s.rotOff + u32 s.rotLen ≤ Caps.nmax s.caps) (hs : Stops (rotSlice cfg (drawsOf cfg s) sa (u32 s.rotOff)
      (u32 s.rotLen) s.rotTheta dir (u32 s.rotStride) (u32 s.rotIter) s.mem)) : EndsUnwritten s (rot cfg sa dir s) := by
  have hr : checkRotRange s = .ok () := by
    rw [checkRotRange, require_true (decide_eq_true h0), ok_bind, require_true (decide_eq_true hle)]
  obtain ⟨n, k, he, hn⟩ := (rotSlice_does cfg _ sa _ _ _ dir _ _ s.mem).stop_unwritten hs
  exact ⟨n, k, by rw [rot, hr, ok_bind, he]; rfl, hn⟩

/-- A command whose checks pass and that reads an unwritten element before it writes it. -/
theorem execWith_endsUnwritten {cfg : Config} {i : Instr} {s : State} {m : Mode} {a : Nat} (h : Startable i s m)
    (hr : ReadsFirst cfg i s m a) (hn : Memory.read s.mem a = none) : EndsUnwritten s (execWith cfg i s) := by
  cases i with
  | cbe sa bk =>
    exact withMode_endsUnwritten h (fun hf => bandEnergies_does hf _ sa bk s.mem) (fun hf => bandEnergies_stops hf _ bk hr hn)
  | nrm sa sb bk =>
    refine withMode_endsUnwritten h (fun hf => scaleBands_does hf _ _ sa sb bk s.mem) (fun hf => ?_)
    exact hr.elim (fun hr => scaleBands_stops hf _ _ sb bk hr hn) (fun hr => scaleBands_stops_energy hf _ _ sa sb hr hn)
  | dnrm sa sb bk =>
    refine withMode_endsUnwritten h (fun hf => scaleBands_does hf _ _ sa sb bk s.mem) (fun hf => ?_)
    exact hr.elim (fun hr => scaleBands_stops hf _ _ sb bk hr hn) (fun hr => scaleBands_stops_energy hf _ _ sa sb hr hn)
  | rnrm sa =>
    exact withMode_endsUnwritten h (fun hf => renormalise_does hf _ sa s.mem)
      (fun hf => stops_bind_left (bandEnergies_stops hf _ .tmpe hr hn))
  | rot sa dir =>
    obtain ⟨h0, hle⟩ := h
    obtain ⟨hi, k, hk, rfl⟩ := hr
    exact rot_endsUnwritten h0 hle (rotSlice_stops cfg _ _ dir hi hk hn)
  | cpg sa sb bk =>
    refine withMode_endsUnwritten h (fun hf => pitchGains_does hf _ sa sb bk s.mem) (fun hf => ?_)
    exact hr.elim (fun hr => pitchGains_stops_energy hf _ sa sb hr hn) (fun hr => pitchGains_stops hf _ bk hr hn)
  | pqb sb =>
    refine withMode_endsUnwritten h (fun hf => applyGains_does hf _ sb s.mem) (fun hf => ?_)
    rcases hr with hr | ⟨k, hk, hp, rfl⟩
    · exact applyGains_stops hf _ hr hn
    · exact applyGains_stops_gain hf _ sb hk hp hn
  | qb sa sb sc =>
    obtain ⟨hm, hwf⟩ := h
    obtain ⟨hl, _⟩ := qb_legal_of_wellFormed hwf
    refine concludeQuant_endsUnwritten (i := .qb sa sb sc) hm hl (fun hf => ?_)
    rcases hr with hr | ⟨b, hb, hq, hr⟩ | hr | hr
    · exact quantBands_stops_target hf cfg sb sc hr hn
    · exact quantBands_stops_weight hf cfg sa sb hb hq hr hn
    · exact quantBands_stops_prediction hf cfg _ sa hr hn
    · exact quantBands_stops_context hf cfg _ sa sb hr hn
  | uqb sa sb =>
    obtain ⟨hm, hwf⟩ := h
    obtain ⟨hl, hd⟩ := uqb_legal_of_wellFormed hwf
    refine concludeQuant_endsUnwritten (i := .uqb sa sb) hm hl (fun hf => ?_)
    rcases hr with hr | hr | hr
    · exact quantBands_stops_prediction hf cfg _ sa hr hn
    · exact quantBands_stops_context hf cfg _ sa sb hr hn
    · exact quantBands_stops_copy hf cfg hd hr hn
  | smix sa bk dir =>
    obtain ⟨hm, hc⟩ := h
    exact smix_endsUnwritten hm hc fun hf =>
      hr.elim (fun hr => stereoMix_stops hf hc _ bk dir hr hn) (fun hr => stereoMix_stops_energy hf hc _ sa dir hr hn)

/-! The tables that step 3 reads. -/

theorem readTable_unwritten {m : MemName} {n : Nat} {mem : Memory} (h : ¬ Written mem m 0 n) :
    ∃ k, readTable m n mem = .error (.unwritten m k) := by
  cases hr : readTable m n mem with
  | ok t => exact absurd (readTable_ok hr).1 h
  | error e =>
    rcases bind_error.mp hr with hs | ⟨_, _, hs⟩
    · obtain ⟨k, _, _, rfl, _⟩ := readSlice_error hs
      exact ⟨k, rfl⟩
    · cases hs

/-- Step 3 up to the first read of a table. -/
theorem checkMode_ebands_unwritten {s : State} (hc : ∀ j, 1 ≤ j → j ≤ 3 → ModeCheck s j)
    (h : ¬ Written s.mem .ebands 0 (u32 s.modeNE + 2)) : ∃ k, checkMode s = .error (.unwritten .ebands k) := by
  obtain ⟨k, hk⟩ := readTable_unwritten h
  refine ⟨k, ?_⟩
  simp only [checkMode]
  rw [require_true ((check1_iff s).mpr (hc 1 (by omega) (by omega))), ok_bind,
    require_true ((check2_iff s).mpr (hc 2 (by omega) (by omega))), ok_bind,
    require_true ((check3_iff s).mpr (hc 3 (by omega) (by omega))), ok_bind, hk, error_bind]

/-- Step 3 up to the first read of PBANDS. -/
theorem checkMode_pbands_unwritten {s : State} (hc : ∀ j, 1 ≤ j → j ≤ 4 → ModeCheck s j)
    (he : Written s.mem .ebands 0 (u32 s.modeNE + 2)) (h : ¬ Written s.mem .pbands 0 (u32 s.modeNP + 2)) :
    ∃ k, checkMode s = .error (.unwritten .pbands k) := by
  obtain ⟨k, hk⟩ := readTable_unwritten h
  refine ⟨k, ?_⟩
  simp only [checkMode]
  rw [require_true ((check1_iff s).mpr (hc 1 (by omega) (by omega))), ok_bind,
    require_true ((check2_iff s).mpr (hc 2 (by omega) (by omega))), ok_bind,
    require_true ((check3_iff s).mpr (hc 3 (by omega) (by omega))), ok_bind, readTable_ebands he, ok_bind,
    require_true ((check4_iff s).mpr (hc 4 (by omega) (by omega))), ok_bind, hk, error_bind]

theorem withMode_of_mode_error {s : State} {e : Stop} (h : checkMode s = .error e) (work : Mode → Memory → Cmd Memory) :
    withMode s work = stopWith e s := by
  rw [withMode, h]
  rfl

theorem concludeQuant_of_mode_error {s : State} {e : Stop} (h : checkMode s = .error e) (cfg : Config)
    (work : Mode → Cmd State) : concludeQuant cfg s (checkMode s >>= work) = stopWith e s := by
  rw [h]
  rfl

/-- A command that reads the mode ends as step 3 does when that stops. -/
theorem exec_of_mode_stop {i : Instr} {s : State} {e : Stop} (hi : readsMode i = true) (h : checkMode s = .error e) :
    exec i s = stopWith e s := by
  cases i with
  | rot => cases hi
  | cbe | nrm | dnrm | rnrm | cpg | pqb => exact withMode_of_mode_error h _
  | smix sa bk dir =>
    show smix Config.hw sa bk dir s = _
    exact withMode_of_mode_error h _
  | qb | uqb => exact concludeQuant_of_mode_error h _ _

/-- Settles O27: `exec_cases` for what a command's fault names, step 3's two table reads, and `execWith_endsUnwritten` for its work. -/
theorem commandsFaultOnlyAtUnwrittenElements : Obligations.CommandsFaultOnlyAtUnwrittenElements := by
  intro i s
  have hc := exec_cases i s
  refine ⟨fun m k h => ?_, fun r h => ?_, fun hi hj hw => ?_, fun hi hj he hw => ?_, exec_eq_execWith i s,
    fun cfg m a h hr hn => execWith_endsUnwritten h hr hn⟩
  · rw [h] at hc
    cases hc
    assumption
  · rw [h] at hc
    cases hc
  · exact (checkMode_ebands_unwritten hj hw).imp fun _ => exec_of_mode_stop hi
  · exact (checkMode_pbands_unwritten hj he hw).imp fun _ => exec_of_mode_stop hi

end Sys2Proof.Machine

/-! ### The address map and the elements behind it (20_memory.md R61, R62, R65, R67; 60_exceptions.md R241) -/

namespace Sys2Proof.Machine

/-- Every table and memory, in the order of R62's table. -/
def memories : List MemName :=
  [.ebands, .pbands, .spectrum .freq, .spectrum .x, .spectrum .p, .spectrum .w, .spectrum .norm, .energy .bank, .energy .tmpe, .gains,
   .pulses, .wgt]

theorem mem_memories (m : MemName) : m ∈ memories := by
  cases m with
  | spectrum s => cases s <;> decide
  | energy k => cases k <;> decide
  | _ => decide

/-- A row of R62's table is a memory's space number and size. -/
theorem mapRows_eq (c : Caps) : mapRows c = memories.map fun m => (m.space, m.size c) := rfl

theorem memOfSpace_eq_some {n : Nat} {m : MemName} : memOfSpace n = some m ↔ m.space = n :=
  ⟨space_of_memOfSpace, fun h => h ▸ memOfSpace_space m⟩

/-- The space is a memory's and the index lies in it. -/
abbrev Listed (c : Caps) (sp ix : Nat) : Prop := ∃ m, memOfSpace sp = some m ∧ ix < m.size c

theorem addrMapped_iff (c : Caps) (sp : Nat) {ix : Nat} (hix : ix < 65536) :
    addrMapped c (sp * 65536 + ix) = true ↔ Listed c sp ix := by
  have hdiv : (sp * 65536 + ix) / 65536 = sp := by omega
  have hmod : (sp * 65536 + ix) % 65536 = ix := by omega
  rw [addrMapped, hdiv, hmod, Listed]
  cases memOfSpace sp with
  | none => simp
  | some m => simp

/-- Settles O15: the rows are the memories' spaces and sizes (`mapRows_eq`), and so is what the map lists (`addrMapped_iff`). -/
theorem addressMapListsTheTable : Obligations.AddressMapListsTheTable := by
  intro c sp ix hix
  rw [addrMapped_iff c sp hix, mapRows_eq]
  constructor
  · rintro ⟨m, hm, hs⟩
    exact ⟨_, List.mem_map_of_mem (mem_memories m), space_of_memOfSpace hm, hs⟩
  · rintro ⟨_, hrow, hsp, hs⟩
    obtain ⟨m, _, rfl⟩ := List.mem_map.mp hrow
    exact ⟨m, memOfSpace_eq_some.mpr hsp, hs⟩

/-! What a host read delivers. -/

theorem hostRead_of_space {sp : Nat} (h : sp ≠ 0) (s : State) (ix : Nat) : hostRead s sp ix = memRead s sp ix := if_neg h

theorem space_ne_zero_of_memOfSpace {sp : Nat} {m : MemName} (h : memOfSpace sp = some m) : sp ≠ 0 := by
  rintro rfl
  cases h

theorem hostRead_written {s : State} {sp ix : Nat} {m : MemName} {w : Word} (hm : memOfSpace sp = some m) (hs : ix < m.size s.caps)
    (hr : Memory.read s.mem (addr m ix) = some w) : hostRead s sp ix = .ok w := by
  rw [hostRead_of_space (space_ne_zero_of_memOfSpace hm)]
  simp only [memRead, hm, if_pos hs, hr]

theorem hostRead_unwritten {s : State} {sp ix : Nat} {m : MemName} (hm : memOfSpace sp = some m) (hs : ix < m.size s.caps)
    (hr : Memory.read s.mem (addr m ix) = none) : hostRead s sp ix = .error (.hostReadUnwritten m ix) := by
  rw [hostRead_of_space (space_ne_zero_of_memOfSpace hm)]
  simp only [memRead, hm, if_pos hs, hr]

theorem hostRead_unlisted {s : State} {sp ix : Nat} (h0 : sp ≠ 0) (hn : ¬ Listed s.caps sp ix) :
    hostRead s sp ix = .ok 0 := by
  rw [hostRead_of_space h0, memRead]
  split
  · rfl
  · next m hm => exact if_neg fun hs => hn ⟨m, hm, hs⟩

/-- A host read sees the memory through the one element it names. -/
theorem hostRead_congr_mem (s : State) (mem : Memory) {sp ix : Nat}
    (h : ∀ m, memOfSpace sp = some m → Memory.read mem (addr m ix) = Memory.read s.mem (addr m ix)) :
    hostRead { s with mem := mem } sp ix = hostRead s sp ix := by
  by_cases h0 : sp = 0
  · rw [h0]
    rfl
  · rw [hostRead_of_space h0, hostRead_of_space h0]
    cases hm : memOfSpace sp with
    | none => simp only [memRead, hm]
    | some m => simp only [memRead, hm, h m hm]

/-! A step that takes a host read. -/

theorem step_of_read {s : State} {sp : BitVec 8} {ix : BitVec 16} {rest : List HostMove} {w : Word} (hb : s.busy = false)
    (hm : s.moves = .read sp ix :: rest) (hr : hostRead s sp.toNat ix.toNat = .ok w) :
    step s = .next { s with moves := rest, readData := some w } := by
  have hr' : hostRead { s with moves := rest } sp.toNat ix.toNat = .ok w := hr
  rw [step_of_move hm, performMove, if_neg (by simp [hb]), hr']

theorem step_of_refused_read {s : State} {sp : BitVec 8} {ix : BitVec 16} {rest : List HostMove} {r : Refusal} (hb : s.busy = false)
    (hm : s.moves = .read sp ix :: rest) (hr : hostRead s sp.toNat ix.toNat = .error r) : step s = .refused r := by
  have hr' : hostRead { s with moves := rest } sp.toNat ix.toNat = .error r := hr
  rw [step_of_move hm, performMove, if_neg (by simp [hb]), hr']

/-- Settles O16: a step with a read does what the read answers, and an unwritten element answers the refusal. -/
theorem hostReadHasNoSideEffect : Obligations.HostReadHasNoSideEffect :=
  fun _ _ _ _ hb hm => ⟨fun _ => step_of_read hb hm, fun _ hmem hs hn => step_of_refused_read hb hm (hostRead_unwritten hmem hs hn)⟩

/-! A step that takes a host write outside space 0x00. -/

theorem memWrite_listed {sp ix : Nat} {m : MemName} (w : Word) (s : State) (hm : memOfSpace sp = some m) (hs : ix < m.size s.caps) :
    memWrite sp ix w s = { s with mem := writeElem m ix w s.mem } := by
  simp only [memWrite, hm, if_pos hs]

theorem memWrite_unlisted {sp ix : Nat} (w : Word) (s : State) (hn : ¬ Listed s.caps sp ix) :
    memWrite sp ix w s = s := by
  rw [memWrite]
  split
  · rfl
  · next m hm => exact if_neg fun hs => hn ⟨m, hm, hs⟩

theorem step_of_memWrite {s : State} {sp : BitVec 8} {ix : BitVec 16} {w : Word} {rest : List HostMove} (hb : s.busy = false)
    (hh : s.halt = false) (h0 : sp ≠ 0x00) (hm : s.moves = .write sp ix w :: rest) :
    step s = .next (memWrite sp.toNat ix.toNat w { s with moves := rest }) := by
  have h0' : sp.toNat ≠ 0 := fun h => h0 (BitVec.eq_of_toNat_eq h)
  rw [step_of_write hb hm, hostWrite, if_neg (by simp [h0']), if_neg (by simp [hh]), if_neg (by simp [h0']), if_neg h0']

/-- A write to one element leaves the host's reads of every other address as they were. -/
theorem hostRead_writeElem_other (s : State) {sp ix sp' ix' : Nat} {m : MemName} (w : Word) (hm : memOfSpace sp = some m)
    (hix : ix < 65536) (hix' : ix' < 65536) (hne : ¬(sp' = sp ∧ ix' = ix)) :
    hostRead { s with mem := writeElem m ix w s.mem } sp' ix' = hostRead s sp' ix' := by
  refine hostRead_congr_mem s _ fun m' hm' => ?_
  have other : addr m ix ≠ addr m' ix' := fun he => by
    obtain ⟨rfl, rfl⟩ := (addr_inj hix hix').mp he
    exact hne ⟨(space_of_memOfSpace hm').symm.trans (space_of_memOfSpace hm), rfl⟩
  rw [read_writeElem, if_neg other]

/-- Settles O14: by `step_of_memWrite` the step makes one listed element written, or is ignored where the map lists nothing. -/
theorem memoryWriteReadsBack : Obligations.MemoryWriteReadsBack := by
  intro s rest sp ix w hh hb h0 hm
  have hstep := step_of_memWrite hb hh h0 hm
  rw [← Bool.not_eq_true, addrMapped_iff s.caps sp.toNat ix.isLt]
  by_cases hl : Listed s.caps sp.toNat ix.toNat
  case pos =>
    obtain ⟨m, hsp, hs⟩ := hl
    rw [memWrite_listed w { s with moves := rest } hsp hs] at hstep
    refine ⟨_, hstep, rfl, rfl, fun _ => hostRead_written hsp hs ?_, fun hn => absurd ⟨m, hsp, hs⟩ hn, fun sp' ix' hix' hne => ?_⟩
    · rw [read_writeElem, if_pos rfl]
    · exact hostRead_writeElem_other { s with moves := rest } w hsp ix.isLt hix' hne
  case neg =>
    have h0' : sp.toNat ≠ 0 := fun h => h0 (BitVec.eq_of_toNat_eq h)
    rw [memWrite_unlisted w { s with moves := rest } hl] at hstep
    exact ⟨_, hstep, rfl, rfl, fun h => absurd h hl, fun _ => ⟨hostRead_unlisted h0' hl, rfl⟩, fun _ _ _ _ => rfl⟩

end Sys2Proof.Machine

/-! ### Commands on a memory with every element written (20_memory.md R66, 60_exceptions.md R241)

Step 3 and the operand checks raise faults of the CORE; the work runs to its end, because every element it reads is one that the map
lists (the `_vals` lemmas name them). -/

namespace Sys2Proof.Machine

/-- `AllWritten` of a memory by itself, to be said of the memories in the middle of a command's work. -/
abbrev Filled (caps : Caps) (mem : Memory) : Prop := ∀ a, addrMapped caps a = true → (Memory.read mem a).isSome = true

theorem Filled.keeps {caps : Caps} {S : Nat → Prop} {m0 m1 : Memory} (h : Filled caps m0) (hk : Keeps S m0 m1) : Filled caps m1 :=
  fun a ha => hk.grows a (h a ha)

theorem Filled.written {caps : Caps} {mem : Memory} (h : Filled caps mem) {m : MemName} {n : Nat} (hn : n ≤ m.size caps)
    (h16 : n ≤ 65536) (lo : Nat) : Written mem m lo n := by
  intro k hk _
  refine h _ ?_
  rw [addrMapped_addr caps m k (by omega)]
  exact decide_eq_true (by omega)

/-- The elements of a spectrum memory up to a band's start. -/
theorem Filled.band {caps : Caps} {m : Mode} {mem : Memory} (h : Filled caps mem) (hm : ModeFacts caps m) (sp : Spectrum) {i : Nat}
    (hi : i ≤ m.ne + 1) (lo : Nat) : Written mem (sel sp) lo (Mode.flatStart m i) :=
  h.written (hm.flatStart_le hi) (Nat.le_trans (hm.flatStart_le hi) (ModeFacts.nmax_le caps)) lo

/-- The elements of a spectrum memory up to a pitch band's start. -/
theorem Filled.pitch {caps : Caps} {m : Mode} {mem : Memory} (h : Filled caps mem) (hm : ModeFacts caps m) (sp : Spectrum) {k : Nat}
    (hk : k ≤ m.np + 1) (lo : Nat) : Written mem (sel sp) lo (Mode.pitchStart m k) :=
  h.written (hm.pitchStart_le hk) (Nat.le_trans (hm.pitchStart_le hk) (ModeFacts.nmax_le caps)) lo

theorem Filled.energies {caps : Caps} {m : Mode} {mem : Memory} (h : Filled caps mem) (hm : ModeFacts caps m) (bk : EnergyMem) :
    Written mem (bank bk) 0 (m.ne * m.c) :=
  fun _ hk h0 => h _ (inRange_energy_mapped hm (inRange_addr h0 hk))

theorem Filled.gains {caps : Caps} {m : Mode} {mem : Memory} (h : Filled caps mem) (hm : ModeFacts caps m) :
    Written mem .gains 0 m.np :=
  fun _ hk h0 => h _ (inRange_gains_mapped hm (inRange_addr h0 hk))

/-! Work that stops at no unwritten element. -/

/-- The computation ends with a value or raises a fault of the CORE. -/
def Unblocked {α : Type} (r : Cmd α) : Prop := ∀ m k, r ≠ .error (.unwritten m k)

theorem unblocked_ok {α : Type} (x : α) : Unblocked (.ok x : Cmd α) := fun _ _ h => by cases h

theorem unblocked_of_eq_ok {α : Type} {r : Cmd α} {x : α} (h : r = .ok x) : Unblocked r := h ▸ unblocked_ok x

theorem unblocked_of_ends {α : Type} {r : Cmd α} {P : α → Prop} (h : ∃ x, r = .ok x ∧ P x) : Unblocked r := by
  obtain ⟨_, hok, _⟩ := h
  exact unblocked_of_eq_ok hok

theorem unblocked_require (b : Bool) (f : FaultCode) (info : Word) : Unblocked (require b (.raised f info)) := fun m k h => by
  obtain ⟨_, he⟩ := require_error.mp h
  cases he

theorem unblocked_bind {α β : Type} {x : Cmd α} {f : α → Cmd β} (hx : Unblocked x) (hf : ∀ a, x = .ok a → Unblocked (f a)) :
    Unblocked (x >>= f) := fun m k h => by
  rcases bind_error.mp h with h | ⟨a, ha, h⟩
  · exact hx m k h
  · exact hf a ha m k h

theorem unblocked_require_bind {α : Type} {b : Bool} {f : FaultCode} {info : Word} {g : Unit → Cmd α}
    (hg : b = true → Unblocked (g ())) : Unblocked (require b (.raised f info) >>= g) :=
  unblocked_bind (unblocked_require b f info) fun _ h => hg (require_ok.mp h)

theorem unblocked_readTable_bind {α : Type} {m : MemName} {n : Nat} {mem : Memory} {g : List Nat → Cmd α} (hw : Written mem m 0 n)
    (hg : ∀ t, Unblocked (g t)) : Unblocked (readTable m n mem >>= g) := by
  rw [readTable_written hw]
  exact hg _

/-- Step 3 reads table entries only once check 3 has passed, which bounds them by the tables' sizes. -/
theorem checkMode_unblocked {s : State} (h : AllWritten s) : Unblocked (checkMode s) := by
  have hf : Filled s.caps s.mem := h
  have emax := s.caps.emax.isLt
  have pmax := s.caps.pmax.isLt
  refine unblocked_require_bind fun _ => unblocked_require_bind fun _ => unblocked_require_bind fun h3 => ?_
  obtain ⟨hne, hnp⟩ := (check3_iff s).mp h3
  have ebands : Written s.mem .ebands 0 (u32 s.modeNE + 2) := hf.written (Nat.add_le_add_right hne 2) (by omega) 0
  have pbands : Written s.mem .pbands 0 (u32 s.modeNP + 2) := hf.written (Nat.add_le_add_right hnp 2) (by omega) 0
  refine unblocked_readTable_bind ebands fun _ => unblocked_require_bind fun _ => ?_
  refine unblocked_readTable_bind pbands fun _ => unblocked_require_bind fun _ => unblocked_require_bind fun _ => ?_
  exact unblocked_require_bind fun _ => unblocked_require_bind fun _ => unblocked_require_bind fun _ => unblocked_ok _

/-! The work of each command. -/

theorem bandEnergies_unblocked {caps : Caps} {m : Mode} {mem : Memory} (h : Filled caps mem) (hm : ModeFacts caps m) (d : Draws)
    (sa : Spectrum) (bk : EnergyMem) : Unblocked (bandEnergies d m sa bk mem) :=
  unblocked_of_ends (bandEnergies_vals hm d sa bk (written_vals (h.band hm sa (Nat.le_succ _) _)))

theorem scaleBands_unblocked {caps : Caps} {m : Mode} {mem : Memory} (h : Filled caps mem) (hm : ModeFacts caps m)
    (gain : Nat → Nat → Word → Word) (d : Draws) (sa sb : Spectrum) (bk : EnergyMem) :
    Unblocked (scaleBands gain d m sa sb bk mem) := by
  obtain ⟨_, _, hok, _⟩ := scaleBands_vals hm gain d sa sb bk (written_vals (h.band hm sa (Nat.le_succ _) _))
    (fun k hk => written_vals (h.energies hm bk) k (Nat.zero_le k) hk)
  exact unblocked_of_eq_ok hok

theorem renormalise_unblocked {caps : Caps} {m : Mode} {mem : Memory} (h : Filled caps mem) (hm : ModeFacts caps m) (d : Draws)
    (sa : Spectrum) : Unblocked (renormalise d m sa mem) :=
  unblocked_bind (bandEnergies_unblocked h hm _ sa .tmpe) fun _ hok =>
    scaleBands_unblocked (h.keeps ((bandEnergies_does hm _ sa .tmpe mem).ok hok)) hm _ _ sa sa .tmpe

theorem rotSlice_unblocked {caps : Caps} {mem : Memory} (h : Filled caps mem) (cfg : Config) (d : Draws) (sp : Spectrum)
    {off len : Nat} (hle : off + len ≤ Caps.nmax caps) (theta : Word) (dir : Dir) (stride iter : Nat) :
    Unblocked (rotSlice cfg d sp off len theta dir stride iter mem) := by
  have hw : Written mem (sel sp) off (off + len) := h.written hle (Nat.le_trans hle (ModeFacts.nmax_le caps)) off
  exact unblocked_of_ends (rotSlice_holds cfg d (T := fun k => off ≤ k ∧ k < off + len) theta dir stride iter
    (fun i hi => ⟨by omega, by omega⟩) ⟨fun k hk => written_vals hw k hk.1 hk.2, fun _ _ => rfl⟩)

theorem pitchGains_unblocked {caps : Caps} {m : Mode} {mem : Memory} (h : Filled caps mem) (hm : ModeFacts caps m) (d : Draws)
    (sa sb : Spectrum) (bk : EnergyMem) : Unblocked (pitchGains d m sa sb bk mem) :=
  unblocked_of_ends (pitchGains_vals hm d sa sb bk (written_vals (h.pitch hm sa (Nat.le_succ _) _))
    (written_vals (h.pitch hm sb (Nat.le_succ _) _)) (fun k hk => written_vals (h.energies hm bk) k (Nat.zero_le k) hk))

theorem applyGains_unblocked {caps : Caps} {m : Mode} {mem : Memory} (h : Filled caps mem) (hm : ModeFacts caps m) (d : Draws)
    (sb : Spectrum) : Unblocked (applyGains d m sb mem) :=
  unblocked_of_ends (applyGains_vals hm d sb (written_vals (h.pitch hm sb (Nat.le_succ _) _))
    (fun k hk _ => written_vals (h.gains hm) k (Nat.zero_le k) hk))

theorem stereoMix_unblocked {caps : Caps} {m : Mode} {mem : Memory} (h : Filled caps mem) (hm : ModeFacts caps m) (hc : m.c = 2)
    (d : Draws) (sa : Spectrum) (bk : EnergyMem) (dir : Dir) : Unblocked (stereoMix d m sa bk dir mem) :=
  unblocked_of_ends (stereoMix_vals hm hc d sa bk dir (written_vals (h.band hm sa (Nat.le_succ _) _))
    (fun k hk => written_vals (h.energies hm bk) k (Nat.zero_le k) hk))

/-- A band whose elements are written in every memory it may read is ready for the loop, on either side. -/
theorem bandReady_of_filled {caps : Caps} {m : Mode} (hm : ModeFacts caps m) (cfg : Config) (codec : Codec) (sa : Spectrum) {i : Nat}
    (hi : i < m.ne) (q0 : Int) {r : QRun} (h : Filled caps r.mem) : BandReady cfg m codec sa i q0 r := by
  have band : ∀ sp, Written r.mem (sel sp) (Mode.flatStart m i) (Mode.flatStart m i + Mode.flatLen m i) := fun sp => by
    rw [hm.flatStart_add_flatLen (by omega)]
    exact h.band hm sp (by omega) _
  cases codec with
  | encoder sc => exact ⟨band sa, fun _ => band sc⟩
  | decoder => exact .inl (band sa)

theorem quantBands_unblocked {m : Mode} {s : State} (h : AllWritten s) (hm : ModeFacts s.caps m) (cfg : Config) (codec : Codec)
    {sa sb : Spectrum} (hd : Distinct sa sb) {w : Option Vals} (hw : WIs codec sa sb (quantPrologue cfg m s) w) :
    Unblocked (quantBands cfg codec m sa sb s) := by
  have hf : Filled s.caps s.mem := h
  have start : Filled s.caps (quantPrologue cfg m s).mem := hf.keeps (quantPrologue_keeps cfg m sa sb s)
  obtain ⟨_, hok, _⟩ := quantBands_vals hm cfg codec hd s hw (hf.band hm sb (Nat.le_succ _) _) (hf.band hm .norm (Nat.zero_le _) _)
    (fun _ _ hi grows => bandReady_of_filled hm cfg codec sa hi _ fun a ha => grows a (start a ha))
  exact unblocked_of_eq_ok hok

/-! The commands. -/

theorem stopWith_next {α : Type} {e : Stop} (h : Unblocked (.error e : Cmd α)) (s : State) : ∃ t, stopWith e s = .next t := by
  cases e with
  | unwritten m k => exact absurd rfl (h m k)
  | raised f info => exact ⟨_, rfl⟩

theorem conclude_next {s : State} {work : Cmd State} (h : Unblocked work) : ∃ t, conclude s work = .next t := by
  cases work with
  | ok t => exact ⟨_, rfl⟩
  | error e => exact stopWith_next h s

theorem concludeQuant_next {cfg : Config} {s : State} {work : Cmd State} (h : Unblocked work) :
    ∃ t, concludeQuant cfg s work = .next t := by
  cases work with
  | ok t =>
    rw [concludeQuant]
    split
    · exact ⟨_, rfl⟩
    · exact ⟨_, rfl⟩
  | error e => exact stopWith_next h s

theorem withMode_next {s : State} {work : Mode → Memory → Cmd Memory} (h : AllWritten s)
    (hwork : ∀ m, ModeFacts s.caps m → Unblocked (work m s.mem)) : ∃ t, withMode s work = .next t :=
  conclude_next (unblocked_bind (checkMode_unblocked h) fun m hm =>
    unblocked_bind (hwork m (checkMode_facts hm)) fun _ _ => unblocked_ok _)

theorem rot_next {s : State} (h : AllWritten s) (cfg : Config) (sa : Spectrum) (dir : Dir) : ∃ t, rot cfg sa dir s = .next t := by
  refine conclude_next (unblocked_bind ?range fun _ hr => unblocked_bind ?slice fun _ _ => unblocked_ok _)
  case range => exact unblocked_require_bind fun _ => unblocked_require _ _ _
  case slice =>
    obtain ⟨_, _, hle⟩ := bind_ok.mp hr
    exact rotSlice_unblocked h cfg _ sa (of_decide_eq_true (require_ok.mp hle)) _ dir _ _

theorem smix_next {s : State} (h : AllWritten s) (cfg : Config) (sa : Spectrum) (bk : EnergyMem) (dir : Dir) :
    ∃ t, smix cfg sa bk dir s = .next t := by
  unfold smix
  exact withMode_next h fun _ hm => unblocked_require_bind fun hc => stereoMix_unblocked h hm (of_decide_eq_true hc) _ sa bk dir

/-- Every command in every configuration. -/
theorem execWith_next {s : State} (h : AllWritten s) (cfg : Config) (i : Instr) : ∃ t, execWith cfg i s = .next t := by
  cases i with
  | cbe sa bk => exact withMode_next h fun _ hm => bandEnergies_unblocked h hm _ sa bk
  | nrm sa sb bk => exact withMode_next h fun _ hm => scaleBands_unblocked h hm _ _ sa sb bk
  | dnrm sa sb bk => exact withMode_next h fun _ hm => scaleBands_unblocked h hm _ _ sa sb bk
  | rnrm sa => exact withMode_next h fun _ hm => renormalise_unblocked h hm _ sa
  | rot sa dir => exact rot_next h cfg sa dir
  | cpg sa sb bk => exact withMode_next h fun _ hm => pitchGains_unblocked h hm _ sa sb bk
  | pqb sb => exact withMode_next h fun _ hm => applyGains_unblocked h hm _ sb
  | qb sa sb sc =>
    refine concludeQuant_next (unblocked_bind (checkMode_unblocked h) fun m hm => unblocked_require_bind fun hl => ?_)
    obtain ⟨_, hd, hca, hcb, hcn⟩ := qb_legal_of_wellFormed (sa := sa) (sb := sb) (sc := sc) hl
    exact quantBands_unblocked h (checkMode_facts hm) cfg (.encoder sc) hd ⟨hca, hcb, hcn, _, rfl, fun _ _ => rfl⟩
  | uqb sa sb =>
    refine concludeQuant_next (unblocked_bind (checkMode_unblocked h) fun m hm => unblocked_require_bind fun hl => ?_)
    obtain ⟨_, hd⟩ := uqb_legal_of_wellFormed (sa := sa) (sb := sb) hl
    exact quantBands_unblocked h (checkMode_facts hm) cfg .decoder hd rfl
  | smix sa bk dir => exact smix_next h cfg sa bk dir

/-- Settles O28: the checks raise faults and the work runs to its end (the `_unblocked` lemmas), so every command ends in a next state. -/
theorem everyCommandCompletesOnWrittenMemory : Obligations.EveryCommandCompletesOnWrittenMemory := by
  intro i s h
  rw [exec_eq_execWith]
  exact execWith_next h Config.hw i

end Sys2Proof.Machine

/-! ### The encoding of commands (30_encoding.md R81 to R89)

A command's word has the command's fields, so what a word decodes to is a question about its fields (`decode_eq_ok_iff_fields`). -/

namespace Sys2Proof
open Machine

/-! Decode and encode. -/

theorem decode_encode (i : Instr) : decode (encode i) = .ok i := by
  cases i with
  | cbe sa bk => exact Laws.Encoding.cbe sa bk
  | nrm sa sb bk => exact Laws.Encoding.nrm sa sb bk
  | dnrm sa sb bk => exact Laws.Encoding.dnrm sa sb bk
  | rnrm sa => exact Laws.Encoding.rnrm sa
  | rot sa dir => exact Laws.Encoding.rot sa dir
  | cpg sa sb bk => exact Laws.Encoding.cpg sa sb bk
  | pqb sb => exact Laws.Encoding.pqb sb
  | qb sa sb sc => exact Laws.Encoding.qb sa sb sc
  | uqb sa sb => exact Laws.Encoding.uqb sa sb
  | smix sa bk dir => exact Laws.Encoding.smix sa bk dir

theorem encode_of_decode {w : Word} {i : Instr} (h : decode w = .ok i) : encode i = w := by
  rw [encode, decodeFields_ok h, assemble_fieldsOf]

/-- Settles O1: a decoded command has the word's fields, and each command's word decodes to it. -/
theorem decodeInvertsEncode : Obligations.DecodeInvertsEncode :=
  fun _ i => ⟨encode_of_decode, fun h => h ▸ decode_encode i⟩

/-- A word decodes to a command exactly when it has the command's fields. -/
theorem decode_eq_ok_iff_fields {w : Word} {i : Instr} : decode w = .ok i ↔ fieldsOf w = fieldsFor i := by
  refine ⟨fun h => (decodeFields_ok h).symm, fun h => ?_⟩
  rw [← assemble_fieldsOf w, h]
  exact decode_encode i

/-! The rows of R84: the fields under a mask are those where the mask is all ones, and any code is an energy memory's or a direction's,
but 0 to 4 alone are a spectrum's. -/

theorem fields_eq_iff {f g : Fields} : f = g ↔
    f.opc = g.opc ∧ f.sa = g.sa ∧ f.sb = g.sb ∧ f.sc = g.sc ∧ f.bk = g.bk ∧ f.dir = g.dir ∧ f.rsv = g.rsv := by
  cases f
  cases g
  simp only [Fields.mk.injEq]

theorem exists_eq_spectrum_code {c : BitVec 4} : (∃ s : Spectrum, c = s.code) ↔ c.toNat ≤ 4 := by
  rw [← spectrumOf_ok_iff]
  refine ⟨fun ⟨s, h⟩ => ⟨s, ?_⟩, fun ⟨s, h⟩ => ⟨s, (spectrumOf_ok h).symm⟩⟩
  rw [h]
  cases s <;> rfl

theorem exists_eq_energy_code (b : BitVec 1) : ∃ k : EnergyMem, b = k.code := ⟨_, (energyOf_code b).symm⟩

theorem exists_eq_dir_code (b : BitVec 1) : ∃ d : Dir, b = d.code := ⟨_, (dirOf_code b).symm⟩

theorem and_opcOnes (b : BitVec 8) : b &&& 0xFF#8 = b := BitVec.and_allOnes
theorem and_selectOnes (b : BitVec 4) : b &&& 0xF#4 = b := BitVec.and_allOnes
theorem and_flagOnes (b : BitVec 1) : b &&& 1#1 = b := BitVec.and_allOnes
theorem and_rsvOnes (b : BitVec 10) : b &&& 0x3FF#10 = b := BitVec.and_allOnes

/-- Settles O3: both sides of each row say the same of the word's fields. -/
theorem matchAndMaskSelectTheCommand : Obligations.MatchAndMaskSelectTheCommand := by
  intro w
  simp only [decode_eq_ok_iff_fields, masked_eq_iff, selectCode_sa, selectCode_sb, selectCode_sc]
  generalize fieldsOf w = f
  refine ⟨?cbe, ?nrm, ?dnrm, ?rnrm, ?rot, ?cpg, ?pqb, ?qb, ?uqb, ?smix⟩
  all_goals
    simp [fieldsOf, fieldsFor, fields_eq_iff, andFields, exists_eq_spectrum_code, exists_eq_energy_code, exists_eq_dir_code,
      and_opcOnes, and_selectOnes, and_flagOnes, and_rsvOnes, and_assoc, and_left_comm, and_comm]

/-! Illegal words (R85, R86). -/

/-- The opcodes of R84. -/
def opcodes : List Nat := [0x01, 0x02, 0x03, 0x04, 0x05, 0x06, 0x07, 0x08, 0x09, 0x0A]

theorem mem_opcodes_iff {n : Nat} : n ∈ opcodes ↔ n ≠ 0 ∧ n < 0x0B := by
  simp only [opcodes, List.mem_cons, List.not_mem_nil, or_false]
  omega

/-- The word keeps the row of opcode `n` below OPC: the unused fields are zero, the used select fields hold codes 0 to 4. -/
def OperandsLegal (n : Nat) (w : Word) : Prop := w &&& unusedMask n = 0 ∧ ∀ lo ∈ usedSelects n, selectCode w lo ≤ 4

theorem illegalWord_iff (w : Word) : IllegalWord w ↔ ¬ (opcOf w ∈ opcodes ∧ OperandsLegal (opcOf w) w) := by
  rw [mem_opcodes_iff, OperandsLegal, IllegalWord]
  simp only [not_and_or, not_forall, not_le, not_lt, not_not, Nat.succ_le_iff, exists_prop, or_assoc, ne_eq]

theorem opcOf_eq_iff {w : Word} {n : Nat} (hn : n < 256) : opcOf w = n ↔ (fieldsOf w).opc = BitVec.ofNat 8 n := by
  rw [opcOf, fieldsOf, ← BitVec.toNat_inj, BitVec.extractLsb'_toNat, BitVec.toNat_ushiftRight, BitVec.toNat_ofNat,
    Nat.mod_eq_of_lt hn, Nat.mod_eq_of_lt (by omega)]

/-- R84's mask of the row of opcode `n`: OPC and what the row leaves unused. -/
def rowMask (n : Nat) : Word := 0xFF000000 ||| unusedMask n

/-- R84's match of the row of opcode `n`. -/
def rowMatch (n : Nat) : Word := BitVec.ofNat 32 n <<< 24

theorem fieldsOf_rowMask : ∀ n ∈ opcodes, fieldsOf (rowMask n) = { fieldsOf (unusedMask n) with opc := 0xFF } := by decide

theorem fieldsOf_rowMatch : ∀ n ∈ opcodes, fieldsOf (rowMatch n) = { fieldsOf 0 with opc := BitVec.ofNat 8 n } := by decide

theorem unusedMask_opc : ∀ n ∈ opcodes, (fieldsOf (unusedMask n)).opc = 0 := by decide

theorem and_rowMask_iff {w : Word} {n : Nat} (hn : n ∈ opcodes) :
    w &&& rowMask n = rowMatch n ↔ opcOf w = n ∧ w &&& unusedMask n = 0 := by
  have hlt : n < 256 := by have := (mem_opcodes_iff.mp hn).2; omega
  have h0 : (fieldsOf 0#32).opc = 0#8 := rfl
  rw [masked_eq_iff, masked_eq_iff, opcOf_eq_iff hlt, fieldsOf_rowMask n hn, fieldsOf_rowMatch n hn]
  simp only [andFields, fields_eq_iff, unusedMask_opc n hn, and_opcOnes, BitVec.ofNat_eq_ofNat, BitVec.and_zero, h0, true_and]

/-- A command is one of the ten rows with its operands. -/
theorem exists_instr_iff {P : Instr → Prop} : (∃ i, P i) ↔
    (∃ sa bk, P (.cbe sa bk)) ∨ (∃ sa sb bk, P (.nrm sa sb bk)) ∨ (∃ sa sb bk, P (.dnrm sa sb bk)) ∨ (∃ sa, P (.rnrm sa)) ∨
    (∃ sa dir, P (.rot sa dir)) ∨ (∃ sa sb bk, P (.cpg sa sb bk)) ∨ (∃ sb, P (.pqb sb)) ∨ (∃ sa sb sc, P (.qb sa sb sc)) ∨
    (∃ sa sb, P (.uqb sa sb)) ∨ (∃ sa bk dir, P (.smix sa bk dir)) := by
  constructor
  · rintro ⟨i, h⟩
    cases i <;> grind
  · grind

theorem exists_decode_ok_iff (w : Word) : (∃ i, decode w = .ok i) ↔ opcOf w ∈ opcodes ∧ OperandsLegal (opcOf w) w := by
  obtain ⟨cbe, nrm, dnrm, rnrm, rot, cpg, pqb, qb, uqb, smix⟩ := matchAndMaskSelectTheCommand w
  have rows : (∃ i, decode w = .ok i) ↔ ∃ n ∈ opcodes,
      w &&& rowMask n = rowMatch n ∧ ∀ lo ∈ usedSelects n, selectCode w lo ≤ 4 := by
    rw [exists_instr_iff, cbe, nrm, dnrm, rnrm, rot, cpg, pqb, qb, uqb, smix]
    simp [opcodes, rowMask, rowMatch, unusedMask, usedSelects]
  rw [rows]
  constructor
  · rintro ⟨n, hn, hm, hsel⟩
    obtain ⟨rfl, hz⟩ := (and_rowMask_iff hn).mp hm
    exact ⟨hn, hz, hsel⟩
  · rintro ⟨hn, hz, hsel⟩
    exact ⟨_, hn, (and_rowMask_iff hn).mpr ⟨rfl, hz⟩, hsel⟩

theorem exists_decode_error_iff {w : Word} : (∃ e, decode w = .error e) ↔ ¬ ∃ i, decode w = .ok i := by
  cases decode w <;> simp

/-- Settles O4: the words that the rows select are those with an opcode of R84 and legal operands. -/
theorem decoderRefusesExactlyTheIllegalWords : Obligations.DecoderRefusesExactlyTheIllegalWords := by
  refine ⟨fun w => ?_, .inl rfl, .inr (.inl ?_)⟩
  · rw [exists_decode_error_iff, exists_decode_ok_iff, illegalWord_iff]
  · decide

/-! The words of assembler lines (R89). -/

theorem toNat_append_eq_add {m n : Nat} (x : BitVec m) (y : BitVec n) : (x ++ y).toNat = x.toNat * 2 ^ n + y.toNat := by
  rw [BitVec.toNat_append, ← Nat.shiftLeft_add_eq_or_of_lt y.isLt, Nat.shiftLeft_eq]

/-- A word is the sum of its fields, each at its place (R81). -/
theorem assemble_eq_sum (f : Fields) : assemble f = (f.opc.setWidth 32 <<< 24) + (f.sa.setWidth 32 <<< 20) +
    (f.sb.setWidth 32 <<< 16) + (f.sc.setWidth 32 <<< 12) + (f.bk.setWidth 32 <<< 11) + (f.dir.setWidth 32 <<< 10) +
    f.rsv.setWidth 32 := by
  have h : (assemble f).toNat = ((((((f.opc.toNat * 2 ^ 4 + f.sa.toNat) * 2 ^ 4 + f.sb.toNat) * 2 ^ 4 + f.sc.toNat) * 2 ^ 1 +
      f.bk.toNat) * 2 ^ 1 + f.dir.toNat) * 2 ^ 10 + f.rsv.toNat) := by
    simp only [← toNat_append_eq_add]
    rfl
  apply BitVec.eq_of_toNat_eq
  rw [h]
  simp only [BitVec.toNat_add, BitVec.toNat_shiftLeft, BitVec.toNat_setWidth, Nat.shiftLeft_eq]
  omega

theorem spectrumNumber_eq (s : Spectrum) : spectrumNumber s = s.code.setWidth 32 := by cases s <;> rfl
theorem bankNumber_eq (k : EnergyMem) : bankNumber k = k.code.setWidth 32 := by cases k <;> rfl
theorem dirNumber_eq (d : Dir) : dirNumber d = d.code.setWidth 32 := by cases d <;> rfl

/-- Settles O2: each line of the table leaves the zero fields out of the sum of the command's fields. -/
theorem encodeFollowsSyntaxTable : Obligations.EncodeFollowsSyntaxTable := by
  intro sa sb sc bk dir
  simp [encode, assemble_eq_sum, fieldsFor, spectrumNumber_eq, bankNumber_eq, dirNumber_eq]

/-- Settles O5: each word is the encoding of the command. -/
theorem specWordsDecode : Obligations.SpecWordsDecode :=
  ⟨decode_encode (.cbe .x .tmpe), decode_encode (.nrm .freq .x .bank), decode_encode (.dnrm .x .freq .bank), decode_encode (.rnrm .x),
    decode_encode (.rot .x .minus), decode_encode (.cpg .x .p .bank), decode_encode (.pqb .p), decode_encode (.qb .x .p .w),
    decode_encode (.uqb .x .p), decode_encode (.smix .freq .bank .minus)⟩

end Sys2Proof

/-! ### The band energies of CBE (40_energy.md R100, R101, R266) -/

namespace Sys2Proof.Machine

open F32

/-- A command on the memories alone whose work ends well retires with the memory of its work. -/
theorem withMode_of_ok {s : State} {m : Mode} {work : Mode → Memory → Cmd Memory} {mem : Memory} (hm : ModeOk s m)
    (hw : work m s.mem = .ok mem) : withMode s work = .next (RetiredTo s mem) := by
  rw [withMode, checkMode_of_modeOk hm, ok_bind, hw]
  rfl

/-- What a command leaves that reads the mode and calls no port: it raised a fault and did nothing else, or it retired and changed
memory within `Writes` alone. -/
theorem faultedTo_or_retiredTo {i : Instr} {s t : State} (hi : readsMode i = true) (hp : usesPorts i = false)
    (h : exec i s = .next t) : t = FaultedTo s t.cause t.info ∨
      (t = RetiredTo s t.mem ∧ ∃ m, ModeOk s m ∧ ∀ a, ¬ Writes i s m a → Memory.read t.mem a = Memory.read s.mem a) := by
  have hc := exec_cases i s
  rw [h] at hc
  cases hc with
  | raised f info _ _ => exact .inl rfl
  | retired mem ec bits hmode hmem _ hq =>
    obtain ⟨rfl, rfl⟩ := hq hp
    obtain ⟨m, hm⟩ := hmode hi
    exact .inr ⟨rfl, m, modeOk_of_checkMode hm, fun a ha => hmem.frame a fun hw => ha (hw m fun _ => hm)⟩
  | overrun _ _ _ _ hq _ _ _ => exact absurd (hp.symm.trans hq) Bool.false_ne_true

/-- Settles O32: CBE reads the mode and calls no port, and `Writes` of it is that range of BK. -/
theorem cbeFrame : Obligations.CbeFrame :=
  fun sa bk _ _ h => faultedTo_or_retiredTo (i := .cbe sa bk) rfl rfl h

/-- Settles O40: the work is `bandEnergies_vals`, and the addresses it scatters its values to cover that range of BK. -/
theorem cbeComputesBandEnergies : Obligations.CbeComputesBandEnergies := by
  intro sa bk s m hm hw
  have hf := checkMode_facts (checkMode_of_modeOk hm)
  obtain ⟨mem, hok, hs⟩ := bandEnergies_vals hf (drawsOf Config.hw s) sa bk (written_vals hw)
  refine ⟨mem, withMode_of_ok hm hok, fun i c hi hc => hs.hit (c, i) ⟨hc, hi⟩, fun a ha => hs.miss a ?_⟩
  rintro x ⟨hc, hi⟩ rfl
  exact ha (inRange_addr (Nat.zero_le _) (hf.energyIndex_lt hi hc).1)

/-! Positive energies: the sum starts at EPS, and no square makes it smaller. -/

/-- A word above zero: no NaN, no sign, and not a zero. -/
def Positive (a : Word) : Prop := NonNeg a ∧ 0 < magnitude a

theorem positive_EPS : Positive EPS := ⟨⟨rfl, rfl⟩, by decide⟩

theorem Positive.fadd_square {a v : Word} (ha : Positive a) (hv : ¬ IsNaN v) (nan nan' : Word) :
    Positive (fadd nan a (fmul nan' v v)) := by
  obtain ⟨hnon, hpos⟩ := ha
  obtain ⟨hnon', hle⟩ := fadd_nonNeg nan hnon (fmul_self_nonNeg nan' ((isNaN_false v).mpr hv)) hpos
  exact ⟨hnon', Nat.lt_of_lt_of_le hpos hle⟩

/-- The energy of a band whose elements are no NaNs. -/
theorem positive_bandEnergyOf (d : Draws) {m : Mode} {c i : Nat} {v : Vals}
    (hv : ∀ j, Mode.bandStart m i ≤ j → j < Mode.bandStart m (i + 1) → ¬ IsNaN (v (Mode.flat m j c))) :
    Positive (bandEnergyOf d m c i v) := by
  obtain ⟨hnon, hpos⟩ := upFold_keeps Positive (lo := Mode.bandStart m i) (hi := Mode.bandStart m (i + 1))
    (f := fun j acc => fadd (d [c, i, j, 1]) acc (fmul (d [c, i, j, 0]) (v (Mode.flat m j c)) (v (Mode.flat m j c))))
    (fun j _ h1 h2 ha => ha.fadd_square (hv j h1 h2) _ _) positive_EPS
  exact fsqrt_pos _ hnon hpos

/-- Settles O57: CBE retires with the band energies (O40), and that of a band free of NaN is positive. -/
theorem cbeResultIsPositive : Obligations.CbeResultIsPositive := by
  intro sa bk s m i c hm hw hn hi hc
  have hf := checkMode_facts (checkMode_of_modeOk hm)
  obtain ⟨mem, hrun, hval, _⟩ := cbeComputesBandEnergies sa bk s m hm hw
  obtain ⟨hnon, hpos⟩ := positive_bandEnergyOf (Config.hw.freeNaN s.draws) (m := m) (c := c) (i := i)
    (v := vals s.mem (sel sa)) fun j h1 h2 => by
      obtain ⟨hlo, hhi, _⟩ := flat_lt hf hi hc h1 h2
      exact hn _ hlo hhi
  exact ⟨_, _, hrun, hval i c hi hc, fgt_zero hnon hpos⟩

end Sys2Proof.Machine

/-! ### The normalisers NRM, DNRM and RNRM (41_normalise.md R110 to R112, R266)

NRM and DNRM are one piece of work, `scaleBands`, with two gains; RNRM is CBE's work and then NRM's on what CBE left. -/

namespace Sys2Proof.Machine

open F32

/-- Settles O33: all three read the mode and call no port, and `Writes` of each is the ranges that the statement names. -/
theorem normaliserFrames : Obligations.NormaliserFrames := by
  refine fun sa sb bk s t => ⟨?_, fun h => ?_⟩
  · rintro (h | h)
    · exact faultedTo_or_retiredTo (i := .nrm sa sb bk) rfl rfl h
    · exact faultedTo_or_retiredTo (i := .dnrm sa sb bk) rfl rfl h
  · refine (faultedTo_or_retiredTo (i := .rnrm sa) rfl rfl h).imp_right ?_
    rintro ⟨ht, m, hm, hframe⟩
    exact ⟨ht, m, hm, fun a htmpe hsa => hframe a (not_or.mpr ⟨htmpe, hsa⟩)⟩

/-- SB holds its scaled bands, `V (c, i, j)` at position `j`, channel `c` of band `i`, and ZERO after them; the rest is `m0`. -/
abbrev ScaledInto (m : Mode) (sb : Spectrum) (V : Nat × Nat × Nat → Word) (m0 mem : Memory) : Prop :=
  (∀ i c j, i < m.ne → c < m.c → m.b * Mode.e m i ≤ j → j < m.b * Mode.e m (i + 1) →
    Memory.read mem (addr (sel sb) (j * m.c + c)) = some (V (c, i, j))) ∧
  (∀ k, Mode.flatStart m m.ne ≤ k → k < Mode.flatStart m (m.ne + 1) → Memory.read mem (addr (sel sb) k) = some ZERO) ∧
  ∀ a, ¬ InRange (sel sb) (Mode.flatStart m 0) (Mode.flatStart m (m.ne + 1)) a → Memory.read mem a = Memory.read m0 a

/-- With SA's bands and the energies written, the shared work of NRM and DNRM ends well and leaves the scaled bands in SB. -/
theorem scaleBands_scaledInto {caps : Caps} {m : Mode} (hm : ModeFacts caps m) (gain : Nat → Nat → Word → Word) (d : Draws)
    (sa sb : Spectrum) (bk : EnergyMem) {mem : Memory}
    (hsa : Written mem (sel sa) (Mode.flatStart m 0) (Mode.flatStart m m.ne)) (hbk : Written mem (bank bk) 0 (m.ne * m.c)) :
    ∃ mem', scaleBands gain d m sa sb bk mem = .ok mem' ∧
      ScaledInto m sb (scaledVal gain d m (vals mem (sel sa)) (vals mem (bank bk))) mem mem' := by
  obtain ⟨scaled, _, hok, rfl, hs⟩ := scaleBands_vals hm gain d sa sb bk (written_vals hsa)
    fun k hk => written_vals hbk k (Nat.zero_le k) hk
  exact ⟨_, hok, scale_finish hm hs⟩

/-- So a command whose work that is retires, whatever its gain. -/
theorem withMode_scaleBands {s : State} {m : Mode} (hm : ModeOk s m) (gain : Mode → Nat → Nat → Word → Word) (d : Draws)
    (sa sb : Spectrum) (bk : EnergyMem) (hsa : Written s.mem (sel sa) (Mode.flatStart m 0) (Mode.flatStart m m.ne))
    (hbk : Written s.mem (bank bk) 0 (m.ne * m.c)) :
    ∃ mem, withMode s (fun m => scaleBands (gain m) d m sa sb bk) = .next (RetiredTo s mem) ∧
      ScaledInto m sb (scaledVal (gain m) d m (vals s.mem (sel sa)) (vals s.mem (bank bk))) s.mem mem := by
  obtain ⟨mem, hok, hs⟩ := scaleBands_scaledInto (checkMode_facts (checkMode_of_modeOk hm)) (gain m) d sa sb bk hsa hbk
  exact ⟨mem, withMode_of_ok hm hok, hs⟩

/-- Settles O41: NRM is the shared work with the gain `normGain`. -/
theorem nrmDividesByBandEnergy : Obligations.NrmDividesByBandEnergy :=
  fun sa sb bk s _ hm => withMode_scaleBands hm (normGain (drawsOf Config.hw s)) (drawsOf Config.hw s) sa sb bk

/-- Settles O42: DNRM is the shared work with the gain `denormGain`. -/
theorem dnrmMultipliesByBandEnergy : Obligations.DnrmMultipliesByBandEnergy :=
  fun sa sb bk s _ hm => withMode_scaleBands hm (denormGain (drawsOf Config.hw s)) (drawsOf Config.hw s) sa sb bk

theorem vals_of_read_eq_some {mem : Memory} {n : MemName} {k : Nat} {w : Word} (h : Memory.read mem (addr n k) = some w) :
    vals mem n k = w := by simp [vals, h]

/-- CBE's work leaves in BK the energies of SA's bands, and changes nothing else. -/
theorem bandEnergies_ends {caps : Caps} {m : Mode} (hm : ModeFacts caps m) (d : Draws) (sa : Spectrum) (bk : EnergyMem)
    {mem : Memory} (hsa : Written mem (sel sa) (Mode.flatStart m 0) (Mode.flatStart m m.ne)) :
    ∃ mem', bandEnergies d m sa bk mem = .ok mem' ∧
      (∀ i c, i < m.ne → c < m.c →
        Memory.read mem' (addr (bank bk) (Mode.energyIndex m i c)) = some (bandEnergyOf d m c i (vals mem (sel sa)))) ∧
      Keeps (InRange (bank bk) 0 (m.ne * m.c)) mem mem' := by
  obtain ⟨mem', hok, hs⟩ := bandEnergies_vals hm d sa bk (written_vals hsa)
  exact ⟨mem', hok, fun i c hi hc => hs.hit (c, i) ⟨hc, hi⟩, (bandEnergies_does hm d sa bk mem).ok hok⟩

/-- Settles O43: after CBE's work SA is as it was and TMPE is written, so NRM's work (`scaleBands_scaledInto`) runs on SA's old values
and the energies just measured; it leaves TMPE alone. -/
theorem rnrmMeasuresThenNormalises : Obligations.RnrmMeasuresThenNormalises := by
  intro sa s m hm hsa d0 d1
  have hf := checkMode_facts (checkMode_of_modeOk hm)
  obtain ⟨mid, hcbe, henergy, hkeeps⟩ := bandEnergies_ends hf d0 sa .tmpe hsa
  have hsa' : Written mid (sel sa) (Mode.flatStart m 0) (Mode.flatStart m m.ne) :=
    fun k hk hlo => hkeeps.grows _ (hsa k hk hlo)
  have htmpe : Written mid (bank .tmpe) 0 (m.ne * m.c) := fun k hk _ => by
    obtain ⟨i, c, hi, hc, rfl⟩ := energy_cover hf hk
    exact Option.isSome_of_eq_some (henergy i c hi hc)
  obtain ⟨mem, hnrm, hband, htail, hframe⟩ := scaleBands_scaledInto hf (normGain d1 m) d1 sa sa .tmpe hsa' htmpe
  have hok : renormalise (drawsOf Config.hw s) m sa s.mem = .ok mem := bind_ok.mpr ⟨mid, hcbe, hnrm⟩
  refine ⟨mem, withMode_of_ok hm hok, fun i c hi hc => ?_, fun i c j hi hc h1 h2 => ?_, htail, fun a ha hb => ?_⟩
  · obtain ⟨hidx, _, hlt⟩ := hf.energyIndex_lt hi hc
    have hend := (hf.flatStart_le (Nat.le_refl _)).trans (ModeFacts.nmax_le _)
    exact (hframe _ (not_inRange_of_ne (by simp) hend (hidx.trans hlt))).trans (henergy i c hi hc)
  · obtain ⟨_, hlt, hle, hend⟩ := flat_lt hf hi hc h1 h2
    have hkept := hkeeps.frame _ (not_inRange_of_ne (m := sel sa) (by simp) (Nat.le_of_lt (hf.energyIndex_lt hi hc).2.2)
      (hlt.trans_le (hle.trans hend)))
    rw [hband i c j hi hc h1 h2, scaledVal, vals_of_read hkept, vals_of_read_eq_some (henergy i c hi hc)]
    rfl
  · exact (hframe a hb).trans (hkeeps.frame a ha)

end Sys2Proof.Machine

/-! ### The rotation ROT (42_rotation.md R125 to R127, R130; 10_state.md R42)

ROT's work is `rotSlice` behind its range check. What a command does not look at is a map of states that commutes with its run. -/

namespace Sys2Proof.Machine

/-! The frame. -/

/-- Settles O34: ROT calls no port, and `Writes` of it is the slice under every mode. -/
theorem rotFrame : Obligations.RotFrame := by
  intro sa dir s t h
  have hc := exec_cases (.rot sa dir) s
  rw [h] at hc
  cases hc with
  | raised f info _ _ => exact .inl rfl
  | retired mem ec bits _ hmem _ hq =>
    obtain ⟨rfl, rfl⟩ := hq rfl
    exact .inr ⟨rfl, fun a ha => hmem.frame a fun hw => ha (hw default nofun)⟩
  | overrun _ _ _ _ hq => cases hq

/-! The work behind the range check. -/

/-- With the range legal, ROT retires with the memory that RotSlice ends with. -/
theorem rot_of_rotSlice_ok {cfg : Config} {s : State} {sa : Spectrum} {dir : Dir} {mem : Memory} (h0 : u32 s.rotStride ≠ 0)
    (hle : u32 s.rotOff + u32 s.rotLen ≤ Caps.nmax s.caps)
    (hok : rotSlice cfg (drawsOf cfg s) sa (u32 s.rotOff) (u32 s.rotLen) s.rotTheta dir (u32 s.rotStride) (u32 s.rotIter) s.mem =
      .ok mem) : rot cfg sa dir s = .next (RetiredTo s mem) := by
  rw [rot, checkRotRange, require_true (decide_eq_true h0), ok_bind, require_true (decide_eq_true hle), ok_bind, hok]
  rfl

theorem rotTouches_pair {off len stride i : Nat} (hi : i < len - stride) :
    RotTouches off len stride (off + i) ∧ RotTouches off len stride (off + i + stride) := by
  unfold RotTouches
  omega

/-- Settles O44: the work is `rotSlice_holds` on the touched elements, which every pair of either pass belongs to. -/
theorem rotRotatesTheSlice : Obligations.RotRotatesTheSlice := by
  intro sa dir s h0 hle touched hw
  obtain ⟨mem, hok, hin, hout⟩ := rotSlice_holds Config.hw (drawsOf Config.hw s) (sp := sa) (T := touched) (m0 := s.mem)
    s.rotTheta dir (u32 s.rotStride) (u32 s.rotIter) (fun _ => rotTouches_pair)
    ⟨fun k hk => read_some_vals (hw k hk), fun _ _ => rfl⟩
  exact ⟨mem, rot_of_rotSlice_ok h0 hle hok, hin, hout⟩

/-! Empty passes. -/

theorem rotForward_empty {len stride : Nat} (h : len ≤ stride) (d : Draws) (sp : Spectrum) (off : Nat) (c s : Word) (mem : Memory) :
    rotForward d sp off len stride c s mem = .ok mem :=
  forUp_empty (Nat.le_of_eq (Nat.sub_eq_zero_of_le h)) _ _

theorem rotReverse_empty {len stride : Nat} (h : len ≤ 2 * stride) (d : Draws) (sp : Spectrum) (off : Nat) (c s : Word)
    (mem : Memory) : rotReverse d sp off len stride c s mem = .ok mem := by
  rw [rotReverse, Nat.sub_eq_zero_of_le h, forDown_zero]

theorem forUp_of_idle {α : Type} {body : Nat → α → Cmd α} {x : α} (h : ∀ k, body k x = .ok x) (n : Nat) :
    forUp 0 n body x = .ok x := by
  obtain ⟨_, hok, rfl⟩ := forUp_total (body := body) (fun _ y => y = x) (Nat.zero_le n) rfl
    fun k y _ _ hy => ⟨x, by rw [hy, h], rfl⟩
  exact hok

/-- RotSlice without a pair to rotate, or without an iteration, touches no memory. -/
theorem rotSlice_idle {len stride iter : Nat} (h : len ≤ stride ∨ iter = 0) (cfg : Config) (d : Draws) (sp : Spectrum) (off : Nat)
    (theta : Word) (dir : Dir) (mem : Memory) : rotSlice cfg d sp off len theta dir stride iter mem = .ok mem := by
  rcases h with h | rfl
  · refine forUp_of_idle (fun t => ?_) iter
    rw [rotForward_empty h, ok_bind, rotReverse_empty (by omega)]
  · exact forUp_empty (Nat.le_refl 0) _ _

/-- Settles O45: the range check passes and the work leaves the memory as it is. -/
theorem rotWithEmptyPassesRetires : Obligations.RotWithEmptyPassesRetires :=
  fun sa dir s h0 hle h => rot_of_rotSlice_ok h0 hle (rotSlice_idle h Config.hw (drawsOf Config.hw s) sa _ _ dir s.mem)

/-! Registers that a command does not look at. -/

/-- The outcome with `f` applied to its next state. -/
def mapNext (f : State → State) : Host.Outcome State Fault Refusal → Host.Outcome State Fault Refusal
  | .next t => .next (f t)
  | .fault e => .fault e
  | .refused r => .refused r

/-- `f` changes nothing that the ending of a command sets or looks at. -/
structure OutsideEndings (f : State → State) : Prop where
  raise : ∀ code info s, raise code info (f s) = f (raise code info s)
  retire : ∀ s, retire (f s) = f (retire s)
  ec : ∀ s, (f s).ec = s.ec
  totalBits : ∀ s, (f s).totalBits = s.totalBits

theorem OutsideEndings.stopWith {f : State → State} (hf : OutsideEndings f) (e : Stop) (s : State) :
    stopWith e (f s) = mapNext f (stopWith e s) := by
  cases e with
  | unwritten m k => rfl
  | raised code info => exact congrArg _ (hf.raise code info s)

theorem OutsideEndings.conclude {f : State → State} (hf : OutsideEndings f) (s : State) (work : Cmd State) :
    conclude (f s) (f <$> work) = mapNext f (conclude s work) := by
  cases work with
  | error e => exact hf.stopWith e s
  | ok t => exact congrArg _ (hf.retire t)

theorem OutsideEndings.overrun {f : State → State} (hf : OutsideEndings f) (cfg : Config) (t : State) :
    overrun cfg (f t) = overrun cfg t := by rw [Machine.overrun, Machine.overrun, hf.ec, hf.totalBits]

theorem OutsideEndings.concludeQuant {f : State → State} (hf : OutsideEndings f) (cfg : Config) (s : State) (work : Cmd State) :
    concludeQuant cfg (f s) (f <$> work) = mapNext f (concludeQuant cfg s work) := by
  cases work with
  | error e => exact hf.stopWith e s
  | ok t =>
    change (if Machine.overrun cfg (f t) then _ else _) = mapNext f (if Machine.overrun cfg t then _ else _)
    rw [hf.overrun, hf.ec, hf.raise, hf.retire]
    split
    · rfl
    · rfl

/-- The state with other MODE registers. -/
def setMode (b c ne np pend : Word) (s : State) : State :=
  { s with modeB := b, modeC := c, modeNE := ne, modeNP := np, modePEND := pend }

/-- The state with other ROT registers. -/
def setRot (off len stride iter theta : Word) (s : State) : State :=
  { s with rotOff := off, rotLen := len, rotStride := stride, rotIter := iter, rotTheta := theta }

theorem outsideEndings_setMode (b c ne np pend : Word) : OutsideEndings (setMode b c ne np pend) :=
  ⟨fun _ _ _ => rfl, fun _ => rfl, fun _ => rfl, fun _ => rfl⟩

/-- ROT's range check and work look at no MODE register. -/
theorem rot_setMode (cfg : Config) (sa : Spectrum) (dir : Dir) (b c ne np pend : Word) (s : State) :
    rot cfg sa dir (setMode b c ne np pend s) = mapNext (setMode b c ne np pend) (rot cfg sa dir s) := by
  rw [rot, rot, ← (outsideEndings_setMode b c ne np pend).conclude]
  simp only [map_bind]
  rfl

section
variable (off len stride iter theta : Word)

theorem outsideEndings_setRot : OutsideEndings (setRot off len stride iter theta) :=
  ⟨fun _ _ _ => rfl, fun _ => rfl, fun _ => rfl, fun _ => rfl⟩

theorem checkMode_setRot (s : State) : checkMode (setRot off len stride iter theta s) = checkMode s := rfl

/-- A band is rotated by the constants of R130, not by the ROT registers. -/
theorem quantBands_setRot (cfg : Config) (codec : Codec) (m : Mode) (sa sb : Spectrum) (s : State) :
    quantBands cfg codec m sa sb (setRot off len stride iter theta s) =
      setRot off len stride iter theta <$> quantBands cfg codec m sa sb s := by
  rw [quantBands, quantBands, map_bind]
  rfl

theorem qb_setRot (cfg : Config) (sa sb sc : Spectrum) (s : State) :
    qb cfg sa sb sc (setRot off len stride iter theta s) = mapNext (setRot off len stride iter theta) (qb cfg sa sb sc s) := by
  rw [qb, qb, ← (outsideEndings_setRot off len stride iter theta).concludeQuant]
  simp only [map_bind, checkMode_setRot, quantBands_setRot]

theorem uqb_setRot (cfg : Config) (sa sb : Spectrum) (s : State) :
    uqb cfg sa sb (setRot off len stride iter theta s) = mapNext (setRot off len stride iter theta) (uqb cfg sa sb s) := by
  rw [uqb, uqb, ← (outsideEndings_setRot off len stride iter theta).concludeQuant]
  simp only [map_bind, checkMode_setRot, quantBands_setRot]

theorem exec_setRot {i : Instr} (hi : usesPorts i = true) (s : State) :
    exec i (setRot off len stride iter theta s) = mapNext (setRot off len stride iter theta) (exec i s) := by
  cases i with
  | qb sa sb sc => exact qb_setRot off len stride iter theta Config.hw sa sb sc s
  | uqb sa sb => exact uqb_setRot off len stride iter theta Config.hw sa sb s
  | _ => cases hi

end

/-- Settles O39: the command's run commutes with the change of the foreign registers. -/
theorem commandsIgnoreForeignParameters : Obligations.CommandsIgnoreForeignParameters := by
  refine ⟨fun sa dir s t b c ne np pend h => ?_, fun i s t off len stride iter theta hi h => ?_⟩
  · exact (rot_setMode Config.hw sa dir b c ne np pend s).trans (congrArg (mapNext _) h)
  · exact (exec_setRot off len stride iter theta hi s).trans (congrArg (mapNext _) h)

end Sys2Proof.Machine

/-! ### The pitch gains: CPG and PQB (43_pitch.md R140 to R144, R266)

What the two commands compute is `pitchGains_vals` and `applyGains_vals`. The bound on a gain is `clip01_range` and `fmul_gain`, read as
real values. -/

namespace Sys2Proof.Machine.F32

theorem clip01_of_isNaN {g : Word} (hg : IsNaN g) : clip01 g = g := by
  obtain ⟨hgt, _⟩ := (comparisonsFollowTheValues g ONE).1 (.inl hg)
  obtain ⟨_, hlt⟩ := (comparisonsFollowTheValues g ZERO).1 (.inl hg)
  simp [clip01, hgt, hlt]

/-- Settles O56: the branches are the definition's; no comparison with a NaN holds, and -0.0 is not below ZERO. -/
theorem clipLimitsToZeroAndOne : Obligations.ClipLimitsToZeroAndOne :=
  ⟨fun _ => rfl, fun _ => clip01_of_isNaN, by decide⟩

theorem isNaN_fmul_of_isNaN_left (nan b : Word) {a : Word} (ha : IsNaN a) : IsNaN (fmul nan a b) := by
  rw [fmul, (isNaN_iff a).mpr ha, Bool.true_or, if_pos rfl]
  exact isNaN_nanResult nan

/-- A word that has no sign, unless it is a zero, and a magnitude up to that of `b`. -/
theorem valueR_le_of_magnitude_le {a b : Word} (hb : sign b = false) (hle : magnitude a ≤ magnitude b)
    (hzero : sign a = true → magnitude a = 0) : 0 ≤ valueR a ∧ valueR a ≤ valueR b := by
  have hval : valueR a = magValue (magnitude a) := by
    cases hs : sign a with
    | false => simp [valueR_eq, hs]
    | true => rw [(valueR_eq_zero a).mpr (hzero hs), hzero hs, magValue_zero, Nat.cast_zero]
  rw [hval, valueR_eq b, hb, if_neg Bool.false_ne_true, one_mul]
  exact ⟨Nat.cast_nonneg _, magValue_le hle⟩

/-- R144: a product of Clip01's result with K_GAIN, whatever ratio went in. -/
theorem valueR_clipped_mul_gain {nan g : Word} (h : ¬ IsNaN (fmul nan (clip01 g) K_GAIN)) :
    0 ≤ valueR (fmul nan (clip01 g) K_GAIN) ∧ valueR (fmul nan (clip01 g) K_GAIN) ≤ valueR K_GAIN := by
  have hclip : isNaN (clip01 g) = false := (isNaN_false _).mpr fun hn => h (isNaN_fmul_of_isNaN_left nan K_GAIN hn)
  obtain ⟨_, hone, hzero⟩ := clip01_range hclip
  obtain ⟨_, hle, hsign⟩ := fmul_gain (nan := nan) hclip hone hzero
  exact valueR_le_of_magnitude_le rfl hle hsign

end Sys2Proof.Machine.F32

namespace Sys2Proof.Machine

open F32

/-- Settles O35: both read the mode and call no port, and `Writes` of each is the ranges that the statement names. -/
theorem pitchFrames : Obligations.PitchFrames := by
  refine fun sa sb bk s t => ⟨fun h => ?_, fun h => faultedTo_or_retiredTo (i := .pqb sb) rfl rfl h⟩
  refine (faultedTo_or_retiredTo (i := .cpg sa sb bk) rfl rfl h).imp_right ?_
  rintro ⟨ht, m, hm, hframe⟩
  exact ⟨ht, m, hm, fun a hwgt hgains hsb => hframe a (not_or.mpr ⟨hwgt, not_or.mpr ⟨hgains, hsb⟩⟩)⟩

/-- Settles O46: the work is `pitchGains_vals`. -/
theorem cpgComputesPitchGains : Obligations.CpgComputesPitchGains := by
  intro sa sb bk s m hm hsa hsb hbk
  obtain ⟨mem, hok, hends⟩ := pitchGains_vals (checkMode_facts (checkMode_of_modeOk hm)) (drawsOf Config.hw s) sa sb bk
    (written_vals hsa) (written_vals hsb) fun k hk => written_vals hbk k (Nat.zero_le k) hk
  exact ⟨mem, withMode_of_ok hm hok, hends⟩

/-- Settles O47: the work is `applyGains_vals`. -/
theorem pqbAppliesPitchGains : Obligations.PqbAppliesPitchGains := by
  intro sb s m hm hsb hgains
  obtain ⟨mem, hok, hends⟩ := applyGains_vals (checkMode_facts (checkMode_of_modeOk hm)) (drawsOf Config.hw s) sb
    (written_vals hsb) fun k hk hp => read_some_vals (hgains k hk hp)
  exact ⟨mem, withMode_of_ok hm hok, hends⟩

/-- A command that ends in a next state has met no unwritten element where it reads one first. -/
theorem written_of_exec_next {i : Instr} {s t : State} {m : Mode} {a : Nat} (hi : Startable i s m) (h : exec i s = .next t)
    (hr : ReadsFirst Config.hw i s m a) : (Memory.read s.mem a).isSome = true := by
  by_contra hn
  obtain ⟨n, k, hfault, _⟩ := execWith_endsUnwritten hi hr (Option.not_isSome_iff_eq_none.mp hn)
  rw [← exec_eq_execWith, h] at hfault
  cases hfault

/-- Settles O58: a CPG that ended read written elements alone, so its gains are those of O46, and each is a clipped ratio times
K_GAIN. -/
theorem cpgGainsLieBelowTheLimit : Obligations.CpgGainsLieBelowTheLimit := by
  intro sa sb bk s t m k hm h hk
  have hw : ∀ {a}, ReadsFirst Config.hw (.cpg sa sb bk) s m a → (Memory.read s.mem a).isSome = true :=
    written_of_exec_next (i := .cpg sa sb bk) hm h
  obtain ⟨mem, hrun, _, hgain, _⟩ := cpgComputesPitchGains sa sb bk s m hm
    (fun j hhi hlo => hw (.inr (.inl (inRange_addr hlo hhi)))) (fun j hhi hlo => hw (.inr (.inr (inRange_addr hlo hhi))))
    fun j hhi hlo => hw (.inl (inRange_addr hlo hhi))
  cases h.symm.trans hrun
  exact ⟨_, hgain k hk, valueR_clipped_mul_gain⟩

end Sys2Proof.Machine

/-! ### The quantiser: QB and UQB (45_quantiser.md R180 to R191, R266)

Past the checks both commands are `quantBands` and then one of two endings (`quantEnd`); what `quantBands` computes is
`quantBands_vals`. -/

namespace Sys2Proof.Machine

open F32

/-! How the two commands end (R191). -/

/-- The state that QB or UQB ends in after the work that led to `w`. -/
def quantEnd (cfg : Config) (w : State) : State :=
  if s32 w.totalBits < cfg.bitsUsed w.ec then FaultedTo w 0x06 (BitVec.ofInt 32 (cfg.bitsUsed w.ec)) else RetiredTo w w.mem

@[simp] theorem quantEnd_mem (cfg : Config) (w : State) : (quantEnd cfg w).mem = w.mem := by unfold quantEnd; split <;> rfl
@[simp] theorem quantEnd_ec (cfg : Config) (w : State) : (quantEnd cfg w).ec = w.ec := by unfold quantEnd; split <;> rfl
@[simp] theorem quantEnd_bits (cfg : Config) (w : State) : (quantEnd cfg w).bits = w.bits := by unfold quantEnd; split <;> rfl

theorem quantEnd_halt (cfg : Config) (w : State) :
    (quantEnd cfg w).halt = if s32 w.totalBits < cfg.bitsUsed w.ec then true else w.halt := by
  unfold quantEnd; split <;> rfl

theorem concludeQuant_ok (cfg : Config) (s w : State) : concludeQuant cfg s (.ok w) = .next (quantEnd cfg w) := by
  simp only [concludeQuant, quantEnd, overrun, decide_eq_true_eq]
  split
  · rfl
  · rfl

theorem qb_of_modeOk (cfg : Config) {sa sb sc : Spectrum} {s : State} {m : Mode} (hm : ModeOk s m)
    (hwf : (Instr.qb sa sb sc).WellFormed = true) :
    qb cfg sa sb sc s = concludeQuant cfg s (quantBands cfg (.encoder sc) m sa sb s) := by
  obtain ⟨hl, _⟩ := qb_legal_of_wellFormed hwf
  rw [qb, checkMode_of_modeOk hm, ok_bind, require_true hl, ok_bind]

theorem uqb_of_modeOk (cfg : Config) {sa sb : Spectrum} {s : State} {m : Mode} (hm : ModeOk s m)
    (hwf : (Instr.uqb sa sb).WellFormed = true) :
    uqb cfg sa sb s = concludeQuant cfg s (quantBands cfg .decoder m sa sb s) := by
  obtain ⟨hl, _⟩ := uqb_legal_of_wellFormed hwf
  rw [uqb, checkMode_of_modeOk hm, ok_bind, require_true hl, ok_bind]

/-- The work can only stop at an unwritten element, so a command that ends in a next state has done it. -/
theorem quantBands_of_next {cfg : Config} {codec : Codec} {m : Mode} {sa sb : Spectrum} {s t : State} (hm : ModeOk s m)
    (h : concludeQuant cfg s (quantBands cfg codec m sa sb s) = .next t) :
    ∃ w, quantBands cfg codec m sa sb s = .ok w ∧ t = quantEnd cfg w := by
  cases hq : quantBands cfg codec m sa sb s with
  | error e =>
    obtain ⟨_, _, rfl, _⟩ := (quantBands_does (checkMode_facts (checkMode_of_modeOk hm)) cfg codec sa sb s).error hq
    rw [hq] at h
    cases h
  | ok w =>
    rw [hq, concludeQuant_ok] at h
    cases h
    exact ⟨w, rfl, rfl⟩

theorem faultedTo_of_stopWith {e : Stop} {s t : State} (h : stopWith e s = .next t) : t = FaultedTo s t.cause t.info := by
  cases e with
  | unwritten m k => cases h
  | raised f info =>
    cases h
    rfl

/-- QB or UQB raised a fault of its start checks and changed nothing else, or did its work. -/
theorem faultedTo_or_quantEnd {cfg : Config} {codec : Codec} {i : Instr} {legal : Bool} {s t : State} {sa sb : Spectrum}
    (h : concludeQuant cfg s (do
      let m ← checkMode s
      require legal (illegalOperand i)
      quantBands cfg codec m sa sb s) = .next t) :
    t = FaultedTo s t.cause t.info ∨
      ∃ m w, ModeOk s m ∧ quantBands cfg codec m sa sb s = .ok w ∧ t = quantEnd cfg w := by
  cases hc : checkMode s with
  | error e =>
    rw [hc] at h
    exact .inl (faultedTo_of_stopWith h)
  | ok m =>
    have hm := modeOk_of_checkMode hc
    rw [hc, ok_bind] at h
    cases legal with
    | false => exact .inl (faultedTo_of_stopWith (e := illegalOperand i) h)
    | true =>
      obtain ⟨w, hw⟩ := quantBands_of_next hm h
      exact .inr ⟨m, w, hm, hw⟩

/-! What the work leaves, whatever the collaborators answer. -/

/-- The state after work that left the coder state `ec` and the memory `mem`. -/
def quantWork (cfg : Config) (s : State) (ec : Coder) (mem : Memory) : State :=
  afterWork s mem ec (BitVec.ofInt 32 (budget cfg s))

@[simp] theorem quantWork_mem (cfg : Config) (s : State) (ec : Coder) (mem : Memory) : (quantWork cfg s ec mem).mem = mem := rfl
@[simp] theorem quantWork_ec (cfg : Config) (s : State) (ec : Coder) (mem : Memory) : (quantWork cfg s ec mem).ec = ec := rfl
@[simp] theorem quantWork_halt (cfg : Config) (s : State) (ec : Coder) (mem : Memory) :
    (quantWork cfg s ec mem).halt = s.halt := rfl
@[simp] theorem quantWork_bits (cfg : Config) (s : State) (ec : Coder) (mem : Memory) :
    (quantWork cfg s ec mem).bits = BitVec.ofInt 32 (budget cfg s) := rfl
@[simp] theorem quantWork_totalBits (cfg : Config) (s : State) (ec : Coder) (mem : Memory) :
    (quantWork cfg s ec mem).totalBits = s.totalBits := rfl

theorem quantBands_ok {cfg : Config} {codec : Codec} {m : Mode} {sa sb : Spectrum} {s w : State}
    (h : quantBands cfg codec m sa sb s = .ok w) :
    ∃ r, quantLoop cfg (drawsOf cfg s) codec m sa sb (quantPrologue cfg m s) = .ok r ∧
      w = quantWork cfg s r.ec (zeroTail m sa r.mem) := by
  obtain ⟨r, hr, hw⟩ := bind_ok.mp h
  cases hw
  exact ⟨r, hr, rfl⟩

theorem ModeFacts.ne_lt {caps : Caps} {m : Mode} (hm : ModeFacts caps m) : m.ne < 65536 := by
  have := hm.ne
  have := caps.emax.isLt
  omega

/-- The band loop leaves the allocator's counts as the prologue wrote them. -/
theorem read_pulses_of_keeps {caps : Caps} {m : Mode} (hm : ModeFacts caps m) {cfg : Config} {sa sb : Spectrum} {s : State}
    {mem : Memory} (hk : Keeps (QuantSet m sa sb) (quantPrologue cfg m s).mem mem) {i : Nat} (hi : i < m.ne) :
    Memory.read mem (addr .pulses i) = some (pulsesFor cfg m s i) := by
  have hne := hm.ne_lt
  have hu := hm.flatStart_le (i := m.ne) (by omega)
  have hn := ModeFacts.nmax_le caps
  have out : ∀ sp, ¬ InRange (sel sp) (Mode.flatStart m 0) (Mode.flatStart m m.ne) (addr .pulses i) :=
    fun sp => not_inRange_of_ne (by simp) (by omega) (by omega)
  rw [hk.frame _ fun h => h.elim (out sa) fun h => h.elim (out sb) (out .norm), read_prologue_pulses cfg m s hi]

/-- Zeroing SA's padding tail leaves the other memories and SA's bands. -/
theorem read_zeroTail_outside {caps : Caps} {m : Mode} (hm : ModeFacts caps m) {sa : Spectrum} {m' : MemName} {k : Nat}
    (h : m' ≠ sel sa ∨ k < Mode.flatStart m m.ne) (hk : k < 65536) (mem : Memory) :
    Memory.read (zeroTail m sa mem) (addr m' k) = Memory.read mem (addr m' k) := by
  have hu := hm.flatStart_le (Nat.le_refl (m.ne + 1))
  have hn := ModeFacts.nmax_le caps
  rw [zeroTail, read_zeroFill, if_neg]
  intro hr
  obtain ⟨j, hj, hj', he⟩ := inRange_index hr
  obtain ⟨hs, rfl⟩ := (addr_inj hk (by omega)).mp he
  rcases h with h | h
  · exact h hs
  · omega

theorem quantBands_pulses {caps : Caps} {m : Mode} (hm : ModeFacts caps m) {cfg : Config} {codec : Codec} {sa sb : Spectrum}
    {s w : State} (h : quantBands cfg codec m sa sb s = .ok w) {i : Nat} (hi : i < m.ne) :
    Memory.read w.mem (addr .pulses i) = some (pulsesFor cfg m s i) := by
  have hne := hm.ne_lt
  obtain ⟨r, hr, rfl⟩ := quantBands_ok h
  rw [quantWork_mem, read_zeroTail_outside hm (.inl (by simp)) (by omega)]
  exact read_pulses_of_keeps hm ((quantLoop_does hm cfg _ codec sa sb _).ok hr) hi

/-- Settles O26: past the checks each command is the work and `quantEnd`, and the work's own lemmas say what it leaves. -/
theorem budgetIsCheckedAfterTheWork : Obligations.BudgetIsCheckedAfterTheWork := by
  intro cfg sa sb sc s t m hm ends
  have work : ∀ codec, concludeQuant cfg s (quantBands cfg codec m sa sb s) = .next t → ends codec := by
    intro codec h
    obtain ⟨w, hw, rfl⟩ := quantBands_of_next hm h
    have hpulses := fun i hi => quantBands_pulses (checkMode_facts (checkMode_of_modeOk hm)) hw (i := i) hi
    have htail := quantBands_tailZero hw
    obtain ⟨r, _, rfl⟩ := quantBands_ok hw
    exact ⟨_, hw, rfl, hpulses, htail, fun hover => if_pos hover, fun hwithin => if_neg hwithin⟩
  exact ⟨fun hwf h => work _ ((qb_of_modeOk cfg hm hwf).symm.trans h),
    fun hwf h => work _ ((uqb_of_modeOk cfg hm hwf).symm.trans h)⟩

/-- Settles O37: the command stopped at its start checks or did its work (`faultedTo_or_quantEnd`), which writes the four areas of
`QuantWrites` alone. -/
theorem quantiserFrames : Obligations.QuantiserFrames := by
  intro sa sb sc s t h
  have hcases : t = FaultedTo s t.cause t.info ∨ ∃ codec m w, ModeOk s m ∧
      quantBands Config.hw codec m sa sb s = .ok w ∧ t = quantEnd Config.hw w := by
    rcases h with h | h
    · exact (faultedTo_or_quantEnd (i := .qb sa sb sc) h).imp_right fun h => ⟨_, h⟩
    · exact (faultedTo_or_quantEnd (i := .uqb sa sb) h).imp_right fun h => ⟨_, h⟩
  refine hcases.imp_right ?_
  rintro ⟨codec, m, w, hm, hw, rfl⟩
  have hframe := ((quantBands_does (checkMode_facts (checkMode_of_modeOk hm)) Config.hw codec sa sb s).ok hw).frame
  obtain ⟨r, _, rfl⟩ := quantBands_ok hw
  refine ⟨?_, m, hm, by rw [quantEnd_bits]; rfl, fun a h1 h2 h3 h4 => ?_⟩
  · unfold quantEnd
    split
    · exact .inr rfl
    · exact .inl rfl
  · rw [quantEnd_mem]
    exact hframe a (not_quantWrites h1 h2 h3 h4)

/-! The blend weight alpha (R183). -/

theorem intraMode_iff (m : Mode) (i : Nat) (q0 : Int) : intraMode m i q0 = true ↔ m.pend ≤ Mode.e m i ∨ q0 ≤ 0 := by
  simp [intraMode]

theorem modeDecision_alpha {cfg : Config} {codec : Codec} {m : Mode} {sa sb : Spectrum} {i : Nat} {q0 : Int} {r r' : QRun}
    (h : modeDecision cfg codec m sa sb i q0 r = .ok r') : r'.alpha = if intraMode m i q0 then ALPHA_INTRA else r.alpha := by
  unfold modeDecision at h
  split at h
  · next hi =>
    rw [if_pos hi]
    split at h
    · obtain ⟨_, _, h⟩ := bind_ok.mp h
      cases h
      rfl
    · obtain ⟨_, _, h⟩ := bind_ok.mp h
      cases h
      rfl
  · next hi =>
    rw [if_neg hi]
    cases h
    rfl

theorem vqStep_alpha {cfg : Config} {d : Draws} {codec : Codec} {m : Mode} {sa sb : Spectrum} {i : Nat} {q : Int} {theta : Word}
    {r r' : QRun} (h : vqStep cfg d codec m sa sb i q theta r = .ok r') : r'.alpha = r.alpha := by
  unfold vqStep at h
  split at h
  · obtain ⟨_, _, h⟩ := bind_ok.mp h
    cases codec with
    | encoder sc =>
      obtain ⟨_, _, h⟩ := bind_ok.mp h
      obtain ⟨_, _, h⟩ := bind_ok.mp h
      obtain ⟨_, _, h⟩ := bind_ok.mp h
      obtain ⟨_, _, h⟩ := bind_ok.mp h
      obtain ⟨_, _, h⟩ := bind_ok.mp h
      cases h
      rfl
    | decoder =>
      obtain ⟨_, _, h⟩ := bind_ok.mp h
      obtain ⟨_, _, h⟩ := bind_ok.mp h
      cases h
      rfl
  · cases h
    rfl

theorem quantBand_alpha {cfg : Config} {d : Draws} {codec : Codec} {m : Mode} {sa sb : Spectrum} {i : Nat} {pl : Word} {r r' : QRun}
    (hpl : Memory.read r.mem (addr .pulses i) = some pl) (h : quantBand cfg d codec m sa sb i r = .ok r') :
    r'.alpha = if intraMode m i (s32 pl) then ALPHA_INTRA else r.alpha := by
  rw [quantBand, readElem_ok.mpr hpl, ok_bind] at h
  obtain ⟨r1, hdecision, h⟩ := bind_ok.mp h
  obtain ⟨r2, hvq, h⟩ := bind_ok.mp h
  obtain ⟨_, _, h⟩ := bind_ok.mp h
  cases h
  exact (vqStep_alpha hvq).trans (modeDecision_alpha hdecision)

/-- The band takes intra mode (R182), with the allocator's count. -/
abbrev TakesIntra (cfg : Config) (m : Mode) (s : State) (i : Nat) : Prop :=
  m.pend ≤ Mode.e m i ∨ s32 (pulsesFor cfg m s i) ≤ 0

/-- Alpha is ALPHA_INTRA once one of the bands 0 .. n-1 took intra mode, and ALPHA_INTER until then. -/
def AlphaAfter (cfg : Config) (m : Mode) (s : State) (n : Nat) (alpha : Word) : Prop :=
  ((∃ i, i < n ∧ TakesIntra cfg m s i) → alpha = ALPHA_INTRA) ∧
  ((∀ i, i < n → ¬ TakesIntra cfg m s i) → alpha = ALPHA_INTER)

theorem alphaAfter_zero (cfg : Config) (m : Mode) (s : State) : AlphaAfter cfg m s 0 ALPHA_INTER :=
  ⟨fun ⟨_, hi, _⟩ => absurd hi (Nat.not_lt_zero _), fun _ => rfl⟩

theorem AlphaAfter.succ {cfg : Config} {m : Mode} {s : State} {n : Nat} {alpha : Word} (h : AlphaAfter cfg m s n alpha) :
    AlphaAfter cfg m s (n + 1) (if intraMode m n (s32 (pulsesFor cfg m s n)) then ALPHA_INTRA else alpha) := by
  obtain ⟨hsome, hnone⟩ := h
  split
  case isTrue hi => exact ⟨fun _ => rfl, fun hall => absurd ((intraMode_iff _ _ _).mp hi) (hall n (Nat.lt_succ_self n))⟩
  case isFalse hi =>
    refine ⟨fun ⟨i, hin, ht⟩ => hsome ⟨i, ?_, ht⟩, fun hall => hnone fun i hin => hall i (by omega)⟩
    refine Nat.lt_of_le_of_ne (Nat.le_of_lt_succ hin) ?_
    rintro rfl
    exact hi ((intraMode_iff _ _ _).mpr ht)

/-- Settles O51: the prologue sets ALPHA_INTER, and a band with the allocator's count, which the loop leaves in PULSES, takes
`AlphaAfter` one band on. -/
theorem alphaStaysZeroAfterAnIntraBand : Obligations.AlphaStaysZeroAfterAnIntraBand := by
  intro cfg codec d sa sb s m n r hm hn h
  have hf := checkMode_facts (checkMode_of_modeOk hm)
  obtain ⟨_, hsome, hnone⟩ := forUp_inv
    (fun k (r : QRun) => Keeps (QuantSet m sa sb) (quantPrologue cfg m s).mem r.mem ∧ AlphaAfter cfg m s k r.alpha)
    (Nat.zero_le n) h ⟨Keeps.refl _ _, alphaAfter_zero cfg m s⟩ fun k r r' _ hk ⟨hkeeps, halpha⟩ hband => by
      refine ⟨hkeeps.trans ((quantBand_does hf cfg _ codec sa sb (by omega) r).ok hband), ?_⟩
      rw [quantBand_alpha (read_pulses_of_keeps hf hkeeps (by omega)) hband]
      exact halpha.succ
  refine ⟨hsome, fun hall => hnone fun i hi ht => ?_⟩
  obtain ⟨hpend, hpulses⟩ := hall i hi
  omega

/-! What the two commands compute (R188, R189). -/

/-- What QB or UQB leaves in memory: the allocator's counts, the arrays in the bands, SA's padding tail at ZERO, and the rest as
before. -/
def HoldsArrays (cfg : Config) (m : Mode) (sa sb : Spectrum) (s : State) (a : QArrays) (mem : Memory) : Prop :=
  (∀ i, i < m.ne → Memory.read mem (addr .pulses i) = some (pulsesFor cfg m s i)) ∧
  (∀ k, Mode.flatStart m 0 ≤ k → k < Mode.flatStart m m.ne →
    Memory.read mem (addr (sel sa) k) = some (a.x k) ∧ Memory.read mem (addr (sel sb) k) = some (a.p k) ∧
    Memory.read mem (addr (sel .norm) k) = some (a.norm k)) ∧
  TailZero m sa mem ∧
  ∀ ad, ¬ QuantWrites m sa sb ad → Memory.read mem ad = Memory.read s.mem ad

/-- A band that was written at the start is written whenever the loop reaches it. -/
theorem bandW_of_grows {caps : Caps} {m : Mode} (hm : ModeFacts caps m) {cfg : Config} {s : State} {mem : Memory} {sp : Spectrum}
    {i : Nat} (hi : i < m.ne)
    (grows : ∀ a, (Memory.read (quantPrologue cfg m s).mem a).isSome = true → (Memory.read mem a).isSome = true)
    (hw : Written s.mem (sel sp) (Mode.flatStart m i) (Mode.flatStart m (i + 1))) : BandW m sp i mem := by
  have hu := hm.flatStart_le (i := i + 1) (by omega)
  have hn := ModeFacts.nmax_le caps
  rw [BandW, hm.flatStart_add_flatLen (by omega)]
  intro k hk h0
  refine grows _ ?_
  rw [read_prologue cfg hm.ne_lt s (by simp) (by omega)]
  exact hw k hk h0

/-- The bands' elements are each band's. -/
theorem written_band {caps : Caps} {m : Mode} (hm : ModeFacts caps m) {mem : Memory} {sp : Spectrum}
    (hw : Written mem (sel sp) (Mode.flatStart m 0) (Mode.flatStart m m.ne)) {i : Nat} (hi : i < m.ne) :
    Written mem (sel sp) (Mode.flatStart m i) (Mode.flatStart m (i + 1)) := by
  have hlo := hm.flatStart_mono (Nat.zero_le i) (by omega)
  have hhi := hm.flatStart_mono (i := i + 1) (j := m.ne) (by omega) (by omega)
  exact fun k hk h0 => hw k (by omega) (by omega)

/-- The encoder's work. -/
theorem quantBands_encoder (cfg : Config) {sa sb sc : Spectrum} {s : State} {m : Mode} (hm : ModeOk s m)
    (hwf : (Instr.qb sa sb sc).WellFormed = true) (hsa : Written s.mem (sel sa) (Mode.flatStart m 0) (Mode.flatStart m m.ne))
    (hsb : Written s.mem (sel sb) (Mode.flatStart m 0) (Mode.flatStart m m.ne))
    (hsc : ∀ i, i < m.ne → 0 < s32 (pulsesFor cfg m s i) →
      Written s.mem (sel sc) (Mode.flatStart m i) (Mode.flatStart m (i + 1)))
    (hn : Written s.mem (sel .norm) 0 (Mode.flatStart m 0)) :
    let a := quantVals cfg m (some (vals s.mem (sel sc))) sa sb s m.ne
    ∃ mem, quantBands cfg (.encoder sc) m sa sb s = .ok (quantWork cfg s a.ec mem) ∧ HoldsArrays cfg m sa sb s a mem := by
  have hf := checkMode_facts (checkMode_of_modeOk hm)
  obtain ⟨_, hd, hca, hcb, hcn⟩ := qb_legal_of_wellFormed hwf
  have hw : WIs (.encoder sc) sa sb (quantPrologue cfg m s) (some (vals s.mem (sel sc))) :=
    ⟨hca, hcb, hcn, _, rfl, fun k hk => vals_of_read (read_prologue cfg hf.ne_lt s (by simp) hk)⟩
  exact quantBands_vals hf cfg (.encoder sc) hd s hw hsb hn fun i r hi grows =>
    ⟨bandW_of_grows hf hi grows (written_band hf hsa hi), fun hq => bandW_of_grows hf hi grows (hsc i hi hq)⟩

/-- A band that is filled when the context copy reads it is ready for the decoder. -/
theorem bandReady_of_bandFilled {caps : Caps} {m : Mode} (hm : ModeFacts caps m) {cfg : Config} {sa : Spectrum} {s : State}
    {i : Nat} (hi : i < m.ne) {r : QRun}
    (grows : ∀ a, (Memory.read (quantPrologue cfg m s).mem a).isSome = true → (Memory.read r.mem a).isSome = true)
    (h : DecoderBandFilled cfg m sa s i) : BandReady cfg m .decoder sa i (s32 (pulsesFor cfg m s i)) r := by
  rcases h with hw | hq | ⟨hpend, hq⟩ | ⟨hq, hfold⟩ | ⟨hq, hunquant⟩
  · exact .inl (bandW_of_grows hm hi grows hw)
  · refine .inr (.inl ?_)
    unfold codedPulses
    split <;> omega
  · refine .inr (.inl ?_)
    rw [codedPulses, if_neg (by rw [intraMode_iff]; omega)]
    exact hq
  · exact .inr (.inr (.inl ⟨hq, fun nctx _ => Option.isSome_iff_ne_none.mp (hfold nctx)⟩))
  · exact .inr (.inr (.inr ⟨hq, fun nctx _ => Option.isSome_iff_ne_none.mp (hunquant nctx r.ec)⟩))

/-- The decoder's work. -/
theorem quantBands_decoder (cfg : Config) {sa sb : Spectrum} {s : State} {m : Mode} (hm : ModeOk s m)
    (hwf : (Instr.uqb sa sb).WellFormed = true) (hsa : ∀ i, i < m.ne → DecoderBandFilled cfg m sa s i)
    (hsb : Written s.mem (sel sb) (Mode.flatStart m 0) (Mode.flatStart m m.ne))
    (hn : Written s.mem (sel .norm) 0 (Mode.flatStart m 0)) :
    let a := quantVals cfg m none sa sb s m.ne
    ∃ mem, quantBands cfg .decoder m sa sb s = .ok (quantWork cfg s a.ec mem) ∧ HoldsArrays cfg m sa sb s a mem := by
  have hf := checkMode_facts (checkMode_of_modeOk hm)
  obtain ⟨_, hd⟩ := uqb_legal_of_wellFormed hwf
  exact quantBands_vals hf cfg .decoder hd s rfl hsb hn fun i r hi grows => bandReady_of_bandFilled hf hi grows (hsa i hi)

/-- Settles O49: QB is the encoder's work and `quantEnd`. -/
theorem qbQuantisesEveryBand : Obligations.QbQuantisesEveryBand := by
  intro sa sb sc s m hm hwf hsa hsb hsc hn
  obtain ⟨mem, hok, hpulses, hbands, htail, hframe⟩ := quantBands_encoder Config.hw hm hwf hsa hsb hsc hn
  refine ⟨mem, (qb_of_modeOk Config.hw hm hwf).trans ?_, hpulses, hbands, htail,
    fun ad h1 h2 h3 h4 => hframe ad (not_quantWrites h1 h2 h3 h4)⟩
  rw [hok, concludeQuant_ok]
  rfl

/-- Settles O50: UQB is the decoder's work and `quantEnd`. -/
theorem uqbDequantisesEveryBand : Obligations.UqbDequantisesEveryBand := by
  intro sa sb s m hm hwf hsa hsb hn
  obtain ⟨mem, hok, hpulses, hbands, htail, hframe⟩ := quantBands_decoder Config.hw hm hwf hsa hsb hn
  refine ⟨mem, (uqb_of_modeOk Config.hw hm hwf).trans ?_, hpulses, hbands, htail,
    fun ad h1 h2 h3 h4 => hframe ad (not_quantWrites h1 h2 h3 h4)⟩
  rw [hok, concludeQuant_ok]
  rfl

/-! The decoder's run beside the encoder's (R189, 44_collaborators.md R164): `twin_band` is one band on the arrays. -/

/-- A command that ends in a next state has met no unwritten element where it reads one first. -/
theorem written_of_execWith_next {cfg : Config} {i : Instr} {s t : State} {m : Mode} {a : Nat} (hi : Startable i s m)
    (h : execWith cfg i s = .next t) (hr : ReadsFirst cfg i s m a) : (Memory.read s.mem a).isSome = true := by
  by_contra hn
  obtain ⟨n, k, hfault, _⟩ := execWith_endsUnwritten hi hr (Option.not_isSome_iff_eq_none.mp hn)
  cases h.symm.trans hfault

/-- A QB that ended found SA and SC written where it reads them, so it left the encoder's arrays. -/
theorem qb_next {cfg : Config} {sa sb sc : Spectrum} {s t : State} {m : Mode} (hm : ModeOk s m)
    (hwf : (Instr.qb sa sb sc).WellFormed = true) (hsb : Written s.mem (sel sb) (Mode.flatStart m 0) (Mode.flatStart m m.ne))
    (hn : Written s.mem (sel .norm) 0 (Mode.flatStart m 0)) (h : qb cfg sa sb sc s = .next t) :
    let a := quantVals cfg m (some (vals s.mem (sel sc))) sa sb s m.ne
    ∃ mem, t = quantEnd cfg (quantWork cfg s a.ec mem) ∧ HoldsArrays cfg m sa sb s a mem := by
  have hw : ∀ {a}, ReadsFirst cfg (.qb sa sb sc) s m a → (Memory.read s.mem a).isSome = true :=
    written_of_execWith_next (i := .qb sa sb sc) ⟨hm, hwf⟩ h
  obtain ⟨mem, hok, harrays⟩ := quantBands_encoder cfg hm hwf (fun k hk h0 => hw (.inl (inRange_addr h0 hk))) hsb
    (fun i hi hq k hk h0 => hw (.inr (.inl ⟨i, hi, hq, inRange_addr h0 hk⟩))) hn
  rw [qb_of_modeOk cfg hm hwf, hok, concludeQuant_ok] at h
  cases h
  exact ⟨mem, rfl, harrays⟩

theorem quantVals_succ (cfg : Config) (m : Mode) (w : Option Vals) (sa sb : Spectrum) (s : State) (n : Nat) :
    quantVals cfg m w sa sb s (n + 1) = bandVals cfg (Draws.sub (drawsOf cfg s) n) m w n (s32 (pulsesFor cfg m s n))
      (quantVals cfg m w sa sb s n) := upFold_snoc (Nat.zero_le n) _ _

/-- The encoder's coder state before any band leads to the one its run produced. -/
theorem quantVals_leadsTo {cfg : Config} {m : Mode} {wv : Vals} {sa sb : Spectrum} {s : State} {f : Coder} {i n : Nat}
    (hi : i ≤ n) (h : LeadsTo cfg (quantVals cfg m (some wv) sa sb s n).ec f) :
    LeadsTo cfg (quantVals cfg m (some wv) sa sb s i).ec f := by
  induction hi with
  | refl => exact h
  | step _ ih =>
    rw [quantVals_succ] at h
    exact ih (bandVals_leadsTo cfg _ m wv _ _ _ h).2

section
variable {cfg : Config} {Reads : Coder → Coder → Coder → Prop} {fin : Coder} {m : Mode} {sa sb : Spectrum} {s' : State}

/-- The decoder's run before band `i`: it holds arrays that are the encoder's `ae` where the two must agree. -/
structure Follows (cfg : Config) (Reads : Coder → Coder → Coder → Prop) (fin : Coder) (m : Mode) (sa sb : Spectrum)
    (s' : State) (i : Nat) (ae ad : QArrays) (r : QRun) : Prop where
  run : RunIs sa sb r ad
  twin : Twin Reads fin m i ae ad
  keeps : Keeps (QuantSet m sa sb) (quantPrologue cfg m s').mem r.mem
  target : Written r.mem (sel sa) (Mode.flatStart m 0) (Mode.flatStart m i)
  context : Written r.mem (sel .norm) 0 (Mode.flatStart m i)

/-- In a band that ends with no pulses the decoder's INTRA answer carries Xs', because the encoder's does (R164). -/
theorem bandReady_of_twin (hA : Agreeing cfg Reads) {d : Draws} {wv : Vals} {i : Nat} {q0 : Int}
    {ae ad : QArrays} {r : QRun} (hr : RunIs sa sb r ad) (ht : Twin Reads fin m i ae ad) (hi : Mode.flatStart m i ≤ 65536)
    (hlead : LeadsTo cfg (bandVals cfg d m (some wv) i q0 ae).ec fin) : BandReady cfg m .decoder sa i q0 r := by
  by_cases hcoded : 0 < codedPulses m i q0
  · exact .inr (.inl hcoded)
  by_cases hq : q0 ≤ 0
  · refine .inr (.inr (.inl ⟨hq, fun nctx _ => ?_⟩))
    obtain ⟨_, _, _, _, hxs, _⟩ := hA.fold m i nctx []
    rw [hxs]
    exact Option.some_ne_none _
  have hintra : intraMode m i q0 = true := by
    by_contra hinter
    rw [codedPulses, if_neg hinter] at hcoded
    exact hcoded (by omega)
  obtain rfl : q0 = 1 := by
    rw [codedPulses, if_pos hintra] at hcoded
    omega
  refine .inr (.inr (.inr ⟨rfl, fun nctx hctx => ?_⟩))
  obtain ⟨_, rfl⟩ := readSlice_ok hctx
  have hsame : sliceOf (vals r.mem (sel .norm)) 0 (Mode.flatStart m i) = sliceOf ae.norm 0 (Mode.flatStart m i) :=
    sliceOf_congr fun k _ hk => (hr.norm k (by omega)).trans (ht.norm k (by omega)).symm
  have hdecided := (bandVals_leadsTo cfg d m wv i 1 ae hlead).1
  rw [decideVals, if_pos ((intraMode_iff m i 1).mp hintra), if_neg (by decide)] at hdecided
  obtain ⟨_, _, hxs⟩ := hA.intra m i 0 _ _ _ fin ae.ec ad.ec ht.ec hdecided
  obtain ⟨_, _, _, hxs, _⟩ := hxs rfl
  rw [hsame, hr.ec]
  exact fun hnone => Option.some_ne_none _ (hxs.symm.trans hnone)

/-- One band of the decoder follows the encoder's. -/
theorem Follows.band {caps : Caps} (hm : ModeFacts caps m) (hA : Agreeing cfg Reads) (hd : Distinct sa sb)
    (hsb : Written s'.mem (sel sb) (Mode.flatStart m 0) (Mode.flatStart m m.ne)) {d : Draws} {wv : Vals} {i : Nat} (hi : i < m.ne)
    {ae ad : QArrays} {r : QRun} (h : Follows cfg Reads fin m sa sb s' i ae ad r)
    (hlead : LeadsTo cfg (bandVals cfg d m (some wv) i (s32 (pulsesFor cfg m s' i)) ae).ec fin) :
    ∃ r', quantBand cfg d .decoder m sa sb i r = .ok r' ∧
      Follows cfg Reads fin m sa sb s' (i + 1) (bandVals cfg d m (some wv) i (s32 (pulsesFor cfg m s' i)) ae)
        (bandVals cfg d m none i (s32 (pulsesFor cfg m s' i)) ad) r' := by
  have hlen := hm.flatStart_add_flatLen (i := i) (by omega)
  have hle := Nat.le_trans (hm.flatStart_le (i := i) (by omega)) (ModeFacts.nmax_le caps)
  obtain ⟨r', hok, hrun, _, _, htarget, hcontext⟩ := quantBand_vals hm cfg d .decoder hd hi h.run rfl
    (read_pulses_of_keeps hm h.keeps hi) (bandW_of_grows hm hi h.keeps.grows (written_band hm hsb hi)) h.context
    (bandReady_of_twin hA h.run h.twin hle hlead)
  have hkeeps := (quantBand_does hm cfg d .decoder sa sb hi r).ok hok
  refine ⟨r', hok, hrun, twin_band hm hA d wv hi _ h.twin hlead, h.keeps.trans hkeeps, fun k hk h0 => ?_, hcontext⟩
  by_cases hbefore : k < Mode.flatStart m i
  · exact hkeeps.grows _ (h.target k hbefore h0)
  · exact htarget k (by omega) (by omega)

/-- The decoder's band loop completes and follows the encoder's arrays to the end. -/
theorem quantLoop_follows {caps : Caps} (hm : ModeFacts caps m) (hA : Agreeing cfg Reads) (hd : Distinct sa sb)
    (hsb : Written s'.mem (sel sb) (Mode.flatStart m 0) (Mode.flatStart m m.ne)) {wv : Vals} {s : State}
    (hdraws : s'.draws = s.draws) (hpulses : ∀ i, pulsesFor cfg m s' i = pulsesFor cfg m s i) {ad : QArrays}
    (h0 : Follows cfg Reads fin m sa sb s' 0 (quantVals cfg m (some wv) sa sb s 0) ad (quantPrologue cfg m s'))
    (hlead : LeadsTo cfg (quantVals cfg m (some wv) sa sb s m.ne).ec fin) :
    ∃ r, quantLoop cfg (drawsOf cfg s') .decoder m sa sb (quantPrologue cfg m s') = .ok r ∧
      ∃ ad, Follows cfg Reads fin m sa sb s' m.ne (quantVals cfg m (some wv) sa sb s m.ne) ad r := by
  have hdraws : drawsOf cfg s' = drawsOf cfg s := congrArg cfg.freeNaN hdraws
  refine forUp_total (fun i r => ∃ ad, Follows cfg Reads fin m sa sb s' i (quantVals cfg m (some wv) sa sb s i) ad r)
    (Nat.zero_le _) ⟨ad, h0⟩ fun i r _ hi ⟨ad, hr⟩ => ?_
  have hnext := quantVals_leadsTo (i := i + 1) hi hlead
  rw [quantVals_succ, ← hpulses, ← hdraws] at hnext
  obtain ⟨r', hok, hr'⟩ := hr.band hm hA hd hsb hi hnext
  rw [quantVals_succ, ← hpulses, ← hdraws]
  exact ⟨r', hok, _, hr'⟩

/-- In the bands that the decoder's run has done it holds the encoder's SA and NORM. -/
theorem Follows.reads {i : Nat} {ae ad : QArrays} {r : QRun} (h : Follows cfg Reads fin m sa sb s' i ae ad r) {k : Nat}
    (h0 : Mode.flatStart m 0 ≤ k) (hk : k < Mode.flatStart m i) (h16 : k < 65536) :
    Memory.read r.mem (addr (sel sa) k) = some (ae.x k) ∧ Memory.read r.mem (addr (sel .norm) k) = some (ae.norm k) := by
  constructor
  · rw [read_some_vals (h.target k hk h0), h.run.x k h16, h.twin.x k h0 hk]
  · rw [read_some_vals (h.context k hk (Nat.zero_le k)), h.run.norm k h16, h.twin.norm k hk]

end

/-- Before the first band the two runs hold the same P and the same NORM below it. -/
theorem follows_start {caps : Caps} {m : Mode} (hm : ModeFacts caps m) {cfg : Config} {Reads : Coder → Coder → Coder → Prop}
    {fin : Coder} {sa sb : Spectrum} {s s' : State} (w : Option Vals)
    (hp : ∀ k, Mode.flatStart m 0 ≤ k → k < Mode.flatStart m m.ne →
      Memory.read s.mem (addr (sel sb) k) = Memory.read s'.mem (addr (sel sb) k))
    (hn : ∀ k, k < Mode.flatStart m 0 → Memory.read s.mem (addr (sel .norm) k) = Memory.read s'.mem (addr (sel .norm) k))
    (hw : Written s'.mem (sel .norm) 0 (Mode.flatStart m 0)) (hec : Reads fin s.ec s'.ec) :
    Follows cfg Reads fin m sa sb s' 0 (quantVals cfg m w sa sb s 0) (quantVals cfg m none sa sb s' 0)
      (quantPrologue cfg m s') := by
  have hne := hm.ne_lt
  have hle := Nat.le_trans (hm.flatStart_le (Nat.zero_le (m.ne + 1))) (ModeFacts.nmax_le caps)
  have prologue : ∀ sp k, k < 65536 →
      Memory.read (quantPrologue cfg m s').mem (addr (sel sp) k) = Memory.read s'.mem (addr (sel sp) k) :=
    fun sp k hk => read_prologue cfg hne s' (by simp) hk
  exact
    { run := ⟨fun k hk => vals_of_read (prologue sa k hk), fun k hk => vals_of_read (prologue sb k hk),
        fun k hk => vals_of_read (prologue .norm k hk), rfl, rfl⟩
      twin := ⟨fun k h0 hk => absurd hk (by omega), fun k h0 hk => vals_of_read (hp k h0 hk), fun k hk => vals_of_read (hn k hk),
        hec, rfl⟩
      keeps := Keeps.refl _ _
      target := fun k hk h0 => absurd hk (by omega)
      context := fun k hk h0 => by rw [prologue .norm k (by omega)]; exact hw k hk h0 }

theorem uqb_wellFormed_of_qb {sa sb sc : Spectrum} (h : (Instr.qb sa sb sc).WellFormed = true) :
    (Instr.uqb sa sb).WellFormed = true := by
  obtain ⟨_, hd, _⟩ := qb_legal_of_wellFormed h
  simp [Instr.WellFormed, wellFormedUqb, hd.ab, hd.an, hd.bn]

/-- Equal budgets ask the allocator for the same counts. -/
theorem pulsesFor_of_budget {cfg : Config} {m : Mode} {s s' : State} (h : budget cfg s' = budget cfg s) (i : Nat) :
    pulsesFor cfg m s' i = pulsesFor cfg m s i :=
  congrArg (fun bits => cfg.computeAllocation { mode := m, offsets := List.replicate m.ne 0, bits := bits } i) h

/-- Elements that hold the same words in both memories. -/
theorem written_of_shared {mem mem' : Memory} {m : MemName} {lo hi : Nat}
    (h : ∀ k, lo ≤ k → k < hi → ∃ w, Memory.read mem (addr m k) = some w ∧ Memory.read mem' (addr m k) = some w) :
    Written mem m lo hi ∧ Written mem' m lo hi ∧
      ∀ k, lo ≤ k → k < hi → Memory.read mem (addr m k) = Memory.read mem' (addr m k) := by
  refine ⟨fun k hk h0 => ?_, fun k hk h0 => ?_, fun k h0 hk => ?_⟩ <;> obtain ⟨w, hw, hw'⟩ := h k h0 hk
  · exact hw ▸ rfl
  · exact hw' ▸ rfl
  · exact hw.trans hw'.symm

/-- Settles O52: a QB that ended is the encoder's arrays (`qb_next`), the decoder's loop follows them band by band
(`quantLoop_follows`), and the coder states that agree in the end have used the same bits, so the two budget checks agree. -/
theorem encoderAndDecoderAgree : Obligations.EncoderAndDecoderAgree := by
  intro cfg Reads hA sa sb sc s s' t m hwf hm hm' hhalt hhalt' htotal hdraws hsb hn h hreads
  have hf := checkMode_facts (checkMode_of_modeOk hm')
  have hwf' := uqb_wellFormed_of_qb hwf
  obtain ⟨_, hd⟩ := uqb_legal_of_wellFormed hwf'
  obtain ⟨hsb, hsb', hsbSame⟩ := written_of_shared hsb
  obtain ⟨hn, hn', hnSame⟩ := written_of_shared (lo := 0) fun k _ hk => hn k hk
  obtain ⟨mem, rfl, hpulses, hbands, htail, _⟩ := qb_next hm hwf hsb hn h
  rw [quantEnd_ec] at hreads ⊢
  have hbudget : budget cfg s' = budget cfg s := by rw [budget, budget, htotal, hA.bits _ _ _ hreads]
  obtain ⟨r, hloop, ad, hr⟩ := quantLoop_follows hf hA hd hsb' hdraws (pulsesFor_of_budget hbudget)
    (follows_start hf _ hsbSame (fun k hk => hnSame k (Nat.zero_le k) hk) hn' hreads) (.done _)
  have hok : quantBands cfg .decoder m sa sb s' = .ok (quantWork cfg s' r.ec (zeroTail m sa r.mem)) := by
    rw [quantBands, hloop]
    rfl
  have hec := hr.twin.ec
  rw [← hr.run.ec] at hec
  have hle := Nat.le_trans (hf.flatStart_le (i := m.ne) (by omega)) (ModeFacts.nmax_le _)
  refine ⟨quantEnd cfg (quantWork cfg s' r.ec (zeroTail m sa r.mem)), ?run, ?halt, ?bits, ?coder, ?target, ?context, ?counts⟩
  case run => rw [uqb_of_modeOk cfg hm' hwf', hok, concludeQuant_ok]
  case halt =>
    simp only [quantEnd_halt, quantWork_halt, quantWork_ec, quantWork_totalBits, htotal, hA.bits _ _ _ hec, hhalt, hhalt']
  case bits =>
    rw [quantEnd_bits, quantEnd_bits, quantWork_bits, quantWork_bits, hbudget]
  case coder =>
    rw [quantEnd_ec]
    exact hec
  case target =>
    intro k h0 hk
    rw [quantEnd_mem, quantEnd_mem, quantWork_mem, quantWork_mem]
    by_cases hband : k < Mode.flatStart m m.ne
    · obtain ⟨htarget, _⟩ := hr.reads h0 hband (by omega)
      obtain ⟨hx, _, _⟩ := hbands k h0 hband
      rw [read_zeroTail_outside hf (.inr hband) (by omega), htarget, hx]
    · rw [tailZero_zeroTail m sa r.mem k (by omega) hk, htail k (by omega) hk]
  case context =>
    intro k h0 hk
    rw [quantEnd_mem, quantEnd_mem]
    obtain ⟨_, hcontext⟩ := hr.reads h0 hk (by omega)
    obtain ⟨_, _, hnorm⟩ := hbands k h0 hk
    rw [quantWork_mem, quantWork_mem, read_zeroTail_outside hf (.inl (sel_ne hd.an.symm)) (by omega), hcontext, hnorm]
  case counts =>
    intro i hi
    rw [quantEnd_mem, quantEnd_mem, quantBands_pulses hf hok hi, pulsesFor_of_budget hbudget, quantWork_mem, hpulses i hi]

end Sys2Proof.Machine

/-! ### The stereo rotator SMIX (46_stereo.md R210, R266)

Past the mode checks and the check that C = 2, its work is `stereoMix`; what that computes is `stereoMix_vals`. -/

namespace Sys2Proof.Machine

/-- Under a valid mode with C other than 2, SMIX stops at its operand check. -/
theorem smix_of_c_ne_two {cfg : Config} {s : State} {m : Mode} {sa : Spectrum} {bk : EnergyMem} {dir : Dir} (hm : ModeOk s m)
    (hc : m.c ≠ 2) : smix cfg sa bk dir s = stopWith (illegalOperand (.smix sa bk dir)) s := by
  rw [smix, withMode, checkMode_of_modeOk hm, ok_bind, require_false (decide_eq_false hc), error_bind, error_bind, conclude]

/-- Settles O36: SMIX reads the mode and calls no port, and `Writes` of it is that range of SA; unless C = 2 it has raised a
fault. -/
theorem smixFrame : Obligations.SmixFrame := by
  intro sa bk dir s t h
  rcases faultedTo_or_retiredTo (i := .smix sa bk dir) rfl rfl h with hfault | ⟨ht, m, hm, hframe⟩
  · exact .inl hfault
  · by_cases hc : m.c = 2
    · exact .inr ⟨ht, m, hm, hc, hframe⟩
    · exact .inl (faultedTo_of_stopWith ((smix_of_c_ne_two hm hc).symm.trans h))

/-- With C = 2 the operand check passes, and SMIX retires with the memory that its work ends with. -/
theorem smix_of_stereoMix_ok {cfg : Config} {s : State} {m : Mode} {sa : Spectrum} {bk : EnergyMem} {dir : Dir} {mem : Memory}
    (hm : ModeOk s m) (hc : m.c = 2) (hok : stereoMix (drawsOf cfg s) m sa bk dir s.mem = .ok mem) :
    smix cfg sa bk dir s = .next (RetiredTo s mem) := by
  refine withMode_of_ok hm ?_
  rw [require_true (decide_eq_true hc), ok_bind, hok]

/-- Settles O48: the work is `stereoMix_vals`, whose `mixLeft`, `mixRight` and `stereoCoeffs` are the statement's expressions in either
direction. -/
theorem smixRotatesEveryPair : Obligations.SmixRotatesEveryPair := by
  intro sa bk dir s m hm hc hsa hbk d x lf rt nrm a1 a2
  obtain ⟨mem, hok, hpairs, htail, hframe⟩ := stereoMix_vals (checkMode_facts (checkMode_of_modeOk hm)) hc
    (drawsOf Config.hw s) sa bk dir (written_vals hsa) fun k hk => written_vals hbk k (Nat.zero_le k) hk
  refine ⟨mem, smix_of_stereoMix_ok hm hc hok, ?_, htail, hframe⟩
  cases dir <;> exact hpairs

end Sys2Proof.Machine

/-! ### Faults (60_exceptions.md R220 to R231, 30_encoding.md R91)

Which state each check of a command's start ends in, and how every command ends. -/

namespace Sys2Proof.Machine

/-- Settles O24: `raise` sets the four fields and no other, and its codes are those of R220's table. -/
theorem raiseSetsHaltCauseAndInfo : Obligations.RaiseSetsHaltCauseAndInfo :=
  ⟨fun _ _ _ => rfl, rfl, rfl, rfl, rfl, rfl, rfl⟩

theorem stopWith_raised (f : FaultCode) (info : Word) (s : State) :
    stopWith (.raised f info) s = .next (FaultedTo s (FaultCode.code f) info) := rfl

theorem stopWith_illegalOperand (i : Instr) (s : State) :
    stopWith (illegalOperand i) s = .next (FaultedTo s 0x02 (encode i)) := stopWith_raised _ _ s

/-! Step 3 of R91: the mode and its length. -/

/-- Step 3 walked up to the check that stops it: number `k` of ModeValid, or the length check after all eight. -/
theorem checkMode_of_first_stop {s : State} {k : Nat} {stop : Stop} (hk : 1 ≤ k) (tables : TablesWritten s k)
    (passed : ∀ j, 1 ≤ j → j < k → ModeCheck s j) (failed : k ≤ 8 → ¬ ModeCheck s k ∧ stop = modeInvalid k)
    (long : 8 < k → Caps.nmax s.caps < spectrumLength s ∧ stop = .raised .length (saturate32 (spectrumLength s))) :
    checkMode s = .error stop := by
  have check : ∀ {j : Nat} {b : Bool} {rest : Unit → Cmd Mode}, (b = true ↔ ModeCheck s j) → 1 ≤ j → j ≤ 8 → j ≤ k →
      (j < k → rest () = .error stop) → (require b (modeInvalid j) >>= rest) = .error stop := by
    intro j b rest hb h1 h8 hjk hrest
    rcases Nat.lt_or_eq_of_le hjk with hlt | rfl
    · rw [require_true (hb.mpr (passed j h1 hlt)), ok_bind, hrest hlt]
    · obtain ⟨hfail, rfl⟩ := failed h8
      rw [require_false (eq_false_of_iff hb hfail), error_bind]
  refine check (check1_iff s) (by decide) (by decide) hk fun h1 => ?_
  refine check (check2_iff s) (by decide) (by decide) h1 fun h2 => ?_
  refine check (check3_iff s) (by decide) (by decide) h2 fun h3 => ?_
  rw [readTable_ebands (tables.1 h3), ok_bind]
  refine check (check4_iff s) (by decide) (by decide) h3 fun h4 => ?_
  rw [readTable_pbands (tables.2 h4), ok_bind]
  refine check (check5_iff s) (by decide) (by decide) h4 fun h5 => ?_
  refine check (check6_iff s) (by decide) (by decide) h5 fun h6 => ?_
  refine check (check7_iff s) (by decide) (by decide) h6 fun h7 => ?_
  refine check (check8_iff s) (by decide) (by decide) h7 fun h8 => ?_
  obtain ⟨hlong, rfl⟩ := long h8
  rw [require_false (eq_false_of_iff (lengthCheck_iff s) (Nat.not_le_of_lt hlong)), error_bind,
    entry_tableList _ _ (Nat.lt_succ_self _), spectrumLength]

theorem checkMode_of_firstFailedCheck {s : State} {k : Nat} (h : FirstFailedCheck s k) :
    checkMode s = .error (modeInvalid k) := by
  obtain ⟨h1, h8, tables, passed, failed⟩ := h
  exact checkMode_of_first_stop h1 tables passed (fun _ => ⟨failed, rfl⟩) fun hlt => absurd h8 (Nat.not_le_of_lt hlt)

theorem checkMode_of_long {s : State} (h : ModeValid s) (hlong : Caps.nmax s.caps < spectrumLength s) :
    checkMode s = .error (.raised .length (saturate32 (spectrumLength s))) := by
  obtain ⟨⟨ebands, pbands⟩, passed⟩ := h
  exact checkMode_of_first_stop (k := 9) (by decide) ⟨fun _ => ebands (by decide), fun _ => pbands (by decide)⟩
    (fun j h1 h9 => passed j h1 (Nat.le_of_lt_succ h9)) (fun h => absurd h (by decide)) fun _ => ⟨hlong, rfl⟩

/-- Settles O20: step 3 stops at that check (`checkMode_of_firstFailedCheck`), and the command with it. -/
theorem firstFailedCheckRaisesModeInvalid : Obligations.FirstFailedCheckRaisesModeInvalid :=
  fun _ _ _ hi h => exec_of_mode_error hi (checkMode_of_firstFailedCheck h)

/-- Settles O21: step 3 passes the eight checks and stops at the length (`checkMode_of_long`), and the command with it. -/
theorem longSpectrumRaisesLength : Obligations.LongSpectrumRaisesLength :=
  fun _ _ hi h hlong => exec_of_mode_error hi (checkMode_of_long h hlong)

/-! Step 4 of R91: the operands, and ROT's range. -/

theorem qbOperandsLegal_eq_false {sa sb sc : Spectrum}
    (h : sa = sb ∨ sa = sc ∨ sb = sc ∨ sa = .norm ∨ sb = .norm ∨ sc = .norm) : qbOperandsLegal sa sb sc = false := by
  rcases h with rfl | rfl | rfl | rfl | rfl | rfl <;> simp [qbOperandsLegal]

theorem uqbOperandsLegal_eq_false {sa sb : Spectrum} (h : sa = sb ∨ sa = .norm ∨ sb = .norm) :
    uqbOperandsLegal sa sb = false := by
  rcases h with rfl | rfl | rfl <;> simp [uqbOperandsLegal]

theorem qb_of_illegal {cfg : Config} {s : State} {m : Mode} {sa sb sc : Spectrum} (hm : ModeOk s m)
    (hl : qbOperandsLegal sa sb sc = false) : qb cfg sa sb sc s = stopWith (illegalOperand (.qb sa sb sc)) s := by
  rw [qb, checkMode_of_modeOk hm, ok_bind, require_false hl, error_bind, concludeQuant]

theorem uqb_of_illegal {cfg : Config} {s : State} {m : Mode} {sa sb : Spectrum} (hm : ModeOk s m)
    (hl : uqbOperandsLegal sa sb = false) : uqb cfg sa sb s = stopWith (illegalOperand (.uqb sa sb)) s := by
  rw [uqb, checkMode_of_modeOk hm, ok_bind, require_false hl, error_bind, concludeQuant]

/-- Settles O22: step 3 passes, and each command's operand check stops it (`qb_of_illegal`, `uqb_of_illegal`, `smix_of_c_ne_two`). -/
theorem forbiddenOperandsRaiseIllegalOperand : Obligations.ForbiddenOperandsRaiseIllegalOperand := by
  intro s m hm
  refine ⟨fun sa sb sc h => ?_, fun sa sb h => ?_, fun sa bk dir hc => ?_⟩
  · exact (qb_of_illegal hm (qbOperandsLegal_eq_false h)).trans (stopWith_illegalOperand _ s)
  · exact (uqb_of_illegal hm (uqbOperandsLegal_eq_false h)).trans (stopWith_illegalOperand _ s)
  · exact (smix_of_c_ne_two hm (by rw [hc]; decide)).trans (stopWith_illegalOperand _ s)

theorem checkRotRange_of_stride_zero {s : State} (h0 : u32 s.rotStride = 0) :
    checkRotRange s = .error (.raised .rotRange 0) := by
  rw [checkRotRange, require_false (decide_eq_false (not_not_intro h0)), error_bind]

theorem checkRotRange_of_long {s : State} (h0 : u32 s.rotStride ≠ 0)
    (hlong : Caps.nmax s.caps < u32 s.rotOff + u32 s.rotLen) :
    checkRotRange s = .error (.raised .rotRange (saturate32 (u32 s.rotOff + u32 s.rotLen))) := by
  rw [checkRotRange, require_true (decide_eq_true h0), ok_bind,
    require_false (decide_eq_false (Nat.not_le_of_lt hlong))]

theorem rot_of_range_error {cfg : Config} {sa : Spectrum} {dir : Dir} {s : State} {e : Stop} (h : checkRotRange s = .error e) :
    rot cfg sa dir s = stopWith e s := by
  rw [rot, h, error_bind, conclude]

/-- Settles O23: ROT ends as its range check does, which tests the stride first. -/
theorem rotOutOfRangeRaisesRotRange : Obligations.RotOutOfRangeRaisesRotRange :=
  fun _ _ s => ⟨fun h0 => (rot_of_range_error (checkRotRange_of_stride_zero h0)).trans (stopWith_raised _ _ s),
    fun h0 hlong => (rot_of_range_error (checkRotRange_of_long h0 hlong)).trans (stopWith_raised _ _ s)⟩

/-! Every ending (R229). -/

/-- The codes of the faults that a command raises before any effect. -/
theorem code_of_early_fault {f : FaultCode} (h1 : f ≠ .illegalCmd) (h2 : f ≠ .budgetOverrun) :
    FaultCode.code f ∈ [0x02#8, 0x03, 0x04, 0x05] := by
  cases f with
  | illegalCmd => exact absurd rfl h1
  | budgetOverrun => exact absurd rfl h2
  | illegalOperand => decide
  | modeInvalid => decide
  | length => decide
  | rotRange => decide

/-- Settles O25: the endings of `execWith_cases`, told apart by HALT and CAUSE. -/
theorem faultsArePrecise : Obligations.FaultsArePrecise := by
  refine ⟨exec_eq_execWith, fun cfg i s t hh h => ?_⟩
  have hc := execWith_cases cfg i s
  rw [h] at hc
  cases hc with
  | raised f info h1 h2 =>
    have hcode := code_of_early_fault h1 h2
    refine ⟨fun _ _ => ⟨rfl, hcode⟩, fun _ h6 => ?_, fun hn => by cases hn⟩
    have h6' : FaultCode.code f = 0x06 := h6
    rw [h6'] at hcode
    exact absurd hcode (by decide)
  | retired mem ec bits _ _ _ _ =>
    have running : ¬ (retire (afterWork s mem ec bits)).halt = true := by
      show ¬ s.halt = true
      simp [hh]
    exact ⟨fun ht => absurd ht running, fun ht => absurd ht running, fun _ => rfl⟩
  | overrun mem ec bits info hq hmode _ _ =>
    obtain ⟨m, hm⟩ := hmode
    exact ⟨fun _ h6 => absurd rfl h6, fun _ _ => ⟨hq, m, modeOk_of_checkMode hm, rfl⟩, fun hn => by cases hn⟩

/-! Illegal words and HALT (R221, R230, R231). -/

theorem issue_of_decode_error {w : Word} {e : DecodeError} (h : decode w = .error e) (s : State) :
    issue w s = .next (raise .illegalCmd w (begin s)) := by
  simp only [issue, h]

/-- Settles O7: the decoder refuses the word (O4), and issuing a refused word raises ILLEGAL_CMD. -/
theorem illegalWordRaisesIllegalCmd : Obligations.IllegalWordRaisesIllegalCmd := by
  intro s w rest hb hh hm hw
  obtain ⟨refused, _, _⟩ := decoderRefusesExactlyTheIllegalWords
  obtain ⟨e, hd⟩ := (refused w).mpr hw
  rw [step_of_command hb hh hm, issue_of_decode_error hd]
  rfl

theorem step_of_halted_write {s : State} {sp : BitVec 8} {ix : BitVec 16} {w : Word} {rest : List HostMove} (hb : s.busy = false)
    (hh : s.halt = true) (hctrl : ¬(sp = 0x00 ∧ ix = 0x01)) (hm : s.moves = .write sp ix w :: rest) :
    step s = .next { s with moves := rest } := by
  have hctrl' : ¬(sp.toNat = 0 ∧ ix.toNat = 1) := fun ⟨h0, h1⟩ =>
    hctrl ⟨BitVec.eq_of_toNat_eq h0, BitVec.eq_of_toNat_eq h1⟩
  rw [step_of_write hb hm, hostWrite, if_neg hctrl', if_pos hh]

/-- STATUS alone shows HALT. -/
theorem csrRead_halt (s : State) (b : Bool) {idx : Nat} (h : idx ≠ 2) : csrRead { s with halt := b } idx = csrRead s idx := by
  unfold csrRead
  split
  case h_2 => exact absurd rfl h
  all_goals rfl

theorem hostRead_halt (s : State) (b : Bool) {sp ix : Nat} (h : ¬(sp = 0 ∧ ix = 2)) :
    hostRead { s with halt := b } sp ix = hostRead s sp ix := by
  by_cases h0 : sp = 0
  · rw [hostRead, hostRead, if_pos h0, if_pos h0, csrRead_halt s b fun h2 => h ⟨h0, h2⟩]
  · rw [hostRead, hostRead, if_neg h0, if_neg h0]
    rfl

theorem hostRead_status_halted {s : State} (hb : s.busy = false) (hh : s.halt = true) : hostRead s 0x00 0x02 = .ok 2 := by
  show Except.ok (statusWord s) = _
  rw [statusWord, hb, hh]
  rfl

/-- Settles O8: a write is ignored (`step_of_halted_write`), a read answers as without HALT (`hostRead_halt`), and STATUS reads 2. -/
theorem haltedCoreIgnoresWritesAndAnswersReads : Obligations.HaltedCoreIgnoresWritesAndAnswersReads := by
  intro s rest sp ix hh hb
  refine ⟨fun w hctrl hm => step_of_halted_write hb hh hctrl hm, fun w hm hr hstatus => ?_,
    fun hm => step_of_read hb hm (hostRead_status_halted hb hh)⟩
  rw [hostRead_halt s false fun ⟨h0, h2⟩ => hstatus ⟨BitVec.eq_of_toNat_eq h0, BitVec.eq_of_toNat_eq h2⟩] at hr
  exact step_of_read hb hm hr

theorem CommandEnd.halt_of_halt {s t : State} (e : CommandEnd s t) (hh : s.halt = true) : t.halt = true := by
  rcases e.flags with ⟨hk, _⟩ | ⟨ht, _⟩
  · exact hk.trans hh
  · exact ht

/-- Settles O9: of all a step can do (`step_cases`) only a reset clears HALT. -/
theorem onlyResetLeavesHalt : Obligations.OnlyResetLeavesHalt := by
  refine ⟨fun s t hh hs ht => ?_, fun i s t hh h => (exec_end h).halt_of_halt hh⟩
  have halted : ¬ s.halt = false := by simp [hh]
  cases step_cases hs with
  | idle _ => exact absurd ht halted
  | reset hm hr => exact ⟨_, _, hm, rfl, hr⟩
  | coder _ => exact absurd ht halted
  | read _ _ => exact absurd ht halted
  | ignored _ _ _ => exact absurd ht halted
  | command _ hrun _ => exact absurd hrun halted
  | register _ _ _ => exact absurd ((csrWrite_halt _ _ _).symm.trans ht) halted
  | memory _ _ => exact absurd ((memWrite_halt _ _ _ _).symm.trans ht) halted

end Sys2Proof.Machine

/-! ### Default results of exceptional operands (00_scope.md R9, 60_exceptions.md R234) -/

namespace Sys2Proof.Machine.F32

/-! Operands that give a NaN. -/

theorem isFinite_of_valueR_eq_zero {a : Word} (h0 : valueR a = 0) : IsFinite a := by
  rw [finite_iff, (valueR_eq_zero a).mp h0]
  decide

section
variable {a b : Word} (nan : Word)

theorem fadd_of_isNaN (h : IsNaN a ∨ IsNaN b) : fadd nan a b = nanResult nan := by
  simp only [← isNaN_iff] at h
  rw [fadd, if_pos (by simpa using h)]

theorem fsub_of_isNaN (h : IsNaN a ∨ IsNaN b) : fsub nan a b = nanResult nan :=
  fadd_of_isNaN nan (h.imp_right (isNaN_fneg b).mpr)

theorem fmul_of_isNaN (h : IsNaN a ∨ IsNaN b) : fmul nan a b = nanResult nan := by
  simp only [← isNaN_iff] at h
  rw [fmul, if_pos (by simpa using h)]

theorem fdiv_of_isNaN (h : IsNaN a ∨ IsNaN b) : fdiv nan a b = nanResult nan := by
  simp only [← isNaN_iff] at h
  rw [fdiv, if_pos (by simpa using h)]

theorem fsqrt_of_isNaN (h : IsNaN a) : fsqrt nan a = nanResult nan := if_pos ((isNaN_iff a).mpr h)

theorem fadd_of_opposite_infs (ha : IsInf a) (hb : IsInf b) (hs : sign a ≠ sign b) : fadd nan a b = nanResult nan := by
  simp [fadd, IsInf.notNaN ha, IsInf.notNaN hb, (isInf_iff a).mpr ha, (isInf_iff b).mpr hb, hs]

theorem fsub_of_equal_infs (ha : IsInf a) (hb : IsInf b) (hs : sign a = sign b) : fsub nan a b = nanResult nan :=
  fadd_of_opposite_infs nan ha ((isInf_fneg b).mpr hb) (by simp [hs])

theorem fdiv_of_infs (ha : IsInf a) (hb : IsInf b) : fdiv nan a b = nanResult nan := by
  simp [fdiv, IsInf.notNaN ha, IsInf.notNaN hb, (isInf_iff a).mpr ha, (isInf_iff b).mpr hb]

theorem fmul_of_zero_inf (ha : valueR a = 0) (hb : IsInf b) : fmul nan a b = nanResult nan := by
  have hu : units a = 0 := (units_eq_zero a).mpr ((valueR_eq_zero a).mp ha)
  simp [fmul, IsFinite.notNaN (isFinite_of_valueR_eq_zero ha), IsInf.notNaN hb, (isInf_iff b).mpr hb, hu]

theorem fdiv_of_zeros (ha : valueR a = 0) (hb : valueR b = 0) : fdiv nan a b = nanResult nan := by
  have hfa := isFinite_of_valueR_eq_zero ha
  have hfb := isFinite_of_valueR_eq_zero hb
  have hua : units a = 0 := (units_eq_zero a).mpr ((valueR_eq_zero a).mp ha)
  have hub : units b = 0 := (units_eq_zero b).mpr ((valueR_eq_zero b).mp hb)
  simp [fdiv, IsFinite.notNaN hfa, IsFinite.notNaN hfb, IsFinite.notInf hfa, IsFinite.notInf hfb, hua, hub]

theorem fsqrt_of_neg (h : valueR a < 0) : fsqrt nan a = nanResult nan := by
  have hm : magnitude a ≠ 0 := fun h0 => absurd ((valueR_eq_zero a).mpr h0) (ne_of_lt h)
  have hs : sign a = true := by
    by_contra hs
    rw [valueR_units, if_neg hs, one_mul] at h
    exact absurd h (not_lt.mpr (Nat.cast_nonneg _))
  simp [fsqrt, hm, hs]

theorem fdiv_of_zero_divisor (ha : IsFinite a) (h0 : valueR a ≠ 0) (hb : valueR b = 0) :
    fdiv nan a b = pack (sign a != sign b) infMagnitude := by
  have hfb := isFinite_of_valueR_eq_zero hb
  have hub : units b = 0 := (units_eq_zero b).mpr ((valueR_eq_zero b).mp hb)
  simp [fdiv, IsFinite.notNaN ha, IsFinite.notNaN hfb, IsFinite.notInf ha, IsFinite.notInf hfb, hub, (units_ne_zero a).mpr h0]

end

/-! The NaN that is delivered (93_implementation_defined.md U9). -/

/-- The result is no NaN but the one that the free word stands for. -/
def DeliversNaN (nan r : Word) : Prop := IsNaN r → r = nanResult nan

theorem deliversNaN_nanResult (nan : Word) : DeliversNaN nan (nanResult nan) := fun _ => rfl

theorem deliversNaN_of_isNaN_false (nan : Word) {r : Word} (h : isNaN r = false) : DeliversNaN nan r :=
  fun hn => absurd hn ((isNaN_false r).mp h)

theorem isNaN_pack (s : Bool) {m : Nat} (h : m ≤ infMagnitude) : isNaN (pack s m) = false := by
  rw [isNaN, magnitude_pack s (le_inf_lt h)]
  exact decide_eq_false (Nat.not_lt_of_le h)

theorem deliversNaN_pack (nan : Word) (s : Bool) {m : Nat} (h : m ≤ infMagnitude) : DeliversNaN nan (pack s m) :=
  deliversNaN_of_isNaN_false nan (isNaN_pack s h)

theorem DeliversNaN.eq {nan r : Word} (h : DeliversNaN nan r) (hn : IsNaN nan) (hr : IsNaN r) : r = nan := by
  rw [h hr, nanResult, if_pos ((isNaN_iff nan).mpr hn)]

theorem fadd_deliversNaN (nan a b : Word) : DeliversNaN nan (fadd nan a b) := by
  unfold fadd
  split
  · exact deliversNaN_nanResult nan
  next h =>
    obtain ⟨ha, hb⟩ : isNaN a = false ∧ isNaN b = false := by simpa using h
    split_ifs
    · exact deliversNaN_nanResult nan
    · exact deliversNaN_of_isNaN_false nan ha
    · exact deliversNaN_of_isNaN_false nan hb
    · exact deliversNaN_pack nan _ (Nat.zero_le _)
    · exact deliversNaN_pack nan _ (roundUnits_le_inf _ _)

theorem fmul_deliversNaN (nan a b : Word) : DeliversNaN nan (fmul nan a b) := by
  unfold fmul
  split_ifs
  · exact deliversNaN_nanResult nan
  · exact deliversNaN_nanResult nan
  · exact deliversNaN_pack nan _ (Nat.le_refl _)
  · exact deliversNaN_pack nan _ (roundUnits_le_inf _ _)

theorem fdiv_deliversNaN (nan a b : Word) : DeliversNaN nan (fdiv nan a b) := by
  unfold fdiv
  split_ifs
  · exact deliversNaN_nanResult nan
  · exact deliversNaN_nanResult nan
  · exact deliversNaN_pack nan _ (Nat.le_refl _)
  · exact deliversNaN_pack nan _ (Nat.zero_le _)
  · exact deliversNaN_nanResult nan
  · exact deliversNaN_pack nan _ (Nat.le_refl _)
  · exact deliversNaN_pack nan _ (roundUnits_le_inf _ _)

theorem fsqrt_deliversNaN (nan a : Word) : DeliversNaN nan (fsqrt nan a) := by
  unfold fsqrt
  split
  · exact deliversNaN_nanResult nan
  next h =>
    have ha : isNaN a = false := by simpa using h
    split_ifs
    · exact deliversNaN_of_isNaN_false nan ha
    · exact deliversNaN_nanResult nan
    · exact deliversNaN_of_isNaN_false nan ha
    · exact deliversNaN_pack nan _ (roundUnits_le_inf _ _)

/-- Settles O55: an invalid operation is the delivered NaN, a division by zero the packed infinity, and no operation makes another
NaN (the `_deliversNaN` lemmas). -/
theorem exceptionalOperandsGiveDefaultResults : Obligations.ExceptionalOperandsGiveDefaultResults := by
  intro nan a b
  have invalid : ∀ {r : Word}, r = nanResult nan → IsNaN r := fun h => h ▸ isNaN_nanResult nan
  simp only [← sign_eq]
  refine ⟨fun h => ⟨invalid (fadd_of_isNaN nan h), invalid (fsub_of_isNaN nan h), invalid (fmul_of_isNaN nan h),
      invalid (fdiv_of_isNaN nan h)⟩,
    fun h => invalid (fsqrt_of_isNaN nan h), fun ha hb hs => invalid (fadd_of_opposite_infs nan ha hb hs),
    fun ha hb hs => invalid (fsub_of_equal_infs nan ha hb hs), fun ha hb => invalid (fdiv_of_infs nan ha hb),
    fun ha hb => ?zeroTimesInf, fun ha hb => invalid (fdiv_of_zeros nan ha hb), fun ha h0 hb => ?zeroDivisor,
    fun h => invalid (fsqrt_of_neg nan h), fun hn => ?delivered⟩
  case zeroTimesInf =>
    rw [fmul_comm nan b a, and_self]
    exact invalid (fmul_of_zero_inf nan ha hb)
  case zeroDivisor =>
    rw [fdiv_of_zero_divisor nan ha h0 hb]
    exact ⟨isInf_pack _, sign_pack _ (by decide)⟩
  case delivered =>
    exact ⟨(fadd_deliversNaN nan a b).eq hn, (fadd_deliversNaN nan a (fneg b)).eq hn, (fmul_deliversNaN nan a b).eq hn,
      (fdiv_deliversNaN nan a b).eq hn, (fsqrt_deliversNaN nan a).eq hn⟩

end Sys2Proof.Machine.F32
